-- ==== Sys2Proof/Word.lean ====
section
/-! DEFINITION. The word types of the KV9400 (05_number_formats.md R90) and nothing else. -/

namespace Sys2Proof

/-- One byte of memory or scratchpad. -/
abbrev Byte := BitVec 8
/-- A 16-bit element: half of a packed pair, a BF16 or FP16 pattern. -/
abbrev Half := BitVec 16
/-- A 32-bit register. -/
abbrev Word := BitVec 32
/-- A 64-bit operand: an even register and the next (R72). -/
abbrev DWord := BitVec 64
/-- A 512-bit dirty-sector signature (R184). -/
abbrev Sig := BitVec 512

/-- Lay a list of bytes out little-endian as one number (R5). -/
def leNat : List Byte → Nat
  | [] => 0
  | b :: bs => b.toNat + 256 * leNat bs

/-- The low `n` bytes of a number, little-endian (R5). -/
def leBytes : Nat → Nat → List Byte
  | 0, _ => []
  | n + 1, x => BitVec.ofNat 8 x :: leBytes n (x / 256)

end Sys2Proof
end

