-- ==== Sys2Proof/Syntax.lean ====
section
/-! DEFINITION. The instructions and steps of the KV9400: one constructor of `Instr` for each row of
spec/opcode_table.json. The 146 Farom instructions (04_encoding_and_opcode_map.md R83) carry their
operands as the encoding names them; the 97 other rows are steps of the agents around the cores, and
carry the agent and the object they act on. -/

namespace Sys2Proof

/-! ## Operands and control fields (R70 to R73) -/

/-- The register file an operand field names (R72). -/
inductive Cls where
  | v | k | x | w
  deriving DecidableEq, Repr

/-- An operand field: class and index (R72). -/
structure Opnd where
  cls : Cls
  idx : Byte
  deriving DecidableEq, Repr

/-- The kind of an immediate B (R73). -/
inductive Imk where
  | s8 | n8 | e4m3
  deriving DecidableEq, Repr

/-- Operand B: a register or an immediate (R73). -/
inductive Src where
  | reg (o : Opnd)
  | imm (k : Imk) (val : Byte)
  deriving DecidableEq, Repr

/-- Guard conditions (R53, R115). -/
inductive Cond where
  | al | eq | ne | lt | ge | gt | le | lo | hs | hi | ls | mi | pl | vs | vc | od
  deriving DecidableEq, Repr

/-- The control fields of the base word (R71) with the guard (R115). -/
structure Ctl where
  stall : BitVec 4
  yld : Bool
  idm : Bool
  gcc : BitVec 2
  cond : Cond
  deriving DecidableEq, Repr

/-- Integer TYPE (R74). -/
inductive IType where
  | s32 | n32 | s64 | n64
  deriving DecidableEq, Repr

/-- Rounding modes (R75, R95). -/
inductive Rm where
  | rn | rz | ru | rd | rna
  deriving DecidableEq, Repr

/-- Conversion formats (R152). -/
inductive Fmt where
  | s8 | n8 | s16 | n16 | s32 | n32 | s64 | n64 | fp32 | fp16 | bf16 | e4m3 | e5m2
  deriving DecidableEq, Repr

/-- VB4 code types (R98). -/
inductive VbType where
  | uint | e2m1 | p2 | hyb
  deriving DecidableEq, Repr

/-- Cross-lane segments (R159). -/
inductive Seg where
  | s64 | s32 | s16 | s8 | s4
  deriving DecidableEq, Repr

/-- Access sizes (R200). -/
inductive Size where
  | b8 | b16 | b32 | b64 | b128
  deriving DecidableEq, Repr

/-- Atomic sub-operations (R208). -/
inductive AOp where
  | add | min | max | and | or | xor | exch | cas | fadd | inc | dec
  deriving DecidableEq, Repr

/-- Cache hints (R80, R181). -/
inductive Hint where
  | norm | nalloc | byp | evf
  deriving DecidableEq, Repr

/-! ## Operand records, one for each form -/

/-- Forms without operands. -/
structure PlainOp where
  ctl : Ctl
  deriving DecidableEq, Repr

/-- Forms whose only operand is an n8 immediate: TRAP, BRK, TXABT, PFENCE, FILLX. -/
structure ImmOp where
  ctl : Ctl
  n : Byte
  deriving DecidableEq, Repr

/-- BRA (R79): `fprio` is FPRIO when F = 1. -/
structure BraOp where
  ctl : Ctl
  fprio : Option Byte
  tprio : Byte
  disp : BitVec 24
  deriving DecidableEq, Repr

/-- CALL (R262). -/
structure CallOp where
  ctl : Ctl
  fprio : Option Byte
  tprio : Byte
  disp : BitVec 24
  d : Opnd
  deriving DecidableEq, Repr

/-- BRX (R261). -/
structure BrxOp where
  ctl : Ctl
  a : Opnd
  b : Src
  deriving DecidableEq, Repr

/-- Forms with the one operand A: RET, SPAWN, TBREL. -/
structure OneOp where
  ctl : Ctl
  a : Opnd
  deriving DecidableEq, Repr

/-- SWITCH (R82): key count and the eight keys. -/
structure SwitchOp where
  ctl : Ctl
  a : Opnd
  n : BitVec 4
  keys : DWord
  deriving DecidableEq, Repr

/-- TOKW (R271): `target` is none for ALL = 1. -/
structure TokwOp where
  ctl : Ctl
  flag : Option (BitVec 2)
  target : Option Opnd
  deriving DecidableEq, Repr

/-- Forms with A, B and C and nothing else: SPAWNR, TBINIT. -/
structure AbcOp where
  ctl : Ctl
  a : Opnd
  b : Src
  c : Opnd
  deriving DecidableEq, Repr

/-- BARA and BARAW (R329). -/
structure BarOp where
  ctl : Ctl
  id : BitVec 6
  wave : Bool
  count : Src
  deriving DecidableEq, Repr

/-- TBARR and TBEXP (R329). -/
structure TbOp where
  ctl : Ctl
  cv : Bool
  a : Opnd
  b : Src
  deriving DecidableEq, Repr

/-- Forms with A and B and nothing else: TBWAIT, TLRREG. -/
structure AbOp where
  ctl : Ctl
  a : Opnd
  b : Src
  deriving DecidableEq, Repr

/-- The forms of rows 0x2, 0x3 and 0x4 (R74, R125, R128). `flag` is CCD when F = 1. -/
structure IntOp where
  ctl : Ctl
  flag : Option (BitVec 2)
  sub : BitVec 5
  sat : Bool
  ty : IType
  d : Opnd
  a : Opnd
  b : Src
  c : Opnd
  deriving DecidableEq, Repr

/-- The forms of row 0x5 (R75, R142). For FFMA, `rm` lies in E-ALU. -/
structure FltOp where
  ctl : Ctl
  flag : Option (BitVec 2)
  absB : Bool
  absA : Bool
  negB : Bool
  negA : Bool
  sat : Bool
  rm : Rm
  d : Opnd
  a : Opnd
  b : Src
  c : Opnd
  negC : Bool
  absC : Bool
  deriving DecidableEq, Repr

/-- The forms of row 0x6 and PACK2 (R76, R149, R154). -/
structure HalfOp where
  ctl : Ctl
  flag : Option (BitVec 2)
  fp16 : Bool
  absA : Bool
  negB : Bool
  negA : Bool
  sat : Bool
  rm : Rm
  d : Opnd
  a : Opnd
  b : Src
  c : Opnd
  negC : Bool
  absC : Bool
  deriving DecidableEq, Repr

/-- CVT (R152). -/
structure CvtOp where
  ctl : Ctl
  dst : Fmt
  src : Fmt
  sat : Bool
  rm : Rm
  el : BitVec 2
  d : Opnd
  a : Opnd
  deriving DecidableEq, Repr

/-- QNTB (R155). -/
structure QntbOp where
  ctl : Ctl
  ty : VbType
  p2 : Bool
  d : Opnd
  a : Opnd
  b : Opnd
  c : Opnd
  deriving DecidableEq, Repr

/-- Destination formats of DQNT (R156). -/
inductive DFmt where
  | fp32 | bf16 | fp16
  deriving DecidableEq, Repr

/-- DQNT (R156). -/
structure DqntOp where
  ctl : Ctl
  dfmt : DFmt
  n : BitVec 3
  d : Opnd
  a : Opnd
  b : Opnd
  deriving DecidableEq, Repr

/-- SCLW (R157): `val` reads a scale word, else one is made. -/
structure SclwOp where
  ctl : Ctl
  val : Bool
  ty : VbType
  rm : Rm
  d : Opnd
  a : Opnd
  deriving DecidableEq, Repr

/-- SHFL modes (R160). -/
inductive ShMode where
  | idx | up | down | xor
  deriving DecidableEq, Repr

/-- SHFL (R160, R162). -/
structure ShflOp where
  ctl : Ctl
  flag : Option (BitVec 2)
  seg : Seg
  w64 : Bool
  mode : ShMode
  d : Opnd
  a : Opnd
  b : Src
  c : Opnd
  deriving DecidableEq, Repr

/-- QEXCH modes (R160, R163). -/
inductive QMode where
  | h | v | d | b0 | b1 | b2 | b3
  deriving DecidableEq, Repr

/-- QEXCH (R163). -/
structure QexchOp where
  ctl : Ctl
  w64 : Bool
  mode : QMode
  d : Opnd
  a : Opnd
  deriving DecidableEq, Repr

/-- QDER (R164). -/
structure QderOp where
  ctl : Ctl
  coarse : Bool
  yAxis : Bool
  d : Opnd
  a : Opnd
  deriving DecidableEq, Repr

/-- VOTE modes (R165). -/
inductive VMode where
  | all | any | ballot
  deriving DecidableEq, Repr

/-- VOTE (R165). -/
structure VoteOp where
  ctl : Ctl
  flag : Option (BitVec 2)
  seg : Seg
  mode : VMode
  d : Opnd
  a : Opnd
  deriving DecidableEq, Repr

/-- MATCH (R166). -/
structure MatchOp where
  ctl : Ctl
  flag : Option (BitVec 2)
  seg : Seg
  w64 : Bool
  d : Opnd
  a : Opnd
  deriving DecidableEq, Repr

/-- REDUX and SCAN operations (R168). -/
inductive ROp where
  | add | min | max | and | or | xor
  deriving DecidableEq, Repr

/-- REDUX and SCAN (R168). -/
structure ReduxOp where
  ctl : Ctl
  flt : Bool
  seg : Seg
  op : ROp
  ty : IType
  rm : Rm
  excl : Bool
  d : Opnd
  a : Opnd
  deriving DecidableEq, Repr

/-- ELECT (R167): `d` is none when FN[0] = 0. -/
structure ElectOp where
  ctl : Ctl
  ccd : BitVec 2
  seg : Seg
  d : Option Opnd
  deriving DecidableEq, Repr

/-- LANEW (R169). -/
structure LanewOp where
  ctl : Ctl
  d : Opnd
  a : Opnd
  b : Src
  deriving DecidableEq, Repr

/-- The E-MEM forms of rows 0x9 and 0xA, and FST (R80, R200, R202, R245). -/
structure MemOp where
  ctl : Ctl
  flag : Option (BitVec 2)
  op : AOp
  sgn : Bool
  size : Size
  d : Opnd
  a : Opnd
  b : Opnd
  idx : Bool
  sh : BitVec 2
  hint : Hint
  off : Byte
  c : Opnd
  deriving DecidableEq, Repr

/-- TXEND (R213). -/
structure TxendOp where
  ctl : Ctl
  flag : Option (BitVec 2)
  deriving DecidableEq, Repr

/-- The E-ASYNC forms of rows 0xB to 0xE (R81, R219, R224, R286, R295, R307, R316). -/
structure AsyncOp where
  ctl : Ctl
  op : AOp
  sgn : Bool
  size : Size
  d : Opnd
  a : Opnd
  b : Src
  e : Opnd
  f : Opnd
  imm8b : Byte
  spec : BitVec 11
  gpar : Bool
  gate : Bool
  wbe : Bool
  wbslot : BitVec 7
  cmode : Bool
  compl : Opnd
  deriving DecidableEq, Repr

/-- TLRDEL (R285). -/
structure TlrdelOp where
  ctl : Ctl
  b : Src
  deriving DecidableEq, Repr

/-- MXTOK (R300). -/
structure MxtokOp where
  ctl : Ctl
  d : Opnd
  deriving DecidableEq, Repr

/-- GRVINV (R248). -/
structure GrvinvOp where
  ctl : Ctl
  all : Bool
  a : Opnd
  b : Src
  deriving DecidableEq, Repr

/-- Scopes of ATLBINV (R321). -/
inductive InvScope where
  | page | asid | all
  deriving DecidableEq, Repr

/-- ATLBINV (R321). -/
structure AtlbinvOp where
  ctl : Ctl
  scope : InvScope
  a : Opnd
  b : Opnd
  deriving DecidableEq, Repr

/-! ## What the event rows name -/

/-- The unit a performance counter counts in (R343). -/
inductive CtrUnit where
  | core (n : Nat) (asid : BitVec 16)
  | slice (n : Nat)
  | device
  deriving DecidableEq, Repr

/-- Switchboard registers with no row of their own (R370, R371, R324). -/
inductive BoardReg where
  | desc | slot | owner | period
  | allotment (entry : Nat) (word : Nat)
  deriving DecidableEq, Repr

/-- The error logs of R375. -/
inductive LogSel where
  | array (die : Nat)
  | bus (channel : Nat)
  | gddr
  deriving DecidableEq, Repr

/-- A Swegohel flit as the receiver sees it after FEC and CRC (R384). -/
structure Flit where
  ty : BitVec 4
  seq : BitVec 12
  dest : BitVec 2
  reserved : BitVec 14
  credits : BitVec 16
  payload : List Byte
  deriving DecidableEq, Repr

/-- What the front end of a link found when a flit arrived (R384). -/
structure FlitCheck where
  byteErrors : Nat
  crcOk : Bool
  deriving DecidableEq, Repr

/-- Programmed timing of one display output (R388, R393). -/
structure Timing where
  pixelClockKHz : Nat
  refreshMilliHz : Nat
  blanking : Nat
  deriving DecidableEq, Repr

/-- What firmware writes over I2C or GPIO (R393). -/
inductive SideWrite where
  | i2c (bus : Nat) (address : Nat) (value : Byte)
  | gpio (bit : Nat) (value : Bool)
  deriving DecidableEq, Repr

/-- What PROGKEY does to a key slot (R391). -/
inductive KeyAct where
  | program (key : List Byte)
  | revoke
  deriving DecidableEq, Repr

/-- What a flash write does (R393). -/
inductive FlashAct where
  | erase (block : Nat)
  | write (offset : Nat) (bytes : List Byte)
  | close
  deriving DecidableEq, Repr

/-- A write or message of a downstream PCIe device (R382). -/
inductive DownAct where
  | mem (asid : BitVec 16) (va : DWord) (bytes : List Byte)
  | msi (line : Nat)
  deriving DecidableEq, Repr

/-- An RV64 or host access to device memory (R17, R382). -/
inductive ClientAct where
  | read (va : DWord) (n : Nat)
  | write (va : DWord) (bytes : List Byte)
  deriving DecidableEq, Repr

/-- A store to COMMAND: the RV64 core that makes it and the context slot it names (R370). -/
structure BoardStore where
  core : Nat
  slot : Nat
  deriving DecidableEq, Repr

/-! ## The rows of the opcode table -/

/-- One constructor for each row of spec/opcode_table.json, in the table's order. -/
inductive Instr where
  -- row 0x0
  | nop (x : PlainOp) | bra (x : BraOp) | brx (x : BrxOp) | call (x : CallOp) | ret (x : OneOp)
  | switch (x : SwitchOp) | exit (x : PlainOp) | trap (x : ImmOp) | brk (x : ImmOp)
  | yield (x : PlainOp) | eret (x : PlainOp) | isync (x : PlainOp) | tokw (x : TokwOp)
  -- row 0x1
  | spawn (x : OneOp) | spawnr (x : AbcOp) | await (x : PlainOp) | frame (x : PlainOp)
  | bara (x : BarOp) | barw (x : PlainOp) | baraw (x : BarOp) | tbinit (x : AbcOp)
  | tbarr (x : TbOp) | tbexp (x : TbOp) | tbwait (x : AbOp) | tbrel (x : OneOp)
  -- row 0x2
  | iadd (x : IntOp) | isub (x : IntOp) | imul (x : IntOp) | imulh (x : IntOp) | imad (x : IntOp)
  | iaddc (x : IntOp) | isubb (x : IntOp) | ineg (x : IntOp) | iabs (x : IntOp)
  | imin (x : IntOp) | imax (x : IntOp) | icmp (x : IntOp) | lea (x : IntOp) | idot4 (x : IntOp)
  -- row 0x3
  | and (x : IntOp) | or (x : IntOp) | xor (x : IntOp) | andn (x : IntOp) | not (x : IntOp)
  | shl (x : IntOp) | shr (x : IntOp) | sar (x : IntOp) | rol (x : IntOp) | bfe (x : IntOp)
  | bfi (x : IntOp) | popc (x : IntOp) | clz (x : IntOp) | ctz (x : IntOp) | brev (x : IntOp)
  | prmt (x : IntOp)
  -- row 0x4
  | mov (x : IntOp) | sel (x : IntOp) | movsr (x : IntOp) | movsw (x : IntOp) | ccrd (x : IntOp)
  | ccwr (x : IntOp) | cctst (x : IntOp) | wldc (x : IntOp) | xacq (x : IntOp) | xrel (x : IntOp)
  -- row 0x5
  | fadd (x : FltOp) | fsub (x : FltOp) | fmul (x : FltOp) | ffma (x : FltOp) | fmin (x : FltOp)
  | fmax (x : FltOp) | fcmp (x : FltOp) | frnd (x : FltOp) | fspec (x : FltOp) | fcls (x : FltOp)
  | fscl (x : FltOp)
  -- row 0x6
  | hadd2 (x : HalfOp) | hmul2 (x : HalfOp) | hfma2 (x : HalfOp) | hmin2 (x : HalfOp)
  | hmax2 (x : HalfOp) | hcmp2 (x : HalfOp) | hdot2 (x : HalfOp)
  -- row 0x7
  | cvt (x : CvtOp) | pack2 (x : HalfOp) | qntb (x : QntbOp) | dqnt (x : DqntOp) | sclw (x : SclwOp)
  -- row 0x8
  | shfl (x : ShflOp) | qexch (x : QexchOp) | qder (x : QderOp) | vote (x : VoteOp)
  | matchv (x : MatchOp) | redux (x : ReduxOp) | scan (x : ReduxOp) | elect (x : ElectOp)
  | lanew (x : LanewOp)
  -- row 0x9
  | ld (x : MemOp) | st (x : MemOp) | ldpf (x : MemOp) | atom (x : MemOp) | red (x : MemOp)
  | txbeg (x : PlainOp) | txend (x : TxendOp) | txabt (x : ImmOp) | pfence (x : ImmOp)
  | afence (x : PlainOp) | cwb (x : MemOp) | cinv (x : MemOp) | icinv (x : MemOp)
  -- row 0xA
  | lds (x : MemOp) | sts (x : MemOp) | atoms (x : MemOp) | ldc (x : MemOp) | ldv (x : MemOp)
  | stv (x : MemOp)
  -- row 0xB
  | mred (x : AsyncOp) | mcas (x : AsyncOp) | msac (x : AsyncOp) | gathm (x : AsyncOp)
  | scatm (x : AsyncOp)
  -- row 0xC
  | cpy (x : AsyncOp) | tcpy (x : AsyncOp) | tlrreg (x : AbOp) | tlrdel (x : TlrdelOp)
  -- row 0xD
  | mxlds (x : AsyncOp) | mxswp (x : PlainOp) | mxmul (x : AsyncOp) | mxrd (x : AsyncOp)
  | mxzero (x : AsyncOp) | mxlda (x : AsyncOp) | opfence (x : PlainOp) | mxtok (x : MxtokOp)
  -- row 0xE
  | rayq (x : AsyncOp) | beamq (x : AsyncOp) | smp (x : AsyncOp) | smpl (x : AsyncOp)
  | smpg (x : AsyncOp) | gth4 (x : AsyncOp) | tld (x : AsyncOp) | ist (x : AsyncOp)
  -- row 0xF
  | fst (x : MemOp) | fillc (x : PlainOp) | fillx (x : ImmOp) | grvinv (x : GrvinvOp)
  | atlbinv (x : AtlbinvOp)
  -- steps of the core around the instructions
  /-- A raised trap of the wave is delivered (R352, R355). -/
  | trapDelivery (gid wave : Nat)
  /-- An entry whose age count reached 1024 takes the next issue (R27). -/
  | forcedIssue (gid wave : Nat)
  /-- The wave's extended block becomes drowsy (R111). -/
  | registerDrowsy (gid wave : Nat)
  /-- The head request of a laneset's XACQ FIFO is granted (R110). -/
  | xacqGrant (core laneset : Nat)
  /-- Request n of a laneset's XACQ FIFO has waited 1 ms (R110). -/
  | xacqTimeout (core laneset n : Nat)
  /-- All registers awaiting refresh of the wave are loaded (R112). -/
  | backgroundRefresh (gid wave : Nat)
  /-- The oldest outstanding load of the wave returns (R204, R354). -/
  | loadReturn (gid wave : Nat)
  /-- A page walk for the core returns (R175). -/
  | attributeTlbFill (core : Nat) (asid : BitVec 16) (va : DWord)
  /-- A line missing in the LLC is translated and filled (R177, R178). -/
  | llcMiss (asid : BitVec 16) (va : DWord)
  /-- Grove request n misses in the LLC; the victim store is probed (R235). -/
  | groveMiss (n : Nat)
  /-- The victim-store probe of grove request n returns (R235). -/
  | victimStoreProbeResult (n : Nat)
  /-- Refused grove request n tries again (R237). -/
  | waystationRetry (n : Nat)
  /-- Waystation ws publishes its granule (R246). -/
  | granulePublished (ws : Nat)
  /-- The first waiting exclusive consignment of the context opens (R214). -/
  | exclusiveConsignmentGrant (asid : BitVec 16)
  /-- The hub of a convoy places the head record of its spawn queue (R49). -/
  | hubPlacement (convoy : Nat)
  /-- A core places the head of its fill queue of a level (R50). -/
  | fillTaskPlacement (core level : Nat)
  /-- The Depot moves the oldest entry of a ring into its hardware queue (R255). -/
  | depotRefill (asid : BitVec 16) (ring : Nat)
  /-- A group whose threads have exited completes (R42). -/
  | taskCompletion (gid : Nat)
  /-- A parked group whose frame count is zero resumes (R44). -/
  | continuationResume (gid : Nat)
  /-- A gated command may run: of the Porter queue at index n, or the matrix head (R280). -/
  | gatedCommandRelease (matrix : Bool) (core n : Nat)
  /-- The Porter writes the next sector of request n (R290). -/
  | porterSectorWrite (core n : Nat)
  /-- Porter request n ends and its status is written (R290). -/
  | porterCommandCompletion (core n : Nat)
  /-- The matrix engine executes its head command (R294). -/
  | matrixCommandExecute (core : Nat)
  /-- Bank-side command n finishes (R223). -/
  | bankCommandCompletion (n : Nat)
  /-- The ray engine runs the RAYQ at the head of its queue (R308). -/
  | rayQueryExecute (core : Nat)
  /-- The ray engine runs the BEAMQ at the head of its queue (R312). -/
  | beamQueryExecute (core : Nat)
  /-- A counter wraps (R345). -/
  | counterWrap (unit : CtrUnit) (n : Nat)
  -- switchboard and front ends
  | map (slot : BoardStore) (desc : Nat)
  | unmap (slot : BoardStore)
  | switchContext (slot : BoardStore) (desc : Nat)
  | switchboardRegisterWrite (reg : BoardReg) (value : Nat)
  | atlbinvSwitchboard (scope : InvScope) (asid : BitVec 16) (va : DWord)
  | writeIndexObserved (q : Nat)
  | packetNop (q : Nat)
  | launch (q : Nat)
  | heldLaunchResume (q : Nat)
  | prologueRun (q : Nat)
  | write (q : Nat)
  | signal (q : Nat)
  | wait (q : Nat)
  | waitSatisfied (q : Nat)
  | writeSignal (q : Nat)
  | packetPfence (q : Nat)
  | groveInv (q : Nat)
  -- debug window
  | debugHalt (asid : BitVec 16) (core : Nat) (byGid : Option Nat)
  | debugResume (asid : BitVec 16) (core : Nat)
  | debugArmBrk (asid : BitVec 16) (core : Nat)
  | debugDisarmBrk (asid : BitVec 16) (core : Nat)
  | debugThreadWrite (asid : BitVec 16) (core : Nat) (value : DWord)
  | debugRegisterWrite (asid : BitVec 16) (core : Nat) (off : Nat) (value : DWord) (byWave : Option (Nat × Nat))
  | counterCtlWrite (unit : CtrUnit) (n : Nat) (value : DWord)
  | debugWindowWrite (asid : BitVec 16) (off : Nat) (value : DWord)
  | allotmentPeriodBoundary
  -- stacked memory and GDDR 7
  | dramWordRead (word : Nat)
  | correctiveWrite (n : Nat)
  | patrolScrub (word : Nat)
  | verticalBusParityFailure (channel : Nat) (groups : Byte) (toDies : Bool) (failedRetries : Nat)
      (wires : List (BitVec 9)) (lastOk : Bool)
  | channelTrainingComplete (channel : Nat) (failing : List (BitVec 9))
  | gddrCrcMismatch (device : Nat) (toDies : Bool) (failedRetries : Nat) (retrainOk lastOk : Bool)
  -- links and the collective engine
  | flitReceive (port : Nat) (check : FlitCheck) (flit : Flit)
  | remoteWriteArrival (pa : Nat) (bytes : List Byte)
  | collectiveDoorbell (slot : Nat) (va : DWord)
  | collectiveCompletion (n : Nat) (others : List (Half × Byte × List Word))
  -- host, Hedgerow, firmware, power
  | bar2Access (act : ClientAct)
  | hostMemoryWrite (addr : Nat) (bytes : List Byte)
  | windowRevocation (n : Nat)
  | thermalTrip
  | flashWrite (slot : Nat) (act : FlashAct)
  | scanoutUnderflow (out : Nat) (pixel : Nat)
  | coldReset
  | warmReset
  | recoveryMailboxImage (image : List Byte)
  | progkey (slot : Nat) (act : KeyAct)
  | liveUpdate (image : List Byte)
  | watchdogExpiry
  | d3hot
  | d3cold
  | clockGate (core : Nat)
  | powerGate (core : Nat)
  | clockFrequencyChange (mhz : Nat)
  | getVersion (req : List Byte)
  | getCapabilities (req : List Byte)
  | negotiateAlgorithms (req : List Byte)
  | getDigests (req : List Byte)
  | getCertificate (req : List Byte)
  | challenge (req : List Byte)
  | getMeasurements (req : List Byte)
  | linkTraining (ok0 ok1 : Bool) (d n : Nat)
  | remoteReadRequest (asker : Nat) (pa : Nat) (n : Nat)
  | downstreamDeviceWrite (act : DownAct)
  | rv64ClientAccess (core : Nat) (asid : BitVec 16) (act : ClientAct)
  | d3hotExit
  | contextEnd (asid : BitVec 16)
  | errorLogClear (log : LogSel)
  | displayTimingWrite (out : Nat) (t : Timing)
  | voltageCurrentRequest (milliVolt milliAmp : Nat)
  | i2cGpioWrite (w : SideWrite)
  deriving DecidableEq, Repr

end Sys2Proof
end

