-- ==== Sys2Proof/WellFormed.lean ====
section
/-! DEFINITION. Well-formed instructions: the settings each opcode allows (R77, R81, R82, R125, R128, R142,
R149, R152 to R157, R160, R168, R202, R219, R224, R229, R245 to R248, R258, R278, R286, R295, R307, R316,
R321, R329). A reserved operand field is zero. An encoding outside these settings raises
ILLEGAL_INSTRUCTION (R86, order 3); operand classes and indices are checked later (order 5). -/

namespace Sys2Proof

/-- An operand field of zeros: what a reserved field holds. -/
def Opnd.zero : Opnd := ⟨.v, 0⟩
/-- A reserved operand field (R72). -/
def Opnd.unused (o : Opnd) : Bool := o == Opnd.zero
/-- A reserved B with IMB = 0. -/
def Src.unused (b : Src) : Bool := b == .reg Opnd.zero
/-- B is a register. -/
def Src.isReg : Src → Bool
  | .reg _ => true
  | .imm _ _ => false
/-- B is a register or an s8 or n8 immediate (R73). -/
def Src.intOk : Src → Bool
  | .imm .e4m3 _ => false
  | _ => true
/-- B is a register or an n8 immediate (R73). -/
def Src.n8Ok : Src → Bool
  | .reg _ => true
  | .imm k _ => k == .n8
/-- B is a register or an e4m3 immediate (R140). -/
def Src.fltOk : Src → Bool
  | .reg _ => true
  | .imm k _ => k == .e4m3
/-- B is an n8 immediate. -/
def Src.isN8 : Src → Bool
  | .imm .n8 _ => true
  | _ => false

/-- What the F column of a settings table allows. -/
inductive FRule where
  | opt | one | zero
  deriving DecidableEq, Repr

/-- The F column met by a flag field. -/
def FRule.ok : FRule → Option (BitVec 2) → Bool
  | .opt, _ => true
  | .one, f => f.isSome
  | .zero, f => f.isNone

/-! ## Row 0x0 and 0x1 (R258, R329) -/

/-- SWITCH (R82): n from 1 to 8, keys at and beyond n zero. -/
def SwitchOp.wf (x : SwitchOp) : Bool :=
  1 ≤ x.n.toNat && x.n.toNat ≤ 8 && decide (x.keys.toNat < 2 ^ (8 * x.n.toNat))
/-- TOKW with ALL = 1 has no operand; F = 0 needs nothing more (R258). -/
def TokwOp.wf (_ : TokwOp) : Bool := true
/-- FILLX codes end at 0xEF (R247). -/
def fillxWf (x : ImmOp) : Bool := decide (x.n.toNat ≤ 0xEF)
/-- BARA and BARAW (R329): for ID 0 no count; the count of other ids is a register or n8. -/
def BarOp.wf (x : BarOp) : Bool :=
  if x.id == 0 then x.count.unused else x.count.n8Ok

/-! ## Rows 0x2 to 0x4 (R125, R128) -/

/-- One row of the table of R128. -/
structure IntRule where
  ty : IType → Bool
  sat : Bool
  sub : BitVec 5 → Bool
  f : FRule
  d : Bool
  a : Bool
  b : Src → Bool
  c : Bool

/-- Every TYPE. -/
def tyAll (_ : IType) : Bool := true
/-- TYPE 00 only. -/
def ty00 (t : IType) : Bool := t == .s32
/-- SUB all zero. -/
def sub0 (s : BitVec 5) : Bool := s == 0
/-- SUB[1:0] free, the rest zero. -/
def sub2 (s : BitVec 5) : Bool := s.toNat < 4
/-- SUB[3:0] free, SUB[4] zero. -/
def sub4 (s : BitVec 5) : Bool := s.toNat < 16

/-- An instruction setting meets its row of R128. -/
def IntOp.meets (x : IntOp) (r : IntRule) : Bool :=
  r.ty x.ty && (r.sat || !x.sat) && r.sub x.sub && r.f.ok x.flag && (r.d || x.d.unused)
    && (r.a || x.a.unused) && r.b x.b && (r.c || x.c.unused)

/-- Two sources, one destination. -/
def ruleDab (sat : Bool) : IntRule := ⟨tyAll, sat, sub0, .opt, true, true, Src.intOk, false⟩
/-- One source, one destination. -/
def ruleDa (sat : Bool) : IntRule := ⟨tyAll, sat, sub0, .opt, true, true, Src.unused, false⟩
def ruleImad : IntRule := { ruleDab true with c := true }
def ruleCarry : IntRule := { ruleDab true with sub := sub2 }
def ruleIcmp : IntRule := { ruleDab false with f := .one, d := false }
def ruleLea : IntRule := { ruleDab false with ty := fun t => t == .s64 || t == .n64, sub := sub2 }
def ruleIdot4 : IntRule :=
  { ruleDab true with ty := fun t => t == .s32 || t == .n32, sub := sub2, c := true }
/-- BFE and BFI take B from a register (R125, R131). -/
def ruleBfe : IntRule := { ruleDab false with b := Src.isReg }
def ruleBfi : IntRule := { ruleBfe with c := true }
def rulePrmt : IntRule := { ruleDab false with ty := ty00, c := true }
def ruleSel : IntRule := { ruleDab false with sub := sub4 }
def ruleMovsr : IntRule := ⟨ty00, false, sub0, .zero, true, false, Src.isN8, false⟩
def ruleMovsw : IntRule := ⟨ty00, false, sub0, .zero, false, true, Src.isN8, false⟩
def ruleCcrd : IntRule := ⟨ty00, false, sub2, .zero, true, false, Src.unused, false⟩
def ruleCcwr : IntRule := ⟨ty00, false, sub0, .one, false, true, Src.unused, false⟩
def ruleCctst : IntRule := ⟨ty00, false, sub4, .opt, true, false, Src.unused, false⟩
/-- WLDC takes a W register or an n8 immediate for B (R137). -/
def ruleWldc : IntRule := ⟨tyAll, false, sub0, .zero, true, true, Src.n8Ok, false⟩
def ruleXrel : IntRule := ⟨ty00, false, sub0, .zero, false, false, Src.unused, false⟩
def ruleXacq : IntRule := ⟨ty00, false, sub2, .opt, false, false, Src.unused, false⟩

/-- MOV: with an immediate A is reserved, without one B is (R133). -/
def movWf (x : IntOp) : Bool :=
  x.sub == 0 && !x.sat && x.c.unused && match x.b with
    | .reg o => o.unused
    | .imm k _ => k != .e4m3 && x.a.unused
/-- XACQ: F = 1 exactly with `.try` (R138). -/
def xacqWf (x : IntOp) : Bool := x.meets ruleXacq && (x.flag.isSome == x.sub.getLsbD 1)

/-! ## Rows 0x5 to 0x7 (R140, R142, R149, R152 to R157) -/

/-- One row of the table of R142; `negs` is 0 for none, 1 for A only, 2 for A and B. -/
structure FltRule where
  rm : Bool
  sat : Bool
  negs : Nat
  f : FRule
  d : Bool
  b : Src → Bool
  c : Bool

/-- A setting meets its row of R142. -/
def FltOp.meets (x : FltOp) (r : FltRule) : Bool :=
  (r.rm || x.rm == .rn) && (r.sat || !x.sat)
    && (decide (1 ≤ r.negs) || (!x.negA && !x.absA)) && (decide (2 ≤ r.negs) || (!x.negB && !x.absB))
    && r.f.ok x.flag && (r.d || x.d.unused) && r.b x.b
    && (r.c || (x.c.unused && !x.negC && !x.absC))

def ruleFadd : FltRule := ⟨true, true, 2, .opt, true, Src.fltOk, false⟩
def ruleFfma : FltRule := { ruleFadd with c := true }
def ruleFmin : FltRule := { ruleFadd with rm := false }
def ruleFcmp : FltRule := { ruleFmin with sat := false, f := .one, d := false }
def ruleFrnd : FltRule := ⟨true, true, 1, .opt, true, Src.unused, false⟩
def ruleFcls : FltRule := { ruleFrnd with rm := false, sat := false, f := .zero }
def ruleFscl : FltRule := { ruleFrnd with b := Src.intOk }
/-- FSPEC functions 0 to 6 (R148). -/
def specB : Src → Bool
  | .imm .n8 v => decide (v.toNat ≤ 6)
  | _ => false
def ruleFspec : FltRule := { ruleFrnd with b := specB }

/-- A setting meets its row of R149 or R154; an immediate B is one of e4m3, PACK2's too (log 91, DEDUCED). -/
def HalfOp.meets (x : HalfOp) (rm sat : Bool) (f : FRule) (c : Bool) : Bool :=
  (rm || x.rm == .rn) && (sat || !x.sat) && f.ok x.flag && x.b.fltOk
    && (c || (x.c.unused && !x.negC && !x.absC))

/-- Integer formats of CVT. -/
def Fmt.isInt : Fmt → Bool
  | .s8 | .n8 | .s16 | .n16 | .s32 | .n32 | .s64 | .n64 => true
  | _ => false
/-- Width in bits of a conversion format (R152). -/
def Fmt.bits : Fmt → Nat
  | .s8 | .n8 | .e4m3 | .e5m2 => 8
  | .s16 | .n16 | .fp16 | .bf16 => 16
  | .s32 | .n32 | .fp32 => 32
  | .s64 | .n64 => 64
/-- The element number fits the source width (R152). -/
def Fmt.elOk (f : Fmt) (j : BitVec 2) : Bool := decide (j.toNat = 0 ∨ (j.toNat + 1) * f.bits ≤ 32)
/-- CVT (R152). -/
def CvtOp.wf (x : CvtOp) : Bool :=
  x.src.elOk x.el && (x.rm == .rn || !(x.src.isInt && x.dst.isInt))
    && !(x.sat && !x.src.isInt && x.dst.isInt)
/-- DQNT: n is even in the pair forms (R156). -/
def DqntOp.wf (x : DqntOp) : Bool := x.dfmt == .fp32 || !x.n.getLsbD 0
/-- SCLW.val has TYPE and RM zero (R157). -/
def SclwOp.wf (x : SclwOp) : Bool := !x.val || (x.ty == .uint && x.rm == .rn)

/-! ## Row 0x8 (R160, R168) -/

/-- SHFL takes a register or an n8 immediate for B (R160). -/
def ShflOp.wf (x : ShflOp) : Bool := x.b.n8Ok
/-- VOTE: F = 1 and no destination for all and any (R160). -/
def VoteOp.wf (x : VoteOp) : Bool := x.mode == .ballot || (x.flag.isSome && x.d.unused)
/-- REDUX and SCAN (R160, R168). -/
def ReduxOp.wf (x : ReduxOp) (scan : Bool) : Bool :=
  (x.rm == .rn || (x.flt && x.op == .add)) && (scan || !x.excl)
    && (!x.flt || (x.ty == .s32 && (x.op == .add || x.op == .min || x.op == .max)))
/-- LANEW takes a register or an n8 immediate for B (R160). -/
def LanewOp.wf (x : LanewOp) : Bool := x.b.n8Ok

/-! ## Rows 0x9, 0xA and FST (R200, R202, R208, R245) -/

/-- Address operand fields of E-MEM: B and SH are reserved when IDX = 0 (R80). -/
def MemOp.addrWf (x : MemOp) : Bool := x.idx || (x.b.unused && x.sh == 0)
/-- SGN of a load: sizes 8 and 16 only (R200). -/
def MemOp.loadSgn (x : MemOp) : Bool := !x.sgn || x.size == .b8 || x.size == .b16
/-- The sizes and SGN of an atomic sub-operation (R208). -/
def AOp.ok (op : AOp) (sgn : Bool) (size : Size) : Bool :=
  (match op with
    | .fadd | .inc | .dec => size == .b32
    | _ => size == .b32 || size == .b64)
  && (!sgn || op == .min || op == .max)

/-- A load: LD, LDS, LDC, LDV. -/
def MemOp.loadWf (x : MemOp) (hint : Bool) : Bool :=
  x.addrWf && x.flag.isNone && x.op == .add && x.loadSgn && x.c.unused && (hint || x.hint == .norm)
/-- LDC has sizes 32 to 128 (R202). -/
def ldcWf (x : MemOp) : Bool := x.loadWf false && x.size != .b8 && x.size != .b16
/-- A store: ST, STS, STV, FST. -/
def MemOp.storeWf (x : MemOp) (hint : Bool) : Bool :=
  x.addrWf && x.flag.isNone && x.op == .add && !x.sgn && x.d.unused && (hint || x.hint == .norm)
/-- An address-only form: LDPF, CWB, CINV, ICINV. -/
def MemOp.lineWf (x : MemOp) (hint : Bool) : Bool :=
  x.addrWf && x.flag.isNone && x.op == .add && !x.sgn && x.size == .b8 && x.d.unused && x.c.unused
    && (hint || x.hint == .norm)
/-- ATOM and ATOMS: F with CAS only. -/
def MemOp.atomWf (x : MemOp) (hint : Bool) : Bool :=
  x.addrWf && x.op.ok x.sgn x.size && (x.flag.isNone || x.op == .cas) && (hint || x.hint == .norm)
/-- RED: no exch, no cas, no D. -/
def redWf (x : MemOp) : Bool :=
  x.addrWf && x.op.ok x.sgn x.size && x.op != .exch && x.op != .cas && x.flag.isNone && x.d.unused
/-- PFENCE: bits 1 to 4 of the path mask (R215). -/
def pfenceWf (x : ImmOp) : Bool := x.n &&& 0xE1 == 0

/-! ## Rows 0xB to 0xE (R81, R219, R224, R278, R286, R295, R307, R316) -/

/-- GPAR is reserved without GATE; WBSLOT without WBE (R81). -/
def AsyncOp.ctlWf (x : AsyncOp) : Bool := (x.gate || !x.gpar) && (x.wbe || x.wbslot == 0)
/-- F holds the gate, or is reserved without one (R81). -/
def AsyncOp.gateF (x : AsyncOp) : Bool := x.gate || x.f.unused
/-- FN = 0. -/
def AsyncOp.fn0 (x : AsyncOp) : Bool := x.op == .add && !x.sgn && x.size == .b8
/-- Row 0xB: CMODE, WBE and SPEC are 0 (R219). -/
def AsyncOp.rowB (x : AsyncOp) : Bool := x.ctlWf && !x.cmode && !x.wbe && x.spec == 0
/-- Per-thread forms have a V or K operand (R219). -/
def Opnd.perThread (o : Opnd) : Bool := o.cls != .w
def mredWf (x : AsyncOp) : Bool :=
  x.rowB && x.op.ok x.sgn x.size
    && (match x.op with | .add | .min | .max | .and | .or | .xor | .fadd => true | _ => false)
    && x.d.unused && x.e.unused && x.imm8b == 0 && x.gateF
    && (match x.b with | .reg _ => true | .imm k _ => (k == .e4m3) == (x.op == .fadd))
    && (!x.gate || (!x.a.perThread && match x.b with | .reg o => !o.perThread | .imm _ _ => true))
def mcasWf (x : AsyncOp) : Bool :=
  x.rowB && x.op == .add && !x.sgn && (x.size == .b32 || x.size == .b64) && x.b.isReg
    && x.imm8b == 0 && x.gateF
    && (!x.gate || (!x.a.perThread && !x.d.perThread && !x.e.perThread
      && match x.b with | .reg o => !o.perThread | .imm _ _ => true))
def msacWf (x : AsyncOp) : Bool :=
  x.rowB && x.fn0 && !x.gate && x.d.unused && x.b.isReg && x.imm8b == 0
def gathmWf (x : AsyncOp) : Bool :=
  x.rowB && x.fn0 && !x.gate && x.d.unused && x.b.isReg
    && decide (2 ≤ x.imm8b.toNat ∧ x.imm8b.toNat ≤ 6)
/-- CPY and TCPY share this: SPEC[86:85] only, D with CMODE 1 only (R279, R286). -/
def AsyncOp.rowC (x : AsyncOp) : Bool :=
  x.ctlWf && x.fn0 && x.gateF && decide (x.spec.toNat < 4) && (x.cmode || x.d.unused) && x.b.isReg
def cpyWf (x : AsyncOp) : Bool := x.rowC && x.imm8b == 0
def tcpyWf (x : AsyncOp) : Bool := x.rowC && x.b.unused
/-- The L-format matrix commands: SPEC[88:85] only; without TE no COMPL; CMODE 0 (R279, R295). -/
def AsyncOp.rowD (x : AsyncOp) (wbe : Bool) : Bool :=
  x.ctlWf && x.fn0 && x.gateF && decide (x.spec.toNat < 16) && !x.cmode && x.d.unused && x.b.isReg
    && (wbe || !x.wbe) && (x.spec.getLsbD 0 || x.compl.unused)
def mxldsWf (x : AsyncOp) : Bool := x.rowD false && x.e.unused && x.imm8b == 0
def mxmulWf (x : AsyncOp) : Bool := x.rowD true
def mxrdWf (x : AsyncOp) : Bool := x.rowD false
def mxzeroWf (x : AsyncOp) : Bool := x.rowD false && x.a.unused && decide (x.spec.toNat < 2)
/-- Bits [84:64] reserved (R81). -/
def AsyncOp.noCompl (x : AsyncOp) : Bool :=
  !x.gpar && !x.gate && !x.wbe && x.wbslot == 0 && !x.cmode && x.compl.unused
def rayqWf (x : AsyncOp) : Bool :=
  x.noCompl && x.fn0 && x.b.n8Ok && x.f.unused && x.imm8b == 0 && x.spec == 0
def beamqWf (x : AsyncOp) : Bool :=
  x.ctlWf && x.fn0 && x.gateF && !x.cmode && !x.wbe && x.d.unused && x.b.unused && x.e.unused
    && x.imm8b == 0 && x.spec == 0
/-- The sampler forms (R224, R229): whether E and F are used, and the largest IMM8B. -/
def AsyncOp.smpWf (x : AsyncOp) (useE useF : Bool) (immMax : Nat) : Bool :=
  x.noCompl && x.fn0 && x.b.isReg && x.spec == 0 && (useE || x.e.unused) && (useF || x.f.unused)
    && decide (x.imm8b.toNat ≤ immMax)

/-- TLRREG, TBWAIT: B is a register or n8. -/
def AbOp.wf (x : AbOp) : Bool := x.b.n8Ok
/-- GRVINV: B is reserved when ALL = 1 (R248). -/
def GrvinvOp.wf (x : GrvinvOp) : Bool := if x.all then x.b.unused else x.b.n8Ok
/-- ATLBINV: reserved operands by scope (R321). -/
def AtlbinvOp.wf (x : AtlbinvOp) : Bool :=
  match x.scope with
  | .page => true
  | .asid => x.a.unused
  | .all => x.a.unused && x.b.unused

/-- Every setting of the instruction is one its opcode allows. An event row is well formed as it stands. -/
def Instr.wf : Instr → Bool
  | .switch x => x.wf
  | .tokw x => x.wf
  | .brx x => x.b.n8Ok
  | .fillx x => fillxWf x
  | .spawnr x => x.b.n8Ok
  | .tbinit x => x.b.n8Ok
  | .bara x => x.wf
  | .baraw x => x.wf
  | .tbarr x => x.b.n8Ok
  | .tbexp x => x.b.n8Ok
  | .tbwait x => x.wf
  | .iadd x => x.meets (ruleDab true) | .isub x => x.meets (ruleDab true)
  | .imul x => x.meets (ruleDab true) | .imulh x => x.meets (ruleDab false)
  | .imad x => x.meets ruleImad
  | .iaddc x => x.meets ruleCarry | .isubb x => x.meets ruleCarry
  | .ineg x => x.meets (ruleDa true) | .iabs x => x.meets (ruleDa true)
  | .imin x => x.meets (ruleDab false) | .imax x => x.meets (ruleDab false)
  | .icmp x => x.meets ruleIcmp | .lea x => x.meets ruleLea | .idot4 x => x.meets ruleIdot4
  | .and x => x.meets (ruleDab false) | .or x => x.meets (ruleDab false)
  | .xor x => x.meets (ruleDab false) | .andn x => x.meets (ruleDab false)
  | .not x => x.meets (ruleDa false)
  | .shl x => x.meets (ruleDab false) | .shr x => x.meets (ruleDab false)
  | .sar x => x.meets (ruleDab false) | .rol x => x.meets (ruleDab false)
  | .bfe x => x.meets ruleBfe | .bfi x => x.meets ruleBfi
  | .popc x => x.meets (ruleDa false) | .clz x => x.meets (ruleDa false)
  | .ctz x => x.meets (ruleDa false) | .brev x => x.meets (ruleDa false)
  | .prmt x => x.meets rulePrmt
  | .mov x => movWf x | .sel x => x.meets ruleSel
  | .movsr x => x.meets ruleMovsr | .movsw x => x.meets ruleMovsw
  | .ccrd x => x.meets ruleCcrd | .ccwr x => x.meets ruleCcwr | .cctst x => x.meets ruleCctst
  | .wldc x => x.meets ruleWldc | .xacq x => xacqWf x | .xrel x => x.meets ruleXrel
  | .fadd x => x.meets ruleFadd | .fsub x => x.meets ruleFadd | .fmul x => x.meets ruleFadd
  | .ffma x => x.meets ruleFfma | .fmin x => x.meets ruleFmin | .fmax x => x.meets ruleFmin
  | .fcmp x => x.meets ruleFcmp | .frnd x => x.meets ruleFrnd | .fspec x => x.meets ruleFspec
  | .fcls x => x.meets ruleFcls | .fscl x => x.meets ruleFscl
  | .hadd2 x => x.meets true true .zero false | .hmul2 x => x.meets true true .zero false
  | .hfma2 x => x.meets true true .zero true
  | .hmin2 x => x.meets false true .zero false | .hmax2 x => x.meets false true .zero false
  | .hcmp2 x => x.meets false false .opt false
  | .hdot2 x => x.meets true true .zero true
  | .cvt x => x.wf | .pack2 x => x.meets true true .zero false
  | .dqnt x => x.wf | .sclw x => x.wf
  | .shfl x => x.wf | .vote x => x.wf
  | .redux x => x.wf false | .scan x => x.wf true
  | .lanew x => x.wf
  | .ld x => x.loadWf true | .st x => x.storeWf true | .ldpf x => x.lineWf true
  | .atom x => x.atomWf true | .red x => redWf x
  | .pfence x => pfenceWf x
  | .cwb x => x.lineWf false | .cinv x => x.lineWf false | .icinv x => x.lineWf false
  | .lds x => x.loadWf false | .sts x => x.storeWf false | .atoms x => x.atomWf false
  | .ldc x => ldcWf x | .ldv x => x.loadWf false | .stv x => x.storeWf false
  | .mred x => mredWf x | .mcas x => mcasWf x | .msac x => msacWf x
  | .gathm x => gathmWf x | .scatm x => gathmWf x
  | .cpy x => cpyWf x | .tcpy x => tcpyWf x
  | .tlrreg x => x.wf | .tlrdel x => x.b.n8Ok
  | .mxlds x => mxldsWf x | .mxmul x => mxmulWf x | .mxrd x => mxrdWf x
  | .mxzero x => mxzeroWf x | .mxlda x => mxrdWf x
  | .rayq x => rayqWf x | .beamq x => beamqWf x
  | .smp x => x.smpWf true false 0 | .smpl x => x.smpWf true true 0
  | .smpg x => x.smpWf true true 0 | .gth4 x => x.smpWf true true 3
  | .tld x => x.smpWf false true 0 | .ist x => x.smpWf false true 0
  | .fst x => x.storeWf false
  | .grvinv x => x.wf | .atlbinv x => x.wf
  | _ => true

end Sys2Proof
end

