-- ==== Sys2Proof/Decode.lean ====
section
/-! DEFINITION. The encoding of Farom instructions (04_encoding_and_opcode_map.md R68 to R84): the fields of
the base word and the five extension layouts, an encoder for every opcode, and the decoder. The decoder reads
the fields, and accepts only words that are the encoding of a well-formed instruction: any other value of a
field, and any nonzero reserved bit, is ILLEGAL_INSTRUCTION (R77, R86). -/

namespace Sys2Proof

/-- The fields of one instruction: the base word (R70) and the extension bits from [64] up. -/
structure Raw where
  len : Nat
  opc : Nat
  cond : Nat
  gcc : Nat
  stall : Nat
  yld : Nat
  idm : Nat
  ccd : Nat
  d : Nat
  a : Nat
  b : Nat
  imb : Nat
  fn : Nat
  ext : Nat
  deriving DecidableEq, Repr

/-- Why bytes are no instruction (R68, R86). -/
inductive DecodeError where
  /-- LEN = 0b11. -/
  | illegalLength
  /-- Fewer bytes than LEN asks for: only a caller that hands over too few sees this. -/
  | truncated
  /-- ILLEGAL_INSTRUCTION. -/
  | illegalInstruction
  deriving DecidableEq, Repr

/-! ## Bit fields -/

/-- Cut a number into fields of the given widths, the first the least significant. -/
def unpack : List Nat → Nat → List Nat
  | [], _ => []
  | w :: ws, n => n % 2 ^ w :: unpack ws (n / 2 ^ w)
/-- Put fields of the given widths together. -/
def pack : List Nat → List Nat → Nat
  | w :: ws, v :: vs => v + 2 ^ w * pack ws vs
  | _, _ => 0
/-- Field `k` of a number cut by `ws`. -/
def field (ws : List Nat) (n k : Nat) : Nat := (unpack ws n).getD k 0
/-- One bit of a number. -/
def bitOf (n k : Nat) : Bool := n / 2 ^ k % 2 == 1
/-- A Bool as a bit. -/
def b2n (b : Bool) : Nat := if b then 1 else 0

/-- The base word from bit 0 up: LEN OPC COND GCC STALL YLD IDM CCD D A B IMB FN (R70). -/
def baseWidths : List Nat := [2, 8, 4, 2, 4, 1, 1, 2, 10, 10, 10, 1, 9]
/-- E-ALU: C, RM, NEGC, ABSC (R78). -/
def aluWidths : List Nat := [10, 3, 1, 1]
/-- E-CTL: DISP, TPRIO (R79). -/
def ectlWidths : List Nat := [24, 8]
/-- E-MEM: C, OFF8, HINT, SH, IDX (R80). -/
def memWidths : List Nat := [10, 8, 2, 2, 1]
/-- E-ASYNC: COMPL CMODE WBSLOT WBE GATE GPAR SPEC E F IMM8B (R81). -/
def asyncWidths : List Nat := [10, 1, 7, 1, 1, 1, 11, 10, 10, 8]

/-- The length in bytes that LEN gives (R68). -/
def lenBytes : Nat → Nat
  | 0 => 8
  | 1 => 12
  | _ => 16

/-- The fields of an instruction word. -/
def Raw.ofNat (n : Nat) : Raw :=
  match unpack baseWidths n with
  | [len, opc, cond, gcc, stall, yld, idm, ccd, d, a, b, imb, fn] =>
    ⟨len, opc, cond, gcc, stall, yld, idm, ccd, d, a, b, imb, fn, n / 2 ^ 64⟩
  | _ => ⟨0, 0, 0, 0, 0, 0, 0, 0, 0, 0, 0, 0, 0, 0⟩
/-- The instruction word of its fields. -/
def Raw.toNat (r : Raw) : Nat :=
  pack (baseWidths ++ [64])
    [r.len, r.opc, r.cond, r.gcc, r.stall, r.yld, r.idm, r.ccd, r.d, r.a, r.b, r.imb, r.fn, r.ext]

/-! ## Codes of the small types -/

def Cond.code : Cond → Nat
  | .al => 0 | .eq => 1 | .ne => 2 | .lt => 3 | .ge => 4 | .gt => 5 | .le => 6 | .lo => 7
  | .hs => 8 | .hi => 9 | .ls => 10 | .mi => 11 | .pl => 12 | .vs => 13 | .vc => 14 | .od => 15
/-- COND numbers (R53, R115). -/
def condOf : Nat → Cond
  | 0 => .al | 1 => .eq | 2 => .ne | 3 => .lt | 4 => .ge | 5 => .gt | 6 => .le | 7 => .lo
  | 8 => .hs | 9 => .hi | 10 => .ls | 11 => .mi | 12 => .pl | 13 => .vs | 14 => .vc | _ => .od
def Cls.code : Cls → Nat
  | .v => 0 | .k => 1 | .x => 2 | .w => 3
/-- Operand classes (R72). -/
def clsOf : Nat → Cls
  | 0 => .v | 1 => .k | 2 => .x | _ => .w
def Opnd.code (o : Opnd) : Nat := o.idx.toNat + 256 * o.cls.code
/-- An operand field (R72). -/
def opndOf (n : Nat) : Opnd := ⟨clsOf (n / 256), BitVec.ofNat 8 n⟩
def Imk.code : Imk → Nat
  | .s8 => 0 | .n8 => 1 | .e4m3 => 2
/-- The B field and IMB (R70, R73). -/
def Src.code : Src → Nat × Nat
  | .reg o => (o.code, 0)
  | .imm k v => (v.toNat + 256 * k.code, 1)
/-- Operand B; IMK = 0b11 is ILLEGAL_INSTRUCTION (R73). -/
def srcOf (r : Raw) : Option Src :=
  if r.imb = 0 then some (.reg (opndOf r.b)) else
  match r.b / 256 with
  | 0 => some (.imm .s8 (BitVec.ofNat 8 r.b))
  | 1 => some (.imm .n8 (BitVec.ofNat 8 r.b))
  | 2 => some (.imm .e4m3 (BitVec.ofNat 8 r.b))
  | _ => none
def IType.code : IType → Nat
  | .s32 => 0 | .n32 => 1 | .s64 => 2 | .n64 => 3
def itypeOf : Nat → IType
  | 0 => .s32 | 1 => .n32 | 2 => .s64 | _ => .n64
def Rm.code : Rm → Nat
  | .rn => 0 | .rz => 1 | .ru => 2 | .rd => 3 | .rna => 4
/-- RM codes; 0b101 to 0b111 are illegal (R75). -/
def rmOf : Nat → Option Rm
  | 0 => some .rn | 1 => some .rz | 2 => some .ru | 3 => some .rd | 4 => some .rna | _ => none
def Fmt.code : Fmt → Nat
  | .s8 => 0 | .n8 => 1 | .s16 => 2 | .n16 => 3 | .s32 => 4 | .n32 => 5 | .s64 => 6 | .n64 => 7
  | .fp32 => 8 | .fp16 => 9 | .bf16 => 10 | .e4m3 => 11 | .e5m2 => 12
/-- Format codes; 0xD to 0xF are illegal (R152). -/
def fmtOf : Nat → Option Fmt
  | 0 => some .s8 | 1 => some .n8 | 2 => some .s16 | 3 => some .n16 | 4 => some .s32 | 5 => some .n32
  | 6 => some .s64 | 7 => some .n64 | 8 => some .fp32 | 9 => some .fp16 | 10 => some .bf16
  | 11 => some .e4m3 | 12 => some .e5m2 | _ => none
def VbType.code : VbType → Nat
  | .uint => 0 | .e2m1 => 1 | .p2 => 2 | .hyb => 3
def vbOf : Nat → VbType
  | 0 => .uint | 1 => .e2m1 | 2 => .p2 | _ => .hyb
def Seg.code : Seg → Nat
  | .s64 => 0 | .s32 => 1 | .s16 => 2 | .s8 => 3 | .s4 => 4
/-- SEG codes; 0b101 to 0b111 are illegal (R159). -/
def segOf : Nat → Option Seg
  | 0 => some .s64 | 1 => some .s32 | 2 => some .s16 | 3 => some .s8 | 4 => some .s4 | _ => none
def Size.code : Size → Nat
  | .b8 => 0 | .b16 => 1 | .b32 => 2 | .b64 => 3 | .b128 => 4
/-- SIZE codes; 0b101 to 0b111 are illegal (R200). -/
def sizeOf' : Nat → Option Size
  | 0 => some .b8 | 1 => some .b16 | 2 => some .b32 | 3 => some .b64 | 4 => some .b128 | _ => none
def AOp.code : AOp → Nat
  | .add => 0 | .min => 1 | .max => 2 | .and => 3 | .or => 4 | .xor => 5 | .exch => 6 | .cas => 7
  | .fadd => 8 | .inc => 9 | .dec => 10
/-- OP codes; 11 to 15 are illegal (R208). -/
def aopOf : Nat → Option AOp
  | 0 => some .add | 1 => some .min | 2 => some .max | 3 => some .and | 4 => some .or | 5 => some .xor
  | 6 => some .exch | 7 => some .cas | 8 => some .fadd | 9 => some .inc | 10 => some .dec | _ => none
def Hint.code : Hint → Nat
  | .norm => 0 | .nalloc => 1 | .byp => 2 | .evf => 3
def hintOf : Nat → Hint
  | 0 => .norm | 1 => .nalloc | 2 => .byp | _ => .evf
def DFmt.code : DFmt → Nat
  | .fp32 => 0 | .bf16 => 1 | .fp16 => 2
def dfmtOf : Nat → Option DFmt
  | 0 => some .fp32 | 1 => some .bf16 | 2 => some .fp16 | _ => none
def ShMode.code : ShMode → Nat
  | .idx => 0 | .up => 1 | .down => 2 | .xor => 3
def shModeOf : Nat → ShMode
  | 0 => .idx | 1 => .up | 2 => .down | _ => .xor
def QMode.code : QMode → Nat
  | .h => 1 | .v => 2 | .d => 3 | .b0 => 4 | .b1 => 5 | .b2 => 6 | .b3 => 7
def qModeOf : Nat → Option QMode
  | 1 => some .h | 2 => some .v | 3 => some .d | 4 => some .b0 | 5 => some .b1 | 6 => some .b2
  | 7 => some .b3 | _ => none
def VMode.code : VMode → Nat
  | .all => 0 | .any => 1 | .ballot => 2
def vModeOf : Nat → Option VMode
  | 0 => some .all | 1 => some .any | 2 => some .ballot | _ => none
def ROp.code : ROp → Nat
  | .add => 0 | .min => 1 | .max => 2 | .and => 3 | .or => 4 | .xor => 5
def rOpOf : Nat → Option ROp
  | 0 => some .add | 1 => some .min | 2 => some .max | 3 => some .and | 4 => some .or | 5 => some .xor
  | _ => none
def InvScope.code : InvScope → Nat
  | .page => 0 | .asid => 1 | .all => 2
def invScopeOf : Nat → Option InvScope
  | 0 => some .page | 1 => some .asid | 2 => some .all | _ => none

/-- F of a flag field. -/
def fBit (f : Option (BitVec 2)) : Nat := b2n f.isSome
/-- CCD of a flag field: 0 when F = 0 (R71). -/
def ccdOf (f : Option (BitVec 2)) : Nat := (f.getD 0).toNat
/-- The flag field of F = FN[8] and CCD. -/
def flagOf (r : Raw) : Option (BitVec 2) := if bitOf r.fn 8 then some (BitVec.ofNat 2 r.ccd) else none

/-- The control fields (R71, R115). -/
def ctlOf (r : Raw) : Ctl :=
  ⟨BitVec.ofNat 4 r.stall, r.yld == 1, r.idm == 1, BitVec.ofNat 2 r.gcc, condOf r.cond⟩

/-- Base word fields of an encoding: length, opcode, control, CCD, D, A, B and FN. -/
def mk (len opc : Nat) (c : Ctl) (ccd d a : Nat) (b : Nat × Nat) (fn ext : Nat) : Raw :=
  ⟨len, opc, c.cond.code, c.gcc.toNat, c.stall.toNat, b2n c.yld, b2n c.idm, ccd, d, a, b.1, b.2, fn, ext⟩
/-- A reserved B field. -/
def bz : Nat × Nat := (0, 0)
/-- An n8 immediate in the B field. -/
def bn8 (v : Nat) : Nat × Nat := (256 + v, 1)

/-! ## One encoder and one reader for each form -/

def ePlain (len opc : Nat) (x : PlainOp) : Raw := mk len opc x.ctl 0 0 0 bz 0 0
def dPlain (r : Raw) : Option PlainOp := some ⟨ctlOf r⟩

def eImm (len opc : Nat) (x : ImmOp) : Raw := mk len opc x.ctl 0 0 0 (bn8 x.n.toNat) 0 0
def dImm (r : Raw) : Option ImmOp := some ⟨ctlOf r, BitVec.ofNat 8 r.b⟩

/-- F and FPRIO of BRA and CALL (R77, R79). -/
def fprioFn (p : Option Byte) : Nat := (p.getD 0).toNat + 256 * b2n p.isSome
def fprioOf (r : Raw) : Option Byte := if bitOf r.fn 8 then some (BitVec.ofNat 8 r.fn) else none
def eBra (len opc : Nat) (x : BraOp) : Raw :=
  mk len opc x.ctl 0 0 0 bz (fprioFn x.fprio) (pack ectlWidths [x.disp.toNat, x.tprio.toNat])
def dBra (r : Raw) : Option BraOp :=
  some ⟨ctlOf r, fprioOf r, BitVec.ofNat 8 (field ectlWidths r.ext 1), BitVec.ofNat 24 r.ext⟩
def eCall (len opc : Nat) (x : CallOp) : Raw :=
  mk len opc x.ctl 0 x.d.code 0 bz (fprioFn x.fprio) (pack ectlWidths [x.disp.toNat, x.tprio.toNat])
def dCall (r : Raw) : Option CallOp :=
  some ⟨ctlOf r, fprioOf r, BitVec.ofNat 8 (field ectlWidths r.ext 1), BitVec.ofNat 24 r.ext, opndOf r.d⟩
def eBrx (len opc : Nat) (x : BrxOp) : Raw := mk len opc x.ctl 0 0 x.a.code x.b.code 0 0
def dBrx (r : Raw) : Option BrxOp := (srcOf r).map fun b => ⟨ctlOf r, opndOf r.a, b⟩
def eOne (len opc : Nat) (x : OneOp) : Raw := mk len opc x.ctl 0 0 x.a.code bz 0 0
def dOne (r : Raw) : Option OneOp := some ⟨ctlOf r, opndOf r.a⟩
/-- SWITCH (R82): the key count is FN[3:0], the keys are the extension. -/
def eSwitch (len opc : Nat) (x : SwitchOp) : Raw :=
  mk len opc x.ctl 0 0 x.a.code bz x.n.toNat x.keys.toNat
def dSwitch (r : Raw) : Option SwitchOp :=
  some ⟨ctlOf r, opndOf r.a, BitVec.ofNat 4 r.fn, BitVec.ofNat 64 r.ext⟩
def eTokw (len opc : Nat) (x : TokwOp) : Raw :=
  mk len opc x.ctl (ccdOf x.flag) 0 ((x.target.map Opnd.code).getD 0) bz
    (b2n x.target.isNone + 256 * fBit x.flag) 0
def dTokw (r : Raw) : Option TokwOp :=
  some ⟨ctlOf r, flagOf r, if bitOf r.fn 0 then none else some (opndOf r.a)⟩
def eAbc (len opc : Nat) (x : AbcOp) : Raw := mk len opc x.ctl 0 0 x.a.code x.b.code 0 x.c.code
def dAbc (r : Raw) : Option AbcOp :=
  (srcOf r).map fun b => ⟨ctlOf r, opndOf r.a, b, opndOf (field aluWidths r.ext 0)⟩
def eBar (len opc : Nat) (x : BarOp) : Raw :=
  mk len opc x.ctl 0 0 0 x.count.code (x.id.toNat + 64 * b2n x.wave) 0
def dBar (r : Raw) : Option BarOp :=
  (srcOf r).map fun b => ⟨ctlOf r, BitVec.ofNat 6 r.fn, bitOf r.fn 6, b⟩
def eTb (len opc : Nat) (x : TbOp) : Raw := mk len opc x.ctl 0 0 x.a.code x.b.code (b2n x.cv) 0
def dTb (r : Raw) : Option TbOp := (srcOf r).map fun b => ⟨ctlOf r, bitOf r.fn 0, opndOf r.a, b⟩
def eAb (len opc : Nat) (x : AbOp) : Raw := mk len opc x.ctl 0 0 x.a.code x.b.code 0 0
def dAb (r : Raw) : Option AbOp := (srcOf r).map fun b => ⟨ctlOf r, opndOf r.a, b⟩

/-- The integer layout F SUB SAT TYPE (R74), with C of E-ALU in the 96-bit opcodes. -/
def eInt (len opc : Nat) (x : IntOp) : Raw :=
  mk len opc x.ctl (ccdOf x.flag) x.d.code x.a.code x.b.code
    (pack [2, 1, 5, 1] [x.ty.code, b2n x.sat, x.sub.toNat, fBit x.flag]) x.c.code
def dInt (r : Raw) : Option IntOp :=
  (srcOf r).map fun b =>
    ⟨ctlOf r, flagOf r, BitVec.ofNat 5 (r.fn / 8), bitOf r.fn 2, itypeOf (r.fn % 4),
      opndOf r.d, opndOf r.a, b, opndOf (field aluWidths r.ext 0)⟩

/-- RM lies in FN[2:0], or in E-ALU for the three-source forms (R75, R76, R78). -/
def rmField (e : Bool) (r : Raw) : Nat := if e then field aluWidths r.ext 1 else r.fn % 8
def eFlt (len opc : Nat) (e : Bool) (x : FltOp) : Raw :=
  mk len opc x.ctl (ccdOf x.flag) x.d.code x.a.code x.b.code
    (pack [3, 1, 1, 1, 1, 1, 1] [if e then 0 else x.rm.code, b2n x.sat, b2n x.negA, b2n x.negB,
      b2n x.absA, b2n x.absB, fBit x.flag])
    (pack aluWidths [x.c.code, if e then x.rm.code else 0, b2n x.negC, b2n x.absC])
def dFlt (e : Bool) (r : Raw) : Option FltOp := do
  let b ← srcOf r
  let rm ← rmOf (rmField e r)
  return ⟨ctlOf r, flagOf r, bitOf r.fn 7, bitOf r.fn 6, bitOf r.fn 5, bitOf r.fn 4, bitOf r.fn 3, rm,
    opndOf r.d, opndOf r.a, b, opndOf (field aluWidths r.ext 0), bitOf r.ext 13, bitOf r.ext 14⟩
def eHalf (len opc : Nat) (e : Bool) (x : HalfOp) : Raw :=
  mk len opc x.ctl (ccdOf x.flag) x.d.code x.a.code x.b.code
    (pack [3, 1, 1, 1, 1, 1, 1] [if e then 0 else x.rm.code, b2n x.sat, b2n x.negA, b2n x.negB,
      b2n x.absA, b2n x.fp16, fBit x.flag])
    (pack aluWidths [x.c.code, if e then x.rm.code else 0, b2n x.negC, b2n x.absC])
def dHalf (e : Bool) (r : Raw) : Option HalfOp := do
  let b ← srcOf r
  let rm ← rmOf (rmField e r)
  return ⟨ctlOf r, flagOf r, bitOf r.fn 7, bitOf r.fn 6, bitOf r.fn 5, bitOf r.fn 4, bitOf r.fn 3, rm,
    opndOf r.d, opndOf r.a, b, opndOf (field aluWidths r.ext 0), bitOf r.ext 13, bitOf r.ext 14⟩

/-- CVT (R152): the source format and element lie in the immediate. -/
def eCvt (len opc : Nat) (x : CvtOp) : Raw :=
  mk len opc x.ctl 0 x.d.code x.a.code (bn8 (x.src.code + 16 * x.el.toNat))
    (pack [3, 1, 4] [x.rm.code, b2n x.sat, x.dst.code]) 0
def dCvt (r : Raw) : Option CvtOp := do
  let rm ← rmOf (r.fn % 8)
  let dst ← fmtOf (r.fn / 16 % 16)
  let src ← fmtOf (r.b % 16)
  return ⟨ctlOf r, dst, src, bitOf r.fn 3, rm, BitVec.ofNat 2 (r.b / 16), opndOf r.d, opndOf r.a⟩
def eQntb (len opc : Nat) (x : QntbOp) : Raw :=
  mk len opc x.ctl 0 x.d.code x.a.code (x.b.code, 0) (x.ty.code + 8 * b2n x.p2) x.c.code
def dQntb (r : Raw) : Option QntbOp :=
  some ⟨ctlOf r, vbOf (r.fn % 4), bitOf r.fn 3, opndOf r.d, opndOf r.a, opndOf r.b,
    opndOf (field aluWidths r.ext 0)⟩
def eDqnt (len opc : Nat) (x : DqntOp) : Raw :=
  mk len opc x.ctl 0 x.d.code x.a.code (x.b.code, 0) (8 * x.n.toNat + 64 * x.dfmt.code) 0
def dDqnt (r : Raw) : Option DqntOp :=
  (dfmtOf (r.fn / 64 % 4)).map fun f =>
    ⟨ctlOf r, f, BitVec.ofNat 3 (r.fn / 8), opndOf r.d, opndOf r.a, opndOf r.b⟩
def eSclw (len opc : Nat) (x : SclwOp) : Raw :=
  mk len opc x.ctl 0 x.d.code x.a.code bz (pack [3, 1, 2] [x.rm.code, b2n x.val, x.ty.code]) 0
def dSclw (r : Raw) : Option SclwOp :=
  (rmOf (r.fn % 8)).map fun rm =>
    ⟨ctlOf r, bitOf r.fn 3, vbOf (r.fn / 16 % 4), rm, opndOf r.d, opndOf r.a⟩

/-- Row 0x8 (R160): FN[8] F or FLT, FN[7:5] SEG. -/
def eShfl (len opc : Nat) (x : ShflOp) : Raw :=
  mk len opc x.ctl (ccdOf x.flag) x.d.code x.a.code x.b.code
    (pack [2, 1, 2, 3, 1] [x.mode.code, b2n x.w64, 0, x.seg.code, fBit x.flag]) x.c.code
def dShfl (r : Raw) : Option ShflOp := do
  let b ← srcOf r
  let seg ← segOf (r.fn / 32 % 8)
  return ⟨ctlOf r, flagOf r, seg, bitOf r.fn 2, shModeOf (r.fn % 4), opndOf r.d, opndOf r.a, b,
    opndOf (field aluWidths r.ext 0)⟩
def eQexch (len opc : Nat) (x : QexchOp) : Raw :=
  mk len opc x.ctl 0 x.d.code x.a.code bz (x.mode.code + 8 * b2n x.w64) 0
def dQexch (r : Raw) : Option QexchOp :=
  (qModeOf (r.fn % 8)).map fun m => ⟨ctlOf r, bitOf r.fn 3, m, opndOf r.d, opndOf r.a⟩
def eQder (len opc : Nat) (x : QderOp) : Raw :=
  mk len opc x.ctl 0 x.d.code x.a.code bz (b2n x.yAxis + 2 * b2n x.coarse) 0
def dQder (r : Raw) : Option QderOp :=
  some ⟨ctlOf r, bitOf r.fn 1, bitOf r.fn 0, opndOf r.d, opndOf r.a⟩
def eVote (len opc : Nat) (x : VoteOp) : Raw :=
  mk len opc x.ctl (ccdOf x.flag) x.d.code x.a.code bz
    (pack [5, 3, 1] [x.mode.code, x.seg.code, fBit x.flag]) 0
def dVote (r : Raw) : Option VoteOp := do
  let seg ← segOf (r.fn / 32 % 8)
  let m ← vModeOf (r.fn % 4)
  return ⟨ctlOf r, flagOf r, seg, m, opndOf r.d, opndOf r.a⟩
def eMatch (len opc : Nat) (x : MatchOp) : Raw :=
  mk len opc x.ctl (ccdOf x.flag) x.d.code x.a.code bz
    (pack [5, 3, 1] [b2n x.w64, x.seg.code, fBit x.flag]) 0
def dMatch (r : Raw) : Option MatchOp :=
  (segOf (r.fn / 32 % 8)).map fun seg => ⟨ctlOf r, flagOf r, seg, bitOf r.fn 0, opndOf r.d, opndOf r.a⟩
/-- REDUX and SCAN carry RM and EXCL in the immediate (R160). -/
def eRedux (len opc : Nat) (x : ReduxOp) : Raw :=
  mk len opc x.ctl 0 x.d.code x.a.code (bn8 (x.rm.code + 8 * b2n x.excl))
    (pack [2, 3, 3, 1] [x.ty.code, x.op.code, x.seg.code, b2n x.flt]) 0
def dRedux (r : Raw) : Option ReduxOp := do
  let seg ← segOf (r.fn / 32 % 8)
  let op ← rOpOf (r.fn / 4 % 8)
  let rm ← rmOf (r.b % 8)
  return ⟨ctlOf r, bitOf r.fn 8, seg, op, itypeOf (r.fn % 4), rm, bitOf r.b 3, opndOf r.d, opndOf r.a⟩
def eElect (len opc : Nat) (x : ElectOp) : Raw :=
  mk len opc x.ctl x.ccd.toNat ((x.d.map Opnd.code).getD 0) 0 bz
    (pack [5, 3, 1] [b2n x.d.isSome, x.seg.code, 1]) 0
def dElect (r : Raw) : Option ElectOp :=
  (segOf (r.fn / 32 % 8)).map fun seg =>
    ⟨ctlOf r, BitVec.ofNat 2 r.ccd, seg, if bitOf r.fn 0 then some (opndOf r.d) else none⟩
def eLanew (len opc : Nat) (x : LanewOp) : Raw := mk len opc x.ctl 0 x.d.code x.a.code x.b.code 0 0
def dLanew (r : Raw) : Option LanewOp :=
  (srcOf r).map fun b => ⟨ctlOf r, opndOf r.d, opndOf r.a, b⟩

/-- E-MEM forms (R80, R200): FN is F OP SGN SIZE. -/
def eMem (len opc : Nat) (x : MemOp) : Raw :=
  mk len opc x.ctl (ccdOf x.flag) x.d.code x.a.code (x.b.code, 0)
    (pack [3, 1, 4, 1] [x.size.code, b2n x.sgn, x.op.code, fBit x.flag])
    (pack memWidths [x.c.code, x.off.toNat, x.hint.code, x.sh.toNat, b2n x.idx])
def dMem (r : Raw) : Option MemOp := do
  let op ← aopOf (r.fn / 16 % 16)
  let size ← sizeOf' (r.fn % 8)
  return ⟨ctlOf r, flagOf r, op, bitOf r.fn 3, size, opndOf r.d, opndOf r.a, opndOf r.b,
    field memWidths r.ext 4 == 1, BitVec.ofNat 2 (field memWidths r.ext 3),
    hintOf (field memWidths r.ext 2), BitVec.ofNat 8 (field memWidths r.ext 1),
    opndOf (field memWidths r.ext 0)⟩
def eTxend (len opc : Nat) (x : TxendOp) : Raw :=
  mk len opc x.ctl (ccdOf x.flag) 0 0 bz (256 * fBit x.flag) 0
def dTxend (r : Raw) : Option TxendOp := some ⟨ctlOf r, flagOf r⟩

/-- E-ASYNC forms (R81); FN is laid out as in R200 where it is not 0 (R219). -/
def eAsync (len opc : Nat) (x : AsyncOp) : Raw :=
  mk len opc x.ctl 0 x.d.code x.a.code x.b.code
    (pack [3, 1, 4] [x.size.code, b2n x.sgn, x.op.code])
    (pack asyncWidths [x.compl.code, b2n x.cmode, x.wbslot.toNat, b2n x.wbe, b2n x.gate, b2n x.gpar,
      x.spec.toNat, x.e.code, x.f.code, x.imm8b.toNat])
def dAsync (r : Raw) : Option AsyncOp := do
  let b ← srcOf r
  let op ← aopOf (r.fn / 16 % 16)
  let size ← sizeOf' (r.fn % 8)
  let f := field asyncWidths r.ext
  return ⟨ctlOf r, op, bitOf r.fn 3, size, opndOf r.d, opndOf r.a, b, opndOf (f 7), opndOf (f 8),
    BitVec.ofNat 8 (f 9), BitVec.ofNat 11 (f 6), f 5 == 1, f 4 == 1, f 3 == 1, BitVec.ofNat 7 (f 2),
    f 1 == 1, opndOf (f 0)⟩

def eTlrdel (len opc : Nat) (x : TlrdelOp) : Raw := mk len opc x.ctl 0 0 0 x.b.code 0 0
def dTlrdel (r : Raw) : Option TlrdelOp := (srcOf r).map fun b => ⟨ctlOf r, b⟩
def eMxtok (len opc : Nat) (x : MxtokOp) : Raw := mk len opc x.ctl 0 x.d.code 0 bz 0 0
def dMxtok (r : Raw) : Option MxtokOp := some ⟨ctlOf r, opndOf r.d⟩
def eGrvinv (len opc : Nat) (x : GrvinvOp) : Raw :=
  mk len opc x.ctl 0 0 x.a.code x.b.code (b2n x.all) 0
def dGrvinv (r : Raw) : Option GrvinvOp :=
  (srcOf r).map fun b => ⟨ctlOf r, bitOf r.fn 0, opndOf r.a, b⟩
def eAtlbinv (len opc : Nat) (x : AtlbinvOp) : Raw :=
  mk len opc x.ctl 0 0 x.a.code (x.b.code, 0) x.scope.code 0
def dAtlbinv (r : Raw) : Option AtlbinvOp :=
  (invScopeOf (r.fn % 4)).map fun s => ⟨ctlOf r, s, opndOf r.a, opndOf r.b⟩

/-! ## The opcode map (R83) -/

/-- The fields of an instruction as R83 gives them for its opcode. An event row has no words. -/
def Instr.raw : Instr → Option Raw
  | .nop x => some (ePlain 0 0x00 x)
  | .bra x => some (eBra 1 0x01 x)
  | .brx x => some (eBrx 0 0x02 x)
  | .call x => some (eCall 1 0x03 x)
  | .ret x => some (eOne 0 0x04 x)
  | .switch x => some (eSwitch 2 0x05 x)
  | .exit x => some (ePlain 0 0x06 x)
  | .trap x => some (eImm 0 0x07 x)
  | .brk x => some (eImm 0 0x08 x)
  | .yield x => some (ePlain 0 0x09 x)
  | .eret x => some (ePlain 0 0x0A x)
  | .isync x => some (ePlain 0 0x0C x)
  | .tokw x => some (eTokw 0 0x0D x)
  | .spawn x => some (eOne 0 0x10 x)
  | .spawnr x => some (eAbc 1 0x11 x)
  | .await x => some (ePlain 0 0x12 x)
  | .frame x => some (ePlain 0 0x13 x)
  | .bara x => some (eBar 0 0x14 x)
  | .barw x => some (ePlain 0 0x15 x)
  | .baraw x => some (eBar 0 0x16 x)
  | .tbinit x => some (eAbc 1 0x18 x)
  | .tbarr x => some (eTb 0 0x19 x)
  | .tbexp x => some (eTb 0 0x1A x)
  | .tbwait x => some (eAb 0 0x1B x)
  | .tbrel x => some (eOne 0 0x1C x)
  | .iadd x => some (eInt 0 0x20 x)
  | .isub x => some (eInt 0 0x21 x)
  | .imul x => some (eInt 0 0x22 x)
  | .imulh x => some (eInt 0 0x23 x)
  | .imad x => some (eInt 1 0x24 x)
  | .iaddc x => some (eInt 0 0x25 x)
  | .isubb x => some (eInt 0 0x26 x)
  | .ineg x => some (eInt 0 0x27 x)
  | .iabs x => some (eInt 0 0x28 x)
  | .imin x => some (eInt 0 0x29 x)
  | .imax x => some (eInt 0 0x2A x)
  | .icmp x => some (eInt 0 0x2B x)
  | .lea x => some (eInt 0 0x2C x)
  | .idot4 x => some (eInt 1 0x2D x)
  | .and x => some (eInt 0 0x30 x)
  | .or x => some (eInt 0 0x31 x)
  | .xor x => some (eInt 0 0x32 x)
  | .andn x => some (eInt 0 0x33 x)
  | .not x => some (eInt 0 0x34 x)
  | .shl x => some (eInt 0 0x35 x)
  | .shr x => some (eInt 0 0x36 x)
  | .sar x => some (eInt 0 0x37 x)
  | .rol x => some (eInt 0 0x38 x)
  | .bfe x => some (eInt 0 0x39 x)
  | .bfi x => some (eInt 1 0x3A x)
  | .popc x => some (eInt 0 0x3B x)
  | .clz x => some (eInt 0 0x3C x)
  | .ctz x => some (eInt 0 0x3D x)
  | .brev x => some (eInt 0 0x3E x)
  | .prmt x => some (eInt 1 0x3F x)
  | .mov x => some (eInt 0 0x40 x)
  | .sel x => some (eInt 0 0x41 x)
  | .movsr x => some (eInt 0 0x42 x)
  | .movsw x => some (eInt 0 0x43 x)
  | .ccrd x => some (eInt 0 0x44 x)
  | .ccwr x => some (eInt 0 0x45 x)
  | .cctst x => some (eInt 0 0x46 x)
  | .wldc x => some (eInt 0 0x47 x)
  | .xacq x => some (eInt 0 0x48 x)
  | .xrel x => some (eInt 0 0x49 x)
  | .fadd x => some (eFlt 0 0x50 false x)
  | .fsub x => some (eFlt 0 0x51 false x)
  | .fmul x => some (eFlt 0 0x52 false x)
  | .ffma x => some (eFlt 1 0x53 true x)
  | .fmin x => some (eFlt 0 0x54 false x)
  | .fmax x => some (eFlt 0 0x55 false x)
  | .fcmp x => some (eFlt 0 0x56 false x)
  | .frnd x => some (eFlt 0 0x57 false x)
  | .fspec x => some (eFlt 0 0x58 false x)
  | .fcls x => some (eFlt 0 0x59 false x)
  | .fscl x => some (eFlt 0 0x5A false x)
  | .hadd2 x => some (eHalf 0 0x60 false x)
  | .hmul2 x => some (eHalf 0 0x61 false x)
  | .hfma2 x => some (eHalf 1 0x62 true x)
  | .hmin2 x => some (eHalf 0 0x63 false x)
  | .hmax2 x => some (eHalf 0 0x64 false x)
  | .hcmp2 x => some (eHalf 0 0x65 false x)
  | .hdot2 x => some (eHalf 1 0x66 true x)
  | .cvt x => some (eCvt 0 0x70 x)
  | .pack2 x => some (eHalf 0 0x71 false x)
  | .qntb x => some (eQntb 1 0x73 x)
  | .dqnt x => some (eDqnt 0 0x74 x)
  | .sclw x => some (eSclw 0 0x75 x)
  | .shfl x => some (eShfl 1 0x80 x)
  | .qexch x => some (eQexch 0 0x81 x)
  | .qder x => some (eQder 0 0x82 x)
  | .vote x => some (eVote 0 0x83 x)
  | .matchv x => some (eMatch 0 0x84 x)
  | .redux x => some (eRedux 0 0x85 x)
  | .scan x => some (eRedux 0 0x86 x)
  | .elect x => some (eElect 0 0x87 x)
  | .lanew x => some (eLanew 0 0x88 x)
  | .ld x => some (eMem 1 0x90 x)
  | .st x => some (eMem 1 0x91 x)
  | .ldpf x => some (eMem 1 0x92 x)
  | .atom x => some (eMem 1 0x93 x)
  | .red x => some (eMem 1 0x94 x)
  | .txbeg x => some (ePlain 0 0x95 x)
  | .txend x => some (eTxend 0 0x96 x)
  | .txabt x => some (eImm 0 0x97 x)
  | .pfence x => some (eImm 0 0x98 x)
  | .afence x => some (ePlain 0 0x99 x)
  | .cwb x => some (eMem 1 0x9A x)
  | .cinv x => some (eMem 1 0x9B x)
  | .icinv x => some (eMem 1 0x9C x)
  | .lds x => some (eMem 1 0xA0 x)
  | .sts x => some (eMem 1 0xA1 x)
  | .atoms x => some (eMem 1 0xA2 x)
  | .ldc x => some (eMem 1 0xA3 x)
  | .ldv x => some (eMem 1 0xA4 x)
  | .stv x => some (eMem 1 0xA5 x)
  | .mred x => some (eAsync 2 0xB0 x)
  | .mcas x => some (eAsync 2 0xB1 x)
  | .msac x => some (eAsync 2 0xB2 x)
  | .gathm x => some (eAsync 2 0xB3 x)
  | .scatm x => some (eAsync 2 0xB4 x)
  | .cpy x => some (eAsync 2 0xC0 x)
  | .tcpy x => some (eAsync 2 0xC1 x)
  | .tlrreg x => some (eAb 1 0xC2 x)
  | .tlrdel x => some (eTlrdel 0 0xC3 x)
  | .mxlds x => some (eAsync 2 0xD0 x)
  | .mxswp x => some (ePlain 0 0xD1 x)
  | .mxmul x => some (eAsync 2 0xD2 x)
  | .mxrd x => some (eAsync 2 0xD3 x)
  | .mxzero x => some (eAsync 2 0xD4 x)
  | .mxlda x => some (eAsync 2 0xD5 x)
  | .opfence x => some (ePlain 0 0xD6 x)
  | .mxtok x => some (eMxtok 0 0xD7 x)
  | .rayq x => some (eAsync 2 0xE0 x)
  | .beamq x => some (eAsync 2 0xE1 x)
  | .smp x => some (eAsync 2 0xE2 x)
  | .smpl x => some (eAsync 2 0xE3 x)
  | .smpg x => some (eAsync 2 0xE4 x)
  | .gth4 x => some (eAsync 2 0xE5 x)
  | .tld x => some (eAsync 2 0xE6 x)
  | .ist x => some (eAsync 2 0xE7 x)
  | .fst x => some (eMem 1 0xF0 x)
  | .fillc x => some (ePlain 0 0xF1 x)
  | .fillx x => some (eImm 0 0xF2 x)
  | .grvinv x => some (eGrvinv 1 0xF3 x)
  | .atlbinv x => some (eAtlbinv 0 0xF4 x)
  | _ => none

/-- Read the fields by opcode and length (R83). Reserved bits are not looked at here. -/
def parse (r : Raw) : Option Instr :=
  match r.opc, r.len with
  | 0x00, 0 => (dPlain r).map .nop
  | 0x01, 1 => (dBra r).map .bra
  | 0x02, 0 => (dBrx r).map .brx
  | 0x03, 1 => (dCall r).map .call
  | 0x04, 0 => (dOne r).map .ret
  | 0x05, 2 => (dSwitch r).map .switch
  | 0x06, 0 => (dPlain r).map .exit
  | 0x07, 0 => (dImm r).map .trap
  | 0x08, 0 => (dImm r).map .brk
  | 0x09, 0 => (dPlain r).map .yield
  | 0x0A, 0 => (dPlain r).map .eret
  | 0x0C, 0 => (dPlain r).map .isync
  | 0x0D, 0 => (dTokw r).map .tokw
  | 0x10, 0 => (dOne r).map .spawn
  | 0x11, 1 => (dAbc r).map .spawnr
  | 0x12, 0 => (dPlain r).map .await
  | 0x13, 0 => (dPlain r).map .frame
  | 0x14, 0 => (dBar r).map .bara
  | 0x15, 0 => (dPlain r).map .barw
  | 0x16, 0 => (dBar r).map .baraw
  | 0x18, 1 => (dAbc r).map .tbinit
  | 0x19, 0 => (dTb r).map .tbarr
  | 0x1A, 0 => (dTb r).map .tbexp
  | 0x1B, 0 => (dAb r).map .tbwait
  | 0x1C, 0 => (dOne r).map .tbrel
  | 0x20, 0 => (dInt r).map .iadd
  | 0x21, 0 => (dInt r).map .isub
  | 0x22, 0 => (dInt r).map .imul
  | 0x23, 0 => (dInt r).map .imulh
  | 0x24, 1 => (dInt r).map .imad
  | 0x25, 0 => (dInt r).map .iaddc
  | 0x26, 0 => (dInt r).map .isubb
  | 0x27, 0 => (dInt r).map .ineg
  | 0x28, 0 => (dInt r).map .iabs
  | 0x29, 0 => (dInt r).map .imin
  | 0x2A, 0 => (dInt r).map .imax
  | 0x2B, 0 => (dInt r).map .icmp
  | 0x2C, 0 => (dInt r).map .lea
  | 0x2D, 1 => (dInt r).map .idot4
  | 0x30, 0 => (dInt r).map .and
  | 0x31, 0 => (dInt r).map .or
  | 0x32, 0 => (dInt r).map .xor
  | 0x33, 0 => (dInt r).map .andn
  | 0x34, 0 => (dInt r).map .not
  | 0x35, 0 => (dInt r).map .shl
  | 0x36, 0 => (dInt r).map .shr
  | 0x37, 0 => (dInt r).map .sar
  | 0x38, 0 => (dInt r).map .rol
  | 0x39, 0 => (dInt r).map .bfe
  | 0x3A, 1 => (dInt r).map .bfi
  | 0x3B, 0 => (dInt r).map .popc
  | 0x3C, 0 => (dInt r).map .clz
  | 0x3D, 0 => (dInt r).map .ctz
  | 0x3E, 0 => (dInt r).map .brev
  | 0x3F, 1 => (dInt r).map .prmt
  | 0x40, 0 => (dInt r).map .mov
  | 0x41, 0 => (dInt r).map .sel
  | 0x42, 0 => (dInt r).map .movsr
  | 0x43, 0 => (dInt r).map .movsw
  | 0x44, 0 => (dInt r).map .ccrd
  | 0x45, 0 => (dInt r).map .ccwr
  | 0x46, 0 => (dInt r).map .cctst
  | 0x47, 0 => (dInt r).map .wldc
  | 0x48, 0 => (dInt r).map .xacq
  | 0x49, 0 => (dInt r).map .xrel
  | 0x50, 0 => (dFlt false r).map .fadd
  | 0x51, 0 => (dFlt false r).map .fsub
  | 0x52, 0 => (dFlt false r).map .fmul
  | 0x53, 1 => (dFlt true r).map .ffma
  | 0x54, 0 => (dFlt false r).map .fmin
  | 0x55, 0 => (dFlt false r).map .fmax
  | 0x56, 0 => (dFlt false r).map .fcmp
  | 0x57, 0 => (dFlt false r).map .frnd
  | 0x58, 0 => (dFlt false r).map .fspec
  | 0x59, 0 => (dFlt false r).map .fcls
  | 0x5A, 0 => (dFlt false r).map .fscl
  | 0x60, 0 => (dHalf false r).map .hadd2
  | 0x61, 0 => (dHalf false r).map .hmul2
  | 0x62, 1 => (dHalf true r).map .hfma2
  | 0x63, 0 => (dHalf false r).map .hmin2
  | 0x64, 0 => (dHalf false r).map .hmax2
  | 0x65, 0 => (dHalf false r).map .hcmp2
  | 0x66, 1 => (dHalf true r).map .hdot2
  | 0x70, 0 => (dCvt r).map .cvt
  | 0x71, 0 => (dHalf false r).map .pack2
  | 0x73, 1 => (dQntb r).map .qntb
  | 0x74, 0 => (dDqnt r).map .dqnt
  | 0x75, 0 => (dSclw r).map .sclw
  | 0x80, 1 => (dShfl r).map .shfl
  | 0x81, 0 => (dQexch r).map .qexch
  | 0x82, 0 => (dQder r).map .qder
  | 0x83, 0 => (dVote r).map .vote
  | 0x84, 0 => (dMatch r).map .matchv
  | 0x85, 0 => (dRedux r).map .redux
  | 0x86, 0 => (dRedux r).map .scan
  | 0x87, 0 => (dElect r).map .elect
  | 0x88, 0 => (dLanew r).map .lanew
  | 0x90, 1 => (dMem r).map .ld
  | 0x91, 1 => (dMem r).map .st
  | 0x92, 1 => (dMem r).map .ldpf
  | 0x93, 1 => (dMem r).map .atom
  | 0x94, 1 => (dMem r).map .red
  | 0x95, 0 => (dPlain r).map .txbeg
  | 0x96, 0 => (dTxend r).map .txend
  | 0x97, 0 => (dImm r).map .txabt
  | 0x98, 0 => (dImm r).map .pfence
  | 0x99, 0 => (dPlain r).map .afence
  | 0x9A, 1 => (dMem r).map .cwb
  | 0x9B, 1 => (dMem r).map .cinv
  | 0x9C, 1 => (dMem r).map .icinv
  | 0xA0, 1 => (dMem r).map .lds
  | 0xA1, 1 => (dMem r).map .sts
  | 0xA2, 1 => (dMem r).map .atoms
  | 0xA3, 1 => (dMem r).map .ldc
  | 0xA4, 1 => (dMem r).map .ldv
  | 0xA5, 1 => (dMem r).map .stv
  | 0xB0, 2 => (dAsync r).map .mred
  | 0xB1, 2 => (dAsync r).map .mcas
  | 0xB2, 2 => (dAsync r).map .msac
  | 0xB3, 2 => (dAsync r).map .gathm
  | 0xB4, 2 => (dAsync r).map .scatm
  | 0xC0, 2 => (dAsync r).map .cpy
  | 0xC1, 2 => (dAsync r).map .tcpy
  | 0xC2, 1 => (dAb r).map .tlrreg
  | 0xC3, 0 => (dTlrdel r).map .tlrdel
  | 0xD0, 2 => (dAsync r).map .mxlds
  | 0xD1, 0 => (dPlain r).map .mxswp
  | 0xD2, 2 => (dAsync r).map .mxmul
  | 0xD3, 2 => (dAsync r).map .mxrd
  | 0xD4, 2 => (dAsync r).map .mxzero
  | 0xD5, 2 => (dAsync r).map .mxlda
  | 0xD6, 0 => (dPlain r).map .opfence
  | 0xD7, 0 => (dMxtok r).map .mxtok
  | 0xE0, 2 => (dAsync r).map .rayq
  | 0xE1, 2 => (dAsync r).map .beamq
  | 0xE2, 2 => (dAsync r).map .smp
  | 0xE3, 2 => (dAsync r).map .smpl
  | 0xE4, 2 => (dAsync r).map .smpg
  | 0xE5, 2 => (dAsync r).map .gth4
  | 0xE6, 2 => (dAsync r).map .tld
  | 0xE7, 2 => (dAsync r).map .ist
  | 0xF0, 1 => (dMem r).map .fst
  | 0xF1, 0 => (dPlain r).map .fillc
  | 0xF2, 0 => (dImm r).map .fillx
  | 0xF3, 1 => (dGrvinv r).map .grvinv
  | 0xF4, 0 => (dAtlbinv r).map .atlbinv
  | _, _ => none

/-- Decode the fields of one instruction: `none` is ILLEGAL_INSTRUCTION (R77, R83, R84, R86). -/
def decodeRaw (r : Raw) : Option Instr :=
  match parse r with
  | some i => if i.wf && i.raw == some r then some i else none
  | none => none

/-- Decode the instruction at the head of the bytes: the instruction and its length in bytes (R68). -/
def decode (bs : List Byte) : Except DecodeError (Instr × Nat) :=
  match bs with
  | [] => .error .truncated
  | b0 :: _ =>
    if b0.toNat % 4 = 3 then .error .illegalLength else
    let n := lenBytes (b0.toNat % 4)
    if bs.length < n then .error .truncated else
    match decodeRaw (Raw.ofNat (leNat (bs.take n))) with
    | some i => .ok (i, n)
    | none => .error .illegalInstruction

/-- The bytes of an instruction, little-endian (R5, R68). An event row has none. -/
def encode (i : Instr) : List Byte :=
  match i.raw with
  | some r => leBytes (lenBytes r.len) r.toNat
  | none => []

/-- The mnemonic's place: true for the 146 Farom instructions of R83, false for the steps of other agents. -/
def Instr.isFarom (i : Instr) : Bool := i.raw.isSome

/-- Decode a numeral laid out as spec/opcode_table.json numbers bits: bit 0 the lowest bit of the first word.
Bits at and above `nbits` read 0. -/
def decodeTableWord (nbits w : Nat) : Option Instr :=
  match decode (leBytes 16 (w % 2 ^ nbits)) with
  | .ok (i, _) => some i
  | .error _ => none

end Sys2Proof
end

