-- ==== Sys2Proof/Machine/Flags.lean ====
section
/-! DEFINITION. Condition codes: their layout (R114), guards (R115), and the flag rules shared by the integer
and floating instructions (R126, R141). -/

namespace Sys2Proof.Machine

/-- A condition-code value: K S Z C V from bit 4 down (R114). -/
def mkCc (k s z c v : Bool) : BitVec 5 :=
  BitVec.ofBool k ++ BitVec.ofBool s ++ BitVec.ofBool z ++ BitVec.ofBool c ++ BitVec.ofBool v
def ccK (c : BitVec 5) : Bool := c.getLsbD 4
def ccS (c : BitVec 5) : Bool := c.getLsbD 3
def ccZ (c : BitVec 5) : Bool := c.getLsbD 2
def ccC (c : BitVec 5) : Bool := c.getLsbD 1
def ccV (c : BitVec 5) : Bool := c.getLsbD 0

end Sys2Proof.Machine

namespace Sys2Proof
open Sys2Proof.Machine

/-- A guard condition on a condition-code value (R115). -/
def Cond.holds (g : Cond) (x : BitVec 5) : Bool :=
  let s := ccS x
  let z := ccZ x
  let c := ccC x
  let v := ccV x
  if ccK x then
    match g with
    | .al => true
    | .eq => z && !v
    | .ne => !z || v
    | .lt => s && !v
    | .ge => (c || z) && !v
    | .gt => c && !v
    | .le => (s || z) && !v
    | .lo => s || v
    | .hs => c || z || v
    | .hi => c || v
    | .ls => s || z || v
    | .mi => s
    | .pl => !s
    | .vs => v
    | .vc => !v
    | .od => !v
  else
    match g with
    | .al => true
    | .eq => z
    | .ne => !z
    | .lt => s != v
    | .ge => s == v
    | .gt => !z && s == v
    | .le => z || s != v
    | .lo => !c
    | .hs => c
    | .hi => c && !z
    | .ls => !c || z
    | .mi => s
    | .pl => !s
    | .vs => v
    | .vc => !v
    | .od => !s && !z

end Sys2Proof

namespace Sys2Proof.Machine

/-- The condition with a code (SUB[3:0] of SEL and CCTST, R133). -/
def condOfCode (n : Nat) : Cond :=
  match n with
  | 0 => .al | 1 => .eq | 2 => .ne | 3 => .lt | 4 => .ge | 5 => .gt | 6 => .le | 7 => .lo
  | 8 => .hs | 9 => .hi | 10 => .ls | 11 => .mi | 12 => .pl | 13 => .vs | 14 => .vc | _ => .od

/-- Integer flags of a result of width w (R126): K 0, S the top bit, Z the zero test. -/
def intCc (w : Nat) (r : DWord) (c v : Bool) : BitVec 5 :=
  mkCc false (r.getLsbD (w - 1)) (r.toNat % 2 ^ w == 0) c v
/-- The flag value with Z alone, K 0 (R138, R162, R165 to R167, R208, R213, R271). -/
def zCc (z : Bool) : BitVec 5 := mkCc false false z false false

end Sys2Proof.Machine
end

