-- ==== Sys2Proof/Machine/Codes.lean ====
section
/-! DEFINITION. Fault codes (R351) and the numbers of the physical map (R177, R385, R387). -/

namespace Sys2Proof.Machine

namespace Code
def illegalInstruction : Nat := 0x01
def illegalOperand : Nat := 0x02
def illegalLength : Nat := 0x03
def fetchAlign : Nat := 0x04
def priv : Nat := 0x05
def page : Nat := 0x10
def perm : Nat := 0x11
def align : Nat := 0x12
def genWrite : Nat := 0x13
def bankopRange : Nat := 0x14
def genDepth : Nat := 0x18
def genOrder : Nat := 0x19
def genAbort : Nat := 0x1A
def quota : Nat := 0x20
def barrierClobber : Nat := 0x21
def barrierCount : Nat := 0x22
def tokenReuse : Nat := 0x23
def regParity : Nat := 0x30
def xacqTimeout : Nat := 0x31
def scoreboard : Nat := 0x32
def swtrap : Nat := 0x38
def brk : Nat := 0x39
def perfOvf : Nat := 0x3A
def dataUncorrectable : Nat := 0x40
def link : Nat := 0x41
def spawnLimit : Nat := 0x48
def nestedTrap : Nat := 0x50
end Code

/-- End of stacked DRAM, end of GDDR 7 (R177). -/
def dramTop : Nat := 0x1000000000
def gddrTop : Nat := 0x2000000000
/-- Base of the collective pages (R387) and of the remote windows (R385). -/
def collectiveBase : Nat := 0x2000000000
def remoteBase : Nat := 0x10000000000
def remoteStride : Nat := 0x4000000000
def remoteSpan : Nat := 0x2000000000
/-- The device and offset a physical address in a remote window names (R385). -/
def remoteOf (pa : Nat) : Option (Nat × Nat) :=
  if pa < remoteBase then none else
  let d := (pa - remoteBase) / remoteStride
  let p := (pa - remoteBase) % remoteStride
  if d < 4 ∧ p < remoteSpan then some (d, p) else none
/-- The context slot whose collective page holds a physical address (R387). -/
def collectiveOf (pa : Nat) : Option Nat :=
  if collectiveBase ≤ pa ∧ pa < collectiveBase + 0x10000 then some ((pa - collectiveBase) / 0x1000) else none

/-- The home slice of a line (R176). -/
def homeSlice (asid : BitVec 16) (va : Nat) : Nat :=
  let l := va % 2 ^ 48 / 64
  let h := l ^^^ (l >>> 7) ^^^ (l >>> 14) ^^^ (l >>> 21) ^^^ (l >>> 28) ^^^ (l >>> 35)
  let a := asid.toNat
  (h ^^^ a ^^^ (a >>> 7) ^^^ (a >>> 14)) &&& 0x7F

/-- The signature bits of a sector (R184). -/
def sectorSig (va : Nat) : Sig :=
  let a := va % 2 ^ 48 / 32
  let h0 := (a ^^^ (a >>> 9) ^^^ (a >>> 18) ^^^ (a >>> 27) ^^^ (a >>> 36)) &&& 0x1FF
  let h1 := (a ^^^ (a >>> 7) ^^^ (a >>> 23) ^^^ 0x0A5) &&& 0x1FF
  let h2 := ((a >>> 3) ^^^ (a >>> 13) ^^^ (a >>> 31)) &&& 0x1FF
  ((1 : Sig) <<< h0) ||| ((1 : Sig) <<< h1) ||| ((1 : Sig) <<< h2)
/-- A sector is covered by a signature (R184). -/
def covered (s : Sig) (va : Nat) : Bool := s &&& sectorSig va == sectorSig va
/-- The all-ones signature (R187). -/
def sigOnes : Sig := BitVec.allOnes 512
/-- Number of bits set in a signature. -/
def sigCount (s : Sig) : Nat := (List.range 512).foldl (fun a i => if s.getLsbD i then a + 1 else a) 0

end Sys2Proof.Machine
end

