-- ==== Sys2Proof/Config.lean ====
section
/-! DEFINITION. What an implementation of the KV9400 fixes and the spec does not: free values
(log 4, DESIGN CHOICE) and the functions the spec names by a standard outside it (log 13, PRESUMED). Nothing here has a body. -/

namespace Sys2Proof.Config

/-- A free 64-bit value, applied to the counter of State (log 4, DESIGN CHOICE). -/
opaque freeValue : Nat → BitVec 64
/-- The result pattern of FSPEC where the rational enclosure of R148 does not decide the rounding within
the model's working precision (log 15, DESIGN CHOICE); applied to function number, argument and rounding mode code. -/
opaque specResult : Nat → BitVec 32 → Nat → BitVec 32
/-- SHA-384 (R389). (log 13, PRESUMED) -/
opaque sha384 : List Byte → List Byte
/-- ECDSA verification over brainpoolP384r1: public key, message digest, signature (R373, R390; log 13, PRESUMED). -/
opaque ecdsaVerify : List Byte → List Byte → List Byte → Bool
/-- ECDSA signature on NIST P-384 with the key given, of a digest (R392). (log 13, PRESUMED) -/
opaque ecdsaSign : List Byte → List Byte → List Byte
/-- Key derivation of R389 from the unique secret. (log 13, PRESUMED) -/
opaque deriveKey : List Byte → List Byte → List Byte
/-- The device's unique secret, fused at test (R389). -/
opaque uniqueSecret : BitVec 256
/-- The vendor key that key slot 0 is fused with (R389). (log 12, DESIGN CHOICE) -/
opaque vendorKey : BitVec 392
/-- The device's certificate chain for an identity key (R392). (log 13, PRESUMED) -/
opaque certChain : List Byte → List Byte
/-- How a resident OS image is verified, whose format the spec does not give (R390). (log 12, DESIGN CHOICE) -/
opaque osImageOk : List Byte → Bool
/-- The I²C (bus, address) pairs that a front-end image lists (R393). (log 12, DESIGN CHOICE) -/
opaque i2cListed : List Byte → List (Nat × Nat)
/-- The GPIO bits that a front-end image lists (R393). (log 12, DESIGN CHOICE) -/
opaque gpioListed : List Byte → List Nat
/-- The RV64 clusters that a value of OWNER names (R370). (log 10, DESIGN CHOICE) -/
opaque ownerNames : Nat → Nat → Bool
/-- Credits that a port grants its neighbour at training (R384). (log 46, DEDUCED) -/
opaque linkCredits : Nat
/-- The column of the Hsiao H matrix for bit 0 to 71 of a stored word (R376). (log 13, PRESUMED) -/
opaque hsiaoColumn : Nat → BitVec 8
/-- Where the fixed interleaving of R177 puts a stacked DRAM word: die, channel, word within the die (log 13, PRESUMED). -/
opaque dramDie : Nat → Nat
/-- The channel of a stacked DRAM word. (log 13, PRESUMED) -/
opaque dramChannel : Nat → Nat
/-- The place of a stacked DRAM word within its die. (log 13, PRESUMED) -/
opaque dramIndex : Nat → Nat
/-- CRC-32 of a save-area body (R361). (log 13, PRESUMED) -/
opaque crc32 : List Byte → BitVec 32
/-- Body bytes of an SPDM answer beyond those the spec lists (R392): code, request. (log 13, PRESUMED) -/
opaque spdmBody : Nat → List Byte → List Byte
/-- The shortest blanking of the display standard for a pixel clock and a refresh rate (R388). (log 13, PRESUMED) -/
opaque minBlanking : Nat → Nat → Nat

/-- How the caches choose a place, which the spec leaves open (log 6, DESIGN CHOICE): the set of an attribute TLB entry by
its page number, the set of an LLC line in its slice by its name. -/
opaque tlbSet : Nat → Nat
/-- The set of an LLC line in its slice, by its name. (log 6, DESIGN CHOICE) -/
opaque llcSet : Nat → Nat
/-- The controller whose remap filter holds a physical line (R178, R326). (log 6, DESIGN CHOICE) -/
opaque remapController : Nat → Nat
/-- The victim store as the resident OS has set it up in GDDR 7 (R189): the set of a line by its name, the number of sets, the
ways of a set, and the first line it lies in. (log 80, DESIGN CHOICE) -/
opaque victimSet : Nat → Nat
/-- The sets of the victim store. (log 80, DESIGN CHOICE) -/
opaque victimSets : Nat
/-- The ways of a set of the victim store. (log 80, DESIGN CHOICE) -/
opaque victimWays : Nat
/-- The first GDDR 7 line of the victim store. (log 80, DESIGN CHOICE) -/
opaque victimBase : Nat
/-- Beats on GDDR 7 of a transfer of bytes, which are compressed losslessly (R20). (log 42, DESIGN CHOICE) -/
opaque gddrBeats : List Byte → Nat
/-- The bank of a memory word (R177, R188; log 13, PRESUMED). -/
opaque bankOf : Nat → Nat

end Sys2Proof.Config
end

