-- ==== Sys2Proof/Machine/State.lean ====
section
/-! DEFINITION. The state of the KV9400: every item of the inventories R107, R117, R170, R250, R318, R327, R343,
R347, R375 and R389 and of the chapters around them, as plain data, and its value after reset. INVENTORY.md lists
each piece with the rule that names it and its reset value. -/

namespace Sys2Proof.Machine

/-- A table keyed by number: keys strictly rising (Machine/Maps.lean). -/
abbrev Map (α : Type) := List (Nat × α)

/-! ## Threads, waves and groups (02, 06, 15, 19, 21) -/

/-- Whether a lane slot holds a thread (R23, R34). -/
inductive LaneSt where
  | never | live | exited
  deriving DecidableEq, Repr

/-- What a live thread waits for. `grove n` names a grove request; the others are waits of one instruction. -/
inductive Wait where
  | none
  /-- an attribute TLB walk of this page (R175) -/
  | walk (va : Nat)
  /-- the answers to grove requests (R235): those not yet at a waystation, whose threads wait under the scoreboard (R237),
  and those that wait on one, where the threads are parked (R47) -/
  | grove (asked parked : List Nat)
  /-- parked at AWAIT (R276) -/
  | await
  /-- parked at a named barrier phase; BARW clears the arrival record when its wait ends (R332) -/
  | bar (id : BitVec 6) (phase : Nat) (clear : Bool)
  /-- parked at TBWAIT on this slot's phase, whether the thread performed it (R337) -/
  | tbar (slot : Nat) (phase : Nat) (active : Bool)
  /-- a blocking XACQ in the laneset's FIFO (R110) -/
  | xacq
  /-- FILLC until the granule is published (R246) -/
  | fillc
  /-- TXBEG waiting for the exclusive consignment (R214) -/
  | exclusive
  deriving DecidableEq, Repr

/-- The region snapshot of a thread (R119). -/
structure Snap where
  x0 : Word
  x1 : Word
  c0 : BitVec 5
  c1 : BitVec 5
  c2 : BitVec 5
  c3 : BitVec 5
  pc : DWord
  prio : Byte
  deriving DecidableEq, Repr

/-- One lane slot of a wave: a thread, a helper or nothing. -/
structure Lane where
  st : LaneSt
  /-- frontier entry of the thread (R24) -/
  pc : DWord
  prio : Byte
  wait : Wait
  /-- age count of the thread's frontier entry (R27) -/
  age : Nat
  /-- earliest clk of the thread's next issue (R71) -/
  ready : Nat
  /-- latches (R108) -/
  x0 : Word
  x1 : Word
  /-- condition codes (R114) -/
  c0 : BitVec 5
  c1 : BitVec 5
  c2 : BitVec 5
  c3 : BitVec 5
  /-- SR_FPX (R96) -/
  fpx : BitVec 5
  /-- SR_TXCAUSE (R212) -/
  txcause : Word
  /-- consecutive consignment aborts (R212) -/
  txAborts : Nat
  /-- captured high halves of SR_CLK and SR_TIME (R135) -/
  clkHi : Option Word
  timeHi : Option Word
  /-- arrival record: id and phase (R327); none is VALID 0 -/
  arrival : Option (BitVec 6 × Nat)
  /-- the phase of barrier 0 in which the thread last arrived (R331) -/
  at0 : Option Nat
  /-- the next instruction of the thread starts a region (R119) -/
  newRegion : Bool
  snap : Snap
  /-- a thread of the running trap handler (R356) -/
  handler : Bool
  /-- rollbacks of this thread to its present region start (R120) -/
  rollbacks : Nat
  /-- rolled back and not yet re-executing -/
  rolled : Bool
  /-- depths the FRAMEs of the thread's region set, oldest first, and how many are still to be replayed (R275) -/
  framesDone : List Nat
  framesReplay : List Nat
  /-- loads the thread has issued in its region; and the load being re-run after a poisoned return, by its PC and its number
  in the region (R354) -/
  loadNo : Nat
  rerun : Option (DWord × Nat)
  deriving DecidableEq, Repr

/-- A register of a wave: V, K and X of a lane, W of the wave, a condition code of a lane. -/
inductive RKey where
  | v (lane idx : Nat)
  | k (lane idx : Nat)
  | x (lane idx : Nat)
  | w (idx : Nat)
  | c (lane idx : Nat)
  deriving DecidableEq, Repr

/-- A fixed-latency result in flight: the value held before, until `ready` (R87, R89). (log 7, DEDUCED) -/
structure Inflight where
  key : RKey
  old : Word
  ready : Nat
  deriving DecidableEq, Repr

/-- An outstanding variable-latency result (R88): the writes it will make. -/
structure LoadOp where
  pc : DWord
  prio : Byte
  mask : DWord
  writes : List (RKey × Word)
  /-- condition-code writes of a CAS -/
  flags : List (Nat × Nat × BitVec 5)
  /-- threads that met an uncorrectable word, and the first one's address (R354) -/
  poison : Option (DWord × Nat)
  /-- the load's number in the region of each of its threads (R354) -/
  nums : List (Nat × Nat)
  deriving DecidableEq, Repr

/-- A raised trap of a wave (R352, R355). -/
structure PendTrap where
  pc : DWord
  prio : Byte
  mask : DWord
  code : Nat
  info : Nat
  addr : DWord
  /-- kept over a halt: a PERF_OVF, or a constant-table fault, which no instruction raises again (R37, R360) -/
  keep : Bool
  deriving DecidableEq, Repr

/-- A fault that a thread's waiting access meets when its wave entry issues again (R203, R240, R244). (log 50, DEDUCED) -/
structure Denial where
  lane : Nat
  va : Nat
  code : Nat
  info : Nat
  deriving DecidableEq, Repr

/-- One wave (R23). -/
structure Wave where
  index : Nat
  laneset : Nat
  slot : Nat
  /-- base registers, and registers of the extended block (R109) -/
  base : Nat
  ext : Nat
  /-- the wave has ended and its slot is free (R267) -/
  ended : Bool
  lanes : List Lane
  /-- V registers by lane * 256 + index -/
  v : Map Word
  /-- K registers by lane * 8 + index -/
  k : Map Word
  /-- W registers -/
  w : Map Word
  inflight : List Inflight
  /-- registers a variable-latency producer will write (R88) -/
  pend : List RKey
  /-- W registers pending as tokens (R279) -/
  toks : List Nat
  /-- registers that a memory-side command or a ray query will write: pending until it completes (R220, R307) -/
  cmdPend : List RKey
  /-- tokens that a waiting TOKW.all waits for, by the PC and priority of its entry (R271) -/
  tokw : List (DWord × Byte × List Nat)
  /-- the number that the first command issued after a waiting TLRDEL would have, by the PC and priority of its entry
  (R285) -/
  tlrw : List ((DWord × Byte) × Nat)
  /-- entries whose read of another slot's register that awaits refresh has had its delay (R113, R161) -/
  remoteSeen : List (DWord × Byte)
  loads : List LoadOp
  /-- registers written since their thread's region began (R119) -/
  marks : List RKey
  /-- the same for W registers, with the lane that led the writing entry -/
  wmarks : Map Nat
  /-- registers holding a parity error; a K or X error here is one its shadow row shares (R118) -/
  parity : List RKey
  /-- K and X registers in error in the main file only: a read repairs them from the shadow row (R118) -/
  weak : List RKey
  ctl : Word
  dbg : BitVec 2
  tcause : Word
  tpc : DWord
  taddr : DWord
  tmask : DWord
  /-- handler mode (R356) -/
  inHandler : Bool
  /-- frame depth (R274) -/
  depth : Nat
  /-- where the entry that executed YIELD goes on: the next entry in frontier order issues next (R27) -/
  yieldFrom : Option (DWord × Byte)
  /-- entry chosen by FORCED_ISSUE (R27) -/
  forced : Option (DWord × Byte)
  drowsy : Bool
  lastExt : Nat
  /-- registers are still in the save area (R112) -/
  refresh : List RKey
  traps : List PendTrap
  /-- PERF_OVF held in handler mode (R358) -/
  perfHeld : List Nat
  /-- bytes delivered from stale or served waystations to a waiting thread, by lane and sector (R249) -/
  delivered : Map (List Byte)
  /-- faults the waiting accesses have met, kept until every granule of the entry has been answered (R203, R244) -/
  denied : List Denial
  /-- ranges of the group's scratchpad the wave has written since its last OPFENCE: offset and bytes (R199, R299) -/
  stsSince : List (Nat × Nat)
  /-- one more than the clk at which the wave last issued, 0 for never (R29) -/
  lastIssue : Nat
  deriving DecidableEq, Repr

/-- A task record (R36); `bad` is set when a reserved bit is nonzero. -/
structure TaskRec where
  entry : DWord
  arg : DWord
  tileX : Word
  tileY : Word
  tileZ : Word
  q2x2 : Bool
  gx : BitVec 10
  gy : BitVec 10
  gz : BitVec 10
  succ : DWord
  convoy : BitVec 2
  spad : BitVec 9
  xpre : BitVec 2
  base : BitVec 2
  bars : BitVec 6
  split : Bool
  fill : Bool
  wcount : BitVec 7
  allot : BitVec 6
  flvl : BitVec 2
  tpri : Byte
  ctab : DWord
  link : DWord
  bad : Bool
  deriving DecidableEq, Repr

/-- What a barrier slot holds (R325). Phases are counted without wrapping; PHASE reads modulo 16. -/
inductive BarKind where
  | free
  | named (id : BitVec 6)
  | binding (off : Nat)
  deriving DecidableEq, Repr

/-- One barrier slot of a group (R325) with the word monitor's state (R186, R187). -/
structure BarSlot where
  kind : BarKind
  expected : Nat
  arrived : Nat
  phase : Nat
  /-- merged signature of the open phase, and whether it holds an arrival from another core -/
  sig : Sig
  remote : Bool
  /-- merged signatures of the last sixteen completed phases that held an arrival from another core, by phase modulo 16 -/
  sigs : Map Sig
  deriving DecidableEq, Repr

/-- One placed group (level 4). -/
structure Group where
  gid : Nat
  asid : BitVec 16
  core : Nat
  launch : Word
  task : TaskRec
  /-- placement index on its core, the OWNER of its barrier slots (R325) -/
  place : BitVec 7
  /-- convoy placement and the position in it (R206) -/
  placement : Nat
  position : Nat
  /-- scratchpad units of 32 KiB granted, in offset order (R172) -/
  units : List Nat
  slots : List BarSlot
  /-- frame handles by depth, 0 where the stack holds no frame at a depth (R40, R274) -/
  frames : List Nat
  sig : Sig
  /-- the group is a parked continuation (R43) -/
  parked : Bool
  /-- a fill task's waystation, and whether FILLC or FILLX decided the granule (R243, R246) -/
  fillWs : Option Nat
  decided : Bool
  /-- fill reserve level the group draws on; 0 for ordinary resources (R50) -/
  reserve : Nat
  /-- system mode; user mode otherwise (R85, R116) -/
  system : Bool
  /-- first nonzero matrix status since the last MXTOK (R300) -/
  mxStatus : Word
  waves : List Wave
  /-- the user queue and front end a LAUNCH counts this group for -/
  queue : Option Nat
  /-- ranges whose fill was refused while the constant table is read: address, bytes, code and information (R37) -/
  ctabDead : List (Nat × Nat × Nat × Nat)
  deriving DecidableEq, Repr

/-- A frame (R39). -/
structure Frame where
  count : Nat
  isOpen : Bool
  parked : Bool
  ready : Bool
  initial : Bool
  /-- group parked on the frame -/
  cont : Option Nat
  parent : Nat
  succ : DWord
  last : Nat
  sig : Sig
  deriving DecidableEq, Repr

/-! ## Queues (14, 16, 17) -/

/-- A spawn queue entry: a record, or a range of a grid still to be expanded (R250, R273). -/
structure SpawnEntry where
  asid : BitVec 16
  task : TaskRec
  sig : Sig
  launch : Word
  /-- grid extents and the next placement unit of a range entry; none for one record -/
  grid : Option (Nat × Nat × Nat × Nat)
  /-- the LAUNCH's user queue -/
  queue : Option Nat
  /-- age: pushes are numbered -/
  serial : Nat
  system : Bool
  deriving DecidableEq, Repr

/-- A fill queue entry (R236). -/
structure FillEntry where
  asid : BitVec 16
  task : TaskRec
  ws : Nat
  serial : Nat
  deriving DecidableEq, Repr

/-- A gate (R280): the word's scratchpad offset, the parity waited for, whether its binding was released, whether its phase
has completed while it waited (R335). -/
structure Gate where
  off : Nat
  par : Bool
  gone : Bool
  passed : Bool
  deriving DecidableEq, Repr

/-- Where a command reports (R279): nowhere, a token, or a barrier word with a status token. -/
inductive Compl where
  | none
  | token (w : Nat)
  | bar (off : Nat) (w : Nat)
  deriving DecidableEq, Repr

/-- A logical thread name (R346). -/
structure ThreadName where
  launch : Word
  tileX : Word
  tileY : Word
  tileZ : Word
  thread : Half
  deriving DecidableEq, Repr

/-- Tensor layout records as registered (R282). -/
structure Tlr where
  base : Nat
  scales : Nat
  swz : Nat
  rank : Nat
  fmt : Nat
  dims : List Nat
  strs : List Nat
  boxes : List Nat
  deriving DecidableEq, Repr

/-- What a Porter command copies (R286). -/
inductive PorterOp where
  /-- source and destination, each in scratchpad when its flag is set; byte count -/
  | cpy (srcSpad dstSpad : Bool) (src dst n : Nat)
  /-- direction out, conversion, scratchpad offset, slot, the layout at issue, origin coordinates -/
  | tcpy (out cvt : Bool) (sp : Nat) (slot : Nat) (tlr : Tlr) (origin : List Int)
  deriving DecidableEq, Repr

/-- A Porter request (R290): its next sector, the first clobbered sector, its stopping fault. -/
structure PorterCmd where
  id : Nat
  gid : Nat
  wave : Nat
  asid : BitVec 16
  op : PorterOp
  next : Nat
  clob : Option Nat
  /-- stopping fault: code, sector, address -/
  stop : Option (Nat × Nat × Nat)
  /-- a barrier count step failed (R335) -/
  barFail : Bool
  gate : Option Gate
  compl : Compl
  wb : Option Nat
  name : ThreadName
  issued : Nat
  /-- grove request waited for -/
  wait : Option Nat
  /-- a fault met together with a halt: restart at the sector on restore (R292) -/
  halted : Bool
  /-- the gate's binding was released while the command waited (R280) -/
  lost : Bool
  /-- a thread touched a scratchpad buffer of the command: its bytes are undefined (R199) -/
  raced : Bool
  /-- its wave ran in system mode when it issued the command (R356) -/
  system : Bool
  /-- flits sent to another device and not yet acknowledged: port, sequence number and sector (R384, R385) -/
  unacked : List (Nat × BitVec 12 × Nat)
  deriving DecidableEq, Repr

/-- What a matrix command does (R295). -/
inductive MxOp where
  | lds (transpose : Bool)
  | swp
  | mul (acc : Bool)
  | rd (bf16 : Bool)
  | zero
  | lda (bf16 : Bool)
  | tok
  deriving DecidableEq, Repr

/-- A matrix command (R294, R295) with its next row (R301). -/
structure MxCmd where
  id : Nat
  gid : Nat
  wave : Nat
  op : MxOp
  a : Nat
  pitch : Nat
  n : Nat
  k : Nat
  e : Nat
  m : Nat
  swz : Nat
  gate : Option Gate
  tok : Option Nat
  wb : Option Nat
  name : ThreadName
  issued : Nat
  next : Nat
  /-- the operand wait of its waybill is stamped (R281) -/
  waited : Bool
  /-- as for a Porter request (R280, R199) -/
  lost : Bool
  raced : Bool
  deriving DecidableEq, Repr

/-- A box: lower and upper corner, three FP32 each (R302, R303). -/
structure Box where
  lo : List Word
  hi : List Word
  deriving DecidableEq, Repr

/-- One ray of a query (R305 to R308). -/
structure RayState where
  lane : Nat
  o : List Word
  d : List Word
  tmin : Word
  tmax : Word
  flags : Word
  root : Nat
  /-- references still to visit, next first, each with its child box; none where the query starts -/
  stack : List (Word × Option Box)
  /-- best candidate: tc, primitive id, u and v, back face -/
  best : Option (Word × Word × Word × Bool)
  skip : Bool
  code : Nat
  done : Bool
  deriving DecidableEq, Repr

/-- A rectangle of pixels: X0 Y0 X1 Y1. -/
structure Rect where
  x0 : Nat
  y0 : Nat
  x1 : Nat
  y1 : Nat
  deriving DecidableEq, Repr

/-- A beam record as read (R309). -/
structure BeamRec where
  apex : List Word
  kind : Nat
  nowait : Bool
  cullf : Bool
  cullb : Bool
  w : Nat
  h : Nat
  corners : List (List Word)
  axis : List Word
  tanh : Word
  tmin : Word
  tmax : Word
  root : Nat
  result : Nat
  cont : DWord
  rect : Rect
  start : Word
  arg : DWord
  bad : Bool
  deriving DecidableEq, Repr

/-- A beam query in progress (R312, R314, R317). -/
structure BeamState where
  off : Nat
  beam : Option BeamRec
  /-- items, next first, each with its box; none where the box is the record's own -/
  stack : List (Rect × Word × Option Box)
  emitted : Nat
  deferred : Nat
  /-- the deferred list overflowed -/
  overflow : Bool
  /-- something was deferred by limit, quota or a full stack -/
  limited : Bool
  /-- first GEN_ABORT, GEN_DEPTH or GEN_ORDER -/
  groveCode : Option Nat
  /-- best tc of rays that have one, by W * j + i -/
  best : Map Word
  gate : Option Gate
  tok : Nat
  frame : Nat
  sig : Sig
  /-- the record was changed under the query: its results are undefined (R316) -/
  raced : Bool
  deriving DecidableEq, Repr

/-- What a ray query queue entry asks for (R250). -/
inductive RayOp where
  | rays (dst : Nat) (rays : List RayState)
  | beam (b : BeamState)
  deriving DecidableEq, Repr

/-- A ray query queue entry. -/
structure RayCmd where
  id : Nat
  gid : Nat
  wave : Nat
  op : RayOp
  wait : Option Nat
  /-- the query has started (R251) -/
  begun : Bool
  /-- its wave ran in system mode when it issued the query (R356) -/
  system : Bool
  deriving DecidableEq, Repr

/-- Kinds of memory-side command (R219). -/
inductive BankOp where
  | mred (op : AOp) (sgn : Bool) (w64 : Bool) (items : List (Nat × Nat × DWord))
  | mcas (w64 : Bool) (dst : Opnd) (items : List (Nat × Nat × DWord × DWord))
  | msac (y x n : Nat) (scale : Word)
  | gathm (tbl buf idx n lg : Nat)
  | scatm (tbl buf idx n lg : Nat)
  deriving DecidableEq, Repr

/-- A memory-side command in progress (R219 to R223). -/
structure BankCmd where
  id : Nat
  gid : Nat
  wave : Nat
  op : BankOp
  tok : Nat
  gate : Option Gate
  /-- its wave ran in system mode when it issued the command (R356) -/
  system : Bool
  deriving DecidableEq, Repr

/-- Entries of a Depot ring (R253, R255). -/
inductive DepotItem where
  | spawn (e : SpawnEntry)
  | fill (e : FillEntry)
  | mx (c : MxCmd)
  | porter (c : PorterCmd)
  | ray (c : RayCmd)
  deriving DecidableEq, Repr

/-- A Depot ring (R254). -/
structure Ring where
  base : DWord
  logSize : Nat
  quota : Nat
  head : Nat
  tail : Nat
  used : Nat
  items : List DepotItem
  deriving DecidableEq, Repr

/-- A request in an XACQ FIFO (R110). -/
structure XacqReq where
  gid : Nat
  wave : Nat
  pc : DWord
  prio : Byte
  regs : Nat
  since : Nat
  /-- the control fields of the XACQ: its guard, STALL and YLD (R71) -/
  ctl : Ctl
  /-- the threads that perform it: those whose guard held when it issued (R138) -/
  lanes : List Nat
  deriving DecidableEq, Repr

/-! ## Caches, tables and the Glade (10, 13, 18, 20) -/

/-- A byte of an L1 line: present, and written since the last write-back (R179). -/
structure L1Byte where
  val : Byte
  valid : Bool
  written : Bool
  deriving DecidableEq, Repr

/-- An LLC sector (R170): its bytes, whether dirty, whether generated, whether placed first-victim, and the line metadata:
whether the grove it was generated for keeps evicted lines (R189), and the VB4 scale word that travels with the line (R97). -/
structure LlcSector where
  bytes : List Byte
  dirty : Bool
  generated : Bool
  firstVictim : Bool
  keep : Bool
  scale : Option Word
  deriving DecidableEq, Repr

/-- An attribute TLB entry (R320); `size` 0 to 3 for 4 KiB, 64 KiB, 2 MiB, 1 GiB. -/
structure TlbEntry where
  asid : BitVec 16
  vpn : Nat
  size : Nat
  gidx : BitVec 10
  paths : BitVec 5
  cls : BitVec 3
  u : Bool
  x : Bool
  w : Bool
  r : Bool
  deriving DecidableEq, Repr

/-- A cached translation of a controller (R177): the leaf with its physical page. -/
structure TransEntry where
  asid : BitVec 16
  vpn : Nat
  size : Nat
  leaf : DWord
  deriving DecidableEq, Repr

/-- A page walk that found no valid entry: consumed by the check that asked (R175). -/
structure WalkFault where
  asid : BitVec 16
  vpn : Nat
  /-- PAGE, or DATA_UNCORRECTABLE where the walk met a poisoned word (log 87, DEDUCED) -/
  code : Nat
  deriving DecidableEq, Repr

/-- A performance counter (R343). -/
structure Counter where
  ctl : DWord
  value : BitVec 48
  /-- the count has wrapped and COUNTER_WRAP has not yet run; with the issuing wave when there is one (R345) -/
  wrapped : Option (Option (Nat × Nat))
  /-- the clk in which it last counted, and the events of that clk (R136) -/
  at_ : Nat
  now : Nat
  /-- the clk in which it wrapped (R136) -/
  wrapAt : Nat
  deriving DecidableEq, Repr

/-- An open waybill (R347). -/
structure Waybill where
  name : ThreadName
  t0 : Word
  tin : Option Half
  wait : Option Half
  comp : Option Half
  tout : Option Half
  fault : Bool
  deriving DecidableEq, Repr

/-- The halt block of a core (R349), one for each context on it. -/
structure HaltBlock where
  halted : Bool
  armed : Bool
  byBrk : Bool
  /-- group exempt from the halt: the one that performed the store -/
  exempt : Option Nat
  select : ThreadName
  /-- STATUS[3]: a register with a write pending was read since SELECT was last written -/
  pendSeen : Bool
  deriving DecidableEq, Repr

/-- Power state of a core (R396). -/
inductive CorePower where
  | on | clockGated | powerGated
  deriving DecidableEq, Repr

/-- One core (R12). -/
structure Core where
  l1 : Map (List L1Byte)
  /-- L1 lines placed first-victim (R181) -/
  l1First : List Nat
  const : Map (List Byte)
  texel : Map (List Byte)
  icache : Map (List Byte)
  tile : Map (List Byte)
  /-- loop buffer of a laneset: context, target PC and bytes (R265) -/
  loops : Map (BitVec 16 × Nat × List Byte)
  tlb : List TlbEntry
  walks : List WalkFault
  /-- scratchpad bytes by physical offset 0 to 0x6FFFF; a byte not listed holds 0 -/
  spad : Map Byte
  /-- number of the mapped context whose group last held each 32 KiB unit (R172) -/
  spadOwner : Map Nat
  acc : Map Word
  active : Map Half
  shadow : Map Half
  accOwner : Option (BitVec 16)
  mxQ : List MxCmd
  porterQ : List PorterCmd
  rayQ : List RayCmd
  /-- counters by asid * 8 + n -/
  counters : Map Counter
  /-- halt blocks by asid -/
  halts : Map HaltBlock
  /-- open waybills by asid * 128 + slot -/
  waybills : Map Waybill
  /-- clk value at the core's last reset (R117) -/
  clkBase : Nat
  power : CorePower
  /-- last clk at which a wave issued, and at which a group was resident -/
  lastIssue : Nat
  lastResident : Nat
  deriving DecidableEq, Repr

/-- Waystation states (R243); FREE stations are not listed. -/
inductive WsState where
  | queued | running | commit
  deriving DecidableEq, Repr

/-- A waystation (R243, R326). -/
structure Waystation where
  asid : BitVec 16
  grove : Nat
  granule : Nat
  state : WsState
  stale : Bool
  prio : Byte
  flvl : Nat
  /-- requests that wait, in the order they joined, each with its entry of the slice's waiter pool (R237, R326) -/
  waiters : List (Nat × Nat)
  /-- uncommitted copy: bytes by offset in the granule (R245) -/
  copy : Map Byte
  /-- the group that fills it -/
  filler : Option Nat
  /-- core whose fill queue took the record -/
  core : Nat
  /-- the granule's address and log2 of its size, from the entry that started the fill -/
  va : Nat
  lg : Nat
  deriving DecidableEq, Repr

/-- A remap filter entry (R326): physical line and the name it lives under. -/
structure RemapEntry where
  line : Nat
  asid : BitVec 16
  vl : Nat
  deriving DecidableEq, Repr

/-- Who asks for a grove line (R235). (log 38, DEDUCED) -/
inductive Requester where
  /-- a wave entry: the accesses of its threads (lane and address), and those whose faults are suppressed -/
  | entry (gid wave : Nat) (loud quiet : List (Nat × Nat))
  | porter (core id : Nat)
  | ray (core id : Nat) (lane : Nat)
  | packet (q : Nat)
  | ctab (gid : Nat)
  /-- the vector of a trap that waits to be delivered (R323) -/
  | vector (gid wave : Nat)
  /-- LDPF: nobody waits (R207) -/
  | prefetch
  deriving DecidableEq, Repr

/-- Where a grove request stands: missed, probing, waiting at a waystation, or refused until a clk (R235, R237). A read of a
constant table that meets a locked sector is held (R214). -/
inductive ReqStage where
  | missed | probing | waiting (ws : Nat) | refused (due : Nat) | held
  deriving DecidableEq, Repr

/-- A grove request (R235). -/
structure GroveReq where
  id : Nat
  who : Requester
  asid : BitVec 16
  va : Nat
  path : Nat
  prio : Byte
  /-- fill level of the asking task (R239) -/
  level : Nat
  stage : ReqStage
  deriving DecidableEq, Repr

/-- The answer a waiting engine query or packet finds: data of a stale granule, or a fault code (R244, R249). -/
structure GroveReply where
  req : Nat
  who : Requester
  sector : Nat
  bytes : List Byte
  code : Nat
  info : Nat
  deriving DecidableEq, Repr

/-- An open consignment (R211). -/
structure Consign where
  gid : Nat
  wave : Nat
  lane : Nat
  asid : BitVec 16
  /-- recorded sectors by VA / 32; another party's write aborts the consignment at once, so the mark stays false -/
  sectors : Map Bool
  /-- buffered bytes by VA -/
  buffer : Map Byte
  exclusive : Bool
  /-- aborted: the thread runs on to its TXEND (R212) -/
  aborted : Bool
  /-- the region in which TXBEG performed is still open (R211) -/
  fresh : Bool
  deriving DecidableEq, Repr

/-- A thread waiting to open an exclusive consignment (R214). -/
structure ExclReq where
  gid : Nat
  wave : Nat
  lane : Nat
  asid : BitVec 16
  /-- the control fields of the TXBEG (R71) -/
  ctl : Ctl
  deriving DecidableEq, Repr

/-- An allotment entry with its remaining budgets (R324). -/
structure Allotment where
  budgets : List Word
  valid : Bool
  strict : Bool
  prio : Byte
  left : List Word
  deriving DecidableEq, Repr

/-- What the budgeted activities have used since reset (R324): LLC requests, beats of the vertical bus, beats of GDDR 7, units of
64 bytes of Porter copies, issue slots of fills; and the home slice of the last request (R344, R371). (log 42, DESIGN CHOICE) -/
structure Used where
  llc : Nat
  beats : Nat
  gddr : Nat
  porter : Nat
  slots : Nat
  slice : Nat
  deriving DecidableEq, Repr
/-- Units of budget k. -/
def Used.unit (u : Used) (k : Nat) : Nat :=
  match k with
  | 0 => u.llc | 1 => u.beats | 2 => u.gddr | 3 => u.porter | _ => u.slots

/-! ## Contexts and front ends (22) -/

/-- Where a front end stands with the packet at hand (R364, R368). -/
inductive QStage where
  /-- no packet begun -/
  | idle
  /-- a prologue is to run (again) -/
  | prologue
  /-- a launch is held by quota; its record, grid and launch id are fixed, and its next placement unit -/
  | held (task : TaskRec) (gx gy gz unit : Nat) (launch : Word)
  /-- groups outstanding -/
  | launched
  /-- a WAIT polls -/
  | waiting
  deriving DecidableEq, Repr

/-- A user queue's descriptor fields and the front end's position (R363, R368). -/
structure Queue where
  slot : Nat
  ring : Nat
  logN : Nat
  widx : Nat
  ridx : Nat
  err : Nat
  /-- last write index seen, index of the packet at hand -/
  seen : Nat
  index : Nat
  stopped : Bool
  stage : QStage
  /-- entry of the packet's prologue, and the status the packet will end with -/
  entry : Nat
  status : Nat
  /-- prologue registers: W, condition codes, run number, groups outstanding, whether another run follows -/
  pw : Map Word
  pcc : List (BitVec 5)
  run : Nat
  outstanding : Nat
  again : Bool
  /-- grove request waited for -/
  wait : Option Nat
  /-- the packet window: packets read from the ring and not yet retired, the one at hand first (R250) -/
  window : List (List Byte)
  deriving DecidableEq, Repr

/-- Accumulators and planes of a core as saved (KIND 2, R361). -/
structure Planes where
  acc : Map Word
  active : Map Half
  shadow : Map Half
  deriving DecidableEq, Repr

/-- A mapped context (R369) with its SR_TVEC, TLR table and pins. -/
structure Ctx where
  slot : Nat
  /-- number of the context: a restored one keeps its own (R172) -/
  serial : Nat
  desc : Nat
  asid : BitVec 16
  nestmax : Nat
  allot : BitVec 6
  ptroot : Nat
  save : Nat
  depot : Nat
  groves : Nat
  groveCount : Nat
  pinmax : Nat
  frames : Nat
  frameCount : Nat
  queues : Nat
  queueCount : Nat
  /-- SR_TVEC_HI and SR_TVEC_LO (R323) -/
  tvec : DWord
  tlrs : Map Tlr
  /-- KIND 2 sections of the save area written while the context is mapped, by core (R173) -/
  accs : Map Planes
  /-- 4 KiB pages pinned for each TLR slot (R284) -/
  pins : List (Nat × Nat)
  /-- halted by a context fault; the groups are in the save area (R359) -/
  faulted : Bool
  /-- waybill ring descriptor: BASE, LOG2N, HEAD, TAIL, DROPS (R348) -/
  wbRing : List DWord
  deriving DecidableEq, Repr

/-- The fault record of a save area (R359). -/
structure FaultRec where
  tcause : Word
  origin : Nat
  pc : DWord
  addr : DWord
  mask : DWord
  name : ThreadName
  gid : Option (Nat × Nat)
  deriving DecidableEq, Repr

/-- A saved context (R361). The header lies in memory; the bodies are the device's own and held here.
(log 16, DESIGN CHOICE) -/
structure Saved where
  /-- number of the image: what the bodies in memory hold (log 16, DESIGN CHOICE) -/
  id : Nat
  /-- number of the context -/
  serial : Nat
  asid : BitVec 16
  /-- PA of its descriptor (R374) -/
  desc : Nat
  save : Nat
  version : Nat
  faulted : Bool
  stopped : Bool
  fault : Option FaultRec
  groups : List Group
  /-- scratchpad images by group, by offset in the grant -/
  spads : Map (List Host.Cell)
  accs : Map Planes
  spawnQ : Map (List SpawnEntry)
  fillQ : Map (List FillEntry)
  mxQ : Map (List MxCmd)
  porterQ : Map (List PorterCmd)
  rayQ : Map (List RayCmd)
  rings : Map Ring
  ways : List (Nat × Waystation)
  reqs : List GroveReq
  counters : Map Counter
  waybills : Map Waybill
  halts : Map HaltBlock
  tlrs : Map Tlr
  pins : List (Nat × Nat)
  queues : List Queue
  wbRing : List DWord
  banks : List BankCmd
  deriving DecidableEq, Repr

/-- A switchboard command that has begun and waits: STATUS reads BUSY (R370). -/
inductive BoardCmd where
  | map (slot desc : Nat)
  | unmap (slot : Nat)
  /-- SWITCH; `mapping` once its UNMAP has been done -/
  | swap (slot desc : Nat) (mapping : Bool)
  deriving DecidableEq, Repr

/-- Switchboard registers (R370, R371). -/
structure Board where
  /-- the command at hand; STATUS reads BUSY until it ends -/
  command : Option BoardCmd
  /-- waystations and waiter entries that the restore at hand waits for, by slice: new misses leave them to it (R243) -/
  wants : List (Nat × Nat × Nat)
  desc : DWord
  slot : Nat
  /-- STATUS of the last command that ended -/
  status : Nat
  owner : Nat
  period : Nat
  /-- allotment words written and not yet in effect: entry * 8 + word; 512 for PERIOD (R371) -/
  staged : Map Word
  /-- BUSY_NS by slot (R370) -/
  busyNs : Map Nat
  deriving DecidableEq, Repr

/-! ## Reliability and links (23, 24) -/

/-- An error log ring (R375). -/
structure ErrLog where
  entries : List DWord
  overflow : Nat
  deriving DecidableEq, Repr

/-- Channel status (R380). -/
inductive ChanStatus where
  | training | ok | degraded
  deriving DecidableEq, Repr

/-- Reliability state (R375, R381). Repair entries are V in bit 9 and WIRE in bits 8 to 0. -/
structure Rel where
  arrayLogs : List ErrLog
  busLogs : List ErrLog
  gddrLog : ErrLog
  hard : List (List (BitVec 10))
  soft : List (List (BitVec 10))
  status : List ChanStatus
  gddrDegraded : List Nat
  /-- error interrupts raised to the RV64 complex (R377, R379) -/
  errorIrqs : Nat
  /-- wrong bits of stored 72-bit words, by word number (R376) -/
  flips : Map (BitVec 72)
  /-- corrective writes on their way: word, corrected value, cancelled by a newer write (R376) -/
  corrective : List (Nat × DWord)
  /-- GDDR 7 words of lines that fail to decompress (R381) -/
  bad : List Nat
  /-- the model's own: the step has touched a word whose channel is still training, so it stalls (R380) (log 44, DEDUCED) -/
  touched : Bool
  deriving DecidableEq, Repr

/-- A Swegohel Link port (R383, R384). -/
structure Port where
  trained : Bool
  down : Bool
  /-- failed receptions of the flit at hand, in a row -/
  failed : Nat
  expect : BitVec 12
  credits : Nat
  /-- flits sent and not acknowledged, oldest first, at most 512 -/
  replay : List Flit
  nextSeq : BitVec 12
  /-- replays that the oldest of them has failed, in a row -/
  replays : Nat
  /-- the flit sent last -/
  sent : Option Flit
  deriving DecidableEq, Repr

/-- A read of another device's memory (R384, R385): the copy that asks, or a collective request as of core 128, the range, the
device, and the data once it has come: no bytes where a port went down. -/
structure RemoteRead where
  core : Nat
  id : Nat
  va : Nat
  n : Nat
  device : Nat
  data : Option (List Byte)
  deriving DecidableEq, Repr

/-- A collective request (R387). -/
structure Collective where
  id : Nat
  asid : BitVec 16
  src : Nat
  dst : Nat
  count : Nat
  op : Nat
  ndev : Nat
  tag : Half
  signal : Nat
  bad : Bool
  /-- this device's elements, once they are read, and the flits that have carried them to the other devices -/
  data : Option (List Byte)
  sent : Nat
  /-- the reduced elements once the request is matched, and the sectors of them that are written -/
  out : Option (List Byte)
  written : Nat
  deriving DecidableEq, Repr

/-- Links and the collective engine. -/
structure Link where
  ports : List Port
  device : Nat
  count : Nat
  reads : List RemoteRead
  requests : List Collective
  deriving DecidableEq, Repr

/-! ## The machine proper and the platform around it -/

/-- The issuing frontier entry: what exec of a Farom instruction acts for (log 1, DESIGN CHOICE). -/
structure Issue where
  gid : Nat
  wave : Nat
  pc : DWord
  prio : Byte
  len : Nat
  deriving DecidableEq, Repr

/-- Cores, Glade, memory, contexts and front ends: all that a Farom instruction can reach. -/
structure Mach where
  issue : Option Issue
  clk : Nat
  timeNs : Nat
  /-- fraction of a nanosecond, in parts of 1 / 5354228880, which every clock setting divides (R397) -/
  timeRem : Nat
  mhz : Nat
  /-- free values taken so far (log 4, DESIGN CHOICE) -/
  fresh : Nat
  /-- waves of the bundle being issued that are still to issue, with their entry (R29, R30) -/
  bundle : List (Nat × Nat × DWord × Byte)
  /-- physical memory (R170, R177) -/
  mem : List Host.Cell
  llc : Map LlcSector
  /-- directory of the victim store, newest line first: each line and the way of its set; the bytes lie in GDDR 7 (R189) -/
  victim : List (Nat × Nat)
  /-- translation cache of each controller, newest entry first (R177) -/
  trans : Map (List TransEntry)
  /-- remap filter, newest entry first (R178) -/
  remap : List RemapEntry
  /-- physical lines that have lived under more than one name (R178, R198) -/
  aliased : List Nat
  /-- L1 write-backs that wait at a locked sector: core, context, sector address and bytes (R214) -/
  wbWait : List (Nat × BitVec 16 × Nat × List (Nat × Byte))
  /-- lines on their way into the LLC, with the allotment that asks (R207, R371) -/
  prefetch : List (BitVec 16 × Nat × Nat)
  /-- grove entries the Glade has cached, by asid * 1024 + index (R318) -/
  groveCache : Map (List Byte)
  cores : Map Core
  groups : Map Group
  /-- frames by asid * 2^48 + handle -/
  frames : Map Frame
  spawnQ : Map (List SpawnEntry)
  fillQ : Map (List FillEntry)
  xacqQ : Map (List XacqReq)
  /-- Depot rings by asid * 800 + index -/
  rings : Map Ring
  /-- waystations by slice * 64 + place -/
  ways : Map Waystation
  reqs : List GroveReq
  replies : List GroveReply
  /-- the bytes that the last read of an address-space client returned (R17, R382) -/
  clientRead : List Byte
  consigns : List Consign
  exclQ : List ExclReq
  banks : List BankCmd
  ctxs : Map Ctx
  saved : List Saved
  queues : Map Queue
  slices : Map Counter
  device : Map Counter
  allot : Map Allotment
  used : Used
  /-- what had been used when this clk began; what slack-borrowing entries at zero have used in it, by budget; and the allotments
  that a slice has denied in it (R344, R371) -/
  clkUsed : Used
  slack : List Nat
  denials : List (Nat × Nat)
  /-- budgets for which work with budget left was held to the next clk, behind a service that borrowed (R371) -/
  behind : List Nat
  /-- SR_TIME at the last period boundary (R371) -/
  periodStart : Nat
  board : Board
  /-- interrupts raised by SIGNAL and by links: RV64 line numbers (R364) -/
  irqs : List Nat
  rel : Rel
  link : Link
  /-- failures of Depot rings met within an instruction or event, by context: they halt it at the boundary (R257, R359) -/
  ringFaults : List (BitVec 16 × FaultRec)
  nextGid : Nat
  nextLaunch : Nat
  nextSerial : Nat
  nextId : Nat
  deriving DecidableEq, Repr

/-- A key slot (R389). -/
structure KeySlot where
  key : Option (List Byte)
  revoked : Bool
  deriving DecidableEq, Repr

/-- A flash slot (R373, R393). -/
structure FwSlot where
  bytes : List Byte
  /-- not marked invalid -/
  valid : Bool
  deriving DecidableEq, Repr

/-- Security and firmware state (R373, R374, R389 to R392). -/
structure Sec where
  keys : List KeySlot
  measure : List (List Byte)
  /-- slots: front end A, B, Tchiavo A, B -/
  flash : List FwSlot
  /-- running slot of the front end and of Tchiavo -/
  runFront : Option Nat
  runMon : Option Nat
  /-- the resident OS image was verified and runs (R390) -/
  runOs : Bool
  /-- live update started: old slot and time of start, until the first heartbeat -/
  update : Option (Nat × Nat)
  pending : Bool
  /-- contexts are being drained for a live update: since when, and those that have been mapped for it (R374) -/
  drain : Option (Nat × List (BitVec 16))
  /-- time of SR_TIME from which flash may be erased again (R393) -/
  eraseReady : Nat
  recovery : Bool
  recoveryImage : List Byte
  osImage : List Byte
  /-- SPDM negotiation done; the last answer on the DOE mailbox and on the switchboard's (R392) -/
  version : Bool
  caps : Bool
  algs : Bool
  doe : List Byte
  swBox : List Byte
  transcript : List Byte
  deriving DecidableEq, Repr

/-- A host window (R393, R394). -/
structure Window where
  base : Nat
  size : Nat
  valid : Bool
  deriving DecidableEq, Repr

/-- Host interface, Hedgerow and board (R382, R393, R394). -/
structure HostSide where
  hostMode : Bool
  progen : Bool
  /-- PROGEN as sampled at cold reset (R391) -/
  progenLatched : Bool
  ringHead : Bool
  bar2Base : Nat
  bar2Size : Nat
  bar2Asid : BitVec 16
  windows : List Window
  /-- bytes written in the present microsecond, and that microsecond -/
  rate : Nat
  rateUs : Nat
  memory : List Host.Cell
  /-- writes admitted in the present clk, which reach the host when it ends (R394) -/
  admitted : List (Nat × List Byte)
  dropped : Nat
  milliVolt : Nat
  milliAmp : Nat
  fuseVolt : Nat
  fuseAmp : Nat
  i2cAllowed : List (Nat × Nat)
  gpioAllowed : List Nat
  i2c : Map Byte
  gpio : Map Bool
  thermtrip : Bool
  msix : List Nat
  deriving DecidableEq, Repr

/-- What an output runs (R388). -/
inductive DispMode where
  | uhbr10 | uhbr13p5 | uhbr20 | hdmi
  deriving DecidableEq, Repr

/-- A display output (R388). -/
structure Output where
  mode : DispMode
  timing : Timing
  underflow : Bool
  blackFrom : Option Nat
  /-- the allotment entry its scanout reads charge (R388) -/
  allot : BitVec 6
  deriving DecidableEq, Repr

/-- Device power state (R396). -/
inductive Power where
  | d0 | d3hot | d3cold
  deriving DecidableEq, Repr

/-- What surrounds the machine proper: no Farom instruction reaches it. -/
structure Plat where
  sec : Sec
  host : HostSide
  outputs : List Output
  power : Power
  deriving DecidableEq, Repr

/-- Who moves next, as the agenda says (log 1, DESIGN CHOICE): an issue, another agent's step, a clk, an eviction, or a bit error. -/
inductive Turn where
  | issue (gid wave : Nat)
  | event (i : Instr)
  | tick
  /-- L1 of a core evicts a line, by asid * 2^42 + VA / 64 (R180) -/
  | evictL1 (core line : Nat)
  /-- the LLC evicts a sector, by asid * 2^43 + VA / 32 (R180, R189) -/
  | evictLlc (sector : Nat)
  /-- a parity error strikes a register, and with `shadow` a K or X register's shadow row too (R118) -/
  | parity (gid wave : Nat) (key : RKey) (shadow : Bool)
  /-- a stored bit flips (R376) -/
  | flip (word bit : Nat)
  /-- a GDDR 7 line fails to decompress (R381) -/
  | decompress (line : Nat)
  /-- the other end of a port has not taken the oldest flit sent, which is replayed (R384) -/
  | refused (port : Nat)
  /-- the first heartbeat of a new front-end image (R374) -/
  | heartbeat
  /-- the host writes an entry of its window table through BAR0 (R393) -/
  | hostWindow (n base size : Nat) (valid : Bool)
  /-- the resident OS chooses what BAR2 maps (R382) -/
  | bar2 (base size : Nat) (asid : BitVec 16)
  /-- the resident OS sets an output's mode and names the allotment of its scanout (R388) -/
  | outputSet (out : Nat) (mode : DispMode) (allot : BitVec 6)
  /-- scanout of an output reads memory (R388) -/
  | scanout (out pa n : Nat)
  /-- the resident OS image that is stored for the next boot (R390) -/
  | osImage (image : List Byte)
  /-- the switchboard command at hand goes on, or a drain (R370, R374) -/
  | board
  deriving DecidableEq, Repr

/-- The state of the device. -/
structure State where
  agenda : List Turn
  /-- the model's own: the last event could not happen, and changed nothing (log 84, DESIGN CHOICE) -/
  missed : Bool
  mach : Mach
  plat : Plat
  deriving DecidableEq, Repr

/-- Why the machine stops. -/
inductive Fault where
  /-- A Farom instruction is executed with no issuing frontier entry (raised by every Farom meaning; safe: step
  always sets one). -/
  | noIssuingEntry
  deriving DecidableEq, Repr

/-- Why an instruction has no meaning. -/
inductive Refusal where
  /-- The meaning of this mnemonic is not modelled (raised by no instruction once every arm is a call; safe). -/
  | notModelled (mnemonic : String)
  deriving DecidableEq, Repr

/-! ## Reset -/

/-- A lane slot that never held a thread. (log 3, DESIGN CHOICE) -/
def Lane.init : Lane :=
  ⟨.never, 0, 0xFF, .none, 0, 0, 0, 0, 0, 0, 0, 0, 0, 0, 0, none, none, none, none, true,
    ⟨0, 0, 0, 0, 0, 0, 0, 0xFF⟩, false, 0, false, [], [], 0, none⟩
/-- A core after reset (R107, R170, R318): everything invalid or empty. (log 3, DESIGN CHOICE) -/
def Core.reset : Core :=
  ⟨[], [], [], [], [], [], [], [], [], [], [], [], [], [], none, [], [], [], [], [], [], 0, .on, 0, 0⟩
/-- An empty error log. -/
def ErrLog.empty : ErrLog := ⟨[], 0⟩
/-- Reliability state after a cold reset (R375, R395); no fuse programmed and no GDDR device degraded: log 11, DESIGN CHOICE. -/
def Rel.reset : Rel :=
  ⟨List.replicate 4 ErrLog.empty, List.replicate 32 ErrLog.empty, ErrLog.empty,
    List.replicate 32 (List.replicate 8 0), List.replicate 32 (List.replicate 8 0),
    List.replicate 32 .training, [], 0, [], [], [], false⟩
/-- A link port before training (R383). -/
def Port.reset : Port := ⟨false, false, 0, 0, 0, [], 0, 0, none⟩
/-- The unlimited slack-borrowing entry 0 of R324. -/
def Allotment.zero : Allotment :=
  ⟨List.replicate 5 0xFFFFFFFF, true, false, 0, List.replicate 5 0xFFFFFFFF⟩
/-- The machine proper after reset; ids start at 1 (log 14, DESIGN CHOICE), OWNER is 1 (log 10, DESIGN CHOICE), PERIOD 4 (R371), clock 2300 MHz.
(log 2, DESIGN CHOICE; log 3, DESIGN CHOICE) -/
def Mach.reset : Mach where
  issue := none
  clk := 0
  timeNs := 0
  timeRem := 0
  mhz := 2300
  fresh := 0
  bundle := []
  mem := []
  llc := []
  victim := []
  trans := []
  remap := []
  aliased := []
  wbWait := []
  prefetch := []
  groveCache := []
  cores := []
  groups := []
  frames := []
  spawnQ := []
  fillQ := []
  xacqQ := []
  rings := []
  ways := []
  reqs := []
  replies := []
  clientRead := []
  consigns := []
  exclQ := []
  banks := []
  ctxs := []
  saved := []
  queues := []
  slices := []
  device := []
  allot := [(0, Allotment.zero)]
  used := ⟨0, 0, 0, 0, 0, 0⟩
  clkUsed := ⟨0, 0, 0, 0, 0, 0⟩
  slack := [0, 0, 0, 0, 0]
  denials := []
  behind := []
  periodStart := 0
  board := ⟨none, [], 0, 0, 0, 1, 4, [], []⟩
  irqs := []
  rel := Rel.reset
  link := ⟨[Port.reset, Port.reset], 0, 1, [], []⟩
  ringFaults := []
  nextGid := 1
  nextLaunch := 1
  nextSerial := 0
  nextId := 1
/-- Security state after reset (R389, R390): slot 0 holds the vendor key; flash is empty, so the boot ROM has accepted no slot
and serves the recovery mailbox (log 12, DESIGN CHOICE). -/
def Sec.reset : Sec where
  keys := ⟨some (leBytes 49 Config.vendorKey.toNat), false⟩ :: List.replicate 4 ⟨none, false⟩
  measure := List.replicate 8 (List.replicate 48 0)
  flash := List.replicate 4 ⟨[], true⟩
  runFront := none
  runMon := none
  runOs := false
  update := none
  pending := false
  drain := none
  eraseReady := 0
  recovery := true
  recoveryImage := []
  osImage := []
  version := false
  caps := false
  algs := false
  doe := []
  swBox := []
  transcript := []
/-- The host side after reset; straps, fused ceilings and lists: log 12, DESIGN CHOICE. -/
def HostSide.reset : HostSide where
  hostMode := false
  progen := false
  progenLatched := false
  ringHead := false
  bar2Base := 0
  bar2Size := 2 ^ 28
  bar2Asid := 0
  windows := List.replicate 16 ⟨0, 0, false⟩
  rate := 0
  rateUs := 0
  memory := []
  admitted := []
  dropped := 0
  milliVolt := 0
  milliAmp := 0
  fuseVolt := 1050
  fuseAmp := 0
  i2cAllowed := []
  gpioAllowed := []
  i2c := []
  gpio := []
  thermtrip := false
  msix := []
/-- A display output after reset: timing at the Hedgerow's lower bounds (log 12, DESIGN CHOICE). -/
def Output.reset : Output := ⟨.uhbr10, ⟨25000, 23000, Config.minBlanking 25000 23000⟩, false, none, 0⟩
/-- The platform after reset. -/
def Plat.reset : Plat := ⟨Sec.reset, HostSide.reset, List.replicate 4 Output.reset, .d0⟩
/-- The device right after reset: nothing mapped, nothing placed, memory with nothing listed. -/
def State.reset : State := ⟨[], false, Mach.reset, Plat.reset⟩

end Sys2Proof.Machine
end

