-- ==== Sys2Proof/Machine/Maps.lean ====
section
/-! DEFINITION. Tables and memory as sorted lists, and the accessors of cores, groups, waves and lanes. -/

namespace Sys2Proof.Machine

/-! ## Tables -/

/-- Look a key up. -/
def mget {α : Type} : Map α → Nat → Option α
  | [], _ => none
  | (a, x) :: t, k => if a = k then some x else mget t k
/-- Look a key up, with a value for keys not listed. -/
def mgetD {α : Type} (m : Map α) (k : Nat) (d : α) : α := (mget m k).getD d
/-- Put a value at a key, keeping the keys rising. -/
def mput {α : Type} : Map α → Nat → α → Map α
  | [], k, x => [(k, x)]
  | (a, y) :: t, k, x =>
    if k < a then (k, x) :: (a, y) :: t
    else if k = a then (k, x) :: t
    else (a, y) :: mput t k x
/-- Remove a key. -/
def mdel {α : Type} (m : Map α) (k : Nat) : Map α := m.filter fun p => p.1 != k
/-- Keep the entries whose key meets a test. -/
def mkeep {α : Type} (m : Map α) (f : Nat → Bool) : Map α := m.filter fun p => f p.1

/-! ## Physical memory -/

/-- What an unlisted address reads as (log 2, DESIGN CHOICE). -/
def memDefault : Byte := 0
/-- The byte at an address of a cell list. (log 2, DESIGN CHOICE) -/
def cellGet : List Host.Cell → Nat → Byte
  | [], _ => memDefault
  | (a, b) :: t, k => if a = k then b else cellGet t k
/-- List a byte at its address. -/
def cellIns : List Host.Cell → Nat → Byte → List Host.Cell
  | [], k, b => [(k, b)]
  | (a, c) :: t, k, b =>
    if k < a then (k, b) :: (a, c) :: t
    else if k = a then (k, b) :: t
    else (a, c) :: cellIns t k b
/-- Write a byte, keeping the canonical form: the default byte is not listed. -/
def cellPut (mem : List Host.Cell) (k : Nat) (b : Byte) : List Host.Cell :=
  if b = memDefault then mem.filter (fun c => c.1 != k) else cellIns mem k b
/-- The canonical form: addresses rising from `lo`, no listed default byte. -/
def Memory.wfFrom : Nat → List Host.Cell → Bool
  | _, [] => true
  | lo, (a, b) :: t => decide (lo ≤ a) && b != memDefault && Memory.wfFrom (a + 1) t
/-- The canonical form of memory. -/
def Memory.wf (mem : List Host.Cell) : Bool := Memory.wfFrom 0 mem

/-! ## Lists by index -/

/-- Change one element of a list. -/
def lset {α : Type} (l : List α) (n : Nat) (f : α → α) : List α := l.modify n f
/-- Put an element at a place of a list that may be shorter. -/
def lanesOf (mask : DWord) : List Nat := (List.range 64).filter fun i => mask.getLsbD i
/-- The mask of a list of lanes. -/
def maskOf (ls : List Nat) : DWord := ls.foldl (fun a i => a ||| ((1 : DWord) <<< i)) 0

/-! ## Cores, groups, waves, lanes -/

def Mach.core (m : Mach) (n : Nat) : Core := mgetD m.cores n Core.reset
def Mach.setCore (m : Mach) (n : Nat) (c : Core) : Mach := { m with cores := mput m.cores n c }
def Mach.updCore (m : Mach) (n : Nat) (f : Core → Core) : Mach := m.setCore n (f (m.core n))
def Mach.group (m : Mach) (gid : Nat) : Option Group := mget m.groups gid
def Mach.setGroup (m : Mach) (g : Group) : Mach := { m with groups := mput m.groups g.gid g }
def Mach.updGroup (m : Mach) (gid : Nat) (f : Group → Group) : Mach :=
  match m.group gid with
  | some g => { m with groups := mput m.groups gid (f g) }
  | none => m
def Group.wave (g : Group) (w : Nat) : Option Wave := g.waves[w]?
def Group.setWave (g : Group) (w : Wave) : Group := { g with waves := lset g.waves w.index fun _ => w }
def Group.updWave (g : Group) (w : Nat) (f : Wave → Wave) : Group := { g with waves := lset g.waves w f }
def Mach.wave (m : Mach) (gid w : Nat) : Option Wave := (m.group gid).bind fun g => g.wave w
def Mach.updWave (m : Mach) (gid w : Nat) (f : Wave → Wave) : Mach := m.updGroup gid fun g => g.updWave w f
def Wave.lane (w : Wave) (l : Nat) : Lane := w.lanes.getD l Lane.init
def Wave.updLane (w : Wave) (l : Nat) (f : Lane → Lane) : Wave := { w with lanes := lset w.lanes l f }
/-- Change several lanes. -/
def Wave.updLanes (w : Wave) (ls : List Nat) (f : Lane → Lane) : Wave := ls.foldl (fun w l => w.updLane l f) w
/-- The groups on a core. -/
def Mach.resident (m : Mach) (core : Nat) : List Group :=
  (m.groups.map (·.2)).filter fun g => g.core = core
/-- The mapped context of an ASID. -/
def Mach.ctxOf (m : Mach) (asid : BitVec 16) : Option Ctx :=
  (m.ctxs.map (·.2)).find? fun c => c.asid == asid
def Mach.setCtx (m : Mach) (c : Ctx) : Mach := { m with ctxs := mput m.ctxs c.slot c }

/-- Lanes holding live threads. -/
def Wave.live (w : Wave) : List Nat := (List.range 64).filter fun l => (w.lane l).st == .live
/-- A lane's quad holds a live thread. -/
def Wave.quadLive (w : Wave) (l : Nat) : Bool :=
  let q := 4 * (l / 4)
  [q, q + 1, q + 2, q + 3].any fun i => (w.lane i).st == .live
/-- A helper (R34): no live thread in the slot, but one in its quad. -/
def Wave.helper (w : Wave) (l : Nat) : Bool := (w.lane l).st != .live && w.quadLive l

/-- A free value, and the counter advanced (log 4, DESIGN CHOICE). -/
def Mach.free (m : Mach) : DWord × Mach := (Config.freeValue m.fresh, { m with fresh := m.fresh + 1 })

/-- A free choice among n (log 4, DESIGN CHOICE). -/
def Mach.pick (m : Mach) (n : Nat) : Nat × Mach := ((Config.freeValue m.fresh).toNat % n, { m with fresh := m.fresh + 1 })
/-- n free bytes (log 4, DESIGN CHOICE). -/
def Mach.freeBytes (m : Mach) (n : Nat) : Mach × List Byte :=
  let r := (List.range ((n + 7) / 8)).foldl (fun (a : Mach × List Byte) _ =>
    let (v, m) := a.1.free
    (m, a.2 ++ leBytes 8 v.toNat)) (m, [])
  (r.1, r.2.take n)
/-- Drop the oldest entry that passes a test from a list with its newest entry first. -/
def dropOldest {α : Type} (p : α → Bool) : List α → List α
  | [] => []
  | x :: xs => if p x && !xs.any p then xs else x :: dropOldest p xs
/-- Add an entry to a set of at most `ways`, its newest entry first: a full set loses its oldest. -/
def addWay {α : Type} (same : α → Bool) (ways : Nat) (x : α) (xs : List α) : List α :=
  if xs.length < ways || (xs.filter same).length < ways then x :: xs else x :: dropOldest same xs

/-- Threads of a group (R36). -/
def TaskRec.threads (r : TaskRec) : Nat := (r.gx.toNat + 1) * (r.gy.toNat + 1) * (r.gz.toNat + 1)
/-- Waves of a group (R23). -/
def TaskRec.waves (r : TaskRec) : Nat := (r.threads + 63) / 64
/-- Base registers: 32, 64, 96 or 128 (R36). -/
def TaskRec.baseRegs (r : TaskRec) : Nat := 32 * (r.base.toNat + 1)
/-- Preallocated extended registers (R36). -/
def TaskRec.xRegs (r : TaskRec) : Nat := if r.xpre == 1 then 64 else if r.xpre == 2 then 128 else 0

/-- The thread index in a lane of a wave (R22). (log 33, DEDUCED) -/
def TaskRec.threadAt (r : TaskRec) (wave lane : Nat) : Nat :=
  if r.q2x2 then
    let q := wave * 16 + lane / 4
    let hx := (r.gx.toNat + 1) / 2
    let hy := (r.gy.toNat + 1) / 2
    let a := q % hx
    let b := q / hx % hy
    let z := q / (hx * hy)
    let x := 2 * a + lane % 2
    let y := 2 * b + lane / 2 % 2
    x + (r.gx.toNat + 1) * (y + (r.gy.toNat + 1) * z)
  else 64 * wave + lane

/-- Sort by a key; equal keys keep their order. -/
def sortOn {α : Type} (key : α → Nat) (l : List α) : List α :=
  l.foldr (fun a acc => acc.takeWhile (fun b => key b < key a) ++ a :: acc.dropWhile (fun b => key b < key a)) []
/-- Entries by lane in ascending thread index (R22). (log 33, DEDUCED) -/
def TaskRec.byThread {α : Type} (r : TaskRec) (wave : Nat) (lane : α → Nat) (l : List α) : List α :=
  if r.q2x2 then sortOn (fun a => r.threadAt wave (lane a)) l else l

/-- The lane that holds the lowest thread index (R22). (log 33, DEDUCED) -/
def TaskRec.lowest (r : TaskRec) (wave : Nat) (ls : List Nat) : Nat := (r.byThread wave (fun l => l) ls).headD 0

/-- The logical name of a thread (R346). -/
def Group.nameOf (g : Group) (wave lane : Nat) : ThreadName :=
  ⟨g.launch, g.task.tileX, g.task.tileY, g.task.tileZ, BitVec.ofNat 16 (g.task.threadAt wave lane)⟩

end Sys2Proof.Machine
end

