-- ==== Sys2Proof/Machine/Mem.lean ====
section
/-! DEFINITION. Device memory: stored words and their check bits (R376), translation (R177, R319, R320), the
remap filter (R178), the LLC (R180), L1 (R179, R181, R182), signatures (R184 to R187) and the access checks of
R171 and R175. -/

namespace Sys2Proof.Machine

/-! ## Counters (R344, R345) -/

/-- Add events of a clk to a counter word: modulo 2^48, noting a wrap. -/
def Counter.add (c : Counter) (clk code n : Nat) (who : Option (Nat × Nat)) : Counter :=
  if c.ctl.getLsbD 16 && c.ctl.toNat % 65536 == code && n != 0 then
    let t := c.value.toNat + n
    let c := { c with value := BitVec.ofNat 48 t, at_ := clk, now := if c.at_ = clk then c.now + n else n }
    if t < 2 ^ 48 then c else { c with wrapped := c.wrapped.or (some who), wrapAt := if c.wrapped.isSome then c.wrapAt else clk }
  else c
/-- Count core events of one context: those of an instruction are its wave's (R345). -/
def Mach.count (m : Mach) (core : Nat) (asid : BitVec 16) (code n : Nat)
    (who : Option (Nat × Nat) := none) : Mach :=
  let c := m.core core
  if c.counters.isEmpty then m else
  let who := who.or (m.issue.map fun i => (i.gid, i.wave))
  m.setCore core { c with counters := c.counters.map fun p =>
    if p.1 / 8 == asid.toNat then (p.1, p.2.add m.clk code n who) else p }
/-- Count slice events. -/
def Mach.countSlice (m : Mach) (slice code n : Nat) : Mach :=
  if m.slices.isEmpty then m else
  { m with slices := m.slices.map fun p => if p.1 / 16 == slice then (p.1, p.2.add m.clk code n none) else p }
/-- Count device events. -/
def Mach.countDevice (m : Mach) (code n : Nat) : Mach :=
  if m.device.isEmpty then m else
  { m with device := m.device.map fun p => (p.1, p.2.add m.clk code n none) }

/-! ## Requests and beats (R344, R371, R378) -/

/-- A request reaches the home slice of an address. -/
def Mach.request (m : Mach) (asid : BitVec 16) (va : Nat) : Mach :=
  { m with used := { m.used with llc := m.used.llc + 1, slice := homeSlice asid va } }
/-- Bytes pass between the controllers and memory: a beat of a vertical channel carries 32 of them (R378), those of GDDR 7
are compressed (R20). (log 42, DESIGN CHOICE) -/
def Mach.beats (m : Mach) (pa : Nat) (bs : List Byte) : Mach :=
  if pa < dramTop then
    let n := (pa + bs.length + 31) / 32 - pa / 32
    { m with used := { m.used with beats := m.used.beats + n } }.countDevice 0x0201 n
  else
    let n := Config.gddrBeats bs
    { m with used := { m.used with gddr := m.used.gddr + n } }.countDevice 0x0203 n

/-! ## Stored words (R376 to R381) -/

/-- Append to an error log ring of `cap` entries (R377). -/
def ErrLog.add (l : ErrLog) (cap : Nat) (e : DWord) : ErrLog :=
  if l.entries.length < cap then { l with entries := l.entries ++ [e] }
  else ⟨l.entries.drop 1 ++ [e], min (l.overflow + 1) 0xFFFF⟩
/-- Number of ones in a mask of wrong bits. (log 13, PRESUMED) -/
def ones (f : BitVec 72) : Nat := (List.range 72).foldl (fun a i => if f.getLsbD i then a + 1 else a) 0
/-- The syndrome of a mask of wrong bits (R376). -/
def syndrome (f : BitVec 72) : BitVec 8 :=
  (List.range 72).foldl (fun a i => if f.getLsbD i then a ^^^ Config.hsiaoColumn i else a) 0
/-- An array log entry (R377). -/
def arrayEntry (ue : Bool) (f : BitVec 72) (word : Nat) : DWord :=
  BitVec.ofNat 64 (2 ^ 63 + (if ue then 2 ^ 62 else 0) + (syndrome f).toNat * 2 ^ 54
    + Config.dramChannel word % 32 * 2 ^ 49 + Config.dramIndex word % 2 ^ 31)
/-- A vertical-bus or GDDR 7 log entry (R379, R381). (log 45, DEDUCED) -/
def busEntry (fatal : Bool) (groups : Byte) (attempts chan : Nat) (toDies : Bool) (wire : Option (BitVec 9))
    (gddr : Bool) : DWord :=
  BitVec.ofNat 64 (2 ^ 63 + (if fatal then 2 ^ 62 else 0) + groups.toNat * 2 ^ 54 + attempts % 4 * 2 ^ 52
    + chan % 32 * 2 ^ 47 + (if toDies then 2 ^ 46 else 0)
    + (match wire with | some w => 2 ^ 45 + w.toNat * 2 ^ 36 | none => 0) + (if gddr then 2 ^ 35 else 0))
/-- Every channel trained and every GDDR 7 device good. -/
def Rel.allOk (r : Rel) : Bool := r.status.all (· == .ok) && r.gddrDegraded.isEmpty
/-- The word's channel is still training: its accesses stall (R380). -/
def Rel.stalls (r : Rel) (word : Nat) : Bool :=
  if r.allOk then false
  else decide (word * 8 < dramTop) && r.status.getD (Config.dramChannel word % 32) .ok == .training
/-- The word's channel or device is degraded (R378, R381). (log 62, DESIGN CHOICE) -/
def Rel.dead (r : Rel) (word : Nat) : Bool :=
  if r.allOk then false
  else if word * 8 < dramTop then r.status.getD (Config.dramChannel word % 32) .ok == .degraded
  else r.gddrDegraded.contains (word % 16)
/-- What a die makes of a stored word (R376). -/
inductive Ecc where
  /-- zero syndrome -/
  | clean
  /-- the bits it corrects -/
  | corrected (fix : BitVec 72)
  | poisoned
  deriving DecidableEq, Repr
/-- What a die makes of a word with a mask of wrong bits, by its syndrome: no error, the error of one bit, or any other (R376).
The code corrects each single error and detects each double one; a worse error may look like either. (log 13, PRESUMED) -/
def eccOf (f : BitVec 72) : Ecc :=
  match ones f with
  | 0 => .clean
  | 1 => .corrected f
  | 2 => .poisoned
  | _ =>
    let s := syndrome f
    if s = 0 then .clean else
    match (List.range 72).find? fun i => Config.hsiaoColumn i == s with
    | some i => .corrected ((1 : BitVec 72) <<< i)
    | none => .poisoned
/-- What a die makes of a stored word of either memory: a GDDR 7 line that fails to decompress is poisoned (R376, R381). -/
def Rel.eccAt (r : Rel) (word : Nat) : Ecc :=
  if r.bad.contains word then .poisoned else
  match mget r.flips word with
  | some f => eccOf f
  | none => .clean
/-- A word of a byte range is poisoned, or its channel or device is degraded (R376, R378). -/
def Rel.poisonedIn (r : Rel) (pa n : Nat) : Bool :=
  ((List.range ((pa + n + 7) / 8 - pa / 8)).map (· + pa / 8)).any fun w => r.dead w || r.eccAt w == .poisoned
/-- Log an array error and raise the interrupt of an uncorrectable one (R377, R381). -/
def Rel.logArray (r : Rel) (ue : Bool) (f : BitVec 72) (word : Nat) : Rel :=
  let r := if ue then { r with errorIrqs := r.errorIrqs + 1 } else r
  if word * 8 < dramTop then
    { r with arrayLogs := lset r.arrayLogs (Config.dramDie word % 4) fun l => l.add 64 (arrayEntry ue f word) }
  else { r with gddrLog := r.gddrLog.add 64 (busEntry false 0 0 (word % 16) false none true) }
/-- The 8 bytes that were written to a word. -/
def Mach.wordBytes (m : Mach) (word : Nat) : List Byte := (List.range 8).map fun i => cellGet m.mem (8 * word + i)
/-- The 8 bytes that a die delivers of a word: as written but for the bits that are wrong and stay so. Bits 63 to 0 of a stored
word are its data. (log 13, PRESUMED) -/
def Mach.wordOut (m : Mach) (word : Nat) : List Byte :=
  match mget m.rel.flips word, m.rel.eccAt word with
  | none, _ => m.wordBytes word
  | some _, .poisoned => m.wordBytes word
  | some f, .clean => leBytes 8 (BitVec.ofNat 64 (leNat (m.wordBytes word)) ^^^ f.setWidth 64).toNat
  | some f, .corrected fix => leBytes 8 (BitVec.ofNat 64 (leNat (m.wordBytes word)) ^^^ (f ^^^ fix).setWidth 64).toNat
/-- No word of a channel in training has been touched yet. -/
def Mach.untouched (m : Mach) : Mach := if m.rel.touched then { m with rel := { m.rel with touched := false } } else m
/-- A word of a channel in training is touched: the step will stall (R380). -/
def Mach.stallAt (m : Mach) (word : Nat) : Mach :=
  if m.rel.stalls word then { m with rel := { m.rel with touched := true } } else m
/-- Read a word at its die: data, and whether it is poisoned. A corrected word is written back later (R376).
(log 13, PRESUMED; log 62, DESIGN CHOICE) -/
def Mach.readWord (m : Mach) (word : Nat) : Mach × List Byte × Bool :=
  let m := m.stallAt word
  let d := m.wordOut word
  if m.rel.dead word then (m, d, true) else
  match m.rel.eccAt word with
  | .clean => (m, d, false)
  | .corrected _ =>
    let r := m.rel.logArray false (mgetD m.rel.flips word 0) word
    ({ m with rel := { r with corrective := r.corrective ++ [(word, BitVec.ofNat 64 (leNat d))] } }, d, false)
  | .poisoned => ({ m with rel := m.rel.logArray true (mgetD m.rel.flips word 0) word }, d, true)
/-- Bytes put into a word, the rest of it as it stands. -/
def Mach.putWord (m : Mach) (word : Nat) (bs : List (Nat × Byte)) : Mach :=
  { m with mem := bs.foldl (fun mem p => cellPut mem (8 * word + p.1) p.2) m.mem }
/-- Write bytes within one word: a write of every byte ends the poison, and a write of part of a word that is not poisoned merges
with what the die delivers and stores good check bits (R376). A degraded channel takes no writes (R378). (log 62, DESIGN CHOICE) -/
def Mach.writeWord (m : Mach) (word : Nat) (bs : List (Nat × Byte)) : Mach :=
  let m := m.stallAt word
  if m.rel.dead word then m else
  if m.rel.flips.isEmpty && m.rel.corrective.isEmpty && m.rel.bad.isEmpty then m.putWord word bs else
  let r := { m.rel with corrective := m.rel.corrective.filter fun p => p.1 != word }
  let good : Rel := { r with flips := mdel r.flips word, bad := r.bad.filter (· != word) }
  if bs.length = 8 then { m.putWord word bs with rel := good }
  else if m.rel.eccAt word == .poisoned then { m.putWord word bs with rel := r }
  else { (m.putWord word ((List.range 8).zip (m.wordOut word))).putWord word bs with rel := good }
/-- Write bytes at physical addresses below GDDR 7's end. -/
def Mach.paWrite (m : Mach) (pa : Nat) (bs : List Byte) : Mach :=
  let ps := (List.range bs.length).zip bs
  let words := (List.range ((pa + bs.length + 7) / 8 - pa / 8)).map (· + pa / 8)
  words.foldl (fun m w =>
    let mine := ps.filterMap fun p => if (pa + p.1) / 8 = w then some ((pa + p.1) % 8, p.2) else none
    if mine.isEmpty then m else m.writeWord w mine) (m.beats pa bs)
/-- Read bytes at a physical address: the bytes, and the first poisoned address. -/
def Mach.paRead (m : Mach) (pa n : Nat) : Mach × List Byte × Option Nat :=
  let words := (List.range ((pa + n + 7) / 8 - pa / 8)).map (· + pa / 8)
  let (m, bs, bad) := words.foldl (fun (a : Mach × List Byte × Option Nat) w =>
    let (m, d, p) := a.1.readWord w
    (m, a.2.1 ++ d, if p then a.2.2.or (some (8 * w)) else a.2.2)) (m, [], none)
  let bs := (bs.drop (pa % 8)).take n
  (m.beats pa bs, bs, bad)

/-! ## Translation (R177, R319, R320) -/

/-- LLC key of a sector, and L1 key of a line. -/
def secKey (asid : BitVec 16) (va : Nat) : Nat := asid.toNat * 2 ^ 43 + va % 2 ^ 48 / 32
def lineKey (asid : BitVec 16) (va : Nat) : Nat := asid.toNat * 2 ^ 42 + va % 2 ^ 48 / 64
/-- The LLC sector of a physical address, under the name the remap filter records (R178). -/
def Mach.physSector (m : Mach) (pa : Nat) : Option LlcSector :=
  (m.remap.find? fun e => e.line == pa / 64).bind fun e => mget m.llc (e.asid.toNat * 2 ^ 43 + e.vl * 2 + pa % 64 / 32)
/-- Read n bytes within a word at a physical address for the Glade itself: in the LLC, or at the die, where the word may be
poisoned (R177, R178, R376). -/
def Mach.physRead (m : Mach) (pa n : Nat) : Mach × List Byte × Bool :=
  match m.physSector pa with
  | some s => (m, (s.bytes.drop (pa % 32)).take n, false)
  | none => match m.paRead pa n with
    | (m, bs, bad) => (m, bs, bad.isSome)
/-- A dword at a physical address. -/
def Mach.physWord (m : Mach) (pa : Nat) : Mach × Nat × Bool :=
  match m.physRead pa 8 with
  | (m, bs, bad) => (m, leNat bs, bad)

/-- Bytes of a page of SIZE 0 to 3 (R320). -/
def pageBytes (size : Nat) : Nat :=
  match size with
  | 0 => 2 ^ 12 | 1 => 2 ^ 16 | 2 => 2 ^ 21 | _ => 2 ^ 30
/-- Bits of a page-table entry. -/
def pteBit (e k : Nat) : Bool := e / 2 ^ k % 2 == 1
/-- An entry that points to a table: only V and PFN (R319). -/
def pteTable (e : Nat) : Bool := e % 2 ^ 12 == 1 && e / 2 ^ 48 == 0
/-- A leaf entry: no reserved bit, no reserved class (R319); C64 only at level 4, where LEAF must be 0. -/
def pteLeaf (e size : Nat) : Bool :=
  let cls := e / 2 ^ 9 % 8
  pteBit e 0 && e / 2 ^ 58 == 0 && e / 2 ^ 7 % 4 == 0 && cls ≤ 4
    && (cls == 1 || e / 2 ^ 48 % 1024 == 0) && e / 2 ^ 12 % 2 ^ 36 * 4096 % pageBytes size == 0
    && (if 2 ≤ size then pteBit e 1 && !pteBit e 2 else !pteBit e 1 && (pteBit e 2 == (size == 1)))
/-- What a walk of the page table finds: a leaf and its SIZE, no valid entry, or a poisoned word (R319, R376). -/
inductive Walked where
  | leaf (e size : Nat)
  | none
  | poison
  deriving DecidableEq, Repr
/-- A leaf that is well formed. -/
def leafOr (e size : Nat) : Walked := if pteLeaf e size then .leaf e size else .none
/-- Walk the page table (R319). Its words are read as any others: logged, corrected or poisoned (R376). (log 87, DEDUCED) -/
def Mach.walkTable (m : Mach) (root va : Nat) : Mach × Walked :=
  match m.physWord (root + 8 * (va / 2 ^ 39 % 512)) with
  | (m, _, true) => (m, .poison)
  | (m, e1, false) =>
  if !pteTable e1 then (m, .none) else
  match m.physWord (e1 / 4096 % 2 ^ 36 * 4096 + 8 * (va / 2 ^ 30 % 512)) with
  | (m, _, true) => (m, .poison)
  | (m, e2, false) =>
  if pteBit e2 1 then (m, leafOr e2 3)
  else if !pteTable e2 then (m, .none) else
  match m.physWord (e2 / 4096 % 2 ^ 36 * 4096 + 8 * (va / 2 ^ 21 % 512)) with
  | (m, _, true) => (m, .poison)
  | (m, e3, false) =>
  if pteBit e3 1 then (m, leafOr e3 2)
  else if !pteTable e3 then (m, .none) else
  let t4 := e3 / 4096 % 2 ^ 36 * 4096
  let i4 := va / 2 ^ 12 % 512
  match m.physWord (t4 + 8 * i4) with
  | (m, _, true) => (m, .poison)
  | (m, e4, false) =>
  if !pteBit e4 2 then (m, leafOr e4 0) else
  -- the sixteen entries of a 64 KiB page are equal
  (List.range 16).foldl (fun (a : Mach × Walked) j =>
    match a.2 with
    | .leaf _ _ => (match a.1.physWord (t4 + 8 * (i4 / 16 * 16 + j)) with
      | (m, _, true) => (m, .poison)
      | (m, e, false) => (m, if e == e4 then a.2 else .none))
    | _ => a) (m, leafOr e4 1)

/-- A page number is covered by an entry of a SIZE. -/
def covers (vpn size va : Nat) : Bool := va % 2 ^ 48 / pageBytes size == vpn * 4096 / pageBytes size
/-- The controller that translates an address: the one under the convoy of its home slice (R177). -/
def ownerOf (asid : BitVec 16) (va : Nat) : Nat := homeSlice asid va / 4
/-- The translation cached at a controller for an address. -/
def Mach.cachedTrans (m : Mach) (asid : BitVec 16) (va : Nat) : Option TransEntry :=
  (mgetD m.trans (ownerOf asid va) []).find? fun t => t.asid == asid && covers t.vpn t.size va
/-- The controller's translation of an address: cached, or walked and cached, its newest 4096 entries kept (R177).
(log 6, DESIGN CHOICE) -/
def Mach.translate (m : Mach) (asid : BitVec 16) (va : Nat) : Mach × Option TransEntry :=
  if va ≥ 2 ^ 48 then (m, none) else
  match m.cachedTrans asid va with
  | some t => (m, some t)
  | none =>
    match m.ctxOf asid with
    | none => (m, none)
    | some c =>
      match m.walkTable c.ptroot va with
      | (m, .leaf e size) =>
        let t : TransEntry := ⟨asid, va / 4096, size, BitVec.ofNat 64 e⟩
        let n := ownerOf asid va
        ({ m with trans := mput m.trans n ((t :: mgetD m.trans n []).take 4096) }, some t)
      | (m, _) => (m, none)
/-- The fault of an address that no translation is found for: PAGE, or DATA_UNCORRECTABLE where the walk met a poisoned word.
(log 87, DEDUCED) -/
def Mach.pageCode (m : Mach) (asid : BitVec 16) (va : Nat) : Nat :=
  if va ≥ 2 ^ 48 then Code.page else
  match (m.ctxOf asid).map fun c => (m.walkTable c.ptroot va).2 with
  | some .poison => Code.dataUncorrectable
  | _ => Code.page
/-- Class of a cached translation. -/
def TransEntry.cls (t : TransEntry) : Nat := t.leaf.toNat / 2 ^ 9 % 8
/-- Grove index of a cached translation. -/
def TransEntry.gidx (t : TransEntry) : Nat := t.leaf.toNat / 2 ^ 48 % 1024
/-- Physical address of a VA under a translation. -/
def TransEntry.pa (t : TransEntry) (va : Nat) : Nat :=
  t.leaf.toNat / 4096 % 2 ^ 36 * 4096 + va % 2 ^ 48 % pageBytes t.size

/-! ## Consignments meet writes (R196, R212) -/

/-- Write SR_TXCAUSE of a thread at an abort and raise its count, but for a pre-emption (R212). -/
def Lane.txAbort (l : Lane) (cause code : Nat) : Lane :=
  let n := if cause = 5 then l.txAborts else l.txAborts + 1
  { l with txAborts := n, txcause := BitVec.ofNat 32 (code * 65536 + min n 15 * 256 + cause) }
/-- Abort a consignment with a cause: its buffer is discarded and its thread runs on (R212). -/
def Mach.abortConsign (m : Mach) (c : Consign) (cause code : Nat) (who : Option (Nat × Nat) := none) : Mach :=
  if c.aborted then m else
  let m := { m with consigns := m.consigns.map fun d =>
    if d == c then { d with aborted := true, buffer := [], sectors := [], exclusive := false } else d }
  let m := m.updWave c.gid c.wave fun w => w.updLane c.lane fun l => l.txAbort cause code
  match m.group c.gid with
  | some g => m.count g.core g.asid 0x000E 1 who
  | none => m
/-- A write of another party reached a sector at the LLC: recorded consignments abort with cause 1, exclusive ones
never (R212, R214). -/
def Mach.noteWrite (m : Mach) (asid : BitVec 16) (va : Nat) (who : Option (Nat × Nat × Nat)) : Mach :=
  if m.consigns.isEmpty then m else
  let hit := m.consigns.filter fun c => !c.aborted && !c.exclusive && c.asid == asid
    && (mget c.sectors (va / 32)).isSome && who != some (c.gid, c.wave, c.lane)
  hit.foldl (fun m c => m.abortConsign c 1 0) m
/-- A sector is locked by an exclusive consignment of another thread (R214). -/
def Mach.locked (m : Mach) (asid : BitVec 16) (va : Nat) (who : Option (Nat × Nat × Nat)) : Bool :=
  m.consigns.any fun c => c.exclusive && !c.aborted && c.asid == asid
    && (mget c.sectors (va / 32)).isSome && who != some (c.gid, c.wave, c.lane)

/-! ## The LLC (R178, R180, R188) -/

/-- Write a dirty ordinary sector back to its physical address, which the remap filter records (R178, R180). -/
def Mach.llcWriteBack (m : Mach) (key : Nat) : Mach :=
  match mget m.llc key with
  | some s =>
    if s.dirty && !s.generated then
      let m := match m.remap.find? fun e => e.asid.toNat * 2 ^ 42 + e.vl == key / 2 with
        | some e => m.paWrite (64 * e.line + 32 * (key % 2)) s.bytes
        | none => m
      { m with llc := mput m.llc key { s with dirty := false } }
    else m
  | none => m
/-- Write back and drop a sector. -/
def Mach.llcDrop (m : Mach) (key : Nat) : Mach :=
  let m := m.llcWriteBack key
  { m with llc := mdel m.llc key }
/-- Write back and invalidate the LLC lines of the name a physical line lives under; the filter keeps the name
(R178, R188, R318, R385). -/
def Mach.dropPhys (m : Mach) (line : Nat) : Mach :=
  match m.remap.find? (fun e => e.line == line) with
  | some e =>
    let k := e.asid.toNat * 2 ^ 43 + e.vl * 2
    (m.llcDrop k).llcDrop (k + 1)
  | none => m
/-- The entry of a physical line leaves the filter, with the line's LLC copy: from now on the filter cannot tell whether the line
lives under one name alone (R178, R198). (log 78, DEDUCED) -/
def Mach.forgetName (m : Mach) (e : RemapEntry) : Mach :=
  { (m.dropPhys e.line).countSlice (homeSlice e.asid (e.vl * 64)) 0x0107 1 with
    remap := m.remap.filter fun x => x.line != e.line
    aliased := if m.aliased.contains e.line then m.aliased else e.line :: m.aliased }
/-- Two physical lines share a controller and a set, PA[16:6], of the remap filter (R326). (log 6, DESIGN CHOICE) -/
def remapMates (a b : Nat) : Bool := Config.remapController a == Config.remapController b && a % 2048 == b % 2048
/-- Record the name of a physical line in the remap filter: a second name drops the first's lines, a full set of 16 ways its
oldest entry (R178, R326). -/
def Mach.recordName (m : Mach) (line : Nat) (asid : BitVec 16) (vl : Nat) : Mach :=
  match m.remap.find? fun e => e.line == line with
  | some e => if e.asid == asid && e.vl == vl then m else
    let m := m.forgetName e
    { m with remap := ⟨line, asid, vl⟩ :: m.remap }
  | none =>
    let m := if m.remap.length < 16 then m else
      match (m.remap.filter fun e => remapMates e.line line)[15]? with
      | some e => m.forgetName e
      | none => m
    { m with remap := ⟨line, asid, vl⟩ :: m.remap }

/-- A remap filter entry as its table holds it (R326): PTAG, ASID, VL and V. -/
def RemapEntry.bits (e : RemapEntry) : BitVec 96 :=
  BitVec.ofNat 96 (e.line / 2 ^ 11 % 2 ^ 31 * 2 ^ 59 + e.asid.toNat * 2 ^ 43 + e.vl % 2 ^ 42 * 2 + 1)

/-! ## Evictions (R170, R180, R189) -/

/-- The set of the victim store that a line lies in. (log 80, DESIGN CHOICE) -/
def victimSet (line : Nat) : Nat := Config.victimSet line % Config.victimSets
/-- Where a way of a line's set lies in GDDR 7. (log 80, DESIGN CHOICE) -/
def victimAt (line way : Nat) : Nat :=
  dramTop + (Config.victimBase + victimSet line * Config.victimWays + way) % ((gddrTop - dramTop) / 64) * 64
/-- The way of its set that a line takes: the lowest free one, or that of the oldest line, which gives way (R189). -/
def victimWay (mates : List (Nat × Nat)) : Nat :=
  ((List.range Config.victimWays).find? fun w => !mates.any fun p => p.2 == w).getD ((mates.getLast?.map (·.2)).getD 0)
/-- A line's generated bytes go to the victim store in GDDR 7: the oldest line of a full set gives way, and a write that fails with
an uncorrectable word drops the line (R189). (log 80, DESIGN CHOICE) -/
def Mach.victimPut (m : Mach) (line : Nat) (bs : List Byte) : Mach :=
  let rest := m.victim.filter fun p => p.1 != line
  if Config.victimWays = 0 then { m with victim := rest } else
  let way := victimWay (rest.filter fun p => victimSet p.1 == victimSet line)
  let rest := rest.filter fun p => !(victimSet p.1 == victimSet line && p.2 == way)
  let pa := victimAt line way
  if (List.range 8).any fun i => m.rel.dead (pa / 8 + i) then { m with victim := rest }
  else { m.paWrite pa bs with victim := (line, way) :: rest }
/-- The victim store holds a line: its bytes, in one GDDR 7 access. One that fails is dropped (R189, R381). -/
def Mach.victimGet (m : Mach) (line : Nat) : Mach × Option (List Byte) :=
  match m.victim.lookup line with
  | none => (m, none)
  | some way =>
    match m.paRead (victimAt line way) 64 with
    | (m, bs, none) => (m, some bs)
    | (m, _, some _) => ({ m with victim := m.victim.filter fun p => p.1 != line }, none)
/-- Evict a line from the LLC: its ordinary sectors are written back, a generated line of a keep-policy grove goes to the
victim store (R180, R189). -/
def Mach.evictLine (m : Mach) (line : Nat) : Mach :=
  let m := match mget m.llc (2 * line), mget m.llc (2 * line + 1) with
    | some a, some b => if a.generated && b.generated && a.keep then m.victimPut line (a.bytes ++ b.bytes) else m
    | _, _ => m
  (m.llcDrop (2 * line)).llcDrop (2 * line + 1)
/-- Evict the line of a sector from the LLC (log 6, DESIGN CHOICE). -/
def Mach.evictLlc (m : Mach) (key : Nat) : Mach := if (mget m.llc key).isSome then m.evictLine (key / 2) else m
/-- Lines of the LLC that share a line's set of 16. -/
def Mach.llcMates (m : Mach) (line : Nat) : List Nat :=
  let slice (l : Nat) : Nat := homeSlice (BitVec.ofNat 16 (l / 2 ^ 42)) (l % 2 ^ 42 * 64)
  ((m.llc.map fun p => p.1 / 2).eraseDups).filter fun l =>
    slice l == slice line && Config.llcSet l % 6144 == Config.llcSet line % 6144
/-- A line is in the first-victim position. -/
def Mach.isFirst (m : Mach) (line : Nat) : Bool :=
  [2 * line, 2 * line + 1].any fun k => match mget m.llc k with | some s => s.firstVictim | none => false
/-- Make room for a line in its LLC set: a first-victim line leaves before the others, of which any may leave (R170, R181).
(log 6, DESIGN CHOICE) -/
def Mach.llcRoom (m : Mach) (line : Nat) : Mach :=
  if m.llc.length < 16 || (mget m.llc (2 * line)).isSome || (mget m.llc (2 * line + 1)).isSome then m else
  let mates := m.llcMates line
  if mates.length < 16 then m else
  match mates.find? m.isFirst with
  | some l => m.evictLine l
  | none => let (i, m) := m.pick mates.length
    m.evictLine (mates.getD i line)
/-- Mark a line of the LLC first-victim (R181, R182, R209). -/
def Mach.markFirst (m : Mach) (line : Nat) : Mach :=
  { m with llc := m.llc.map fun p => if p.1 / 2 = line then (p.1, { p.2 with firstVictim := true }) else p }
/-- The hint places a line first-victim in the LLC when it is filled (R181). -/
def firstHint : Hint → Bool
  | .nalloc | .evf => true
  | _ => false

/-! ## Frames in the frame store (R39) -/

/-- Key of a frame. -/
def frameKey (asid : BitVec 16) (h : Nat) : Nat := asid.toNat * 2 ^ 48 + h
/-- The frame with a handle. (log 31, DESIGN CHOICE) -/
def Mach.frame (m : Mach) (asid : BitVec 16) (h : Nat) : Option Frame := mget m.frames (frameKey asid h)
def Mach.setFrame (m : Mach) (asid : BitVec 16) (h : Nat) (f : Frame) : Mach :=
  { m with frames := mput m.frames (frameKey asid h) f }
def Mach.updFrame (m : Mach) (asid : BitVec 16) (h : Nat) (f : Frame → Frame) : Mach :=
  match m.frame asid h with
  | some x => m.setFrame asid h (f x)
  | none => m
/-- The 128 bytes of a frame. CONT holds the number of the parked group and 1. (log 31, DESIGN CHOICE) -/
def Frame.bytes (f : Frame) : List Byte :=
  let bit (b : Bool) (k : Nat) : Nat := if b then 2 ^ k else 0
  leBytes 4 f.count ++ leBytes 4 (bit f.isOpen 0 + bit f.parked 1 + bit f.ready 2 + bit f.initial 3)
    ++ leBytes 8 (match f.cont with | some g => g + 1 | none => 0) ++ leBytes 8 f.parent ++ leBytes 8 f.succ.toNat
    ++ leBytes 2 f.last ++ List.replicate 30 0 ++ leBytes 64 f.sig.toNat
/-- A frame from 128 bytes. -/
def Frame.ofBytes (bs : List Byte) : Frame :=
  let f (off n : Nat) : Nat := leNat ((bs.drop off).take n)
  ⟨f 0 4, f 4 1 % 2 == 1, f 4 1 / 2 % 2 == 1, f 4 1 / 4 % 2 == 1, f 4 1 / 8 % 2 == 1,
    if f 8 8 = 0 then none else some (f 8 8 - 1), f 16 8, BitVec.ofNat 64 (f 24 8), f 32 2 % 128, BitVec.ofNat 512 (f 64 64)⟩
/-- What the sector of an address reads as at its home slice, where the join unit caches open frames (R39). -/
def Mach.withFrames (m : Mach) (asid : BitVec 16) (va : Nat) (bs : List Byte) : List Byte :=
  if m.frames.isEmpty then bs else
  match m.frame asid (va / 128 * 128) with
  | some f => (f.bytes.drop (va % 128 / 32 * 32)).take 32
  | none => bs
/-- Bytes written to a sector of an open frame change the frame. -/
def Mach.storeFrames (m : Mach) (asid : BitVec 16) (va : Nat) (bs : List (Nat × Byte)) : Mach :=
  if m.frames.isEmpty then m else
  match m.frame asid (va / 128 * 128) with
  | some f => m.setFrame asid (va / 128 * 128) (Frame.ofBytes (bs.foldl (fun l p => l.set (va % 128 / 32 * 32 + p.1) p.2) f.bytes))
  | none => m

/-- What a read below L1 finds. -/
inductive Rd where
  | ok (m : Mach) (bs : List Byte)
  /-- a grove line that no memory holds (R235) -/
  | grove (m : Mach) (va : Nat)
  /-- a fault of R351 at an address -/
  | bad (m : Mach) (code va : Nat)
  /-- a transaction of the model that must be tried again -/
  | again (m : Mach)

/-- Read at a physical address, uncached: any LLC copy is written back and dropped first (R188). A window above GDDR 7
reads free values (R174). (log 75, DESIGN CHOICE) -/
def Mach.bankRead (m : Mach) (asid : BitVec 16) (va n : Nat) (tally : Bool := true) : Rd :=
  match (if tally then m.request asid va else m).translate asid va with
  | (m, none) => .bad m (m.pageCode asid va) va
  | (m, some t) =>
    let pa := t.pa va
    if gddrTop ≤ pa then (let (m, bs) := m.freeBytes n
      .ok m bs)
    else match ((m.dropPhys (pa / 64)).paRead pa n) with
    | (m, bs, none) => .ok m bs
    | (m, _, some _) => .bad m Code.dataUncorrectable va
/-- Write at a physical address, uncached; `who` is the writing consignment's thread. A write of a window above GDDR 7
changes nothing that the model holds. (log 75, DESIGN CHOICE) -/
def Mach.bankWrite (m : Mach) (asid : BitVec 16) (va : Nat) (bs : List Byte)
    (who : Option (Nat × Nat × Nat) := none) (tally : Bool := true) : Rd :=
  match ((if tally then m.request asid va else m).noteWrite asid va who).translate asid va with
  | (m, none) => .bad m (m.pageCode asid va) va
  | (m, some t) =>
    let pa := t.pa va
    if gddrTop ≤ pa then .ok m [] else .ok ((m.dropPhys (pa / 64)).paWrite pa bs) []

/-- Element size of a tensor in half bytes (R282). -/
def Tlr.es2 (t : Tlr) : Nat :=
  match t.fmt with
  | 0 | 1 => 4 | 2 => 8 | 3 | 4 => 2 | _ => 1
/-- Bytes from the lowest to past the highest element of the whole tensor. -/
def Tlr.footprint (t : Tlr) : Nat :=
  ((t.dims.getD 0 1) * t.es2 + 1) / 2
    + (List.range 4).foldl (fun a i => a + (t.dims.getD (i + 1) 1 - 1) * t.strs.getD i 0) 0
/-- Address of the scale word of the block at a line, in a VB4 range (R97). -/
def Tlr.scaleAt (t : Tlr) (line : Nat) : Option Nat :=
  if t.fmt = 5 ∧ t.base ≤ line ∧ line < t.base + t.footprint then some (t.scales + 4 * ((line - t.base) / 64)) else none
/-- The block scale word that travels with a line while it is in the LLC: that of the registered VB4 range which holds the line, as
it stands when the line comes in (R97). (log 36, DEDUCED) -/
def Mach.scaleFor (m : Mach) (asid : BitVec 16) (va : Nat) : Option Word :=
  ((m.ctxOf asid).bind fun c => c.tlrs.findSome? fun p => p.2.scaleAt (va / 64 * 64)).bind fun sw =>
    match mget m.llc (secKey asid sw), (m.translate asid sw).2 with
    | some s, _ => some (BitVec.ofNat 32 (leNat ((s.bytes.drop (sw % 32)).take 4)))
    | none, some t => if t.cls = 0 then some (BitVec.ofNat 32 (leNat (m.physRead (t.pa sw) 4).2.1)) else none
    | none, none => none
/-- A line comes into the LLC: its sector, with the line's metadata. -/
def Mach.putSector (m : Mach) (asid : BitVec 16) (va : Nat) (bs : List Byte) (dirty : Bool) : Mach :=
  let key := secKey asid va
  { m with llc := mput m.llc key ⟨bs, dirty, false, m.isFirst (key / 2), false, m.scaleFor asid va⟩ }
/-- The lines of a newly registered VB4 range that the LLC holds take their scale words (R97). -/
def Mach.attachScales (m : Mach) (asid : BitVec 16) (t : Tlr) : Mach :=
  if t.fmt ≠ 5 then m else
  { m with llc := m.llc.map fun p =>
      let va := p.1 % 2 ^ 43 * 32
      if p.1 / 2 ^ 43 = asid.toNat ∧ (t.scaleAt (va / 64 * 64)).isSome then (p.1, { p.2 with scale := m.scaleFor asid va }) else p }
/-- Bring the sector of an address into the LLC (R177, R178, R180, R181). `tally` is false for a further access of one request
(R344). (log 6, DESIGN CHOICE) -/
def Mach.llcFill (m : Mach) (asid : BitVec 16) (va n : Nat) (hint : Hint := .norm) (tally : Bool := true) : Rd :=
  let key := secKey asid va
  let home := homeSlice asid va
  let m := if tally then m.request asid va else m
  let one := if tally then 1 else 0
  match mget m.llc key with
  | some s =>
    let m := m.countSlice home 0x0101 one
    .ok (if hint == .evf then m.markFirst (key / 2) else m) (m.withFrames asid va s.bytes)
  | none =>
    match m.translate asid va with
    | (m, none) => .bad m (m.pageCode asid va) va
    | (m, some t) =>
      if t.cls = 1 then .grove (m.countSlice home 0x0103 one) va
      else if t.cls = 0 then
        let pa := t.pa (va / 32 * 32)
        if gddrTop ≤ pa then (let (m, bs) := m.freeBytes 32
          .ok m bs)
        else
        let m := ((m.countSlice home 0x0102 one).recordName (pa / 64) asid (va % 2 ^ 48 / 64)).llcRoom (key / 2)
        match m.paRead pa 32 with
        | (m, bs, none) =>
          let m := m.putSector asid va bs false
          .ok (if firstHint hint then m.markFirst (key / 2) else m) (m.withFrames asid va bs)
        | (m, bs, some _) =>
          -- the poisoned words fault; the others are delivered; the line is not kept (R376)
          if m.rel.poisonedIn (t.pa va) n then .bad m Code.dataUncorrectable va else .ok m (m.withFrames asid va bs)
      else .bad m Code.perm va

/-- Read n bytes within one sector at the LLC. -/
def Mach.llcRead (m : Mach) (asid : BitVec 16) (va n : Nat) (hint : Hint := .norm) (tally : Bool := true) : Rd :=
  match m.llcFill asid va n hint tally with
  | .ok m bs => .ok m ((bs.drop (va % 32)).take n)
  | r => r
/-- Write bytes within one sector at the LLC, as one write; `who` is the writing consignment's thread. A window above
GDDR 7 takes no bytes. (log 75, DESIGN CHOICE) -/
def Mach.llcWrite (m : Mach) (asid : BitVec 16) (va : Nat) (bs : List (Nat × Byte))
    (who : Option (Nat × Nat × Nat)) (hint : Hint := .norm) (tally : Bool := true) : Mach :=
  if bs.isEmpty then m else
  let m := m.noteWrite asid va who
  let key := secKey asid va
  let put (old : List Byte) := bs.foldl (fun l p => l.set p.1 p.2) old
  match m.translate asid va with
  | (m, none) => m
  | (m, some t) =>
    if gddrTop ≤ t.pa va then m else
    let m := m.storeFrames asid va bs
    let fresh := (mget m.llc key).isNone
    match (if bs.length = 32 && t.cls == 0 then
        let m := if tally then (m.request asid va).countSlice (homeSlice asid va) (if fresh then 0x0102 else 0x0101) 1 else m
        Rd.ok ((m.recordName (t.pa va / 64) asid (va % 2 ^ 48 / 64)).llcRoom (key / 2)) (List.replicate 32 0)
      else m.llcFill asid (va / 32 * 32) 32 hint tally) with
    | .ok m old =>
      let m := match mget m.llc key with
        | some s => { m with llc := mput m.llc key { s with bytes := put old, dirty := true } }
        | none => m.putSector asid va (put old) true
      if hint == .evf || (firstHint hint && fresh) then m.markFirst (key / 2) else m
    | .bad m _ _ =>
      -- a sector that cannot be read for merging: the bytes go to memory themselves (R376)
      (List.range 4).foldl (fun m w =>
        let mine := bs.filterMap fun p => if p.1 / 8 = w then some (p.1 % 8, p.2) else none
        if mine.isEmpty then m else m.writeWord (t.pa (va / 32 * 32) / 8 + w) mine) m
    | _ => m

/-- Read a run of bytes sector by sector, each part by `one`. -/
def Mach.sectorRun (m : Mach) (va n : Nat) (one : Mach → Nat → Nat → Rd) : Rd :=
  ((List.range ((va + n + 31) / 32 - va / 32)).map (· + va / 32)).foldl (fun r s =>
    match r with
    | .ok m bs =>
      let a := max va (32 * s)
      (match one m a (min (va + n) (32 * s + 32) - a) with
      | .ok m x => .ok m (bs ++ x)
      | r => r)
    | r => r) (.ok m [])
/-- Write a run of bytes at the LLC. -/
def Mach.llcWriteRun (m : Mach) (asid : BitVec 16) (va : Nat) (bs : List Byte)
    (who : Option (Nat × Nat × Nat)) (tally : Bool := true) : Mach :=
  let ps := (List.range bs.length).zip bs
  let secs := (List.range ((va + bs.length + 31) / 32 - va / 32)).map (· + va / 32)
  secs.foldl (fun m s =>
    m.llcWrite asid (s * 32)
      (ps.filterMap fun p => if (va + p.1) / 32 = s then some ((va + p.1) % 32, p.2) else none) who .norm tally) m

/-! ## L1 (R179, R181, R182, R186, R187) -/

/-- An L1 line with no byte valid. -/
def l1Empty : List L1Byte := List.replicate 64 ⟨0, false, false⟩
/-- A line holds a byte written since the last write-back. -/
def l1Dirty (l : List L1Byte) : Bool := l.any (·.written)
/-- The L1 line of an address. -/
def Core.l1Line (c : Core) (asid : BitVec 16) (va : Nat) : List L1Byte := (mget c.l1 (lineKey asid va)).getD l1Empty
/-- The bytes of a line that L1 holds over a range, if it holds all. -/
def l1Hit (l : List L1Byte) (off n : Nat) : Option (List Byte) :=
  let s := (l.drop off).take n
  if s.all (·.valid) then some (s.map (·.val)) else none
/-- Write bytes into a line; `written` marks them dirty. -/
def l1Put (l : List L1Byte) (off : Nat) (bs : List Byte) (written : Bool) : List L1Byte :=
  ((List.range bs.length).zip bs).foldl (fun l p => l.set (off + p.1) ⟨p.2, true, written⟩) l
/-- Fill the bytes of a sector that the line does not hold. -/
def l1Fill (l : List L1Byte) (off : Nat) (bs : List Byte) : List L1Byte :=
  ((List.range bs.length).zip bs).foldl (fun l p =>
    if (l.getD (off + p.1) ⟨0, false, false⟩).valid then l else l.set (off + p.1) ⟨p.2, true, false⟩) l
/-- Update the clean bytes that a copy holds (R181). -/
def l1Update (l : List L1Byte) (off : Nat) (bs : List Byte) : List L1Byte :=
  ((List.range bs.length).zip bs).foldl (fun l p =>
    let c := l.getD (off + p.1) ⟨0, false, false⟩
    if c.valid && !c.written then l.set (off + p.1) { c with val := p.2 } else l) l

/-- Write back bytes of a sector from a core's L1. At a sector that an exclusive consignment has locked
they wait (R214). -/
def Mach.wbSector (m : Mach) (core : Nat) (asid : BitVec 16) (va : Nat) (bs : List (Nat × Byte)) (hint : Hint) : Mach :=
  if bs.isEmpty then m else
  let m := m.count core asid 0x0007 1
  if m.locked asid va none || m.wbWait.any (fun q => q.2.1 == asid && q.2.2.1 == va) then
    { m with wbWait := m.wbWait ++ [(core, asid, va, bs)] }
  else m.llcWrite asid va bs none hint
/-- Write-backs that no lock holds any more go on. -/
def Mach.flushWaiting (m : Mach) : Mach :=
  if m.wbWait.isEmpty then m else
  let stay (q : Nat × BitVec 16 × Nat × List (Nat × Byte)) : Bool := m.locked q.2.1 q.2.2.1 none
  (m.wbWait.filter fun q => !stay q).foldl (fun m q => m.llcWrite q.2.1 q.2.2.1 q.2.2.2 none) { m with wbWait := m.wbWait.filter stay }
/-- Dirty bytes of half a line, by offset in the sector. -/
def l1DirtyHalf (l : List L1Byte) (h : Nat) : List (Nat × Byte) :=
  (List.range 32).filterMap fun i =>
    let b := l.getD (32 * h + i) ⟨0, false, false⟩
    if b.written then some (i, b.val) else none
/-- Write back the dirty bytes of a line, keeping it clean (R179): only the sector of an address, where one is given. -/
def Mach.l1WriteBack (m : Mach) (core key : Nat) (half : Option Nat := none) : Mach :=
  let c := m.core core
  match mget c.l1 key with
  | some l =>
    if !l1Dirty l then m else
    let asid := BitVec.ofNat 16 (key / 2 ^ 42)
    let va := key % 2 ^ 42 * 64
    let hint : Hint := if c.l1First.contains key then .evf else .norm
    let mine (h : Nat) : Bool := half.isNone || half == some h
    let m := m.setCore core { c with l1 := mput c.l1 key (((List.range l.length).zip l).map fun p =>
      if mine (p.1 / 32) then { p.2 with written := false } else p.2) }
    let part (m : Mach) (h : Nat) : Mach := if mine h then m.wbSector core asid (va + 32 * h) (l1DirtyHalf l h) hint else m
    part (part m 0) 1
  | none => m
/-- Write back and invalidate a line. -/
def Mach.l1Drop (m : Mach) (core key : Nat) : Mach :=
  (m.l1WriteBack core key).updCore core fun c => { c with l1 := mdel c.l1 key, l1First := c.l1First.filter (· != key) }
/-- Keys of the lines of an ASID. -/
def Core.l1Keys (c : Core) (asid : BitVec 16) : List Nat :=
  (c.l1.map (·.1)).filter fun k => k / 2 ^ 42 == asid.toNat
/-- Write back every dirty sector of an ASID: the first half of a release (R186). -/
def Mach.l1Flush (m : Mach) (core : Nat) (asid : BitVec 16) : Mach :=
  ((m.core core).l1Keys asid).foldl (fun m k => m.l1WriteBack core k) m
/-- Write back and invalidate every line of an ASID (R187, R216). -/
def Mach.l1Purge (m : Mach) (core : Nat) (asid : BitVec 16) : Mach :=
  ((m.core core).l1Keys asid).foldl (fun m k => m.l1Drop core k) m
/-- What a core's clean copy holds of a sector follows a read of it at the LLC: a later read finds no older value (R181, R194). -/
def Mach.l1Follow (m : Mach) (core : Nat) (asid : BitVec 16) (va : Nat) (bs : List Byte) : Mach :=
  match mget (m.core core).l1 (lineKey asid va) with
  | some l => m.updCore core fun c => { c with l1 := mput c.l1 (lineKey asid va) (l1Update l (va % 64) bs) }
  | none => m
/-- A line's physical line has lived, or may have lived, under another name too: its copy may be older than what was written there (R178,
R198). -/
def Mach.isAliased (m : Mach) (asid : BitVec 16) (va : Nat) : Bool :=
  !m.aliased.isEmpty && (match (m.translate asid va).2 with
    | some t => m.aliased.contains (t.pa va / 64)
    | none => false)
/-- Acquire a signature on a core (R187): purge what it covers, or all of the ASID above 384 bits. A line with a second
name goes too: what another thread wrote under the first and fenced is promised after the edge (R178, R198). (log 78, DEDUCED) -/
def Mach.acquireL1 (m : Mach) (core : Nat) (asid : BitVec 16) (s : Sig) : Mach :=
  if (m.core core).l1.isEmpty then m
  else if s == sigOnes || sigCount s > 384 then m.l1Purge core asid
  else ((m.core core).l1Keys asid).foldl (fun m k =>
    let va := k % 2 ^ 42 * 64
    if covered s va || covered s (va + 32) || m.isAliased asid va then m.l1Drop core k else m) m
/-- Release of a group's core (R186) with the group's G unchanged. -/
def Mach.release (m : Mach) (core : Nat) (asid : BitVec 16) : Mach := m.l1Flush core asid
/-- A group acquires a signature (R185, R187). -/
def Mach.acquire (m : Mach) (gid : Nat) (s : Sig) : Mach :=
  match m.group gid with
  | some g => (m.updGroup gid fun g => { g with sig := g.sig ||| s }).acquireL1 g.core g.asid s
  | none => m

/-- Levels whose reserves are held (R50). -/
def Mach.levels (m : Mach) : List Nat := if m.ctxs.any (fun p => p.2.nestmax == 3) then [1, 2, 3] else [1, 2]
/-- Scratchpad units of 32 KiB in a core's carve-out: the grants of its ordinary groups, and one for each reserve (R172). -/
def Mach.carve (m : Mach) (core : Nat) : Nat :=
  (m.resident core).foldl (fun n g => if g.reserve = 0 then n + g.units.length else n) m.levels.length
/-- Lines a core's L1 can hold: 512 KiB less the carve-out (R172). -/
def Mach.l1Lines (m : Mach) (core : Nat) : Nat := (16 - m.carve core) * 512
/-- Give up one L1 line: a first-victim line before the others, of which any may leave (R170, R181). (log 6, DESIGN CHOICE) -/
def Mach.l1Shed (m : Mach) (core : Nat) : Mach :=
  let k := m.core core
  match k.l1First.find? (fun x => (mget k.l1 x).isSome) with
  | some x => m.l1Drop core x
  | none => let (i, m) := m.pick k.l1.length
    m.l1Drop core ((k.l1.map (·.1)).getD i 0)
/-- Make room in L1 for a line. -/
def Mach.l1Room (m : Mach) (core key : Nat) : Mach :=
  let l1 := (m.core core).l1
  if (mget l1 key).isSome || decide (l1.length < m.l1Lines core) then m else m.l1Shed core
/-- L1 gives up the lines that a larger carve-out takes from it, their dirty sectors written back (R172). -/
def Mach.l1Trim (m : Mach) (core : Nat) : Mach :=
  (List.range ((m.core core).l1.length - m.l1Lines core)).foldl (fun m _ => m.l1Shed core) m
/-- Put a line into L1, first-victim under evict-first (R181); a later access does not change that (log 93, DESIGN CHOICE). -/
def Mach.l1Keep (m : Mach) (core key : Nat) (l : List L1Byte) (hint : Hint) : Mach :=
  (m.l1Room core key).updCore core fun c =>
    { c with l1 := mput c.l1 key l
             l1First := if hint == .evf && !c.l1First.contains key then key :: c.l1First else c.l1First }
/-- The hint that acts on a line: no-allocate and bypass are ignored on a dirty one (R182). -/
def hintOn (dirty : Bool) (hint : Hint) : Hint := if dirty && (hint == .nalloc || hint == .byp) then .norm else hint
/-- Load n bytes within a sector through the load-store path of a core (R179, R181, R182). (log 6, DESIGN CHOICE) -/
def Mach.l1Load (m : Mach) (core : Nat) (asid : BitVec 16) (va n : Nat) (hint : Hint) : Rd :=
  let l := (m.core core).l1Line asid va
  let key := lineKey asid va
  let off := va % 64
  let h := hintOn (l1Dirty l) hint
  match l1Hit l off n, h with
  | some bs, .norm => .ok m bs
  | some bs, .nalloc => .ok m bs
  | some bs, .evf => .ok (m.l1Keep core key l .evf) bs
  | hit, h =>
    let m := if hit.isNone then m.count core asid 0x0006 1 else m
    match m.llcFill asid va n h with
    | .ok m bs =>
      if h == .byp then
        -- read at the LLC: what a clean copy holds of the sector is updated (R181)
        .ok (m.l1Follow core asid (va / 32 * 32) bs) ((bs.drop (va % 32)).take n)
      else
        let l' := l1Fill l (off / 32 * 32) bs
        let m := if h != .nalloc && (mget m.llc (secKey asid va)).isSome then m.l1Keep core key l' h else m
        .ok m (((l'.drop off).take n).map (·.val))
    | r => r
/-- Store bytes within a sector through the load-store path (R179, R181, R182). -/
def Mach.l1Store (m : Mach) (core : Nat) (asid : BitVec 16) (va : Nat) (bs : List Byte) (hint : Hint) : Mach :=
  let c := m.core core
  let l := c.l1Line asid va
  let key := lineKey asid va
  let off := va % 64
  let h := hintOn (l1Dirty l) hint
  if h == .norm || h == .evf then m.l1Keep core key (l1Put l off bs true) h
  else
    (m.llcWrite asid va ((List.range bs.length).map fun i => (va % 32 + i, bs.getD i 0)) none h).l1Follow core asid va bs
/-- Drop the clean bytes that a core's L1 holds of a sector: a command of a group there has written the sector at its home,
and the edge of its token or phase carries the write (R190, R194). (log 79, DEDUCED) -/
def Mach.l1Forget (m : Mach) (core : Nat) (asid : BitVec 16) (va : Nat) : Mach :=
  let key := lineKey asid va
  match mget (m.core core).l1 key with
  | none => m
  | some l =>
    let h := va % 64 / 32
    let l := ((List.range l.length).zip l).map fun p => if p.1 / 32 == h && !p.2.written then ⟨0, false, false⟩ else p.2
    m.updCore core fun c => { c with l1 := if l.any (·.valid) then mput c.l1 key l else mdel c.l1 key }

/-! ## Grove table entries (R231, R232) -/

/-- Read bytes by a supervisor access of the device in an ASID (R411). -/
def Mach.supRead (m : Mach) (asid : BitVec 16) (va n : Nat) : Rd := m.sectorRun va n fun m a k => m.llcRead asid a k
/-- The 64 bytes of a grove entry, cached by the Glade; none beyond the count or where the table cannot be read. -/
def Mach.groveBytes (m : Mach) (asid : BitVec 16) (idx : Nat) : Mach × Option (List Byte) :=
  match m.ctxOf asid with
  | none => (m, none)
  | some c =>
    if c.groveCount ≤ idx then (m, none) else
    match mget m.groveCache (asid.toNat * 1024 + idx) with
    | some bs => (m, some bs)
    | none =>
      match m.supRead asid (c.groves + 64 * idx) 64 with
      | .ok m bs => ({ m with groveCache := mput m.groveCache (asid.toNat * 1024 + idx) bs }, some bs)
      | .grove m _ => (m, none)
      | .bad m _ _ => (m, none)
      | .again m => (m, none)
/-- A field of a byte list, little-endian. -/
def fieldAt (bs : List Byte) (off n : Nat) : Nat := leNat ((bs.drop off).take n)

/-- A grove entry (R231). -/
structure Grove where
  base : Nat
  entry : Nat
  arg : Nat
  valid : Bool
  paths : Nat
  flvl : Nat
  keep : Bool
  gran : Nat
  size : Nat
  allot : Nat
  bpri : Nat
  shape : Nat
  res : Nat
  ctab : Nat
  wcount : Nat
  bars : Nat
  /-- a reserved field is nonzero -/
  resv : Bool
  deriving DecidableEq, Repr
/-- Read a grove entry's fields. -/
def Grove.ofBytes (bs : List Byte) : Grove :=
  let w := fieldAt bs 24 4
  let v := fieldAt bs 28 4
  let u := fieldAt bs 48 4
  { base := fieldAt bs 0 8, entry := fieldAt bs 8 8, arg := fieldAt bs 16 8
    valid := w / 2 ^ 31 == 1, paths := w / 2 ^ 16 % 32, flvl := w / 2 ^ 14 % 4, keep := w / 2 ^ 13 % 2 == 1
    gran := w / 256 % 4, size := w % 64, allot := v / 256 % 64, bpri := v % 256
    shape := fieldAt bs 32 4, res := fieldAt bs 36 4, ctab := fieldAt bs 40 8
    wcount := u / 2 ^ 16 % 128, bars := u % 64
    resv := w / 2 ^ 21 % 1024 != 0 || w / 2 ^ 10 % 8 != 0 || w / 64 % 4 != 0 || v / 2 ^ 14 != 0
      || u / 2 ^ 23 != 0 || u / 64 % 1024 != 0 || fieldAt bs 52 12 != 0 }
/-- log2 of the granule (R234). -/
def Grove.lg (g : Grove) : Nat := if g.gran = 0 then 6 else if g.gran = 1 then 12 else 16
/-- The entry is valid and contains an address (R232). -/
def Grove.has (g : Grove) (va : Nat) : Bool := g.valid && decide (g.base ≤ va ∧ va < g.base + 2 ^ g.size)
/-- Granule number of an address (R234). -/
def Grove.granule (g : Grove) (va : Nat) : Nat := (va - g.base) / 2 ^ g.lg

/-! ## Access checks (R171, R175, R320) -/

/-- Kinds of access. -/
inductive Acc where
  | load | store | atomic | fetch
  deriving DecidableEq, Repr
/-- What a check finds. `ord` numbers the checks of R175 in order. -/
inductive Chk where
  | ok (cls : Nat)
  | walk (va : Nat)
  | bad (ord code va : Nat)
  deriving DecidableEq, Repr

/-- PERM, GEN_WRITE and BANKOP_RANGE under a TLB entry. `remote` says the page is a remote range (R385). -/
def permCheck (e : TlbEntry) (sys remote : Bool) (acc : Acc) (path va : Nat) : Chk :=
  let right := match acc with
    | .load => e.r
    | .store | .atomic => e.w
    | .fetch => e.x
  let isRead := acc == .load || acc == .fetch
  if (!sys && (2 ^ 47 ≤ va || !e.u)) || !right || remote
      || (e.cls == 1 && isRead && !e.paths.getLsbD path)
      || (e.cls == 4 && (path != 0 || acc == .atomic || acc == .fetch)) then .bad 2 Code.perm va
  else if e.cls == 1 && !isRead then .bad 3 Code.genWrite va
  else if e.cls == 2 && acc == .atomic then .bad 4 Code.bankopRange va
  else .ok e.cls.toNat
/-- The page lies in a remote range: a window of another device (R385). -/
def Mach.remotePage (m : Mach) (asid : BitVec 16) (cls : BitVec 3) (va : Nat) : Bool :=
  if cls != 3 then false else
  match (m.translate asid va).2 with
  | some t => (remoteOf (t.pa va)).isSome
  | none => false
/-- The checks of R175 from a core's attribute TLB: ALIGN to n, PAGE, PERM, GEN_WRITE, BANKOP_RANGE. -/
def Mach.check (m : Mach) (core : Nat) (asid : BitVec 16) (sys : Bool) (acc : Acc) (path va n : Nat) : Chk :=
  if n != 0 && va % n != 0 then .bad 0 Code.align va
  else if 2 ^ 48 ≤ va then .bad 1 Code.page va
  else
    let c := m.core core
    match c.tlb.find? (fun e => e.asid == asid && covers e.vpn e.size va) with
    | some e => permCheck e sys (m.remotePage asid e.cls va) acc path va
    | none =>
      match c.walks.find? fun f => f.asid == asid && f.vpn == va / 4096 with
      | some f => .bad 1 f.code va
      | none => .walk va

/-- The TLB entry a translation gives, with the grove's PATHS (R320). -/
def Mach.tlbOf (m : Mach) (t : TransEntry) : Mach × TlbEntry :=
  let e := t.leaf.toNat
  let (m, paths) :=
    if t.cls = 1 then
      match m.groveBytes t.asid t.gidx with
      | (m, some bs) => (m, BitVec.ofNat 5 (Grove.ofBytes bs).paths)
      | (m, none) => (m, 0x1F)
    else (m, (0x1F : BitVec 5))
  (m, ⟨t.asid, t.vpn, t.size, BitVec.ofNat 10 t.gidx, paths, BitVec.ofNat 3 t.cls,
    pteBit e 6, pteBit e 5, pteBit e 4, pteBit e 3⟩)
/-- A walk for a core: the entry is installed, or its absence noted for the access that asked (R175, R177).
The TLB has 32 sets of 8; a full set loses its oldest entry (log 6, DESIGN CHOICE). -/
def Mach.tlbWalk (m : Mach) (core : Nat) (asid : BitVec 16) (va : Nat) : Mach :=
  match m.translate asid va with
  | (m, some t) =>
    let (m, e) := m.tlbOf t
    m.updCore core fun c =>
      { c with tlb := addWay (fun x => Config.tlbSet x.vpn % 32 == Config.tlbSet e.vpn % 32) 8 e c.tlb, walks := c.walks.filter fun f => !(f.asid == asid && f.vpn == va / 4096) }
  | (m, none) =>
    let code := m.pageCode asid va
    m.updCore core fun c => { c with walks := ⟨asid, va / 4096, code⟩ :: c.walks }
/-- Check an access of a device agent that has no TLB of its own: translated at the controller (R177, R411). -/
def Mach.checkNow (m : Mach) (asid : BitVec 16) (sys : Bool) (acc : Acc) (path va n : Nat) : Mach × Chk :=
  if n != 0 && va % n != 0 then (m, .bad 0 Code.align va)
  else match m.translate asid va with
    | (m, none) => (m, .bad 1 (m.pageCode asid va) va)
    | (m, some t) =>
      let (m, e) := m.tlbOf t
      (m, permCheck e sys (t.cls == 3 && (remoteOf (t.pa va)).isSome) acc path va)

/-! ## Order at a bank (R188) -/

/-- A range of addresses meets a sector locked by an exclusive consignment (R214). -/
def Mach.lockedRange (m : Mach) (asid : BitVec 16) (va n : Nat) : Bool :=
  !m.consigns.isEmpty && (m.consigns.any fun c => c.exclusive && !c.aborted && c.asid == asid
    && c.sectors.any fun p => decide (va < 32 * p.1 + 32 ∧ 32 * p.1 < va + n))
/-- The ranges of a command in its bank-op range; the elements of a list are known only from its indices. -/
def BankOp.ranges : BankOp → List (Nat × Nat)
  | .mred _ _ w64 items => items.map fun p => (p.2.1, if w64 then 8 else 4)
  | .mcas w64 _ items => items.map fun p => (p.2.1, if w64 then 8 else 4)
  | .msac y x n _ => [(y, 4 * n), (x, 4 * n)]
  | .gathm _ _ idx n _ => [(idx, 4 * n)]
  | .scatm _ _ idx n _ => [(idx, 4 * n)]
/-- A command over an index list, whose elements may lie in any bank. -/
def BankOp.listed : BankOp → Bool
  | .gathm _ _ _ _ _ => true
  | .scatm _ _ _ _ _ => true
  | _ => false
/-- A command has arrived at its banks: its gate is open, and no locked sector holds it back (R188, R214, R280). -/
def Mach.bankArrived (m : Mach) (b : BankCmd) : Bool :=
  (match b.gate with | some q => q.passed || q.gone | none => true)
    && (m.consigns.isEmpty || match m.group b.gid with
      | some g => !(b.op.listed && m.consigns.any fun c => c.exclusive && !c.aborted && c.asid == g.asid)
          && !b.op.ranges.any fun r => m.lockedRange g.asid r.1 r.2
      | none => true)
/-- The banks of a range of bytes (R177). -/
def Mach.banksOf (m : Mach) (asid : BitVec 16) (va n : Nat) : List Nat :=
  (List.range ((va + n + 7) / 8 - va / 8)).filterMap fun i =>
    let a := (va / 8 + i) * 8
    (m.translate asid a).2.map fun t => Config.bankOf (t.pa a / 8)
/-- A command shares a bank with a range. -/
def Mach.bankMeets (m : Mach) (b : BankCmd) (asid : BitVec 16) (va n : Nat) : Bool :=
  b.op.listed || (match m.group b.gid with
    | some g =>
      let mine := m.banksOf asid va n
      b.op.ranges.any fun r => (m.banksOf g.asid r.1 r.2).any mine.contains
    | none => false)
/-- A command that arrived earlier at a bank of the range is to perform before an access to it (R188). -/
def Mach.bankBusy (m : Mach) (asid : BitVec 16) (va n : Nat) : Bool :=
  m.banks.any fun b => m.bankArrived b && m.bankMeets b asid va n
/-- An access of a device agent to a range has to wait: at a locked sector (R214), or in a bank-op page behind earlier commands at
a bank (R188). -/
def Mach.agentHeld (m : Mach) (asid : BitVec 16) (va n : Nat) : Bool :=
  m.lockedRange asid va n || (!m.banks.isEmpty && (match (m.translate asid va).2 with
    | some t => t.cls == 2 && m.bankBusy asid va n
    | none => false))

/-! ## Accesses of device agents -/

/-- Read n bytes of a device agent within one sector: checked, at the LLC or where the class performs it. -/
def Mach.agentRead (m : Mach) (asid : BitVec 16) (sys : Bool) (path va n : Nat) : Rd :=
  if m.agentHeld asid va n then .again m else
  match m.checkNow asid sys .load path va 0 with
  | (m, .ok 2) => m.bankRead asid va n
  | (m, .ok 3) => m.bankRead asid va n
  | (m, .ok 4) => .bad m Code.perm va
  | (m, .ok _) => m.llcRead asid va n
  | (m, .bad _ code a) => .bad m code a
  | (m, .walk a) => .bad m Code.page a
/-- Read a run of bytes of a device agent. -/
def Mach.agentReadRun (m : Mach) (asid : BitVec 16) (sys : Bool) (path va n : Nat) : Rd :=
  m.sectorRun va n fun m a k => m.agentRead asid sys path a k
/-- Write bytes of a device agent, checked, at the LLC or where the class performs it. -/
def Mach.agentWrite (m : Mach) (asid : BitVec 16) (sys : Bool) (va : Nat) (bs : List Byte) : Rd :=
  if m.agentHeld asid va bs.length then .again m else
  match m.checkNow asid sys .store 0 va 0 with
  | (m, .ok 2) => m.bankWrite asid va bs
  | (m, .ok 3) => m.bankWrite asid va bs
  | (m, .ok 4) => .bad m Code.perm va
  | (m, .ok _) => .ok (m.llcWriteRun asid va bs none) []
  | (m, .bad _ code a) => .bad m code a
  | (m, .walk a) => .bad m Code.page a

/-- Put a sector into a cache of at most `lines` lines of 64 bytes: when it is full, any line may leave (R170).
(log 6, DESIGN CHOICE) -/
def Mach.cachePut (m : Mach) (x : Map (List Byte)) (lines key : Nat) (bs : List Byte) : Mach × Map (List Byte) :=
  let held := (x.map fun p => p.1 / 2).eraseDups
  if held.length < lines || held.contains (key / 2) then (m, mput x key bs) else
  let (i, m) := m.pick held.length
  (m, mput (x.filter fun p => p.1 / 2 != held.getD i 0) key bs)
/-- Read a line through one of the other caches of a core (R170, R183): `get` and `put` name the cache, `lines` its size. -/
def Mach.cacheRead (m : Mach) (core : Nat) (asid : BitVec 16) (va n lines : Nat) (get : Core → Map (List Byte))
    (put : Core → Map (List Byte) → Core) : Rd :=
  let key := secKey asid va
  match mget (get (m.core core)) key with
  | some bs => .ok m ((bs.drop (va % 32)).take n)
  | none =>
    match m.llcFill asid va n with
    | .ok m bs =>
      let out := (bs.drop (va % 32)).take n
      if (mget m.llc key).isNone then .ok m out else
      let (m, x) := m.cachePut (get (m.core core)) lines key bs
      .ok (m.updCore core fun c => put c x) out
    | r => r
/-- The constant path (R183): 64 KiB. -/
def Mach.constRead (m : Mach) (core : Nat) (asid : BitVec 16) (va n : Nat) : Rd :=
  m.cacheRead core asid va n 1024 (·.const) fun c x => { c with const := x }
/-- The sampler path: 64 KiB. -/
def Mach.texelRead (m : Mach) (core : Nat) (asid : BitVec 16) (va n : Nat) : Rd :=
  m.cacheRead core asid va n 1024 (·.texel) fun c x => { c with texel := x }
/-- The fetch path: 64 KiB. -/
def Mach.fetchRead (m : Mach) (core : Nat) (asid : BitVec 16) (va n : Nat) : Rd :=
  m.cacheRead core asid va n 1024 (·.icache) fun c x => { c with icache := x }
/-- The tile-layout path: 32 KiB. -/
def Mach.tileRead (m : Mach) (core : Nat) (asid : BitVec 16) (va n : Nat) : Rd :=
  m.cacheRead core asid va n 512 (·.tile) fun c x => { c with tile := x }

/-- The lines of a cache that are not an ASID's. -/
def dropAsid (asid : BitVec 16) (x : Map (List Byte)) : Map (List Byte) := x.filter fun p => p.1 / 2 ^ 43 != asid.toNat
/-- PFENCE on a core for an ASID and a path mask (R215). What the core's L1 holds dirty is written back first: a store that
an edge within the core orders before the fence reaches the paths named (R183, R198). (log 79, DEDUCED) -/
def Mach.pfenceCore (m : Mach) (core : Nat) (asid : BitVec 16) (mask : Byte) : Mach :=
  let gone (x : Map (List Byte)) (bit : Nat) :=
    if mask.getLsbD bit then dropAsid asid x else x
  (if mask.toNat / 2 % 16 = 0 then m else m.l1Flush core asid).updCore core fun c =>
    { c with const := gone c.const 1, texel := gone c.texel 2, tile := gone c.tile 3, icache := gone c.icache 4 }

/-- Evict a line from L1 (R179). (log 6, DESIGN CHOICE) -/
def Mach.evictL1 (m : Mach) (core line : Nat) : Mach := m.l1Drop core line

end Sys2Proof.Machine
end

