-- ==== Sys2Proof/Machine/Operands.lean ====
section
/-! DEFINITION. Operand forms: which registers each instruction reads and writes, the classes and runs it allows
(R72, R137, R155, R160, R201, R202, R206, R219, R224, R258, R286, R295, R307, R316, R329), reading and writing
registers (R87 to R89, R107 to R113), latencies (R87) and the external effects of R119. -/

namespace Sys2Proof

/-- Registers of a value of an integer TYPE. -/
def IType.regs (t : IType) : Nat := if t = .s64 ∨ t = .n64 then 2 else 1
/-- Registers of an access size (R201). -/
def Size.regs : Size → Nat
  | .b8 | .b16 | .b32 => 1 | .b64 => 2 | .b128 => 4
/-- Bytes of an access size. -/
def Size.bytes : Size → Nat
  | .b8 => 1 | .b16 => 2 | .b32 => 4 | .b64 => 8 | .b128 => 16

/-- Slots of a segment (R159). -/
def Seg.size : Seg → Nat
  | .s64 => 64 | .s32 => 32 | .s16 => 16 | .s8 => 8 | .s4 => 4
/-- Key of register i of an operand's run. -/
def Opnd.key (o : Opnd) (lane i : Nat) : Machine.RKey :=
  match o.cls with
  | .v => .v lane (o.idx.toNat + i)
  | .k => .k lane (o.idx.toNat + i)
  | .x => .x lane (o.idx.toNat + i)
  | .w => .w (o.idx.toNat + i)
end Sys2Proof

namespace Sys2Proof.Machine

/-! ## What an instruction uses -/

/-- One operand of an instruction: allowed classes, length and alignment of its register run, and its role. -/
structure Use where
  o : Opnd
  cls : List Cls
  n : Nat
  align : Nat
  src : Bool
  dst : Bool
  /-- a token: pending does not hold the instruction, it raises TOKEN_REUSE (R279) -/
  tok : Bool

def vkw : List Cls := [.v, .k, .w]
def vkxw : List Cls := [.v, .k, .x, .w]
def vk : List Cls := [.v, .k]
/-- A source run of n registers; a pair or more is aligned to its length (R72, R201). -/
def srcN (o : Opnd) (cls : List Cls) (n : Nat) : Use := ⟨o, cls, n, n, true, false, false⟩
/-- A destination run. -/
def dstN (o : Opnd) (cls : List Cls) (n : Nat) : Use := ⟨o, cls, n, n, false, true, false⟩
/-- A destination that is also read. -/
def rmwN (o : Opnd) (cls : List Cls) (n : Nat) : Use := ⟨o, cls, n, n, true, true, false⟩
/-- A run without alignment. -/
def runN (o : Opnd) (cls : List Cls) (n : Nat) : Use := ⟨o, cls, n, 1, true, false, false⟩
/-- A token operand: one W register. -/
def tokU (o : Opnd) : Use := ⟨o, [.w], 1, 1, false, false, true⟩
/-- Operand B when it is a register. -/
def srcB (b : Src) (cls : List Cls) (n : Nat) : List Use :=
  match b with
  | .reg o => [srcN o cls n]
  | .imm _ _ => []

/-- D, A, B at the type's width. -/
def usesDab (x : IntOp) : List Use :=
  [dstN x.d vkw x.ty.regs, srcN x.a vkxw x.ty.regs] ++ srcB x.b vkxw x.ty.regs
/-- D, A at the type's width. -/
def usesDa (x : IntOp) : List Use := [dstN x.d vkw x.ty.regs, srcN x.a vkxw x.ty.regs]
/-- Shifts: the count is 32-bit (R130). -/
def usesSh (x : IntOp) : List Use := usesDa x ++ srcB x.b vkxw 1
/-- POPC, CLZ, CTZ: D is 32-bit (R130). -/
def usesCnt (x : IntOp) : List Use := [dstN x.d vkw 1, srcN x.a vkxw x.ty.regs]
/-- Row 0x5: all 32-bit. -/
def usesFlt (x : FltOp) (d b c : Bool) : List Use :=
  (if d then [dstN x.d vkw 1] else []) ++ [srcN x.a vkxw 1] ++ (if b then srcB x.b vkxw 1 else [])
    ++ (if c then [srcN x.c vkxw 1] else [])
/-- Row 0x6 and PACK2. -/
def usesHalf (x : HalfOp) (c : Bool) : List Use :=
  [dstN x.d vkw 1, srcN x.a vkxw 1] ++ srcB x.b vkxw 1 ++ (if c then [srcN x.c vkxw 1] else [])
/-- The address operands of E-MEM: a pair, or one register in the rows of R206; the index is 32-bit. -/
def usesAddr (x : MemOp) (pair : Bool) : List Use :=
  [srcN x.a (if pair then vkw else vkxw) (if pair then 2 else 1)] ++ (if x.idx then [srcN x.b vkxw 1] else [])
def usesLoad (x : MemOp) (pair : Bool) (cls : List Cls) : List Use :=
  dstN x.d cls x.size.regs :: usesAddr x pair
def usesStore (x : MemOp) (pair : Bool) (cls : List Cls) : List Use :=
  srcN x.c cls x.size.regs :: usesAddr x pair
def usesAtom (x : MemOp) (pair : Bool) : List Use :=
  (if x.op = .cas then rmwN x.d vkw x.size.regs else dstN x.d vkw x.size.regs) :: usesStore x pair vkw
/-- The gate operand (R280). -/
def usesGate (x : AsyncOp) : List Use := if x.gate then [srcN x.f [.w] 1] else []
/-- The sampler: D four V registers, A a run of two V registers at least, B and E W pairs (R224). -/
def usesSmp (x : AsyncOp) (e : Bool) (fRegs : Nat) (store : Bool) : List Use :=
  [⟨x.d, [.v], 4, 4, store, !store, false⟩, runN x.a [.v] 2] ++ srcB x.b [.w] 2
    ++ (if e then [srcN x.e [.w] 2] else []) ++ (if fRegs = 0 then [] else [runN x.f [.v, .w] fRegs])
/-- The matrix commands: A, B, E and gate are W registers, COMPL a token with TE (R295). -/
def usesMx (x : AsyncOp) (a e : Bool) : List Use :=
  (if a then [srcN x.a [.w] 1] else []) ++ srcB x.b [.w] 1 ++ (if e then [srcN x.e [.w] 1] else [])
    ++ usesGate x ++ (if x.spec.getLsbD 0 then [tokU x.compl] else [])

/-- The operands of an instruction. -/
def uses : Instr → List Use
  | .brx x => srcN x.a vkw 2 :: srcB x.b vkw 1
  | .call x => [dstN x.d vk 2]
  | .ret x => [srcN x.a vkw 2]
  | .switch x => [srcN x.a vkxw 1]
  | .tokw x => match x.target with | some o => [tokU o] | none => []
  | .spawn x => [srcN x.a vkw 1]
  | .spawnr x => [srcN x.a vkw 1] ++ srcB x.b vkw 1 ++ [srcN x.c vkw 1]
  | .bara x => if x.id == 0 then [] else srcB x.count (if x.wave then [.w] else vkw) 1
  | .baraw x => if x.id == 0 then [] else srcB x.count (if x.wave then [.w] else vkw) 1
  | .tbinit x => [srcN x.a [.w] 1] ++ srcB x.b [.w] 1 ++ [srcN x.c [.w] 1]
  | .tbarr x => srcN x.a [.w] 1 :: srcB x.b [.w] 1
  | .tbexp x => srcN x.a [.w] 1 :: srcB x.b [.w] 1
  | .tbwait x => srcN x.a [.w] 1 :: srcB x.b [.w] 1
  | .tbrel x => [srcN x.a [.w] 1]
  | .iadd x => usesDab x | .isub x => usesDab x | .imul x => usesDab x | .imulh x => usesDab x
  | .imad x => usesDab x ++ [srcN x.c vkxw x.ty.regs]
  | .iaddc x => usesDab x | .isubb x => usesDab x
  | .ineg x => usesDa x | .iabs x => usesDa x
  | .imin x => usesDab x | .imax x => usesDab x
  | .icmp x => srcN x.a vkxw x.ty.regs :: srcB x.b vkxw x.ty.regs
  | .lea x => usesDa x ++ srcB x.b vkxw 1
  | .idot4 x => usesDab x ++ [srcN x.c vkxw 1]
  | .and x => usesDab x | .or x => usesDab x | .xor x => usesDab x | .andn x => usesDab x
  | .not x => usesDa x
  | .shl x => usesSh x | .shr x => usesSh x | .sar x => usesSh x | .rol x => usesSh x
  | .bfe x => usesSh x
  | .bfi x => usesSh x ++ [srcN x.c vkxw x.ty.regs]
  | .popc x => usesCnt x | .clz x => usesCnt x | .ctz x => usesCnt x
  | .brev x => usesDa x
  | .prmt x => usesDab x ++ [srcN x.c vkxw 1]
  | .mov x => match x.b with
    | .reg _ => usesDa x
    | .imm _ _ => [dstN x.d vkw x.ty.regs]
  | .sel x => usesDab x
  | .movsr x => [dstN x.d vkw 1] | .movsw x => [srcN x.a vkxw 1]
  | .ccrd x => [dstN x.d vkw 1] | .ccwr x => [srcN x.a vkxw 1] | .cctst x => [dstN x.d vkw 1]
  | .wldc x => [dstN x.d [.w] x.ty.regs, srcN x.a [.w] 2] ++ srcB x.b [.w] x.ty.regs
  | .fadd x => usesFlt x true true false | .fsub x => usesFlt x true true false
  | .fmul x => usesFlt x true true false | .ffma x => usesFlt x true true true
  | .fmin x => usesFlt x true true false | .fmax x => usesFlt x true true false
  | .fcmp x => usesFlt x false true false
  | .frnd x => usesFlt x true false false | .fspec x => usesFlt x true false false
  | .fcls x => usesFlt x true false false | .fscl x => usesFlt x true true false
  | .hadd2 x => usesHalf x false | .hmul2 x => usesHalf x false | .hfma2 x => usesHalf x true
  | .hmin2 x => usesHalf x false | .hmax2 x => usesHalf x false | .hcmp2 x => usesHalf x false
  | .hdot2 x => usesHalf x true
  | .cvt x => [dstN x.d vkw (if x.dst.bits = 64 then 2 else 1), srcN x.a vkxw (if x.src.bits = 64 then 2 else 1)]
  | .pack2 x => usesHalf x false
  | .qntb x => [dstN x.d [.v] 2, srcN x.a vkxw 1, srcN x.b vkxw 1, srcN x.c vkxw 1]
  | .dqnt x => [dstN x.d vkw 1, srcN x.a vkxw 1, srcN x.b vkxw 1]
  | .sclw x => [dstN x.d vkw 1, srcN x.a vkxw 1]
  | .shfl x =>
    let n := if x.w64 then 2 else 1
    [dstN x.d vk n, srcN x.a vk n] ++ srcB x.b vkw 1 ++ [srcN x.c vkxw n]
  | .qexch x => let n := if x.w64 then 2 else 1
    [dstN x.d vk n, srcN x.a vk n]
  | .qder x => [dstN x.d vk 1, srcN x.a vk 1]
  | .vote x => (if x.mode = .ballot then [dstN x.d vk 2] else []) ++ [srcN x.a vkxw 1]
  | .matchv x => [dstN x.d vk 2, srcN x.a vk (if x.w64 then 2 else 1)]
  | .redux x => [dstN x.d vk x.ty.regs, srcN x.a vk x.ty.regs]
  | .scan x => [dstN x.d vk x.ty.regs, srcN x.a vk x.ty.regs]
  | .elect x => match x.d with | some d => [dstN d vk 1] | none => []
  | .lanew x => [rmwN x.d vk 1, srcN x.a vkxw 1] ++ srcB x.b vkw 1
  | .ld x => usesLoad x true vkw | .st x => usesStore x true vkw
  | .ldpf x => usesAddr x true
  | .atom x => usesAtom x true | .red x => usesStore x true vkw
  | .cwb x => usesAddr x true | .cinv x => usesAddr x true | .icinv x => usesAddr x true
  | .lds x => usesLoad x false vkw | .sts x => usesStore x false vkw
  | .atoms x => usesAtom x false
  | .ldc x => usesLoad x true vk | .ldv x => usesLoad x false vk | .stv x => usesStore x false vk
  | .mred x => srcN x.a vkw 2 :: srcB x.b vkw x.size.regs ++ usesGate x ++ [tokU x.compl]
  | .mcas x => [dstN x.d vkw x.size.regs, srcN x.a vkw 2] ++ srcB x.b vkw x.size.regs
      ++ [srcN x.e vkw x.size.regs] ++ usesGate x ++ [tokU x.compl]
  | .msac x => [srcN x.a [.w] 2] ++ srcB x.b [.w] 1 ++ [srcN x.e [.w] 2, srcN x.f [.w] 1, tokU x.compl]
  | .gathm x => [srcN x.a [.w] 2] ++ srcB x.b [.w] 2 ++ [srcN x.e [.w] 2, srcN x.f [.w] 1, tokU x.compl]
  | .scatm x => [srcN x.a [.w] 2] ++ srcB x.b [.w] 2 ++ [srcN x.e [.w] 2, srcN x.f [.w] 1, tokU x.compl]
  | .cpy x => [srcN x.a [.w] (if x.spec.getLsbD 0 then 1 else 2)]
      ++ srcB x.b [.w] (if x.spec.getLsbD 1 then 1 else 2) ++ [srcN x.e [.w] 1] ++ usesGate x
      ++ (if x.cmode then [srcN x.compl [.w] 1, tokU x.d] else [tokU x.compl])
  | .tcpy x => [srcN x.a [.w] 1, srcN x.e [.w] 1] ++ usesGate x
      ++ (if x.cmode then [srcN x.compl [.w] 1, tokU x.d] else [tokU x.compl])
  | .tlrreg x => srcN x.a [.w] 2 :: srcB x.b [.w] 1
  | .tlrdel x => srcB x.b [.w] 1
  | .mxlds x => usesMx x true false | .mxmul x => usesMx x true true | .mxrd x => usesMx x true true
  | .mxzero x => usesMx x false true | .mxlda x => usesMx x true true
  | .mxtok x => [tokU x.d]
  | .rayq x => [⟨x.d, [.v], 4, 4, false, true, false⟩, ⟨x.a, vk, 8, 4, true, false, false⟩]
      ++ srcB x.b vkw 1 ++ [srcN x.e [.v, .w] 2]
  | .beamq x => [srcN x.a [.w] 1] ++ usesGate x ++ [tokU x.compl]
  | .smp x => usesSmp x true 0 false | .smpl x => usesSmp x true 1 false | .smpg x => usesSmp x true 4 false
  | .gth4 x => usesSmp x true 1 false | .tld x => usesSmp x false 1 false | .ist x => usesSmp x false 1 true
  | .fst x => usesStore x true vkw
  | .grvinv x => srcN x.a [.w] 2 :: (if x.all then [] else srcB x.b [.w] 1)
  | .atlbinv x => match x.scope with
    | .page => [srcN x.a [.w] 2, srcN x.b [.w] 1]
    | .asid => [srcN x.b [.w] 1]
    | .all => []
  | _ => []

/-- A register run is legal: class, index, width and allocation (R72, R109, R201). -/
def Use.ok (u : Use) (regs : Nat) : Bool :=
  u.cls.contains u.o.cls && u.o.idx.toNat % u.align == 0 &&
  match u.o.cls with
  | .v => decide (u.o.idx.toNat + u.n ≤ regs)
  | .k => decide (u.o.idx.toNat + u.n ≤ 8)
  | .x => decide (u.o.idx.toNat ≤ 1 ∧ u.n = 1) && !u.dst
  | .w => decide (u.o.idx.toNat + u.n ≤ 128)
/-- Every operand is legal, and no W destination stands beside a V source (R72). (log 30, DEDUCED) -/
def usesOk (us : List Use) (regs : Nat) : Bool :=
  us.all (·.ok regs) && !(us.any (fun u => u.dst && u.o.cls == .w) && us.any (fun u => u.src && u.o.cls == .v))
/-- Uniform: a W destination, and every register source a W register (R32). (log 30, DEDUCED) -/
def isUniform (us : List Use) : Bool :=
  us.any (fun u => u.dst && u.o.cls == .w) && us.all fun u => !u.src || u.o.cls == .w

/-- The register keys of a use in a lane. -/
def Use.keys (u : Use) (lane : Nat) : List RKey :=
  (List.range u.n).map fun i => match u.o.cls with
    | .v => .v lane (u.o.idx.toNat + i)
    | .k => .k lane (u.o.idx.toNat + i)
    | .x => .x lane (u.o.idx.toNat + i)
    | .w => .w (u.o.idx.toNat + i)

/-- The token registers of an instruction: written by a command, read by TOKW (R271, R279). -/
def tokKeys (us : List Use) : List RKey := us.flatMap fun u => if u.tok then u.keys 0 else []

/-! ## Slots of row 0x8 (R159, R162, R163) -/

/-- The base of a slot's segment (R159). -/
def Seg.base (s : Seg) (l : Nat) : Nat := l - l % s.size
/-- The slot SHFL reads, when there is one within the segment (R162). -/
def shflFrom (x : ShflOp) (l b : Nat) : Option Nat :=
  let s := x.seg.size
  let p := l % s
  let base := Seg.base x.seg l
  match x.mode with
  | .idx => if b < s then some (base + b) else none
  | .up => if b ≤ p then some (base + (p - b)) else none
  | .down => if p + b < s then some (base + (p + b)) else none
  | .xor => if p ^^^ b < s then some (base + (p ^^^ b)) else none
/-- The quad position QEXCH reads at position q (R163). -/
def qexchFrom (m : QMode) (q : Nat) : Nat :=
  match m with
  | .h => q ^^^ 1 | .v => q ^^^ 2 | .d => q ^^^ 3 | .b0 => 0 | .b1 => 1 | .b2 => 2 | .b3 => 3

/-! ## Reading registers -/

/-- Condition-code register n of a lane (R114). -/
def Lane.cc (l : Lane) (n : Nat) : BitVec 5 :=
  match n with
  | 0 => l.c0 | 1 => l.c1 | 2 => l.c2 | _ => l.c3
/-- Write a condition-code register of a lane. -/
def Lane.setCc (l : Lane) (n : Nat) (v : BitVec 5) : Lane :=
  match n with
  | 0 => { l with c0 := v } | 1 => { l with c1 := v } | 2 => { l with c2 := v } | _ => { l with c3 := v }
/-- The value last written to a register. -/
def Wave.cur (w : Wave) : RKey → Word
  | .v l i => mgetD w.v (l * 256 + i) 0
  | .k l i => mgetD w.k (l * 8 + i) 0
  | .x l i => if i = 0 then (w.lane l).x0 else (w.lane l).x1
  | .w i => mgetD w.w i 0
  | .c l n => ((w.lane l).cc n).setWidth 32
/-- The value before the producers of a register that no instruction can read yet: those issued after the last producer
whose result is readable (R87, R89). None when the newest producer's result is readable. (log 7, DEDUCED) -/
def unready (clk : Nat) (k : RKey) (fs : List Inflight) : Option Word :=
  fs.foldl (fun v f => if f.key != k then v else if clk < f.ready then v.or (some f.old) else none) none
/-- The value a register supplies at a clk: the one before a producer that is not ready (R89). (log 7, DEDUCED) -/
def Wave.reg (w : Wave) (clk : Nat) (k : RKey) : Word := (unready clk k w.inflight).getD (w.cur k)
/-- Drop the producers whose results are readable, and those that such a one has overtaken. -/
def dropReady (clk : Nat) : List Inflight → List Inflight
  | [] => []
  | f :: fs => if f.ready ≤ clk || fs.any (fun g => g.key == f.key && decide (g.ready ≤ clk)) then dropReady clk fs else f :: dropReady clk fs
/-- A condition code as an instruction reads it. -/
def Wave.ccAt (w : Wave) (clk lane n : Nat) : BitVec 5 := (w.reg clk (.c lane n)).setWidth 5
/-- A 32-bit operand. -/
def Wave.get (w : Wave) (clk lane : Nat) (o : Opnd) : Word := w.reg clk (o.key lane 0)
/-- A 64-bit operand: an even register and the next (R72). -/
def Wave.getPair (w : Wave) (clk lane : Nat) (o : Opnd) : DWord :=
  (w.reg clk (o.key lane 1)) ++ (w.reg clk (o.key lane 0))
/-- Register i of a run. -/
def Wave.getI (w : Wave) (clk lane : Nat) (o : Opnd) (i : Nat) : Word := w.reg clk (o.key lane i)
/-- An operand of one or two registers as a 64-bit pattern. -/
def Wave.getN (w : Wave) (clk lane : Nat) (o : Opnd) (n : Nat) : DWord :=
  if n = 2 then w.getPair clk lane o else (w.get clk lane o).setWidth 64
/-- FP8 E4M3 to FP32, exactly (R73): the NaN patterns give the canonical NaN. -/
def e4m3ToF32 (b : Byte) : Word :=
  let s : Nat := b.toNat / 128
  let e := b.toNat / 8 % 16
  let f := b.toNat % 8
  if e = 15 ∧ f = 7 then 0x7FC00000
  else if e = 0 then
    if f = 0 then BitVec.ofNat 32 (s * 2 ^ 31)
    else
      -- f * 2^-9, normalised
      let k := if 4 ≤ f then 2 else if 2 ≤ f then 1 else 0
      BitVec.ofNat 32 (s * 2 ^ 31 + (127 - 9 + k) * 2 ^ 23 + (f - 2 ^ k) * 2 ^ (23 - k))
  else BitVec.ofNat 32 (s * 2 ^ 31 + (e + 120) * 2 ^ 23 + f * 2 ^ 20)
/-- Operand B as a 64-bit pattern of n registers: an immediate is extended to the width (R73). -/
def Wave.getSrc (w : Wave) (clk lane : Nat) (b : Src) (n : Nat) : DWord :=
  match b with
  | .reg o => w.getN clk lane o n
  | .imm .s8 v => if n = 2 then v.signExtend 64 else (v.signExtend 32).setWidth 64
  | .imm .n8 v => v.setWidth 64
  | .imm .e4m3 v => (e4m3ToF32 v).setWidth 64
/-- Operand B as 32 bits. -/
def Wave.getSrc32 (w : Wave) (clk lane : Nat) (b : Src) : Word := (w.getSrc clk lane b 1).setWidth 32

/-! ## Writing registers -/

/-- Set a register's value at once. -/
def Wave.put (w : Wave) (k : RKey) (x : Word) : Wave :=
  match k with
  | .v l i => { w with v := mput w.v (l * 256 + i) x }
  | .k l i => { w with k := mput w.k (l * 8 + i) x }
  | .x l i => w.updLane l fun t => if i = 0 then { t with x0 := x } else { t with x1 := x }
  | .w i => { w with w := mput w.w i x }
  | .c l n => w.updLane l fun t => t.setCc n (x.setWidth 5)
/-- K and X registers have a shadow row (R118). -/
def RKey.shadowed : RKey → Bool
  | .k _ _ => true
  | .x _ _ => true
  | _ => false
/-- A write ends a register's parity error and its wait for refresh (R112, R118). -/
def Wave.note (w : Wave) (k : RKey) : Wave :=
  if w.parity.isEmpty && w.refresh.isEmpty && w.weak.isEmpty then w else
  { w with parity := w.parity.filter (· != k), weak := w.weak.filter (· != k), refresh := w.refresh.filter (· != k) }
/-- Mark a V register of a lane, or a W register of the entry led by `lead`, as written in its region (R119). -/
def Wave.mark (w : Wave) (lead : Nat) (k : RKey) : Wave :=
  match k with
  | .v _ _ => if w.marks.contains k then w else { w with marks := k :: w.marks }
  | .w i => { w with wmarks := mput w.wmarks i lead }
  | _ => w
/-- The register is marked (R120). R119 marks V and W registers, so a K or X register whose shadow row is in error too
counts as unmarked. (log 55, DEDUCED) -/
def Wave.marked (w : Wave) (k : RKey) : Bool :=
  match k with
  | .v _ _ => w.marks.contains k
  | .w i => (mget w.wmarks i).isSome
  | _ => false
/-- Write a register with a latency: readers before `clk + lat` take the old value (R87, R89). A write at once is newer
than every producer in flight. (log 7, DEDUCED) -/
def Wave.write (w : Wave) (clk lat : Nat) (k : RKey) (x : Word) : Wave :=
  let w := { w with inflight := if lat = 0 then w.inflight.filter (·.key != k) else w.inflight ++ [(⟨k, w.cur k, clk + lat⟩ : Inflight)] }
  (w.put k x).note k
/-- A write at once. -/
def Wave.putNow (w : Wave) (k : RKey) (x : Word) : Wave := w.write 0 0 k x
/-- Write n registers of an operand. -/
def Wave.setN (w : Wave) (clk lat lane : Nat) (o : Opnd) (n : Nat) (x : DWord) : Wave :=
  let w := w.write clk lat (o.key lane 0) (x.setWidth 32)
  if n = 2 then w.write clk lat (o.key lane 1) ((x >>> 32).setWidth 32) else w
/-- The latches take a result (R108). -/
def Wave.latch (w : Wave) (clk lat lane : Nat) (x : Word) : Wave :=
  let old := w.cur (.x lane 0)
  (w.write clk lat (.x lane 1) old).write clk lat (.x lane 0) x
/-- Write a condition code with a latency. -/
def Wave.setCcAt (w : Wave) (clk lat lane n : Nat) (v : BitVec 5) : Wave :=
  w.write clk lat (.c lane n) (v.setWidth 32)
/-- OR flags into SR_FPX (R96). -/
def Wave.orFpx (w : Wave) (lane : Nat) (f : BitVec 5) : Wave := w.updLane lane fun t => { t with fpx := t.fpx ||| f }

/-! ## Latencies and external effects -/

/-- Fixed latency in clk; 0 for the variable-latency producers (R87). (log 59, DESIGN CHOICE) -/
def latency : Instr → Nat
  | .imul _ | .imulh _ | .imad _ | .idot4 _ => 6
  | .shfl _ | .qexch _ | .qder _ | .vote _ | .matchv _ | .redux _ | .scan _ | .elect _ | .lanew _ | .qntb _ => 6
  | .fspec _ => 8
  | .iadd _ | .isub _ | .iaddc _ | .isubb _ | .ineg _ | .iabs _ | .imin _ | .imax _ | .icmp _ | .lea _ => 4
  | .and _ | .or _ | .xor _ | .andn _ | .not _ | .shl _ | .shr _ | .sar _ | .rol _ | .bfe _ | .bfi _ | .popc _
  | .clz _ | .ctz _ | .brev _ | .prmt _ => 4
  | .mov _ | .sel _ | .movsr _ | .ccrd _ | .ccwr _ | .cctst _ => 4
  | .fadd _ | .fsub _ | .fmul _ | .ffma _ | .fmin _ | .fmax _ | .fcmp _ | .frnd _ | .fcls _ | .fscl _ => 4
  | .hadd2 _ | .hmul2 _ | .hfma2 _ | .hmin2 _ | .hmax2 _ | .hcmp2 _ | .hdot2 _ => 4
  | .cvt _ | .pack2 _ | .dqnt _ | .sclw _ => 4
  | _ => 0

/-- The external-effect instructions of R119. -/
def external : Instr → Bool
  | .st _ | .sts _ | .stv _ | .ist _ | .fst _ | .atom _ | .atoms _ | .red _ => true
  | .mred _ | .mcas _ | .msac _ | .gathm _ | .scatm _ => true
  | .spawn _ | .spawnr _ | .exit _ => true
  | .bara _ | .baraw _ | .tbinit _ | .tbarr _ | .tbexp _ | .tbwait _ | .tbrel _ => true
  | .cpy _ | .tcpy _ | .tlrreg _ | .tlrdel _ => true
  | .mxlds _ | .mxswp _ | .mxmul _ | .mxrd _ | .mxzero _ | .mxlda _ | .opfence _ | .mxtok _ => true
  | .rayq _ | .beamq _ | .fillc _ | .fillx _ | .grvinv _ | .atlbinv _ => true
  | .txend _ | .txabt _ | .movsw _ | .xacq _ | .xrel _ => true
  | _ => false

/-- What aborts an open consignment (R211): external effects but ST, atomics, LDPF, fences, line operations and a
second TXBEG. EXIT, TXEND and TXABT act on the consignment themselves. -/
def txForbidden : Instr → Bool
  | .st _ | .txend _ | .txabt _ | .exit _ => false
  | .ldpf _ | .pfence _ | .afence _ | .cwb _ | .cinv _ | .icinv _ | .txbeg _ => true
  | i => external i

/-- Instructions of row 0x8 and QNTB read the registers of other slots (R31, R161). -/
def collective : Instr → Bool
  | .shfl _ | .qexch _ | .qder _ | .vote _ | .matchv _ | .redux _ | .scan _ | .elect _ | .lanew _ | .qntb _ => true
  | _ => false

/-- Condition codes an instruction reads beside its guard (R129, R133). A condition `al` reads none. (log 65, DEDUCED) -/
def ccReads : Instr → Ctl → List Nat
  | .iaddc x, _ => [x.sub.toNat % 4]
  | .isubb x, _ => [x.sub.toNat % 4]
  | .ccrd x, _ => [x.sub.toNat % 4]
  | .sel x, c => if x.sub.toNat % 16 = 0 then [] else [c.gcc.toNat]
  | .cctst x, c => if x.sub.toNat % 16 = 0 then [] else [c.gcc.toNat]
  | _, _ => []
/-- The condition code the guard reads: none under `al`, which holds whatever the code (R115), and none in NOP (R258).
(log 65, DEDUCED) -/
def guardCc : Instr → Ctl → List Nat
  | .nop _, _ => []
  | _, c => if c.cond = .al then [] else [c.gcc.toNat]
/-- The condition code an instruction writes (R71). -/
def flagDst : Instr → Option (BitVec 2)
  | .iadd x | .isub x | .imul x | .imulh x | .imad x | .iaddc x | .isubb x | .ineg x | .iabs x | .imin x | .imax x
  | .icmp x | .lea x | .idot4 x | .and x | .or x | .xor x | .andn x | .not x | .shl x | .shr x | .sar x | .rol x | .bfe x
  | .bfi x | .popc x | .clz x | .ctz x | .brev x | .prmt x | .mov x | .sel x | .cctst x | .ccwr x | .xacq x => x.flag
  | .fadd x | .fsub x | .fmul x | .ffma x | .fmin x | .fmax x | .fcmp x | .frnd x | .fspec x | .fcls x | .fscl x => x.flag
  | .hadd2 x | .hmul2 x | .hfma2 x | .hmin2 x | .hmax2 x | .hcmp2 x | .hdot2 x | .pack2 x => x.flag
  | .shfl x => x.flag
  | .vote x => x.flag
  | .matchv x => x.flag
  | .elect x => some x.ccd
  | .tokw x => x.flag
  | .txend x => x.flag
  | .atom x => x.flag
  | .atoms x => x.flag
  | _ => none

/-- ATLBINV is the only privileged opcode (R85). -/
def privileged : Instr → Bool
  | .atlbinv _ => true
  | _ => false

end Sys2Proof.Machine
end

