-- ==== Sys2Proof/Machine/Ops.lean ====
section
/-! DEFINITION. What the instructions share: scratchpad access (R172, R206), the issuing entry and its threads
(R24, R25, R34), the checks before an instruction performs (R86), regions and rollback (R118 to R120), taking a
trap and returning from one (R352 to R358), context faults (R359) and the halt and saving of a context (R360,
R361), and the frame every instruction runs in. -/

namespace Sys2Proof.Machine

/-! ## Scratchpad (R172, R206) -/

/-- Bytes of a group's grant. -/
def Group.grant (g : Group) : Nat := g.units.length * 32768
/-- Physical scratchpad offset of a group-relative offset. -/
def Group.spadPhys (g : Group) (off : Nat) : Nat := (g.units.getD (off / 32768) 0) * 32768 + off % 32768
/-- Read a scratchpad byte of a group. -/
def Mach.spadByte (m : Mach) (g : Group) (off : Nat) : Byte := cellGet (m.core g.core).spad (g.spadPhys off)
/-- Read scratchpad bytes of a group. -/
def Mach.spadRead (m : Mach) (g : Group) (off n : Nat) : List Byte :=
  (List.range n).map fun i => m.spadByte g (off + i)
/-- A beam query whose record an access changes is raced (R316). -/
def RayCmd.race (gid off n : Nat) (c : RayCmd) : RayCmd :=
  match c.op with
  | .beam b => if c.gid = gid ∧ off < b.off + 128 ∧ b.off < off + n then { c with op := .beam { b with raced := true } } else c
  | .rays _ _ => c
def DepotItem.race (gid off n : Nat) : DepotItem → DepotItem
  | .ray c => .ray (c.race gid off n)
  | x => x
/-- Mark the beam queries of a group whose record meets a written range. -/
def Mach.raceBeams (m : Mach) (g : Group) (off n : Nat) : Mach :=
  let m := if (m.core g.core).rayQ.isEmpty then m else
    m.updCore g.core fun c => { c with rayQ := c.rayQ.map (RayCmd.race g.gid off n) }
  if m.rings.any fun p => p.2.items.any fun x => x.race g.gid off n != x then
    { m with rings := m.rings.map fun p => (p.1, { p.2 with items := p.2.items.map (DepotItem.race g.gid off n) }) }
  else m
/-- Write scratchpad bytes of a group. -/
def Mach.spadWrite (m : Mach) (g : Group) (off : Nat) (bs : List Byte) : Mach :=
  (m.raceBeams g off bs.length).updCore g.core fun c =>
    { c with spad := ((List.range bs.length).zip bs).foldl (fun s p => cellPut s (g.spadPhys (off + p.1)) p.2) c.spad }
/-- A slot of the group binds the word at an offset: the word is live (R334). -/
def Group.binding (g : Group) (off : Nat) : Option Nat := g.slots.findIdx? fun s => s.kind == .binding off
/-- A range of a group's grant meets a live transaction barrier word (R339). -/
def Group.clobbers (g : Group) (off n : Nat) : Bool :=
  g.slots.any fun s => match s.kind with
    | .binding o => decide (off < o + 16 ∧ o < off + n)
    | _ => false

/-! ## Regions (R119, R120) -/

/-- A thread's snapshot at its region start. -/
def Lane.snapNow (l : Lane) : Lane :=
  { l with snap := ⟨l.x0, l.x1, l.c0, l.c1, l.c2, l.c3, l.pc, l.prio⟩, newRegion := false, rollbacks := 0
           framesDone := [], framesReplay := [], loadNo := 0, rerun := none }
/-- The helpers of the quads of some lanes (R34). -/
def Wave.helpersOf (w : Wave) (ls : List Nat) : List Nat :=
  (List.range 64).filter fun l => w.helper l && ls.any fun a => a / 4 == l / 4
/-- The next instruction of these threads, and of their quads' helpers, starts a region (R119). (log 66, DEDUCED) -/
def Wave.closeRegions (w : Wave) (ls : List Nat) : Wave :=
  w.updLanes (ls ++ w.helpersOf ls) fun t => { t with newRegion := true, rolled := false }
/-- Region start of the lanes that begin one: IDM, or a region boundary before this instruction (R119). A helper's region
begins with that of a thread of its quad. One that was rolled back stands at its region start: it keeps its snapshot and its
count of rollbacks until an instruction has performed (R120). (log 66, DEDUCED) -/
def Wave.beginRegions (w : Wave) (idm : Bool) (ls : List Nat) : Wave :=
  let starts (l : Nat) : Bool := !(w.lane l).rolled && (idm || (w.lane l).newRegion)
  let new := ls.filter fun l => starts l || (w.helper l && ls.any fun a => a / 4 == l / 4 && (w.lane a).st == .live && starts a)
  if new.isEmpty then w else
  let w := w.updLanes new Lane.snapNow
  { w with
    marks := w.marks.filter fun k => match k with | .v l _ => !new.contains l | _ => true
    wmarks := w.wmarks.filter fun p => !new.contains p.2 }
/-- A register that a command, not an instruction of the wave, will write. -/
def Wave.awaited (w : Wave) (k : RKey) : Bool :=
  w.cmdPend.contains k || (match k with | .w i => w.toks.contains i | _ => false)
/-- Roll the wave back: every live thread and helper returns to its region start (R120). A thread whose next
instruction starts a region stands at its region start already. No load is outstanding that was issued before a region
start (`Env.scoreHolds`), so every load dropped is executed again; so is every instruction whose trap was raised and not
delivered (R352, R355). `counted` is false for a poisoned load (R354). (log 67, DEDUCED) -/
def Wave.rollback (w : Wave) (counted : Bool) : Wave :=
  let ls := (List.range 64).filter fun l => ((w.lane l).st == .live || w.helper l) && !(w.lane l).newRegion
  let w := w.updLanes ls fun t =>
    { t with x0 := t.snap.x0, x1 := t.snap.x1, c0 := t.snap.c0, c1 := t.snap.c1, c2 := t.snap.c2, c3 := t.snap.c3
             pc := if t.st == .live then t.snap.pc else t.pc
             prio := if t.st == .live then t.snap.prio else t.prio
             wait := .none
             rollbacks := if counted then t.rollbacks + 1 else t.rollbacks
             rolled := true
             framesReplay := t.framesDone ++ t.framesReplay, framesDone := [], loadNo := 0 }
  { w with marks := [], wmarks := [], inflight := [], loads := [], tokw := [], tlrw := [], remoteSeen := [], denied := []
           traps := w.traps.filter (·.keep)
           pend := w.pend.filter w.awaited }

/-- The threads of a load are to run it again: a load is named by its PC and by its number in its thread's region (R354). -/
def Wave.markRerun (w : Wave) (pc : DWord) (nums : List (Nat × Nat)) : Wave :=
  nums.foldl (fun w p => w.updLane p.1 fun t => { t with rerun := some (pc, p.2) }) w
/-- A load is the re-run of one that met an uncorrectable word. -/
def Wave.reruns (w : Wave) (pc : DWord) (nums : List (Nat × Nat)) : Bool := nums.any fun p => (w.lane p.1).rerun == some (pc, p.2)

/-! ## The issuing entry (R24, R25, R34) -/

/-- An instruction's surroundings: the issuing entry, its group and wave before it performs, the live threads of the
entry, the active threads (guard true) and the active helpers. -/
structure Env where
  ctl : Ctl
  m : Mach
  iss : Issue
  g : Group
  w : Wave
  lanes : List Nat
  act : List Nat
  hlp : List Nat

/-- Threads that wait after they have performed their instruction: at AWAIT, at a named barrier and at FILLC. They stand
past it and belong to no entry until they go on: threads of the entry whose guard was false continue without them (R276,
R332). (log 68, DEDUCED) -/
def Wait.after : Wait → Bool
  | .await => true
  | .bar _ _ _ => true
  | .fillc => true
  | _ => false
/-- The thread is parked (R47). -/
def Wait.parked : Wait → Bool
  | .grove _ parked => !parked.isEmpty
  | .await | .bar _ _ _ | .tbar _ _ _ => true
  | _ => false
/-- A thread waits for the answer to a grove request. -/
def Wait.awaits (r : Nat) : Wait → Bool
  | .grove asked parked => asked.contains r || parked.contains r
  | _ => false
/-- What a thread waits for once a grove request is over: nothing after the last one. -/
def Wait.over (r : Nat) : Wait → Wait
  | .grove asked parked =>
    let a := asked.filter (· != r)
    let p := parked.filter (· != r)
    if a.isEmpty && p.isEmpty then .none else .grove a p
  | x => x
/-- What a thread waits for once a grove request waits at a waystation. -/
def Wait.parks (r : Nat) : Wait → Wait
  | .grove asked parked => if asked.contains r then .grove (asked.filter (· != r)) (parked ++ [r]) else .grove asked parked
  | x => x
/-- What a thread waits for where only some grove requests are kept. -/
def Wait.keeps (keep : Nat → Bool) : Wait → Wait
  | .grove asked parked =>
    let a := asked.filter keep
    let p := parked.filter keep
    if a.isEmpty && p.isEmpty then .none else .grove a p
  | x => x
/-- The live threads of an entry that can issue: its threads with nothing to wait for (`Wave.eligible` holds back an entry
with a thread that waits). -/
def Wave.entryLanes (w : Wave) (pc : DWord) (prio : Byte) : List Nat :=
  (List.range 64).filter fun l =>
    let t := w.lane l
    t.st == .live && t.pc == pc && t.prio == prio && t.wait == .none && (!w.inHandler || t.handler)
/-- The (PC, priority) of a lane. -/
def Lane.entry (t : Lane) : DWord × Byte := (t.pc, t.prio)
/-- Frontier order (R25): the higher priority, then the lower PC. -/
def before (a b : DWord × Byte) : Bool := b.2.toNat < a.2.toNat || (a.2 == b.2 && a.1.toNat < b.1.toNat)
/-- The entries of a wave that can issue at a clk, the scoreboard apart: nothing parks or stalls a thread of theirs (R24,
R25). A thread that reaches the PC and priority of a parked or waiting entry shares that entry and waits with it.
(log 68, DEDUCED) -/
def Wave.ready (w : Wave) (clk : Nat) : List (DWord × Byte) :=
  let ls := w.live.filter fun l => !(w.lane l).wait.after && (!w.inHandler || (w.lane l).handler)
  let es := (ls.map fun l => (w.lane l).entry).eraseDups
  es.filter fun e => ls.all fun l => (w.lane l).entry != e || ((w.lane l).wait == .none && decide ((w.lane l).ready ≤ clk))
/-- A guard in a lane (R115). -/
def Wave.guard (w : Wave) (clk : Nat) (c : Ctl) (lane : Nat) : Bool := c.cond.holds (w.ccAt clk lane c.gcc.toNat)
/-- The surroundings of an entry for an instruction with these control fields. -/
def Env.for (c : Ctl) (m : Mach) (iss : Issue) (g : Group) (w : Wave) : Env :=
  let lanes := w.entryLanes iss.pc iss.prio
  let act := lanes.filter fun l => w.guard m.clk c l
  let hlp := (List.range 64).filter fun l =>
    w.helper l && act.any (fun a => a / 4 == l / 4) && w.guard m.clk c l
  ⟨c, m, iss, g, w, lanes, act, hlp⟩
/-- The surroundings of the issuing entry, if there is one. -/
def Env.of (c : Ctl) (m : Mach) : Option Env :=
  match m.issue with
  | none => none
  | some iss =>
    match m.group iss.gid with
    | none => none
    | some g =>
      match g.wave iss.wave with
      | none => none
      | some w => some (Env.for c m iss g w)
/-- Threads and helpers that perform. -/
def Env.all (e : Env) : List Nat := (List.range 64).filter fun l => e.act.contains l || e.hlp.contains l
/-- The entry's threads and the helpers of their quads, whatever their guards. -/
def Env.whole (e : Env) : List Nat :=
  (List.range 64).filter fun l => e.lanes.contains l || (e.w.helper l && e.lanes.any fun a => a / 4 == l / 4)
/-- The lowest-index thread of the entry, helper lanes of its quads included (R32). (log 33, DEDUCED) -/
def Env.lead (e : Env) : Nat :=
  e.g.task.lowest e.w.index e.whole
/-- The lowest-index active thread (R33). (log 33, DEDUCED) -/
def Env.first (e : Env) : Nat := e.g.task.lowest e.w.index e.act
/-- The thread index in a lane of the issuing wave (R22). -/
def Env.thread (e : Env) (l : Nat) : Nat := e.g.task.threadAt e.w.index l
/-- Lanes in ascending thread index (R204). (log 33, DEDUCED) -/
def Env.ordered (e : Env) (ls : List Nat) : List Nat := e.g.task.byThread e.w.index (fun l => l) ls
/-- The wave in a later state. -/
def Env.wIn (e : Env) (m : Mach) : Wave := (m.wave e.iss.gid e.iss.wave).getD e.w
/-- The issuing group in a later state. -/
def Env.gIn (e : Env) (m : Mach) : Group := (m.group e.iss.gid).getD e.g
/-- Change the issuing wave. -/
def Env.upd (e : Env) (m : Mach) (f : Wave → Wave) : Mach := m.updWave e.iss.gid e.iss.wave f
/-- Change the issuing group. -/
def Env.updG (e : Env) (m : Mach) (f : Group → Group) : Mach := m.updGroup e.iss.gid f
/-- The fall-through address. -/
def Env.next (e : Env) : DWord := e.iss.pc + BitVec.ofNat 64 e.iss.len
def Env.clk (e : Env) : Nat := e.m.clk
/-- A wave runs in system mode: its group's, but a handler runs in user mode (R85, R356). -/
def Wave.system (w : Wave) (g : Group) : Bool := g.system && !w.inHandler
/-- The issuing wave runs in system mode. -/
def Env.system (e : Env) : Bool := e.w.system e.g
def Env.asid (e : Env) : BitVec 16 := e.g.asid
def Env.core (e : Env) : Nat := e.g.core
/-- Operand readers. -/
def Env.get (e : Env) (l : Nat) (o : Opnd) : Word := e.w.get e.clk l o
def Env.getPair (e : Env) (l : Nat) (o : Opnd) : DWord := e.w.getPair e.clk l o
def Env.getN (e : Env) (l : Nat) (o : Opnd) (n : Nat) : DWord := e.w.getN e.clk l o n
def Env.getSrc (e : Env) (l : Nat) (b : Src) (n : Nat) : DWord := e.w.getSrc e.clk l b n
def Env.getSrc32 (e : Env) (l : Nat) (b : Src) : Word := e.w.getSrc32 e.clk l b

/-- How an instruction ends. (log 60, DEDUCED) -/
inductive Eff where
  /-- performed: the lanes that advance past it -/
  | done (m : Mach) (adv : List Nat)
  /-- a precise trap of these threads: nothing performed -/
  | trap (m : Mach) (lanes : List Nat) (code info : Nat) (addr : DWord)
  /-- TRAP or BRK: SR_TPC holds the next instruction (R269) -/
  | soft (m : Mach) (lanes : List Nat) (code info : Nat)
  /-- held under the scoreboard: tried again at the next clk -/
  | hold (m : Mach)
  /-- the threads wait for an event: the instruction issues again after it -/
  | wait (m : Mach)

/-- A request for a grove line that missed (R235): the request and its number. -/
def Mach.askGrove (m : Mach) (who : Requester) (asid : BitVec 16) (va path : Nat) (prio : Byte) (level : Nat) : Mach × Nat :=
  let q : GroveReq := ⟨m.nextId, who, asid, va, path, prio, level, .missed⟩
  ({ m with nextId := m.nextId + 1, reqs := m.reqs ++ [q] }, m.nextId)

/-- A request that a locked sector holds: no line is asked for (R214). -/
def Mach.holdReq (m : Mach) (id : Nat) : Mach :=
  { m with reqs := m.reqs.map fun q => if q.id == id then { q with stage := .held } else q }

/-! ## Loop buffers (R265) -/

/-- A loop buffer empties when no entry of its laneset stands in its range (R265). (log 32, DEDUCED) -/
def Mach.trimLoops (m : Mach) (core : Nat) : Mach :=
  let k := m.core core
  if k.loops.isEmpty then m else
  let inside (p : Nat × BitVec 16 × Nat × List Byte) (pc : Nat) : Bool :=
    decide (p.2.2.1 ≤ pc ∧ pc < p.2.2.1 + p.2.2.2.length)
  let used (p : Nat × BitVec 16 × Nat × List Byte) : Bool :=
    (m.resident core).any fun g => g.asid == p.2.1 && g.waves.any fun w =>
      w.laneset == p.1 && w.live.any fun l => inside p (w.lane l).pc.toNat
  m.setCore core { k with loops := k.loops.filter used }

/-! ## Rollback of a wave (R120) -/

/-- Roll a wave back (R120): a consignment opened since the region start is discarded without an abort (R211). -/
def Mach.rollbackWave (m : Mach) (gid wave : Nat) (counted : Bool) : Mach :=
  let m := match m.group gid with
    | some g => m.count g.core g.asid 0x0008 1 (some (gid, wave))
    | none => m
  let m := { m with consigns := m.consigns.filter fun c => !(c.fresh && c.gid == gid && c.wave == wave) }.updWave gid wave
    fun w => w.rollback counted
  match m.group gid with
  | some g => m.trimLoops g.core
  | none => m

/-! ## Halting and saving a context (R360, R361) -/

/-- Bytes of a logical name (R346): launch, tile, thread. -/
def ThreadName.bytes (n : ThreadName) : List Byte :=
  leBytes 4 n.launch.toNat ++ leBytes 4 n.tileX.toNat ++ leBytes 4 n.tileY.toNat ++ leBytes 4 n.tileZ.toNat
    ++ leBytes 2 n.thread.toNat
/-- Bytes of a fault record (R359). -/
def FaultRec.bytes (f : FaultRec) : List Byte :=
  leBytes 4 f.tcause.toNat ++ leBytes 4 f.origin ++ leBytes 8 f.pc.toNat ++ leBytes 8 f.addr.toNat
    ++ leBytes 8 f.mask.toNat ++ f.name.bytes ++ List.replicate 14 0
/-- A section of a save area (R361): its kind, its core or 0xFFFF, its body. -/
structure Section where
  kind : Nat
  core : Nat
  body : List Byte
/-- The header, directory and bodies of a save area (R361). -/
def areaBytes (flags : Nat) (tvec : DWord) (record : List Byte) (ss : List Section) : List Byte :=
  let off (i : Nat) : Nat := (ss.take i).foldl (fun n s => n + s.body.length) (128 + 16 * ss.length)
  leBytes 2 4 ++ leBytes 2 flags ++ leBytes 4 ss.length ++ leBytes 8 (off ss.length) ++ leBytes 8 tvec.toNat ++ List.replicate 40 0
    ++ record
    ++ ((List.range ss.length).zip ss).flatMap (fun p => leBytes 2 p.2.kind ++ leBytes 2 p.2.core
        ++ leBytes 4 (Config.crc32 p.2.body).toNat ++ leBytes 4 (off p.1) ++ leBytes 4 p.2.body.length)
    ++ ss.flatMap (·.body)
/-- Body of a KIND 2 section: what is not zero of the accumulators and of the two planes. (log 16, DESIGN CHOICE) -/
def Planes.bytes (p : Planes) : List Byte :=
  leBytes 4 p.acc.length ++ leBytes 4 p.active.length ++ leBytes 4 p.shadow.length
    ++ p.acc.flatMap (fun q => leBytes 4 q.1 ++ leBytes 4 q.2.toNat)
    ++ p.active.flatMap (fun q => leBytes 4 q.1 ++ leBytes 2 q.2.toNat)
    ++ p.shadow.flatMap (fun q => leBytes 4 q.1 ++ leBytes 2 q.2.toNat)
/-- The KIND 2 sections of a context (R173). -/
def accSections (accs : Map Planes) : List Section := accs.map fun p => ⟨2, p.1, p.2.bytes⟩
/-- Body of a KIND 1 section: the group and its thread map, the logical name of each live thread with its wave and lane
(R346); its state is part of the image (log 16, DESIGN CHOICE). -/
def Group.bytes (g : Group) : List Byte :=
  leBytes 8 g.gid ++ g.waves.flatMap fun w => w.live.flatMap fun l =>
    leBytes 2 w.index ++ leBytes 2 l ++ (g.nameOf w.index l).bytes
/-- The sections of an image: the context with the image's number, its groups, its cores, its stopped commands with fault
code, address and sector index (R361; log 16, DESIGN CHOICE). -/
def Saved.sections (s : Saved) (stops : List (Nat × Nat × Nat)) : List Section :=
  ⟨3, 0xFFFF, leBytes 8 s.id⟩ :: s.groups.map (fun g => ⟨1, g.core, g.bytes⟩) ++ accSections s.accs
    ++ stops.map fun p => ⟨4, 0xFFFF, leBytes 8 p.1 ++ leBytes 8 p.2.2 ++ leBytes 8 p.2.1⟩
/-- The bytes of a save area (R361). -/
def Saved.bytes (s : Saved) (tvec : DWord) (stops : List (Nat × Nat × Nat)) : List Byte :=
  areaBytes ((if s.faulted then 1 else 0) + (if s.stopped then 2 else 0)) tvec
    (match s.fault with | some f => f.bytes | none => List.replicate 64 0) (s.sections stops)

/-- Outstanding results land at a halt (R354, R360). -/
def Wave.haltLand (w : Wave) : Wave :=
  let w := w.loads.foldl (fun w op =>
    let w := op.writes.foldl (fun w p => w.putNow p.1 p.2) w
    op.flags.foldl (fun w f => w.updLane f.1 fun t => t.setCc f.2.1 f.2.2) w) w
  { w with loads := []
           pend := w.pend.filter w.awaited }
/-- A halt rolls the wave back (R124, R354, R360): an outstanding load has met an uncorrectable word, a thread is on its way
back to a load or a FRAME of its region, or a marked register is in error. (log 85, DEDUCED) -/
def Wave.haltsBack (w : Wave) : Bool :=
  w.loads.any (·.poison.isSome) || w.parity.any w.marked
    || w.live.any fun l => !(w.lane l).framesReplay.isEmpty || (w.lane l).rerun.isSome
/-- A wave at a halt: its results land or its regions roll back, and regions close (R124, R360); waits that reissue are
dropped (R139). A thread that was rolled back stands at its region start, with the FRAMEs to replay and the load to run again
(R275, R354). `keep` says which grove requests are saved with their waystation. (log 85, DEDUCED) -/
def Wave.halted (w : Wave) (keep : Nat → Bool) : Wave :=
  let again := w.loads.filter (·.poison.isSome)
  let w := { w with inflight := [] }
  let w := if w.haltsBack then again.foldl (fun w o => w.markRerun o.pc o.nums) (w.rollback again.isEmpty) else w.haltLand
  let w := w.updLanes (List.range 64) fun t =>
    let t := if t.rolled then { t with rollbacks := 0 } else { t with newRegion := true, framesDone := [], framesReplay := [] }
    { t with wait := match t.wait with
               | .walk _ => .none
               | .xacq => .none
               | .exclusive => .none
               | x => x.keeps keep }
  { w with marks := [], wmarks := [], forced := none, yieldFrom := none, remoteSeen := []
           traps := w.traps.filter (·.keep) }

/-- The groups of an ASID. -/
def Mach.groupsOf (m : Mach) (asid : BitVec 16) : List Group := (m.groups.map (·.2)).filter fun g => g.asid == asid
/-- The group with a gid is of this ASID. -/
def Mach.gidIs (m : Mach) (asid : BitVec 16) (gid : Nat) : Bool :=
  match m.group gid with
  | some g => g.asid == asid
  | none => false
/-- Core numbers. -/
def coreNums : List Nat := List.range 128
/-- Split the queue lists of a table by a test: the entries that pass, and the table of the rest. -/
def takeQ {α : Type} (q : Map (List α)) (f : α → Bool) : Map (List α) × Map (List α) :=
  ((q.map fun p => (p.1, p.2.filter f)).filter fun p => !p.2.isEmpty,
   q.map fun p => (p.1, p.2.filter fun x => !f x))
/-- Porter commands at a halt: one stopped at a fault restarts at its sector, and one with sectors on their way to another device
at the first that is not acknowledged (R292; log 46, DEDUCED); `keep` says which grove requests are saved with their waystation. -/
def PorterCmd.halt (keep : Nat → Bool) (c : PorterCmd) : PorterCmd :=
  let c := match c.unacked with
    | [] => c
    | u :: _ => { c with next := u.2.2, unacked := [] }
  match c.stop with
  | some (_, k, _) => { c with stop := none, next := k, halted := true, wait := none }
  | none => { c with wait := c.wait.filter keep }

/-- Reads of another device by the Porter commands of a halted context: data that has come is dropped, and what is still to come
is for nobody, as of core 129. (log 46, DEDUCED) -/
def Link.halt (k : Link) (mine : Nat → Nat → Bool) : Link :=
  { k with reads := k.reads.filterMap fun r =>
      if !mine r.core r.id then some r else if r.data.isNone then some { r with core := 129 } else none }
/-- A grove request that a save area holds: a waiter of a waystation (R243), and a group's constant table still to be
read. What has not reached a waystation asks again, and so do front ends, whose packets are read again (R250). -/
def GroveReq.saves (q : GroveReq) : Bool :=
  match q.who, q.stage with
  | .ctab _, _ => true
  | .packet _, _ => false
  | .vector _ _, _ => false
  | _, .waiting _ => true
  | _, _ => false
/-- Halt a context on every core and save it (R360, R361). The slot's record stays; `fr` is the fault record of a
context fault. -/
def Mach.haltContext (m : Mach) (c : Ctx) (fr : Option FaultRec) : Mach :=
  let asid := c.asid
  -- step 2: consignments abort with cause 5; XACQ and exclusive waits are dropped
  let m : Mach := ((m.consigns.filter (·.asid == asid)).foldl (fun m d => m.abortConsign d 5 0) m).flushWaiting
  let m : Mach := { m with
    xacqQ := m.xacqQ.map fun p => (p.1, p.2.filter fun r => !m.gidIs asid r.gid)
    exclQ := m.exclQ.filter (·.asid != asid) }
  -- step 7, first half: L1 lines are written back and invalidated
  let m : Mach := (m.cores.map (·.1)).foldl (fun m n => m.l1Purge n asid) m
  let m : Mach := (m.groupsOf asid).foldl (fun m g => m.count g.core asid 0x0008 (g.waves.filter Wave.haltsBack).length) m
  let keep (r : Nat) : Bool := m.reqs.any fun q => q.id == r && q.saves
  let gs : List Group := (m.groupsOf asid).map fun g => { g with waves := g.waves.map fun w => w.halted keep }
  let spads := gs.map fun g => (g.gid, (List.range g.units.length).flatMap fun i =>
    ((m.core g.core).spad.filter fun p => p.1 / 32768 == g.units.getD i 0).map fun p =>
      (i * 32768 + p.1 % 32768, p.2))
  let own := (m.cores.filter fun p => p.2.accOwner == some asid).map fun p =>
    (p.1, (⟨p.2.acc, p.2.active, p.2.shadow⟩ : Planes))
  let mine (gid : Nat) := m.gidIs asid gid
  let perCore {α : Type} (f : Core → List α) : Map (List α) :=
    (m.cores.map fun p => (p.1, f p.2)).filter fun p => !p.2.isEmpty
  let stops := m.cores.flatMap fun p => (p.2.porterQ.filter fun q => mine q.gid).filterMap (·.stop)
  let sp := takeQ m.spawnQ fun e => e.asid == asid
  let fl := takeQ m.fillQ fun e => e.asid == asid
  let s : Saved :=
    { id := m.nextId, serial := c.serial, asid := asid, desc := c.desc, save := c.save, version := 4, faulted := fr.isSome, stopped := !stops.isEmpty
      fault := fr, groups := gs, spads := spads, accs := own.foldl (fun t p => mput t p.1 p.2) c.accs, spawnQ := sp.1, fillQ := fl.1
      mxQ := perCore fun k => k.mxQ.filter fun q => mine q.gid
      porterQ := perCore fun k => (k.porterQ.filter fun q => mine q.gid).map (PorterCmd.halt keep)
      rayQ := perCore fun k => (k.rayQ.filter fun q => mine q.gid).map fun q => { q with wait := q.wait.filter keep }
      rings := m.rings.filter fun p => p.1 / 800 == asid.toNat
      ways := (m.ways.filter fun p => p.2.asid == asid).map fun p => (p.1, { p.2 with waiters := p.2.waiters.filter fun q => keep q.2 })
      reqs := m.reqs.filter fun q => q.asid == asid && q.saves
      counters := m.cores.flatMap fun p => (p.2.counters.filter fun q => q.1 / 8 == asid.toNat).map fun q =>
        (p.1 * 8 + q.1 % 8, q.2)
      waybills := m.cores.flatMap fun p => (p.2.waybills.filter fun q => q.1 / 128 == asid.toNat).map fun q =>
        (p.1 * 128 + q.1 % 128, q.2)
      halts := (m.cores.filterMap fun p => (mget p.2.halts asid.toNat).map fun h => (p.1, h))
      tlrs := c.tlrs, pins := c.pins
      queues := (m.queues.map (·.2)).filter fun q => q.slot == c.slot
      wbRing := c.wbRing
      banks := m.banks.filter fun b => mine b.gid }
  let link := m.link.halt fun n id => decide (n < 128) && (m.core n).porterQ.any fun q => q.id == id && mine q.gid
  let cores := m.cores.map fun p => (p.1, { p.2 with
    mxQ := p.2.mxQ.filter fun q => !mine q.gid
    porterQ := p.2.porterQ.filter fun q => !mine q.gid
    rayQ := p.2.rayQ.filter fun q => !mine q.gid
    counters := p.2.counters.filter fun q => q.1 / 8 != asid.toNat
    waybills := p.2.waybills.filter fun q => q.1 / 128 != asid.toNat
    halts := mdel p.2.halts asid.toNat
    loops := p.2.loops.filter fun q => q.2.1 != asid
    const := dropAsid asid p.2.const, texel := dropAsid asid p.2.texel
    icache := dropAsid asid p.2.icache, tile := dropAsid asid p.2.tile
    accOwner := if p.2.accOwner == some asid then none else p.2.accOwner
    walks := p.2.walks.filter fun f => f.asid != asid })
  let m : Mach := { m with
    cores := cores
    groups := m.groups.filter fun p => p.2.asid != asid
    spawnQ := sp.2, fillQ := fl.2
    rings := m.rings.filter fun p => p.1 / 800 != asid.toNat
    ways := m.ways.filter fun p => p.2.asid != asid
    reqs := m.reqs.filter fun q => q.asid != asid
    replies := m.replies.filter fun r => !m.reqs.any fun q => q.id == r.req && q.asid == asid
    queues := m.queues.filter fun p => p.2.slot != c.slot
    banks := m.banks.filter fun b => !mine b.gid
    saved := s :: m.saved
    link := link
    ringFaults := m.ringFaults.filter fun f => f.1 != asid
    nextId := m.nextId + 1
    issue := none }
  let m : Mach := m.llcWriteRun asid c.save (s.bytes c.tvec stops) none
  m.setCtx { c with faulted := fr.isSome }

/-- A context fault (R359): the whole context halts and its save area carries the fault record. -/
def Mach.contextFault (m : Mach) (asid : BitVec 16) (fr : FaultRec) : Mach :=
  match m.ctxOf asid with
  | some c => m.haltContext c (some fr)
  | none => m
/-- Failures of Depot rings met since the last boundary halt their contexts (R257, R359, R360). -/
def Mach.boundary (m : Mach) : Mach :=
  if m.ringFaults.isEmpty then m else
  { m.ringFaults.foldl (fun m f => if m.ringFaults.any fun q => q.1 == f.1 then m.contextFault f.1 f.2 else m) m with ringFaults := [] }

/-! ## Taking a trap and returning from one (R352 to R358) -/

/-- SR_TCAUSE at a trap (R352). -/
def tcauseOf (t : PendTrap) : Word := BitVec.ofNat 32 (t.code % 256 + t.info % 256 * 256 + t.prio.toNat * 65536)
/-- The trap registers of a delivery (R352). (log 56, DEDUCED) -/
def Wave.setTrapRegs (w : Wave) (t : PendTrap) : Wave :=
  { w with tcause := tcauseOf t, tpc := t.pc &&& 0xFFFFFFFFFFFF, taddr := t.addr &&& 0xFFFFFFFFFFFF
           tmask := t.mask }
/-- What waiting entries have noted goes with an entry that no thread stands at any more (R161, R271, R285). -/
def Wave.noted (w : Wave) (x : DWord × Byte) : Bool := w.live.any fun l => (w.lane l).entry == x
def Wave.trimNotes (w : Wave) : Wave :=
  { w with tokw := w.tokw.filter fun r => w.noted (r.1, r.2.1)
           tlrw := w.tlrw.filter fun r => w.noted r.1
           remoteSeen := w.remoteSeen.filter w.noted }
/-- Threads enter the handler: one entry at its address with priority 0xFF, and a new region (R356). Of traps raised with this
one and not delivered, each is raised again when its entry issues (R355). -/
def Wave.enterHandler (w : Wave) (mask : DWord) (pc : DWord) : Wave :=
  let w := w.updLanes (lanesOf mask) fun t => { t with pc := pc, prio := 0xFF, handler := true, wait := .none, age := 0 }
  { (w.closeRegions (lanesOf mask)).trimNotes with inHandler := true, yieldFrom := none, forced := none, traps := w.traps.filter (·.keep) }
/-- The address of a fault code's vector (R323). -/
def vectorAddr (tvec : DWord) (code : Nat) : Nat :=
  (tvec &&& 0xFFFFFFFFFF00).toNat + 8 * (code / 8)
/-- What reading a vector entry finds. -/
inductive VectorRead where
  | ok (m : Mach) (pc : Nat)
  /-- a context fault of an ORIGIN (R359) -/
  | fault (m : Mach) (origin : Nat)
  /-- the load waits, and the trap with it; whether a grove line was asked for -/
  | later (m : Mach) (asked : Bool)
/-- A vector entry's bytes as a handler address (R323, R359). -/
def vectorOf (m : Mach) (bs : List Byte) : VectorRead :=
  let e := leNat bs
  if e % 2 = 1 ∧ e / 2 % 2 = 0 ∧ e / 2 ^ 48 = 0 then .ok m (e / 4 * 4) else .fault m 0
/-- The page of a vector entry, walked where the core's TLB does not hold it. -/
def Mach.vectorPage (m : Mach) (g : Group) (va : Nat) : Mach × Chk :=
  let m := match m.check g.core g.asid false .load 0 va 8 with
    | .walk _ => m.tlbWalk g.core g.asid va
    | _ => m
  (m, m.check g.core g.asid false .load 0 va 8)
/-- Read a vector entry as a user-mode load through the load-store path (R323), where the load need not wait. In a page of
another class than an ordinary one TRAP_DELIVERY reads it. (log 27, DEDUCED) -/
def Mach.readVector (m : Mach) (g : Group) (va : Nat) : VectorRead :=
  match m.vectorPage g va with
  | (m, .ok c) =>
    if 2 ≤ c ∨ m.locked g.asid va none then .later m false else
    (match m.l1Load g.core g.asid va 8 .norm with
    | .ok m bs => vectorOf m bs
    | .grove m _ => .later m false
    | .bad m _ _ => .fault m 2
    | .again m => .later m false)
  | (m, _) => .fault m 2
/-- Deliver a trap to a wave, its vector read by `read` (R352, R356, R358): the trap registers are written, the wave enters
handler mode. A trap in a handler, or without a vector, is a context fault (R359). (log 27, DEDUCED) -/
def Mach.deliverBy (read : Mach → Group → Nat → VectorRead) (m : Mach) (gid wi : Nat) (t : PendTrap) : Mach :=
  match m.group gid with
  | none => m
  | some g =>
    match g.wave wi with
    | none => m
    | some w =>
      let low := g.task.lowest wi (lanesOf t.mask)
      let frec (origin : Nat) : FaultRec :=
        ⟨tcauseOf t, origin, t.pc &&& 0xFFFFFFFFFFFF, t.addr &&& 0xFFFFFFFFFFFF, t.mask, g.nameOf wi low,
          some (gid, wi)⟩
      if w.inHandler then
        if t.code = Code.perfOvf then m.updWave gid wi fun w => { w with perfHeld := w.perfHeld ++ [t.info] }
        else m.contextFault g.asid (frec 1)
      else
        let tvec := match m.ctxOf g.asid with | some c => c.tvec | none => 0
        match read m g (vectorAddr tvec t.code) with
        | .ok m pc => (m.updWave gid wi fun w => (w.setTrapRegs t).enterHandler t.mask (BitVec.ofNat 64 pc)).trimLoops g.core
        | .fault m origin => (m.updWave gid wi fun w => w.setTrapRegs t).contextFault g.asid (frec origin)
        | .later m _ => m.updWave gid wi fun w => { w with traps := w.traps ++ [t] }
/-- Deliver a trap to a wave. One whose vector must be waited for stays to be delivered. -/
def Mach.deliver (m : Mach) (gid wi : Nat) (t : PendTrap) : Mach := m.deliverBy Mach.readVector gid wi t
/-- End a handler (R357): handler threads named by SR_TMASK return to SR_TPC at the recorded priority, the others are
discarded, and a new region begins. A held PERF_OVF is raised: it is delivered at the next issue (R358). -/
def Wave.eret (w : Wave) : Wave :=
  let hs := (List.range 64).filter fun l => (w.lane l).handler
  let w := (w.updLanes hs fun t => { t with handler := false, age := 0 }).closeRegions hs
  let back := hs.filter fun l => w.tmask.getLsbD l && (w.lane l).st == .live
  let gone := hs.filter fun l => !w.tmask.getLsbD l
  let w := w.updLanes back fun t =>
    { t with pc := w.tpc, prio := BitVec.ofNat 8 (w.tcause.toNat / 65536), wait := .none }
  let w := w.updLanes gone fun t => { t with st := .exited, wait := .none }
  let held := w.perfHeld.map fun n => (⟨w.tpc, 0xFF, 0, Code.perfOvf, n, 0, true⟩ : PendTrap)
  { w.trimNotes with inHandler := false, traps := w.traps ++ held, perfHeld := [] }

/-! ## The frame of an instruction (R86, R71) -/

/-- Register keys an instruction reads, in the lanes given. -/
def readKeys (us : List Use) (ls : List Nat) : List RKey :=
  us.flatMap fun u => if u.src then
    (match u.o.cls with
    | .w => u.keys 0
    | _ => ls.flatMap fun l => u.keys l) else []
/-- Register keys it names as source or destination, tokens apart. -/
def nameKeys (us : List Use) (ls : List Nat) : List RKey :=
  us.flatMap fun u => if u.src || u.dst then
    (match u.o.cls with
    | .w => u.keys 0
    | _ => ls.flatMap fun l => u.keys l) else []
/-- The operand field of a register key, low 8 bits (R351). -/
def RKey.field : RKey → Nat
  | .v _ i => i | .k _ i => i | .x _ i => i | .w i => i | .c _ n => n

/-- Threads named by a decoding check: every active thread, or every thread of the entry when none is active.
(log 25, DEDUCED) -/
def Env.named (e : Env) : List Nat := if e.act.isEmpty then e.lanes else e.act
/-- Lanes whose registers hold an instruction that names them: in row 0x8 and QNTB those of every slot (R161).
(log 51, DEDUCED) -/
def Env.touched (e : Env) (i : Instr) : List Nat :=
  if collective i then (List.range 64).filter fun l => (e.w.lane l).st == .live || e.w.helper l else e.whole
/-- The lanes whose condition codes an instruction reads: of a uniform one the lead alone (R32). -/
def Env.ccLanes (e : Env) (i : Instr) : List Nat := if isUniform (uses i) then [e.lead] else e.whole
/-- The condition codes an instruction reads, its guard's among them. -/
def Env.ccKeys (e : Env) (i : Instr) (c : Ctl) : List RKey :=
  (guardCc i c ++ ccReads i c).flatMap fun n => (e.ccLanes i).map fun l => RKey.c l n
/-- The tokens a TOKW waits for: its operand, or every token pending at its first issue (R271; log 97, DEDUCED). -/
def Env.waited (e : Env) (x : TokwOp) : List Nat :=
  match x.target with
  | some o => [o.idx.toNat]
  | none => ((e.w.tokw.find? fun r => (r.1, r.2.1) == (e.iss.pc, e.iss.prio)).map (·.2.2)).getD e.w.toks
/-- The entry's TOKW has met the tokens it waits for: one that names every token notes them at its first issue (R271). -/
def Env.tokensNoted (e : Env) (x : TokwOp) : Bool :=
  x.target.isSome || e.w.tokw.any fun r => (r.1, r.2.1) == (e.iss.pc, e.iss.prio)
/-- A register is pending as a token (R279). -/
def Wave.tokenPending (w : Wave) : RKey → Bool
  | .w i => w.toks.contains i
  | _ => false
/-- The scoreboard holds the entry (R88): a register or condition code the instruction reads or names as a destination is
pending, a token register among them where another producer is to write it; an external effect, or an instruction that begins a region or leaves a handler, stands behind an outstanding load
of its threads (R354); TOKW and AWAIT wait for tokens (R271, R276). (log 67, DEDUCED) -/
def Env.scoreHolds (e : Env) (i : Instr) (c : Ctl) : Bool :=
  let w := e.w
  let ls := e.touched i
  let flags := match flagDst i with | some k => e.whole.map fun l => RKey.c l k.toNat | none => []
  (!w.pend.isEmpty && ((nameKeys (uses i) ls ++ e.ccKeys i c ++ flags).any w.pend.contains
      || (tokKeys (uses i)).any fun k => w.pend.contains k && !w.tokenPending k))
  || (!w.loads.isEmpty && (external i || c.idm || (match i with | .eret _ => true | _ => false))
      && w.loads.any fun o => e.lanes.any fun l => o.mask.getLsbD l)
  || (!w.toks.isEmpty && (match i with
      | .tokw x => !e.all.isEmpty && e.tokensNoted x && (e.waited x).any w.toks.contains
      | .await _ => !e.act.isEmpty
      | _ => false))
/-- The registers an instruction reads at its issue, whatever the guard (R86): VOTE, REDUX and SCAN those of threads alone
(R158), LANEW those of its target slots too. -/
def Env.sources (e : Env) (i : Instr) : List RKey :=
  let us := uses i
  match i with
  | .lanew x => readKeys (us.filter (!·.dst)) e.whole ++ e.whole.map fun l => x.d.key ((e.getSrc32 l x.b).toNat % 64) 0
  | .vote _ => readKeys us e.lanes
  | .redux _ => readKeys us e.lanes
  | .scan _ => readKeys us e.lanes
  | .tokw _ => tokKeys us
  | i => readKeys us e.whole
/-- The registers an instruction reads when it performs: of the slots R158 names, of the active threads where helpers
do not perform (R35), else of every performing lane. -/
def Env.readsOf (e : Env) (i : Instr) : List RKey :=
  let us := uses i
  match i with
  | .lanew x =>
    readKeys (us.filter (!·.dst)) e.all
      ++ e.all.map fun l => x.d.key ((e.getSrc32 l x.b).toNat % 64) 0
  | .vote _ => readKeys us e.act
  | .redux _ => readKeys us e.act
  | .scan _ => readKeys us e.act
  | .tokw x => if e.all.isEmpty || (e.waited x).any e.w.toks.contains then [] else (e.waited x).map RKey.w
  | i => readKeys us (if external i then e.act else e.all)
/-- The slot that SHFL reads for a lane, when it is a source within the segment (R162). -/
def Env.shflSlot (e : Env) (x : ShflOp) (l : Nat) : Option Nat :=
  (shflFrom x l (e.getSrc32 l x.b).toNat).filter e.all.contains
/-- The lane at a quad position, the reader's own where it is no source. -/
def Env.quadAt (e : Env) (l p : Nat) : Nat := if e.all.contains (l / 4 * 4 + p) then l / 4 * 4 + p else l
/-- The slots that performing lanes read for themselves and for others: reader and slot (R113, R161). -/
def Env.slotReads (e : Env) (i : Instr) : List (Nat × Nat) :=
  match i with
  | .shfl x => e.all.filterMap fun l => (e.shflSlot x l).map fun k => (l, k)
  | .qexch x => e.all.map fun l => (l, e.quadAt l (qexchFrom x.mode (l % 4)))
  | .lanew x => e.all.map fun l => (l, (e.getSrc32 l x.b).toNat % 64)
  | _ => []
/-- The registers of a slot that another slot reads: A of SHFL and QEXCH, D of LANEW. -/
def slotKeys (i : Instr) (k : Nat) : List RKey :=
  match i with
  | .shfl x => (srcN x.a vk (if x.w64 then 2 else 1)).keys k
  | .qexch x => (srcN x.a vk (if x.w64 then 2 else 1)).keys k
  | .lanew x => [x.d.key k 0]
  | _ => []
/-- The registers it reads for another slot: a remote read (R113, R161). -/
def Env.remoteReads (e : Env) (i : Instr) : List RKey :=
  ((e.slotReads i).filter fun p => p.1 != p.2).flatMap fun p => slotKeys i p.2
/-- The registers it reads for its own lanes. -/
def Env.ownReads (e : Env) (i : Instr) : List RKey :=
  let here := ((e.slotReads i).filter fun p => p.1 == p.2).flatMap fun p => slotKeys i p.2
  match i with
  | .shfl x => readKeys (srcB x.b vkw 1 ++ [srcN x.c vkxw (if x.w64 then 2 else 1)]) e.all ++ here
  | .qexch _ => here
  | .lanew _ => readKeys ((uses i).filter (!·.dst)) e.all ++ here
  | i => e.readsOf i
/-- A fixed-latency result is not readable yet (R87). -/
def Wave.unready (w : Wave) (clk : Nat) (k : RKey) : Bool := (Machine.unready clk k w.inflight).isSome
/-- Registers that await refresh are read: 40 clk more (R112). Those read for their own slot are loaded; one that another slot
reads stays as it is, and its reader waits once (R113, R161). -/
def Env.refreshed (e : Env) (own remote : List RKey) : Option Eff :=
  let here := (e.iss.pc, e.iss.prio)
  if !e.w.refresh.isEmpty
      && (own.any e.w.refresh.contains || (remote.any e.w.refresh.contains && !e.w.remoteSeen.contains here)) then
    some (.wait (e.upd e.m fun w =>
      { w.updLanes e.lanes (fun t => { t with ready := e.clk + 40 }) with
        refresh := w.refresh.filter fun k => !own.contains k
        remoteSeen := here :: w.remoteSeen }))
  else none
/-- The checking scoreboard meets a source that is not ready (R89). -/
def Env.checked (e : Env) (ks : List RKey) : Option Eff :=
  if e.w.ctl.getLsbD 0 then
    (ks.find? (e.w.unready e.clk)).map fun k => .trap e.m e.named Code.scoreboard k.field 0
  else none
/-- A V register of the extended block. -/
def Use.inExt (u : Use) (base : Nat) : Bool := u.o.cls == .v && decide (base < u.o.idx.toNat + u.n)

/-- The checks before performing, in the order of R86, and the waits of R88 and R111, R112: what stops the
instruction, or nothing. A drowsy block wakes on any access, and a read of it waits 20 clk.
(log 25, DEDUCED; log 60, DEDUCED) -/
def Env.blocked (e : Env) (i : Instr) (c : Ctl) : Option Eff :=
  let us := uses i
  let w := e.w
  if privileged i && !e.system then some (.trap e.m e.named Code.priv 0 0)
  else if !usesOk us (w.base + w.ext) then some (.trap e.m e.named Code.illegalOperand 0 0)
  else if e.scoreHolds i c then some (.hold e.m)
  else if w.drowsy && us.any fun u => u.src && u.inExt w.base then
    some (.wait (e.upd e.m fun w =>
      { w.updLanes e.lanes (fun t => { t with ready := e.clk + 20 }) with drowsy := false, lastExt := e.clk }))
  else (e.refreshed (e.ownReads i) (e.remoteReads i)).or (e.checked (e.sources i ++ e.ccKeys i c))
/-- The region of the entry's threads begins where R119 says so. -/
def Env.begin (e : Env) (c : Ctl) : Env :=
  let new := e.lanes.filter fun l => !(e.w.lane l).rolled && (c.idm || (e.w.lane l).newRegion)
  let m := if e.m.consigns.isEmpty then e.m else
    { e.m with consigns := e.m.consigns.map fun d =>
        if d.gid == e.iss.gid && d.wave == e.iss.wave && new.contains d.lane then { d with fresh := false } else d }
  let m := e.upd m fun w => w.beginRegions c.idm e.whole
  { e with m := m, g := e.gIn m, w := e.wIn m }
/-- A K or X register read is in error in the main file only: it is repaired, and the read is repeated
8 clk later (R118). (log 55, DEDUCED) -/
def Env.repair (e : Env) (ks : List RKey) : Option Eff :=
  if e.w.weak.isEmpty then none else
  if ks.any e.w.weak.contains then
    some (.wait (e.upd e.m fun w => { w.updLanes e.lanes (fun t => { t with ready := e.clk + 8 }) with
      weak := w.weak.filter fun k => !ks.contains k }))
  else none
/-- A parity error on a register that is read: a rollback, or REG_PARITY (R118, R120). (log 55, DEDUCED) -/
def Env.parity (e : Env) (ks : List RKey) : Option Eff :=
  (e.repair ks).or <|
  if e.w.parity.isEmpty then none else
  match ks.find? e.w.parity.contains with
  | none => none
  | some k =>
    if e.w.marked k && (e.lanes.all fun l => (e.w.lane l).rollbacks < 2) then
      some (.wait (e.m.rollbackWave e.iss.gid e.iss.wave true))
    else some (.trap e.m e.named Code.regParity k.field 0)
/-- Registers that an instruction finds it reads only when it performs (a coordinate whose number a descriptor gives): the
waits and checks every register read meets (R88, R89, R112, R118). -/
def Env.late (e : Env) (ks : List RKey) : Option Eff :=
  (if ks.any e.w.pend.contains then some (.hold e.m) else none).or <|
  (if e.w.drowsy && ks.any (fun k => match k with | .v _ i => decide (e.w.base ≤ i) | _ => false) then
    some (.wait (e.upd e.m fun w =>
      { w.updLanes e.lanes (fun t => { t with ready := e.clk + 20 }) with drowsy := false, lastExt := e.clk }))
  else none).or <|
  (e.refreshed ks []).or <| (e.checked ks).or (e.parity ks)
/-- The registers an instruction marks as written (R119): LANEW marks its targets itself. -/
def Env.writesOf (e : Env) (i : Instr) : List RKey :=
  match i with
  | .lanew _ => []
  | i => (uses i).flatMap fun u => if u.dst then
    (match u.o.cls with | .w => u.keys 0 | _ => e.all.flatMap fun l => u.keys l) else []

/-- A thread goes past the instruction. -/
def Env.advance (e : Env) (t : Lane) : Lane := { t with pc := t.pc + BitVec.ofNat 64 e.iss.len }
/-- STALL acts on a thread of the entry (R71), which has issued (R27) and stands no longer where a rollback took it (R120). -/
def Env.settleLane (e : Env) (c : Ctl) (t : Lane) : Lane := { t with ready := e.clk + max 1 c.stall.toNat, age := 0, rolled := false }
/-- YIELD and YLD = 1 hand the next issue opportunity over (R27, R71, R268). -/
def yields : Instr → Ctl → Bool
  | .yield _, _ => true
  | _, c => c.yld
/-- The wave's part of an instruction's end: the threads advance, STALL and YLD act, an external effect closes the region,
the registers written are marked (R71, R119). The entry that yields stands at the fall-through address. (log 69, DEDUCED) -/
def Env.finishWave (e : Env) (i : Instr) (c : Ctl) (adv : List Nat) (w : Wave) : Wave :=
  let ext := (uses i).any fun u => u.inExt e.w.base
  let w := (w.updLanes adv e.advance).updLanes e.lanes (e.settleLane c)
  let w := w.updLanes (e.w.helpersOf e.lanes) fun t => { t with rolled := false }
  let w := if external i && !e.act.isEmpty then w.closeRegions e.lanes else w
  let w := (e.writesOf i).foldl (fun w k => w.mark e.lead k) w
  { w with
    yieldFrom := if yields i c then some (e.next, e.iss.prio) else none
    forced := none
    delivered := w.delivered.filter fun d => !e.lanes.contains (d.1 / 2 ^ 59)
    denied := w.denied.filter fun d => !e.lanes.contains d.lane
    tokw := w.tokw.filter fun r => w.noted (r.1, r.2.1)
    tlrw := w.tlrw.filter fun r => w.noted r.1
    remoteSeen := w.remoteSeen.filter fun x => x != (e.iss.pc, e.iss.prio) && w.noted x
    lastIssue := e.clk + 1
    drowsy := w.drowsy && !ext
    lastExt := if ext then e.clk else w.lastExt
    inflight := dropReady e.clk w.inflight }
/-- The instruction an entry would issue, where the loop buffer or the instruction cache holds it. -/
def Mach.peek (m : Mach) (g : Group) (ls : Nat) (pc : Nat) : Option (Instr × Ctl) :=
  let k := m.core g.core
  let bs := match (mget k.loops ls).filter fun b => b.1 == g.asid && decide (b.2.1 ≤ pc ∧ pc < b.2.1 + b.2.2.length) with
    | some (_, base, bs) => bs.drop (pc - base)
    | none => ((mget k.icache (secKey g.asid pc)).getD []).drop (pc % 32)
  match decode bs with
  | .ok (i, _) => some (i, ctlOf (Raw.ofNat (leNat (bs.take 8))))
  | .error _ => none
/-- The scoreboard is known to hold an entry (R25). -/
def Mach.scoreHeld (m : Mach) (g : Group) (w : Wave) (x : DWord × Byte) : Bool :=
  if w.pend.isEmpty && w.loads.isEmpty && w.toks.isEmpty then false else
  match m.peek g w.laneset x.1.toNat with
  | some (i, c) => (Env.for c m ⟨g.gid, w.index, x.1, x.2, 0⟩ g w).scoreHolds i c
  | none => false
/-- The eligible entries of a wave (R25). FILLC holds its wave's next instruction until the granule is published (R246). -/
def Mach.eligible (m : Mach) (g : Group) (w : Wave) : List (DWord × Byte) :=
  if w.live.any fun l => (w.lane l).wait == .fillc then [] else (w.ready m.clk).filter fun x => !m.scoreHeld g w x
/-- Eligible entries of a wave other than the issuing one age by one (R27). -/
def Mach.ageOthers (m : Mach) (gid wave : Nat) (x : DWord × Byte) : Mach :=
  match m.group gid with
  | none => m
  | some g =>
    match g.wave wave with
    | none => m
    | some w =>
      let es := (m.eligible g w).filter (· != x)
      if es.isEmpty then m else
      m.updWave gid wave fun w =>
        w.updLanes (w.live.filter fun l => es.contains (w.lane l).entry && !(w.lane l).wait.after) fun t => { t with age := t.age + 1 }
def Env.age (e : Env) (m : Mach) : Mach := m.ageOthers e.iss.gid e.iss.wave (e.iss.pc, e.iss.prio)
/-- The entry has issued without performing its instruction: its age count starts again, and the others age (R27). -/
def Env.spent (e : Env) (m : Mach) : Mach := e.age (e.upd m fun w => w.updLanes e.lanes fun t => { t with age := 0 })
/-- The sector of a generated line that a waiting thread was given, by lane (R249). -/
def givenKey (lane : Nat) (asid : BitVec 16) (va : Nat) : Nat := lane * 2 ^ 59 + secKey asid va
def Wave.given (w : Wave) (lane : Nat) (asid : BitVec 16) (va : Nat) : Option (List Byte) := mget w.delivered (givenKey lane asid va)
/-! ## Allotments (R324, R371) -/

/-- The entry work runs under: an invalid one acts as entry 0. (log 42, DESIGN CHOICE) -/
def Mach.allotOf (m : Mach) (n : Nat) : Nat := if ((mget m.allot n).map (·.valid)).getD false then n else 0
/-- Units of budget k that work with budget left has claimed in this clk, before what a step asks for. -/
def Mach.claimed (m : Mach) (k : Nat) : Nat := m.used.unit k - m.clkUsed.unit k - m.slack.getD k 0
/-- Charge units of budget k, which a step from m₀ has asked for, to an allotment: as many as are left. A strict entry with none
left waits. A slack-borrowing one is served where no work with budget left has claimed the resource in this clk; such work then
claims it from the next clk on. (log 42, DESIGN CHOICE) -/
def Mach.charge (m₀ m : Mach) (n k units : Nat) : Option Mach :=
  if units = 0 then some m else
  let n := m.allotOf n
  match mget m.allot n with
  | none => some m
  | some a =>
    let left := (a.left.getD k 0).toNat
    if left = 0 then
      if a.strict || m₀.claimed k != 0 then none else some { m with slack := m.slack.set k (m.slack.getD k 0 + units) }
    else if m₀.slack.getD k 0 ≠ 0 then none
    else if left = 2 ^ 32 - 1 then some m
    else some { m with allot := mput m.allot n { a with left := a.left.set k (BitVec.ofNat 32 (left - units)) } }
/-- The work may be served now: its allotment has budget, or borrows slack. (log 42, DESIGN CHOICE) -/
def Mach.canPay (m : Mach) (n k : Nat) : Bool := (m.charge m n k 1).isSome
/-- One Porter unit or issue slot is used, and charged. -/
def Mach.pay (m : Mach) (n k : Nat) : Mach :=
  let u := m.used
  { (m.charge m n k 1).getD m with used := if k = 3 then { u with porter := u.porter + 1 } else { u with slots := u.slots + 1 } }
/-- A wave on a fill reserve takes one of its allotment's issue slots (FSLOTS). -/
def Mach.maySlot (m : Mach) (g : Group) : Bool := g.reserve == 0 || m.canPay g.task.allot.toNat 4
/-- An issue of such a wave takes the slot (R371). (log 42, DESIGN CHOICE) -/
def Mach.paySlot (m : Mach) (g : Group) : Mach := if g.reserve = 0 then m else m.pay g.task.allot.toNat 4
/-- Charge what work has asked for since m₀ to its allotment: LLC requests, vertical beats, GDDR 7 beats; none where it
has to wait for one of them (R371). (log 42, DESIGN CHOICE) -/
def Mach.bill (m₀ m : Mach) (n : Nat) : Option Mach :=
  if m.used = m₀.used then some m else
  ((m₀.charge m n 0 (m.used.llc - m₀.used.llc)).bind fun m => m₀.charge m n 1 (m.used.beats - m₀.used.beats)).bind fun m =>
    m₀.charge m n 2 (m.used.gddr - m₀.used.gddr)
/-- The allotment of work and the home slice of what it asked for last. -/
def Mach.denial (m₀ m : Mach) (n : Nat) : Nat × Nat := (m₀.allotOf n, m.used.slice)
/-- An allotment denies what work asked for between m₀ and m: counted once a clk at the slice (R344). Work with budget left, held
behind a service that borrowed, claims its resource from the next clk on (R371). (log 42, DESIGN CHOICE) -/
def Mach.denied (m₀ m : Mach) (n : Nat) : Mach :=
  let d := m₀.denial m n
  if m₀.denials.contains d then m₀ else
  let behind := [0, 1, 2].filter fun k => m.used.unit k != m₀.used.unit k && m₀.slack.getD k 0 != 0
    && decide ((((mget m₀.allot d.1).map (·.left)).getD []).getD k 0 ≠ 0)
  { m₀ with denials := d :: m₀.denials, behind := behind ++ m₀.behind }.countSlice d.2 0x0108 1

/-- Every instruction's end: its wave, the ages of the others, loop buffers left, its core's idle clock, the counters of
issues, and no issue any more. (log 9, DESIGN CHOICE) -/
def Env.finish (e : Env) (i : Instr) (c : Ctl) (m : Mach) (adv : List Nat) : Mach :=
  let m := (e.age (e.upd m (e.finishWave i c adv))).updCore e.core fun k => { k with lastIssue := e.clk, power := .on }
  let who := some (e.iss.gid, e.iss.wave)
  { ((m.trimLoops e.core).count e.core e.asid 0x0002 1 who).count e.core e.asid 0x0003 e.act.length who with issue := none }

/-- A trap raised at the issuing entry is delivered at once. -/
def Env.raise (e : Env) (m : Mach) (pc : DWord) (lanes : List Nat) (code info : Nat) (addr : DWord) : Mach :=
  { m.deliver e.iss.gid e.iss.wave ⟨pc, e.iss.prio, maskOf lanes, code, info, addr, false⟩ with issue := none }
/-- The entry is held: it is tried again at the next clk. -/
def Env.holding (e : Env) (m : Mach) : Mach :=
  { (e.upd m fun w => w.updLanes e.lanes fun t => { t with ready := e.clk + 1 }) with issue := none }
/-- Carry out how an instruction ended. A trap waits until every earlier load of the wave has returned (R352). An issue
opportunity that YIELD handed over is used up, but for an entry that is held. What it asked for is charged to the task's
allotment, which may hold the entry (R371). (log 60, DEDUCED; log 67, DEDUCED; log 42, DESIGN CHOICE) -/
def Env.settle (e : Env) (i : Instr) (c : Ctl) : Eff → Host.Outcome Mach Fault Refusal
  | .done m adv => match e.m.bill m e.g.task.allot.toNat with
    | some m => .next (e.finish i c m adv)
    | none => .next (e.holding (e.m.denied m e.g.task.allot.toNat))
  | .trap m lanes code info addr =>
    if e.w.loads.isEmpty then .next (e.raise (e.spent m) e.iss.pc lanes code info addr) else .next (e.holding e.m)
  | .soft m lanes code info =>
    if !e.w.loads.isEmpty then .next (e.holding e.m) else
    let len := BitVec.ofNat 64 e.iss.len
    let m := e.finish i c m (e.lanes.filter fun l => !lanes.contains l)
    .next (e.raise m (e.iss.pc + len) lanes code info 0)
  | .hold m => .next (e.holding m)
  | .wait m => .next { e.spent (e.upd m fun w => { w with yieldFrom := none, forced := none }) with issue := none }

/-- A wave entry parks (R344). -/
def Env.countPark (e : Env) (m : Mach) : Mach := m.count e.core e.asid 0x0009 1

/-! ## Consignments forbid (R211) -/

/-- The open or aborted consignment of a thread. -/
def Mach.consignOf (m : Mach) (gid wave lane : Nat) : Option Consign :=
  m.consigns.find? fun c => c.gid == gid && c.wave == wave && c.lane == lane
/-- A thread's open consignment, if it has not aborted. -/
def Mach.openConsign (m : Mach) (gid wave lane : Nat) : Option Consign :=
  (m.consignOf gid wave lane).filter fun c => !c.aborted
/-- Abort the open consignments of threads for a forbidden instruction (R211). -/
def Mach.forbid (m : Mach) (gid wave : Nat) (lanes : List Nat) : Mach :=
  lanes.foldl (fun m l => match m.openConsign gid wave l with
    | some c => m.abortConsign c 3 0
    | none => m) m
/-- Threads that have an open consignment. -/
def Env.consigned (e : Env) (ls : List Nat) : List Nat :=
  if e.m.consigns.isEmpty then [] else ls.filter fun l => (e.m.openConsign e.iss.gid e.iss.wave l).isSome
/-- A change of the machine beside an instruction that performs. -/
def Eff.also (f : Mach → Mach) : Eff → Eff
  | .done m adv => .done (f m) adv
  | .soft m lanes code info => .soft (f m) lanes code info
  | x => x
/-- The surroundings without the threads whose open consignment forbids the instruction (R211). -/
def Env.outsideTx (e : Env) : Env := { e with act := e.act.filter fun l => !(e.consigned e.act).contains l }
/-- An instruction forbidden inside a consignment performs nothing in a thread that holds one open, and aborts it when the
instruction performs (R211). -/
def Env.barred (e : Env) (i : Instr) (body : Env → Eff) : Eff :=
  if txForbidden i && !(e.consigned e.act).isEmpty then
    (body e.outsideTx).also fun m => m.forbid e.iss.gid e.iss.wave (e.consigned e.act)
  else body e

/-- Run an instruction of the issuing entry: the checks, the region, the parity of what it reads, and its body. -/
def runIn (i : Instr) (c : Ctl) (body : Env → Eff) (m : Mach) : Host.Outcome Mach Fault Refusal :=
  match Env.of c m with
  | none => .fault .noIssuingEntry
  | some e =>
    match e.blocked i c with
    | some x => e.settle i c x
    | none =>
      let e := e.begin c
      match e.parity (e.readsOf i) with
      | some x => e.settle i c x
      | none => e.settle i c (e.barred i body)

/-- A step of the machine proper leaves the platform and the agenda as they are. -/
def onMach (f : Mach → Host.Outcome Mach Fault Refusal) (s : State) : Host.Outcome State Fault Refusal :=
  match f s.mach with
  | .next m => .next { s with mach := m }
  | .fault r => .fault r
  | .refused r => .refused r
/-- The meaning of a Farom instruction from its body. -/
def perform (i : Instr) (c : Ctl) (body : Env → Eff) (s : State) : Host.Outcome State Fault Refusal :=
  onMach (runIn i c body) s

/-! ## Bodies shared by many instructions -/

/-- A body that changes the wave's registers and advances. -/
def Env.regs (e : Env) (f : Wave → Wave) : Eff := .done (e.upd e.m f) e.lanes
/-- Apply a function in each performing lane, in ascending index. -/
def Env.each (e : Env) (f : Nat → Wave → Wave) : Eff := e.regs fun w => e.all.foldl (fun w l => f l w) w
/-- A uniform or per-thread register instruction (R32, R72, R108): `val` gives result and flags in a lane, `put`
writes them. A uniform one is performed once for its lead lane when the guard holds there; every active thread's
latches take the result, and its exceptions enter SR_FPX of each of them (R96; log 90, DEDUCED). A W destination of a per-thread one
takes the lowest thread's value (R72). (log 30, DEDUCED) -/
def Env.compute {α : Type} (e : Env) (i : Instr) (c : Ctl) (val : Nat → α) (put : Nat → α → Wave → Wave)
    (lat : Nat → α → Wave → Wave) : Eff :=
  if isUniform (uses i) then
    if e.w.guard e.clk c e.lead then
      let x := val e.lead
      e.regs fun w => e.all.foldl (fun w l => lat l x w) (put e.lead x w)
    else .done e.m e.lanes
  else
    -- descending, so that a W destination keeps the lowest thread's value; every read is of the state before
    e.regs fun w => (e.ordered e.all).foldr (fun l w => lat l (val l) (put l (val l) w)) w
/-- What a register instruction gives in a lane: the result pattern, the condition code, the exceptions raised. -/
structure Res where
  r : DWord
  cc : BitVec 5
  fpx : BitVec 5
/-- Write a lane's latches, flags and exceptions (R96, R108, R126): latches only beside a destination. -/
def Res.side (x : Res) (clk lat : Nat) (dst : Bool) (flag : Option (BitVec 2)) (l : Nat) (w : Wave) : Wave :=
  let w := if dst then w.latch clk lat l (x.r.setWidth 32) else w
  let w := match flag with | some k => w.setCcAt clk lat l k.toNat x.cc | none => w
  if x.fpx == 0 then w else w.orFpx l x.fpx
/-- A register instruction with a destination of n registers, or none, and flags in c(CCD) when F = 1. -/
def Env.result (e : Env) (i : Instr) (c : Ctl) (dst : Option (Opnd × Nat)) (flag : Option (BitVec 2)) (val : Nat → Res) : Eff :=
  let lat := latency i
  e.compute i c val
    (fun l x w => match dst with | some (d, n) => w.setN e.clk lat l d n x.r | none => w)
    (fun l x w => x.side e.clk lat dst.isSome flag l w)
/-- A body performed once for the entry when it has an active thread (R33), also where an ELECT has chosen a thread in each of several
segments of it (R167; log 92, DEDUCED). -/
def Env.once (e : Env) (f : Env → Eff) : Eff := if e.act.isEmpty then .done e.m e.lanes else f e

end Sys2Proof.Machine
end

