-- ==== Sys2Proof/Machine/Buffers.lean ====
section
/-! DEFINITION. The layouts of boxes and tiles in scratchpad (R282, R283, R286, R295), and the buffers of commands that
have not completed: what a thread that touches one finds (R199, R299). -/

namespace Sys2Proof.Machine

/-! ## Layouts (R282, R283) -/

/-- Swizzle span in bytes; 0 is none. -/
def swzSpan (swz : Nat) : Nat := if swz = 0 then 0 else 16 * 2 ^ swz
/-- Place of byte b of row r under a swizzle, with rows `rb` bytes apart. -/
def swizzled (swz rb r b : Nat) : Nat :=
  let q := swzSpan swz / 16
  let j := b / 16
  let j' := if q = 0 then j else j - j % q + ((j % q) ^^^ (r % q))
  r * rb + 16 * j' + b % 16
/-- Element size in half bytes of a box in scratchpad: 2 bytes where VB4 is converted. -/
def Tlr.boxEs2 (t : Tlr) (cvt : Bool) : Nat := if cvt then 4 else t.es2
/-- Row length of a box in bytes, its rows, and its bytes. -/
def Tlr.rowBytes (t : Tlr) (cvt : Bool) : Nat := t.boxes.getD 0 1 * t.boxEs2 cvt / 2
def Tlr.rows (t : Tlr) : Nat := (t.boxes.drop 1).foldl (· * ·) 1
def Tlr.boxBytes (t : Tlr) (cvt : Bool) : Nat := t.rowBytes cvt * t.rows

/-! ## Buffers of commands (R199) -/

/-- A range of scratchpad: offset and bytes. -/
abbrev Range := Nat × Nat
def Range.meets (a b : Range) : Bool := decide (a.1 < b.1 + b.2 ∧ b.1 < a.1 + a.2)
/-- Scratchpad a Porter command reads, and what it writes. -/
def PorterCmd.reads (c : PorterCmd) : List Range :=
  match c.op with
  | .cpy true _ src _ n => [(src, n)]
  | .tcpy true cvt sp _ tlr _ => [(sp, tlr.boxBytes cvt)]
  | _ => []
def PorterCmd.writes (c : PorterCmd) : List Range :=
  match c.op with
  | .cpy _ true _ dst n => [(dst, n)]
  | .tcpy false cvt sp _ tlr _ => [(sp, tlr.boxBytes cvt)]
  | _ => []
/-- Bytes of the row that a matrix command reads or writes in scratchpad. -/
def MxCmd.rowBytes (c : MxCmd) : Nat :=
  match c.op with
  | .lds _ => 64
  | .mul _ => 2 * c.k
  | .rd bf => if bf then 2 * c.n else 4 * c.n
  | .lda bf => if bf then 2 * c.n else 4 * c.n
  | _ => 0
/-- Rows of a matrix command in scratchpad. -/
def MxCmd.rows (c : MxCmd) : Nat :=
  match c.op with
  | .lds _ => 32
  | .mul _ => if c.n = 0 then 0 else c.m
  | .rd _ | .lda _ => c.m
  | _ => 0
/-- Place of byte b of row r. -/
def MxCmd.place (c : MxCmd) (r b : Nat) : Nat := c.a + swizzled c.swz c.pitch r b
/-- The 16-byte chunks a matrix command touches, the last of a row cut to the row. -/
def MxCmd.chunks (c : MxCmd) : List Range :=
  (List.range c.rows).flatMap fun r => (List.range ((c.rowBytes + 15) / 16)).map fun j =>
    (c.place r (16 * j), min 16 (c.rowBytes - 16 * j))
def MxCmd.reads (c : MxCmd) : List Range :=
  match c.op with
  | .lds _ | .mul _ | .lda _ => c.chunks
  | _ => []
def MxCmd.writes (c : MxCmd) : List Range :=
  match c.op with
  | .rd _ => c.chunks
  | _ => []
/-- A command has a buffer that meets a range of its group. -/
def PorterCmd.over (c : PorterCmd) (gid : Nat) (r : Range) : Bool :=
  c.gid == gid && (c.reads ++ c.writes).any (Range.meets r)
def MxCmd.over (c : MxCmd) (gid : Nat) (r : Range) : Bool :=
  c.gid == gid && (c.reads ++ c.writes).any (Range.meets r)
def DepotItem.over (x : DepotItem) (gid : Nat) (r : Range) : Bool :=
  match x with
  | .porter c => c.over gid r
  | .mx c => c.over gid r
  | _ => false
/-- A thread's access meets a buffer of a command that has not completed. (log 52, DESIGN CHOICE) -/
def Mach.inBuffer (m : Mach) (g : Group) (r : Range) : Bool :=
  let k := m.core g.core
  k.porterQ.any (·.over g.gid r) || k.mxQ.any (·.over g.gid r)
    || m.rings.any fun p => p.2.items.any fun x => x.over g.gid r
/-- Bytes of a range that lie in a live transaction barrier word are suppressed: what is left to write, by offset, and
whether a word was met (R339). -/
def Group.unclobbered (g : Group) (off : Nat) (bs : List Byte) : List (Nat × Byte) × Bool :=
  if !g.clobbers off bs.length then (((List.range bs.length).zip bs).map fun p => (off + p.1, p.2), false) else
  ((((List.range bs.length).zip bs).filter fun p => !g.clobbers (off + p.1) 1).map fun p => (off + p.1, p.2), true)
/-- Write scattered scratchpad bytes of a group. -/
def Mach.spadPut (m : Mach) (g : Group) (bs : List (Nat × Byte)) : Mach :=
  (bs.foldl (fun m p => m.raceBeams g p.1 1) m).updCore g.core fun c =>
    { c with spad := bs.foldl (fun s p => cellPut s (g.spadPhys p.1) p.2) c.spad }
/-- Ranges of scratchpad whose values are undefined from now on; a live barrier word keeps its value (R333, R335, R339).
(log 52, DESIGN CHOICE) -/
def Mach.taint (m : Mach) (g : Group) (rs : List Range) : Mach :=
  rs.foldl (fun m r =>
    let (m, bs) := m.freeBytes r.2
    m.spadPut g (g.unclobbered r.1 bs).1) m
/-- The commands whose buffers an access meets: their data, and all that their buffers hold, are undefined from now on
(R199). (log 52, DESIGN CHOICE) -/
def Mach.markRaced (m : Mach) (g : Group) (r : Range) : Mach :=
  let po (c : PorterCmd) : PorterCmd := if c.over g.gid r then { c with raced := true } else c
  let mx (c : MxCmd) : MxCmd := if c.over g.gid r then { c with raced := true } else c
  let item : DepotItem → DepotItem
    | .porter c => .porter (po c)
    | .mx c => .mx (mx c)
    | x => x
  let hitP (c : PorterCmd) : List Range := if c.over g.gid r && !c.raced then c.reads ++ c.writes else []
  let hitM (c : MxCmd) : List Range := if c.over g.gid r && !c.raced then c.reads ++ c.writes else []
  let k := m.core g.core
  let hitI : DepotItem → List Range
    | .porter c => hitP c
    | .mx c => hitM c
    | _ => []
  let hits := k.porterQ.flatMap hitP ++ k.mxQ.flatMap hitM ++ m.rings.flatMap fun p => p.2.items.flatMap hitI
  let m : Mach := m.setCore g.core { k with porterQ := k.porterQ.map po, mxQ := k.mxQ.map mx }
  let m : Mach := { m with rings := m.rings.map fun p => (p.1, { p.2 with items := p.2.items.map item }) }
  m.taint g hits
/-- A thread touches a range of scratchpad. (log 52, DESIGN CHOICE) -/
def Mach.threadTouch (m : Mach) (g : Group) (r : Range) : Mach := if m.inBuffer g r then m.markRaced g r else m
/-- A thread reads scratchpad: what it meets of a command's buffers is undefined. (log 52, DESIGN CHOICE) -/
def Mach.threadRead (m : Mach) (g : Group) (off n : Nat) : Mach × List Byte :=
  let m := m.threadTouch g (off, n)
  (m, m.spadRead g off n)
/-- A thread writes scratchpad: what lies in a command's buffers stays undefined. (log 52, DESIGN CHOICE) -/
def Mach.threadStore (m : Mach) (g : Group) (off : Nat) (bs : List Byte) : Mach :=
  if m.inBuffer g (off, bs.length) then
    ((List.range bs.length).zip bs).foldl (fun m p => if m.inBuffer g (off + p.1, 1) then m else m.spadWrite g (off + p.1) [p.2])
      (m.markRaced g (off, bs.length))
  else m.spadWrite g off bs
/-- A command reads or writes scratchpad: free bytes once a thread has touched its buffers. (log 52, DESIGN CHOICE) -/
def Mach.cmdRead (m : Mach) (g : Group) (raced : Bool) (off n : Nat) : Mach × List Byte :=
  if raced then m.freeBytes n else (m, m.spadRead g off n)
/-- The wave has written a range of its own group's scratchpad that no OPFENCE has followed. -/
def Wave.wrote (w : Wave) (r : Range) : Wave :=
  if w.stsSince.contains r then w else { w with stsSince := r :: w.stsSince }
/-- Some of the ranges was written by the wave without an OPFENCE. -/
def Wave.unfenced (w : Wave) (rs : List Range) : Bool := rs.any fun r => w.stsSince.any (Range.meets r)

end Sys2Proof.Machine
end

