-- ==== Sys2Proof/Machine/Round.lean ====
section
/-! DEFINITION. Floating values as exact numbers, and rounding to a format (R91 to R96, R102). -/

namespace Sys2Proof.Machine

/-- A floating format (R91): widths of the exponent and fraction fields; E4M3 has no infinity. -/
structure FFmt where
  eb : Nat
  mb : Nat
  inf : Bool
  deriving DecidableEq, Repr
def fp32 : FFmt := ⟨8, 23, true⟩
def fp16 : FFmt := ⟨5, 10, true⟩
def bf16 : FFmt := ⟨8, 7, true⟩
def e4m3 : FFmt := ⟨4, 3, false⟩
def e5m2 : FFmt := ⟨5, 2, true⟩
def FFmt.bits (f : FFmt) : Nat := 1 + f.eb + f.mb
def FFmt.bias (f : FFmt) : Nat := 2 ^ (f.eb - 1) - 1
/-- Exponent of the smallest subnormal. -/
def FFmt.ulp (f : FFmt) : Int := 1 - (f.bias : Int) - f.mb
/-- Pattern of the largest finite value, sign clear. -/
def FFmt.maxBits (f : FFmt) : Nat := if f.inf then (2 ^ f.eb - 1) * 2 ^ f.mb - 1 else 2 ^ (f.eb + f.mb) - 2
/-- Pattern of +∞; E4M3 gives its NaN (R95). -/
def FFmt.infBits (f : FFmt) : Nat := if f.inf then (2 ^ f.eb - 1) * 2 ^ f.mb else 2 ^ (f.eb + f.mb) - 1
/-- The canonical NaN (R93). -/
def FFmt.nan (f : FFmt) : Nat := if f.inf then (2 ^ f.eb - 1) * 2 ^ f.mb + 2 ^ (f.mb - 1) else 2 ^ (f.eb + f.mb) - 1
def FFmt.sign (f : FFmt) (neg : Bool) : Nat := if neg then 2 ^ (f.eb + f.mb) else 0

/-- A value: NaN, an infinity, or (−1)^neg × m × 2^e. -/
inductive FV where
  | nan
  | inf (neg : Bool)
  | fin (neg : Bool) (m : Nat) (e : Int)
  deriving DecidableEq, Repr

/-- The value of a pattern. -/
def FFmt.val (f : FFmt) (x : Nat) : FV :=
  let neg := x / 2 ^ (f.eb + f.mb) % 2 == 1
  let e := x / 2 ^ f.mb % 2 ^ f.eb
  let m := x % 2 ^ f.mb
  if f.inf && e == 2 ^ f.eb - 1 then (if m = 0 then .inf neg else .nan)
  else if !f.inf && x % 2 ^ (f.eb + f.mb) == 2 ^ (f.eb + f.mb) - 1 then .nan
  else if e = 0 then .fin neg m f.ulp
  else .fin neg (m + 2 ^ f.mb) (f.ulp + e - 1)
/-- The FP32 value of a word. -/
def f32 (x : Word) : FV := fp32.val x.toNat

/-! ## Flags (R96) -/

def flNX : BitVec 5 := 16
def flUF : BitVec 5 := 8
def flOF : BitVec 5 := 4
def flDZ : BitVec 5 := 2
def flIV : BitVec 5 := 1

/-- A rounded result. -/
structure Rounded where
  bits : Nat
  fl : BitVec 5
  deriving DecidableEq, Repr

/-- Round up the magnitude `fl` with remainder rem / d. -/
def roundUp (rm : Rm) (neg : Bool) (fl rem d : Nat) : Bool :=
  match rm with
  | .rn => decide (d < 2 * rem) || (decide (2 * rem = d) && fl % 2 == 1)
  | .rna => decide (d ≤ 2 * rem)
  | .rz => false
  | .ru => !neg && rem != 0
  | .rd => neg && rem != 0
/-- What overflow gives (R95). -/
def overflowBits (f : FFmt) (rm : Rm) (neg : Bool) : Nat :=
  let toInf := match rm with
    | .rn | .rna => true
    | .rz => false
    | .ru => !neg
    | .rd => neg
  if toInf then (if f.inf then f.infBits + f.sign neg else f.nan) else f.maxBits + f.sign neg
/-- floor(log2(n / d)) for positive n and d. -/
def ilog2 (n d : Nat) : Int :=
  let e : Int := (Nat.log2 n : Int) - Nat.log2 d
  let lt := if 0 ≤ e then decide (n < d * 2 ^ e.toNat) else decide (n * 2 ^ (-e).toNat < d)
  if lt then e - 1 else e
/-- n / d × 2^(−q) as a quotient and remainder over a divisor. -/
def scaleDiv (n d : Nat) (q : Int) : Nat × Nat × Nat :=
  let (n, d) := if 0 ≤ q then (n, d * 2 ^ q.toNat) else (n * 2 ^ (-q).toNat, d)
  (n / d, n % d, d)
/-- Round a positive rational n / d (R95): a value rounded once, with NX, UF and OF. UF is judged on the pattern delivered: an
inexact result that is subnormal or rounds to zero raises it. (log 76, DESIGN CHOICE) -/
def roundRat (f : FFmt) (rm : Rm) (neg : Bool) (n d : Nat) : Rounded :=
  if n = 0 then ⟨f.sign neg, 0⟩ else
  let q := max (ilog2 n d - f.mb) f.ulp
  let (fl, rem, dv) := scaleDiv n d q
  let r := if roundUp rm neg fl rem dv then fl + 1 else fl
  let bits := r + (q - f.ulp).toNat * 2 ^ f.mb
  if f.maxBits < bits then ⟨overflowBits f rm neg, flNX ||| flOF⟩
  else ⟨bits + f.sign neg, (if rem = 0 then 0 else flNX) ||| (if rem ≠ 0 ∧ bits < 2 ^ f.mb then flUF else 0)⟩
/-- The rational m × 2^e. -/
def ratOf (m : Nat) (e : Int) : Nat × Nat := if 0 ≤ e then (m * 2 ^ e.toNat, 1) else (m, 2 ^ (-e).toNat)
/-- Round a value to a format. -/
def FV.round (v : FV) (f : FFmt) (rm : Rm) : Rounded :=
  match v with
  | .nan => ⟨f.nan, 0⟩
  | .inf neg => ⟨if f.inf then f.infBits + f.sign neg else f.nan, 0⟩
  | .fin neg m e => let (n, d) := ratOf m e; roundRat f rm neg n d

/-! ## Exact arithmetic -/

def FV.neg : FV → FV
  | .nan => .nan
  | .inf s => .inf !s
  | .fin s m e => .fin (!s) m e
def FV.abs : FV → FV
  | .nan => .nan
  | .inf _ => .inf false
  | .fin _ m e => .fin false m e
def FV.isNan : FV → Bool
  | .nan => true
  | _ => false
def FV.isZero : FV → Bool
  | .fin _ m _ => m == 0
  | _ => false
/-- The sign; false for NaN. -/
def FV.sgn : FV → Bool
  | .nan => false
  | .inf s => s
  | .fin s _ _ => s
/-- An exact product; `true` for 0 × ∞. -/
def FV.mul (a b : FV) : FV × Bool :=
  match a, b with
  | .nan, _ => (.nan, false)
  | _, .nan => (.nan, false)
  | .inf s, .inf t => (.inf (s != t), false)
  | .inf s, .fin t m _ => if m = 0 then (.nan, true) else (.inf (s != t), false)
  | .fin s m _, .inf t => if m = 0 then (.nan, true) else (.inf (s != t), false)
  | .fin s m e, .fin t n g => (.fin (s != t) (m * n) (e + g), false)
/-- A finite value as an integer over 2^e for a common exponent e. -/
def FV.over (v : FV) (e : Int) : Int :=
  match v with
  | .fin s m g => if s then -((m * 2 ^ (g - e).toNat : Nat) : Int) else ((m * 2 ^ (g - e).toNat : Nat) : Int)
  | _ => 0
/-- Smallest exponent of a list of values. -/
def minExp (l : List FV) : Int :=
  (l.foldl (fun (b : Option Int) v => match v with
    | .fin _ _ e => some (match b with | some x => min x e | none => e)
    | _ => b) none).getD 0
/-- An exact sum (R95, R102); `true` for infinities of opposite sign, also beside a NaN (R150). (log 54, DEDUCED) -/
def exactSum (rm : Rm) (l : List FV) : FV × Bool :=
  let pos := l.any (· == .inf false)
  let neg := l.any (· == .inf true)
  if pos && neg then (.nan, true)
  else if l.any (·.isNan) then (.nan, false)
  else if pos then (.inf false, false)
  else if neg then (.inf true, false)
  else
    let e := minExp l
    let t := l.foldl (fun a v => a + v.over e) (0 : Int)
    if t = 0 then
      (if l.all (·.sgn) && !l.isEmpty then .fin true 0 0
       else if l.all (!·.sgn) then .fin false 0 0
       else .fin (rm == .rd) 0 0, false)
    else (.fin (decide (t < 0)) t.natAbs e, false)
/-- Compare two values: −1, 0, 1, or none when a NaN is present. −0 equals +0. -/
def FV.cmp (a b : FV) : Option Int :=
  match a, b with
  | .nan, _ => none
  | _, .nan => none
  | .inf s, .inf t => some (if s == t then 0 else if s then -1 else 1)
  | .inf s, .fin _ _ _ => some (if s then -1 else 1)
  | .fin _ _ _, .inf t => some (if t then 1 else -1)
  | .fin s m e, .fin t n g =>
    let k := min e g
    let d := (FV.fin s m e).over k - (FV.fin t n g).over k
    some (if d < 0 then -1 else if d = 0 then 0 else 1)
/-- round_rn(a + b) in FP32 as the atomics do (R105, R208): no flags. -/
def fadd32 (a b : Word) : Word := BitVec.ofNat 32 ((exactSum .rn [f32 a, f32 b]).1.round fp32 .rn).bits
/-- Replace a subnormal by a zero of its sign (R102). -/
def ftz (f : FFmt) (x : Nat) : Nat := if x % 2 ^ (f.eb + f.mb) < 2 ^ f.mb then x / 2 ^ (f.eb + f.mb) * 2 ^ (f.eb + f.mb) else x

end Sys2Proof.Machine
end

