-- ==== Sys2Proof/Machine/Place.lean ====
section
/-! DEFINITION. Task records (R36, R38), frames (R39, R40), the resources of a core (R48, R50, R109, R172, R328),
placing a group (R37), accumulator hand-over (R173), placing it again (R44, R362), and the queues with their
Depot rings (R250 to R257). -/

namespace Sys2Proof.Machine

/-! ## Task records -/

/-- A task record from its 64 bytes (R36). -/
def TaskRec.ofBytes (bs : List Byte) : TaskRec :=
  let f := fieldAt bs
  let shape := f 28 4
  let res := f 40 4
  let mid := f 44 4
  { entry := BitVec.ofNat 64 (f 0 8), arg := BitVec.ofNat 64 (f 8 8)
    tileX := BitVec.ofNat 32 (f 16 4), tileY := BitVec.ofNat 32 (f 20 4), tileZ := BitVec.ofNat 32 (f 24 4)
    q2x2 := shape / 2 ^ 30 % 2 == 1, gx := BitVec.ofNat 10 shape, gy := BitVec.ofNat 10 (shape / 2 ^ 10)
    gz := BitVec.ofNat 10 (shape / 2 ^ 20), succ := BitVec.ofNat 64 (f 32 8)
    convoy := BitVec.ofNat 2 (res / 2 ^ 13), spad := BitVec.ofNat 9 (res / 2 ^ 4), xpre := BitVec.ofNat 2 (res / 4)
    base := BitVec.ofNat 2 res, bars := BitVec.ofNat 6 (mid / 2 ^ 25), split := mid / 2 ^ 24 % 2 == 1
    fill := mid / 2 ^ 23 % 2 == 1, wcount := BitVec.ofNat 7 (mid / 2 ^ 16), allot := BitVec.ofNat 6 (mid / 2 ^ 10)
    flvl := BitVec.ofNat 2 (mid / 2 ^ 8), tpri := BitVec.ofNat 8 mid, ctab := BitVec.ofNat 64 (f 48 8)
    link := BitVec.ofNat 64 (f 56 8), bad := shape / 2 ^ 31 != 0 || res / 2 ^ 15 != 0 || mid / 2 ^ 31 != 0 }
/-- SR_GSHAPE (R117). -/
def TaskRec.shape (r : TaskRec) : Nat :=
  r.gx.toNat + r.gy.toNat * 2 ^ 10 + r.gz.toNat * 2 ^ 20 + (if r.q2x2 then 2 ^ 30 else 0)
/-- The 64 bytes of a task record (R36). -/
def TaskRec.bytes (r : TaskRec) : List Byte :=
  let res := r.convoy.toNat * 2 ^ 13 + r.spad.toNat * 2 ^ 4 + r.xpre.toNat * 4 + r.base.toNat
  let mid := r.bars.toNat * 2 ^ 25 + (if r.split then 2 ^ 24 else 0) + (if r.fill then 2 ^ 23 else 0)
    + r.wcount.toNat * 2 ^ 16 + r.allot.toNat * 2 ^ 10 + r.flvl.toNat * 2 ^ 8 + r.tpri.toNat
  leBytes 8 r.entry.toNat ++ leBytes 8 r.arg.toNat ++ leBytes 4 r.tileX.toNat ++ leBytes 4 r.tileY.toNat
    ++ leBytes 4 r.tileZ.toNat ++ leBytes 4 r.shape ++ leBytes 8 r.succ.toNat ++ leBytes 4 res ++ leBytes 4 mid
    ++ leBytes 8 r.ctab.toNat ++ leBytes 8 r.link.toNat
/-- A record passes the checks of R38. -/
def TaskRec.ok (r : TaskRec) : Bool :=
  !r.bad && r.xpre != 3 && decide (r.threads ≤ 1024) && decide (r.spad.toNat ≤ 384) && decide (r.wcount.toNat ≤ 64)
    && !(r.q2x2 && (r.gx.toNat % 2 == 0 || r.gy.toNat % 2 == 0))
    && r.entry.toNat % 8 == 0 && r.ctab.toNat % 4 == 0 && r.succ.toNat % 4 == 0 && !r.fill && !r.split
/-- Groups placed together. -/
def TaskRec.parts (r : TaskRec) : Nat := r.convoy.toNat + 1
/-- Scratchpad units (R48). -/
def TaskRec.spadUnits (r : TaskRec) : Nat := (r.spad.toNat + 31) / 32
/-- Register units of a wave (R109). -/
def TaskRec.regUnits (r : TaskRec) : Nat := (r.baseRegs + r.xRegs) / 32
/-- A fill record that its level's reserve can hold (R50). -/
def TaskRec.fitsReserve (r : TaskRec) : Bool :=
  decide (r.threads ≤ 128 ∧ r.baseRegs ≤ 64 ∧ r.spad.toNat ≤ 32 ∧ r.bars.toNat ≤ 1) && r.xpre == 0 && r.convoy == 0

/-! ## Frames (R39, R40) -/

/-- The first free frame of a context's store: which free handle is opened is left open. (log 31, DESIGN CHOICE) -/
def Mach.freeFrame (m : Mach) (asid : BitVec 16) : Option Nat :=
  match m.ctxOf asid with
  | none => none
  | some c => ((List.range c.frameCount).map fun i => c.frames + 128 * i).find? fun h => (m.frame asid h).isNone
/-- Open a frame: its handle, or none when the store is full. (log 31, DESIGN CHOICE) -/
def Mach.openFrame (m : Mach) (asid : BitVec 16) (parent : Nat) (succ : DWord) (initial : Bool) : Option (Mach × Nat) :=
  (m.freeFrame asid).map fun h => (m.setFrame asid h ⟨0, true, false, false, initial, none, parent, succ, 0, 0⟩, h)
/-- Retire a frame. -/
def Mach.dropFrame (m : Mach) (asid : BitVec 16) (h : Nat) : Mach :=
  { m with frames := mdel m.frames (frameKey asid h) }

/-! ## Resources (R48, R50, R109, R172) -/

/-- The reserve of level k lies on laneset k and has scratchpad unit 14 - k (log 22, DESIGN CHOICE). -/
def reserveUnit (k : Nat) : Nat := 14 - k
/-- Waves of a core's groups that still hold a slot, on one laneset. -/
def Mach.wavesOn (m : Mach) (core ls res : Nat) : List Wave :=
  (m.resident core).flatMap fun g => if g.reserve = res then g.waves.filter fun w => !w.ended && w.laneset == ls else []
/-- Units of extended blocks held on a laneset, by groups of any kind. -/
def Mach.extUnits (m : Mach) (core ls : Nat) : Nat :=
  ((m.resident core).flatMap fun g => g.waves.filter fun w => !w.ended && w.laneset == ls).foldl
    (fun n w => n + w.ext / 32) 0
/-- Free wave slots of a laneset for ordinary groups. -/
def Mach.freeSlots (m : Mach) (core ls : Nat) : Nat :=
  16 - (if m.levels.contains ls then 2 else 0) - (m.wavesOn core ls 0).length
/-- Free register units of a laneset outside the reserves. (log 22, DESIGN CHOICE) -/
def Mach.freeUnits (m : Mach) (core ls : Nat) : Nat :=
  16 - (if m.levels.contains ls then 4 else 0)
    - (m.wavesOn core ls 0).foldl (fun n w => n + w.base / 32) 0 - m.extUnits core ls
/-- Free wave slots of a core, the reserves apart (R48). -/
def Mach.freeWaves (m : Mach) (core : Nat) : Nat := (List.range 8).foldl (fun n ls => n + m.freeSlots core ls) 0
/-- Free scratchpad units for ordinary groups, lowest first. -/
def Mach.freeSpad (m : Mach) (core : Nat) : List Nat :=
  let used := (m.resident core).flatMap (·.units)
  (List.range 14).filter fun u => !used.contains u && !m.levels.any (fun k => reserveUnit k == u)
/-- Free barrier slots for ordinary groups. -/
def Mach.freeBars (m : Mach) (core : Nat) : Nat :=
  64 - 2 * m.levels.length - (m.resident core).foldl (fun n g => if g.reserve = 0 then n + g.slots.length else n) 0
/-- Lanesets for waves of these register units, or none: each wave takes the laneset with most room (log 22, DESIGN CHOICE). -/
def pickLanes : List Nat → List (Nat × Nat × Nat) → Option (List Nat)
  | [], _ => some []
  | u :: us, rooms =>
    let fit := rooms.filter fun r => 1 ≤ r.2.1 && u ≤ r.2.2
    match fit.foldl (fun (b : Option (Nat × Nat × Nat)) r =>
        match b with
        | some x => if x.2.1 < r.2.1 then some r else b
        | none => some r) none with
    | none => none
    | some r =>
      (pickLanes us (rooms.map fun x => if x.1 = r.1 then (x.1, x.2.1 - 1, x.2.2 - u) else x)).map (r.1 :: ·)
/-- The accumulators allow a group of the context on the core (R173). -/
def Mach.accFree (m : Mach) (core : Nat) (asid : BitVec 16) : Bool :=
  match (m.core core).accOwner with
  | none => true
  | some a => a == asid || !((m.resident core).any fun g => g.asid == a)

/-- What a group holds on a core: its lanesets, its scratchpad units, the reserve it draws on. -/
structure Grant where
  lanes : List Nat
  units : List Nat
  reserve : Nat

/-- Register units of each wave of a new group (R109). -/
def TaskRec.units (r : TaskRec) : List Nat := List.replicate r.waves r.regUnits
/-- Ordinary resources for a record whose live waves need these register units. (log 22, DESIGN CHOICE) -/
def Mach.fits (m : Mach) (core : Nat) (asid : BitVec 16) (r : TaskRec) (us : List Nat := r.units) : Option Grant :=
  let spad := m.freeSpad core
  if !m.accFree core asid || spad.length < r.spadUnits || m.freeBars core < r.bars.toNat + 1 then none
  else (pickLanes us ((List.range 8).map fun ls => (ls, m.freeSlots core ls, m.freeUnits core ls))).map
    fun ls => ⟨ls, spad.take r.spadUnits, 0⟩
/-- The resources of a fill: its level's reserve, else ordinary ones (R50). -/
def Mach.fitsFill (m : Mach) (core : Nat) (asid : BitVec 16) (r : TaskRec) (us : List Nat := r.units) : Option Grant :=
  let k := r.flvl.toNat
  let mine := (m.resident core).filter fun g => g.reserve == k
  if m.levels.contains k && m.accFree core asid && r.fitsReserve
      && decide ((m.wavesOn core k k).length + us.length ≤ 2)
      && decide (mine.foldl (fun n g => n + g.slots.length) 0 + r.bars.toNat + 1 ≤ 2)
      && (r.spadUnits == 0 || !mine.any (fun g => !g.units.isEmpty)) then
    some ⟨List.replicate us.length k, if r.spadUnits = 0 then [] else [reserveUnit k], k⟩
  else m.fits core asid r us
/-- The reserve of a level on a core is idle (R236). -/
def Mach.reserveIdle (m : Mach) (core k : Nat) : Bool := !(m.resident core).any fun g => g.reserve == k

/-! ## Taking a core's resources -/

/-- Hand the accumulators and planes to the context (R173): the owner's are written to its save area as the KIND 2 section
of this core. (log 16, DESIGN CHOICE) -/
def Mach.handOver (m : Mach) (core : Nat) (asid : BitVec 16) : Mach :=
  let k := m.core core
  if k.accOwner == some asid then m else
  let m := match k.accOwner.bind m.ctxOf with
    | some c =>
      let accs := mput c.accs core ⟨k.acc, k.active, k.shadow⟩
      (m.llcWriteRun c.asid c.save (areaBytes 0 c.tvec (List.replicate 64 0) (accSections accs)) none).setCtx { c with accs := accs }
    | none => m
  let p : Planes := ((m.ctxOf asid).bind fun c => mget c.accs core).getD ⟨[], [], []⟩
  m.updCore core fun k => { k with acc := p.acc, active := p.active, shadow := p.shadow, accOwner := some asid }
/-- Grant scratchpad units: one last held by another context is zeroed (R172). -/
def Mach.grantSpad (m : Mach) (core : Nat) (asid : BitVec 16) (units : List Nat) : Mach :=
  let me := ((m.ctxOf asid).map (·.serial)).getD 0
  m.updCore core fun k => units.foldl (fun (k : Core) u =>
    let k := match mget k.spadOwner u with
      | some a => if a == me then k else { k with spad := k.spad.filter fun p => p.1 / 32768 != u }
      | none => k
    { k with spadOwner := mput k.spadOwner u me }) k
/-- A waking core is on (R396). (log 9, DESIGN CHOICE) -/
def Mach.wakeCore (m : Mach) (core : Nat) : Mach :=
  m.updCore core fun k => { k with power := .on, lastResident := m.clk, lastIssue := m.clk }
/-- The first free slot number of a laneset, over the waves given. -/
def firstSlot (used : List Nat) : Nat := ((List.range 16).find? fun s => !used.contains s).getD 0
/-- Slot numbers for waves in turn. -/
def Mach.slotsFor (m : Mach) (core : Nat) : List Nat → List (Nat × Nat) → List Nat
  | [], _ => []
  | ls :: rest, taken =>
    let used := ((m.resident core).flatMap fun g => g.waves.filter fun w => !w.ended && w.laneset == ls).map (·.slot)
      ++ (taken.filter fun t => t.1 == ls).map (·.2)
    let s := firstSlot used
    s :: Mach.slotsFor m core rest ((ls, s) :: taken)

/-- A thread at its entry (R37). -/
def Lane.born (entry : DWord) : Lane := { Lane.init with st := .live, pc := entry }
/-- A wave at its start (R22, R37). -/
def Wave.born (r : TaskRec) (index ls slot clk : Nat) : Wave :=
  { index := index, laneset := ls, slot := slot, base := r.baseRegs, ext := r.xRegs, ended := false
    lanes := (List.range 64).map fun l => if 64 * index + l < r.threads then Lane.born r.entry else Lane.init
    v := [], k := [], w := [], inflight := [], pend := [], toks := [], cmdPend := [], tokw := [], tlrw := [], remoteSeen := [], loads := [], marks := [], wmarks := []
    parity := [], weak := [], ctl := 0, dbg := 0, tcause := 0, tpc := 0, taddr := 0, tmask := 0, inHandler := false, depth := 0
    yieldFrom := none, forced := none, drowsy := false, lastExt := clk
    refresh := [], traps := [], perfHeld := [], delivered := [], denied := [], stsSince := [], lastIssue := 0 }
/-- A free barrier slot, and named barrier 0 of a group (R325, R328). (log 3, DESIGN CHOICE) -/
def BarSlot.free : BarSlot := ⟨.free, 0, 0, 0, 0, false, []⟩
/-- A barrier slot as a word (R325): PHASE is the phase modulo 16. -/
def BarSlot.bits (s : BarSlot) (owner : BitVec 7) : DWord :=
  BitVec.ofNat 64 (match s.kind with
    | .free => 0
    | .named id => 2 ^ 62 + owner.toNat * 2 ^ 55 + id.toNat * 2 ^ 49 + s.expected % 2 ^ 11 * 2 ^ 38 + s.arrived % 2 ^ 11 * 2 ^ 27
        + s.phase % 16 * 2 ^ 23
    | .binding off => 2 ^ 63 + owner.toNat * 2 ^ 55 + off % 2 ^ 19 * 2 ^ 36)
/-- The lowest placement index that no group on a core holds (R325). (log 22, DESIGN CHOICE) -/
def Mach.freePlace (m : Mach) (core : Nat) : BitVec 7 :=
  let used := (m.resident core).map (·.place)
  BitVec.ofNat 7 (((List.range 128).find? fun i => !used.contains (BitVec.ofNat 7 i)).getD 0)

/-- What a group starts from. -/
structure Born where
  asid : BitVec 16
  task : TaskRec
  launch : Word
  sig : Sig
  placement : Nat
  position : Nat
  fillWs : Option Nat
  queue : Option Nat
  system : Bool

/-- Live threads of a wave as a mask. -/
def Wave.liveMask (w : Wave) : DWord := maskOf w.live
/-- Read the constant table into W registers of every wave, as LDC reads (R37). A grove word not yet filled makes the group
wait, and so does a locked sector (R214): `Mach.ctabAgain` tries again. A word of a granule whose fill was refused
(`dead`) fails. The first failing word is a trap of every wave. -/
def Mach.loadCtab (m : Mach) (gid : Nat) (dead : List (Nat × Nat × Nat × Nat)) : Mach :=
  match m.group gid with
  | none => m
  | some g =>
    let n := g.task.wcount.toNat
    let dead := g.ctabDead ++ dead
    -- words read, first failure (code, info, address), a word to wait for and whether a locked sector holds it
    let st := (List.range n).foldl (fun (a : Mach × Map Word × Option (Nat × Nat × Nat) × Option (Nat × Bool)) j =>
      let (m, ws, bad, miss) := a
      if miss.isSome then a else
      let va := g.task.ctab.toNat + 4 * j
      let m := match m.check g.core g.asid false .load 1 va 4 with
        | .walk _ => m.tlbWalk g.core g.asid va
        | _ => m
      match m.check g.core g.asid false .load 1 va 4 with
      | .ok cls =>
        if m.locked g.asid va none then (m, ws, bad, some (va, true)) else
        let r := if cls = 2 ∨ cls = 3 then m.bankRead g.asid va 4 else m.constRead g.core g.asid va 4
        (match r with
        | .ok m bs => (m, mput ws j (BitVec.ofNat 32 (leNat bs)), bad, none)
        | .grove m _ => (match dead.find? fun d => decide (d.1 ≤ va ∧ va < d.1 + d.2.1) with
          | some d => (m, ws, bad.or (some (d.2.2.1, d.2.2.2, va)), none)
          | none => (m, ws, bad, some (va, false)))
        | .bad m code _ => (m, ws, bad.or (some (code, 0, va)), none)
        | .again m => (m, ws, bad, none))
      | .bad _ code _ => (m, ws, bad.or (some (code, 0, va)), none)
      | .walk _ => (m, ws, bad.or (some (Code.page, 0, va)), none)) (m, [], none, none)
    let m : Mach := st.1
    let ws := st.2.1
    let bad := st.2.2.1
    let miss := st.2.2.2
    match miss with
    | some (va, lock) =>
      let (m, id) := m.askGrove (.ctab gid) g.asid va 1 g.task.tpri g.task.flvl.toNat
      let m := if lock then m.holdReq id else m
      m.updGroup gid fun g =>
        { g with ctabDead := dead, waves := g.waves.map fun (w : Wave) => w.updLanes w.live fun t => { t with wait := .grove [id] [] } }
    | none =>
      let traps (g : Group) (x : Wave) : List PendTrap := match bad with
        | some (code, info, va) => [⟨g.task.entry, 0xFF, x.liveMask, code, info, BitVec.ofNat 64 va, true⟩]
        | none => []
      m.updGroup gid fun g => { g with ctabDead := [], waves := g.waves.map fun x =>
        { x.updLanes x.live (fun t => { t with wait := .none }) with w := ws, traps := traps g x } }

/-- Place a group on a core with a grant (R37, R40, R48): its frame is open and it acquires its signature. -/
def Mach.place (m : Mach) (core : Nat) (gr : Grant) (frame : Nat) (b : Born) : Mach :=
  let m := ((m.handOver core b.asid).grantSpad core b.asid gr.units).wakeCore core
  let slots := m.slotsFor core gr.lanes []
  let waves := (List.range gr.lanes.length).map fun i => Wave.born b.task i (gr.lanes.getD i 0) (slots.getD i 0) m.clk
  let gid := m.nextGid
  let g : Group :=
    { gid := gid, asid := b.asid, core := core, launch := b.launch, task := b.task, place := m.freePlace core, placement := b.placement
      position := b.position, units := gr.units
      slots := { BarSlot.free with kind := .named 0 } :: List.replicate b.task.bars.toNat BarSlot.free
      frames := [frame], sig := 0, parked := false, fillWs := b.fillWs, decided := false, reserve := gr.reserve
      system := b.system, mxStatus := 0, waves := waves, queue := b.queue, ctabDead := [] }
  let m := { m.setGroup g with nextGid := gid + 1 }.l1Trim core
  (m.acquire gid b.sig).loadCtab gid []

/-! ## Queues and their Depot rings (R250 to R257) -/

/-- Key of a ring. -/
def ringKey (asid : BitVec 16) (ring : Nat) : Nat := asid.toNat * 800 + ring
def Mach.ring (m : Mach) (asid : BitVec 16) (ring : Nat) : Option Ring := mget m.rings (ringKey asid ring)
/-- Bytes of a spill entry: 128 in spawn rings, 64 in the others (R254). -/
def entryBytes (ring : Nat) : Nat := if ring < 32 then 128 else 64
/-- Depth of a hardware queue (R250). -/
def queueDepth (ring : Nat) : Nat :=
  if ring < 32 then 256 else if ring < 416 then 64 else if ring < 544 then 32 else if ring < 672 then 64 else 128
/-- Entries in the hardware queue a ring index belongs to. -/
def Mach.queueLen (m : Mach) (ring : Nat) : Nat :=
  if ring < 32 then (mgetD m.spawnQ ring []).length
  else if ring < 416 then (mgetD m.fillQ (ring - 32) []).length
  else if ring < 544 then (m.core (ring - 416)).mxQ.length
  else if ring < 672 then (m.core (ring - 544)).porterQ.length
  else (m.core (ring - 672)).rayQ.length
/-- How many of n pushes would spill (R255). -/
def Mach.spills (m : Mach) (asid : BitVec 16) (ring n : Nat) : Nat :=
  match m.ring asid ring with
  | some r => if r.used != 0 then n else n - (queueDepth ring - m.queueLen ring)
  | none => n - (queueDepth ring - m.queueLen ring)
/-- The quota of a ring (R254); the fill rings are exempt. -/
def Ring.limit (r : Ring) : Nat := min r.quota (2 ^ r.logSize)
/-- n pushes keep within the ring's quota (R256). -/
def Mach.quotaOk (m : Mach) (asid : BitVec 16) (ring n : Nat) : Bool :=
  let bytes := m.spills asid ring n * entryBytes ring
  bytes == 0 || (match m.ring asid ring with
    | some r => decide (r.used + bytes ≤ r.limit)
    | none => false)
/-- Append to a hardware queue. -/
def Mach.enqueue (m : Mach) (ring : Nat) : DepotItem → Mach
  | .spawn e => { m with spawnQ := mput m.spawnQ ring (mgetD m.spawnQ ring [] ++ [e]) }
  | .fill e => { m with fillQ := mput m.fillQ (ring - 32) (mgetD m.fillQ (ring - 32) [] ++ [e]) }
  | .mx c => m.updCore (ring - 416) fun k => { k with mxQ := k.mxQ ++ [c] }
  | .porter c => m.updCore (ring - 544) fun k => { k with porterQ := k.porterQ ++ [c] }
  | .ray c => m.updCore (ring - 672) fun k => { k with rayQ := k.rayQ ++ [c] }
/-- The bytes a spilled entry leaves in its ring: records in the layout of R36 with their signature, commands as the
device's own handle with the name of the thread that issued them (R346; log 16, DESIGN CHOICE). -/
def Mach.itemBytes (m : Mach) : DepotItem → List Byte
  | .spawn e => e.task.bytes ++ leBytes 64 e.sig.toNat
  | .fill e => e.task.bytes
  | .mx c => leBytes 8 c.id ++ c.name.bytes ++ List.replicate 38 0
  | .porter c => leBytes 8 c.id ++ c.name.bytes ++ List.replicate 38 0
  | .ray c =>
    let lane := match c.op with
      | .rays _ rs => (rs.map (·.lane)).headD 0
      | .beam _ => 0
    leBytes 8 c.id ++ (match m.group c.gid with | some g => (g.nameOf c.wave lane).bytes | none => List.replicate 18 0)
      ++ List.replicate 38 0
/-- Write a ring's HEAD, TAIL and USED to its descriptor (R254). -/
def Mach.ringPointers (m : Mach) (asid : BitVec 16) (ring : Nat) (r : Ring) : Mach :=
  match m.ctxOf asid with
  | some c => m.llcWriteRun asid (c.depot + 32 * ring + 16) (leBytes 4 r.head ++ leBytes 4 r.tail ++ leBytes 4 r.used) none
  | none => m
/-- A ring write fails with an uncorrectable word: its channel is degraded (R257, R378). -/
def Mach.ringBad (m : Mach) (asid : BitVec 16) (va n : Nat) : Bool :=
  !m.rel.allOk && (List.range (n / 8)).any fun i => match (m.translate asid (va + 8 * i)).2 with
    | some t => m.rel.dead (t.pa (va + 8 * i) / 8)
    | none => false
/-- A ring failure halts its context at the next boundary, once what met it has ended (R359, R360). -/
def Mach.ringFault (m : Mach) (asid : BitVec 16) (va : Nat) : Mach :=
  { m with ringFaults := m.ringFaults ++
      [(asid, ⟨BitVec.ofNat 32 Code.dataUncorrectable, 3, 0, BitVec.ofNat 64 va, 0, ⟨0, 0, 0, 0, 0⟩, none⟩)] }
/-- Push an entry: into the hardware queue, or at the ring's TAIL (R255). A ring write that fails is a context fault (R257); the
entry stays with the ring, for the context is halted as for pre-emption (R359). -/
def Mach.push (m : Mach) (asid : BitVec 16) (ring : Nat) (x : DepotItem) : Mach :=
  if m.spills asid ring 1 = 0 then m.enqueue ring x else
  match m.ring asid ring with
  | none => m.enqueue ring x
  | some r =>
    let n := entryBytes ring
    let at_ := r.base.toNat + r.tail
    let m := if m.ringBad asid at_ n then m.ringFault asid at_ else m.llcWriteRun asid at_ (m.itemBytes x) none
    let r := { r with tail := (r.tail + n) % 2 ^ r.logSize, used := r.used + n, items := r.items ++ [x] }
    ({ m with rings := mput m.rings (ringKey asid ring) r }.ringPointers asid ring r).countDevice 0x0206 1

/-! ## Picking a record (R49, R251) -/

/-- The entry that leaves first: the highest TPRI, then the oldest. -/
def SpawnEntry.better (a b : SpawnEntry) : Bool :=
  b.task.tpri.toNat < a.task.tpri.toNat || (a.task.tpri == b.task.tpri && a.serial < b.serial)
def headSpawn (q : List SpawnEntry) : Option SpawnEntry :=
  q.foldl (fun b e => match b with | some x => if e.better x then some e else b | none => some e) none
def FillEntry.better (a b : FillEntry) : Bool :=
  b.task.tpri.toNat < a.task.tpri.toNat || (a.task.tpri == b.task.tpri && a.serial < b.serial)
def headFill (q : List FillEntry) : Option FillEntry :=
  q.foldl (fun b e => match b with | some x => if e.better x then some e else b | none => some e) none
/-- A core can take the groups: it is not halted for another reason than its power state. -/
def mostFree (m : Mach) (cores : List Nat) : Option Nat :=
  cores.foldl (fun b n => match b with
    | some x => if m.freeWaves x < m.freeWaves n then some n else b
    | none => some n) none
/-- The group at position i of placement unit u of a grid (R272, R273): TILE and record. -/
def unitTask (r : TaskRec) (grid : Option (Nat × Nat × Nat × Nat)) (i : Nat) : TaskRec :=
  match grid with
  | none => { r with tileX := r.tileX + BitVec.ofNat 32 i }
  | some (gx, gy, _, u) =>
    let per := gx / r.parts
    let x := u % per * r.parts + i
    let y := u / per % gy
    let z := u / (per * gy)
    { r with tileX := r.tileX + BitVec.ofNat 32 x, tileY := r.tileY + BitVec.ofNat 32 y, tileZ := r.tileZ + BitVec.ofNat 32 z }
/-- Placement units of a grid. -/
def gridUnits (r : TaskRec) (gx gy gz : Nat) : Nat := gx / r.parts * gy * gz
/-- The cores a hub gives the next unit of an entry, in position order, or none when it does not fit now (R48, R49). -/
def Mach.hubChoice (m : Mach) (convoy : Nat) (e : SpawnEntry) : Option (List Nat) :=
  let cores := (List.range 4).map (· + 4 * convoy)
  let fit := cores.filter fun n => (m.fits n e.asid e.task).isSome
  if e.task.parts = 1 then (mostFree m fit).map ([·])
  else if e.task.parts ≤ fit.length then some (fit.take e.task.parts) else none
/-- The initial frames of the groups can be opened. (log 26, DEDUCED) -/
def Mach.framesFor (m : Mach) (asid : BitVec 16) (n : Nat) : Bool :=
  match m.ctxOf asid with
  | none => false
  | some c => decide (n ≤ ((List.range c.frameCount).filter fun i => (m.frame asid (c.frames + 128 * i)).isNone).length)
/-- Place the next unit of an entry on the cores given. (log 8, DESIGN CHOICE) -/
def Mach.placeUnit (m : Mach) (e : SpawnEntry) (cores : List Nat) : Mach :=
  let pid := m.nextId
  let m := { m with nextId := pid + 1 }
  ((List.range cores.length).zip cores).foldl (fun (m : Mach) p =>
    let t := unitTask e.task e.grid p.1
    match m.openFrame e.asid t.link.toNat t.succ true, m.fits p.2 e.asid t with
    | some (m, h), some gr => m.place p.2 gr h ⟨e.asid, t, e.launch, e.sig, pid, p.1, none, e.queue, e.system⟩
    | _, _ => m) m
/-- The entry after its next unit was placed: none when that was the last. -/
def SpawnEntry.advance (e : SpawnEntry) : Option SpawnEntry :=
  match e.grid with
  | none => none
  | some (gx, gy, gz, u) =>
    if u + 1 < gridUnits e.task gx gy gz then some { e with grid := some (gx, gy, gz, u + 1) } else none

/-! ## Moving and restoring groups (R44, R45, R362) -/

/-- Give a group's live waves new slots on a core, and its image its new units. -/
def Mach.reseat (m : Mach) (g : Group) (core : Nat) (gr : Grant) (image : List Host.Cell) : Mach :=
  let m := ((m.handOver core g.asid).grantSpad core g.asid gr.units).wakeCore core
  let slots := m.slotsFor core gr.lanes []
  let alive := (g.waves.filter fun w => !w.ended).map (·.index)
  let waves := g.waves.map fun w =>
    if w.ended then w else
    let i := alive.findIdx (· == w.index)
    { w with laneset := gr.lanes.getD i 0, slot := slots.getD i 0 }
  let old := g.core
  let g := { g with core := core, place := m.freePlace core, units := gr.units, reserve := gr.reserve, waves := waves }
  let m := (m.setGroup g).l1Trim core
  (m.updCore core fun k => { k with
    spad := image.foldl (fun s p => cellPut s (g.spadPhys p.1) p.2)
      (k.spad.filter fun p => !gr.units.contains (p.1 / 32768)) }).trimLoops old
/-- The image of a group's scratchpad grant: offset and byte. -/
def Mach.spadImage (m : Mach) (g : Group) : List Host.Cell :=
  (List.range g.units.length).flatMap fun i =>
    ((m.core g.core).spad.filter fun p => p.1 / 32768 == g.units.getD i 0).map fun p => (i * 32768 + p.1 % 32768, p.2)
/-- Register units that each wave of a group still holds: the extended block of a wave counts for that wave alone (R44, R109). -/
def Group.needs (g : Group) : List Nat := (g.waves.filter fun w => !w.ended).map fun w => (w.base + w.ext) / 32
/-- Ordinary resources, or the fill reserve, for a group that is placed again. -/
def Mach.fitsAgain (m : Mach) (g : Group) (core : Nat) : Option Grant :=
  if g.task.fill then
    m.fitsFill core g.asid { g.task with xpre := if g.waves.all fun w => w.ended || w.ext = 0 then 0 else 1 } g.needs
  else m.fits core g.asid g.task g.needs
/-- The core for a group that is placed again: the first choice, then the most free cores of a list. -/
def Mach.coreAgain (m : Mach) (g : Group) (first : Nat) (rest : List (List Nat)) : Option (Nat × Grant) :=
  match m.fitsAgain g first with
  | some gr => some (first, gr)
  | none =>
    rest.foldl (fun b cs => match b with
      | some x => some x
      | none =>
        match mostFree m (cs.filter fun n => (m.fitsAgain g n).isSome) with
        | some n => (m.fitsAgain g n).map fun gr => (n, gr)
        | none => none) none

end Sys2Proof.Machine
end

