-- ==== Sys2Proof/Machine/DebugWindow.lean ====
section
/-! DEFINITION. The debug window (R342): performance counters (R343), the waybill ring descriptor (R348) and the halt
blocks with their remote accesses (R113, R349, R350). -/

namespace Sys2Proof

/-- Key of a counter in its table. -/
def CtrUnit.key : CtrUnit → Nat → Nat
  | .core _ asid, n => asid.toNat * 8 + n
  | .slice s, n => s * 16 + n
  | .device, n => n
/-- How many counters a unit has. -/
def CtrUnit.size : CtrUnit → Nat
  | .slice _ => 16
  | _ => 8
end Sys2Proof

namespace Sys2Proof.Machine

/-! ## Counters -/

/-- An event code the unit counts (R344). -/
def eventOk (base last code : Nat) : Bool := code == 0 || decide (base < code ∧ code ≤ last)
/-- A CTL store (R343): a bad one stores EVENT 0 and keeps the other fields. -/
def ctlStore (core : Bool) (base last : Nat) (v : DWord) : DWord :=
  let code := v.toNat % 65536
  let keep : DWord := v &&& 0x70000
  if v.toNat / 2 ^ 19 != 0 || (v.getLsbD 17 && !core) || !eventOk base last code then keep
  else keep ||| BitVec.ofNat 64 code
/-- A counter that was never written. -/
def Counter.zero : Counter := ⟨0, 0, none, 0, 0, 0⟩
/-- Read a counter. -/
def Mach.counter (m : Mach) (u : CtrUnit) (n : Nat) : Counter :=
  mgetD (match u with | .core k _ => (m.core k).counters | .slice _ => m.slices | .device => m.device) (u.key n) Counter.zero
/-- Write a counter. -/
def Mach.setCounter (m : Mach) (u : CtrUnit) (n : Nat) (c : Counter) : Mach :=
  match u with
  | .core k _ => m.updCore k fun x => { x with counters := mput x.counters (u.key n) c }
  | .slice _ => { m with slices := mput m.slices (u.key n) c }
  | .device => { m with device := mput m.device (u.key n) c }
/-- A CTL store to a counter (R343). -/
def Mach.ctlWrite (m : Mach) (u : CtrUnit) (n : Nat) (v : DWord) : Mach :=
  let v := match u with
    | .core _ _ => ctlStore true 0 0xF v
    | .slice _ => ctlStore false 0x100 0x109 v
    | .device => ctlStore false 0x200 0x206 v
  m.setCounter u n { m.counter u n with ctl := v }
/-- A VALUE store: bits 63 to 48 are ignored. It applies before the events counted in the same clk, and whether they wrap the
count is whether they wrap the new one (R136). -/
def Counter.store (c : Counter) (clk : Nat) (v : BitVec 48) : Counter :=
  if c.at_ ≠ clk then { c with value := v } else
  let t := v.toNat + c.now
  let old := if c.wrapAt = clk then none else c.wrapped
  { c with
    value := BitVec.ofNat 48 t
    wrapped := if t < 2 ^ 48 then old else c.wrapped.or (some none)
    wrapAt := if t < 2 ^ 48 || old.isSome then c.wrapAt else clk }
def Mach.valueWrite (m : Mach) (u : CtrUnit) (n : Nat) (v : DWord) : Mach :=
  m.setCounter u n ((m.counter u n).store m.clk (v.setWidth 48))
/-- One dword of a counter block. -/
def Mach.counterRead (m : Mach) (u : CtrUnit) (r : Nat) : DWord :=
  let c := m.counter u (r / 16)
  if r % 16 = 0 then c.ctl else c.value.setWidth 64
/-- A store to a counter block. -/
def Mach.counterWrite (m : Mach) (u : CtrUnit) (r : Nat) (v : DWord) : Mach :=
  if r % 16 = 0 then m.ctlWrite u (r / 16) v else m.valueWrite u (r / 16) v

/-! ## The waybill ring descriptor (R348) -/

/-- Field i of the descriptor of a context. -/
def Ctx.ringField (c : Ctx) (i : Nat) : DWord := c.wbRing.getD i 0
/-- Set a field. -/
def Ctx.setRing (c : Ctx) (i : Nat) (v : DWord) : Ctx :=
  { c with wbRing := ((List.range 5).map c.ringField).set i v }
/-- A software store: BASE, LOG2N and HEAD only. -/
def Ctx.ringWrite (c : Ctx) (i : Nat) (v : DWord) : Ctx :=
  match i with
  | 0 => c.setRing 0 (v &&& 0xFFFFFFFFFFFF)
  | 1 => c.setRing 1 (v &&& 0x1F)
  | 2 => c.setRing 2 (v &&& 0xFFFFFFFF)
  | _ => c

/-! ## Halt blocks (R349) -/

def ThreadName.none : ThreadName := ⟨0, 0, 0, 0, 0⟩
/-- A halt block that nothing has written (R349). (log 3, DESIGN CHOICE) -/
def HaltBlock.zero : HaltBlock := ⟨false, false, false, Option.none, ThreadName.none, false⟩
def Mach.halt (m : Mach) (core : Nat) (asid : BitVec 16) : HaltBlock := mgetD (m.core core).halts asid.toNat HaltBlock.zero
def Mach.setHalt (m : Mach) (core : Nat) (asid : BitVec 16) (h : HaltBlock) : Mach :=
  m.updCore core fun k => { k with halts := mput k.halts asid.toNat h }
/-- Change every wave of a context's groups on a core. -/
def Mach.wavesOfCore (m : Mach) (core : Nat) (asid : BitVec 16) (skip : Option Nat) (f : Wave → Wave) : Mach :=
  { m with groups := m.groups.map fun p =>
      if p.2.core = core ∧ p.2.asid = asid ∧ skip ≠ some p.1 then (p.1, { p.2 with waves := p.2.waves.map f }) else p }
/-- Halt every group of the context on the core but one: SR_DBG.STOPPED is set in each wave that stops. (log 28, DEDUCED) -/
def Mach.debugHalt (m : Mach) (core : Nat) (asid : BitVec 16) (by' : Option Nat) (brk : Bool) : Mach :=
  let h := m.halt core asid
  (m.setHalt core asid { h with halted := true, byBrk := h.byBrk || brk, exempt := by' }).wavesOfCore core asid by'
    fun w => { w with dbg := w.dbg ||| 2 }
/-- Resume: every halted wave issues again, its first instruction starting a region. -/
def Mach.debugResume (m : Mach) (core : Nat) (asid : BitVec 16) : Mach :=
  let h := m.halt core asid
  (m.setHalt core asid { h with halted := false, byBrk := false, exempt := none }).wavesOfCore core asid h.exempt
    fun w => if h.halted then w.closeRegions w.live else w
def Mach.debugArm (m : Mach) (core : Nat) (asid : BitVec 16) (on : Bool) : Mach :=
  m.setHalt core asid { m.halt core asid with armed := on }

/-- Where the selected thread is: group, wave and lane. -/
def Mach.selected (m : Mach) (core : Nat) (asid : BitVec 16) : Option (Nat × Nat × Nat) :=
  let n := (m.halt core asid).select
  let gs := (m.resident core).filter fun g => g.asid == asid && g.launch == n.launch && g.task.tileX == n.tileX
    && g.task.tileY == n.tileY && g.task.tileZ == n.tileZ && decide (n.thread.toNat < g.task.threads)
  match gs with
  | [] => none
  | g :: _ =>
    (g.waves.flatMap fun w => (List.range 64).map fun l => (g.gid, w.index, l)).find? fun p =>
      (64 * p.2.1 + p.2.2 < g.task.threads) && g.task.threadAt p.2.1 p.2.2 == n.thread.toNat
/-- Set SR_DBG.UNALLOC of the wave that performs a remote access. -/
def Mach.unalloc (m : Mach) (who : Option (Nat × Nat)) : Mach :=
  match who with
  | some (g, w) => m.updWave g w fun x => { x with dbg := x.dbg ||| 1 }
  | none => m
/-- The register a window offset names in a lane. -/
def windowKey (lane off : Nat) : Option RKey :=
  if off < 0x848 then none
  else if off < 0x850 then some (.x lane ((off - 0x848) / 4))
  else if off < 0x870 then some (.k lane ((off - 0x850) / 4))
  else if off < 0x900 then none
  else if off < 0xD00 then some (.v lane ((off - 0x900) / 4))
  else if off < 0xF00 then some (.w ((off - 0xD00) / 4))
  else none
/-- The register lies in the wave's allocation (R113). -/
def Wave.holds (w : Wave) : RKey → Bool
  | .v _ i => decide (i < w.base + w.ext)
  | _ => true
/-- A remote access wakes a drowsy block (R113). -/
def Wave.wake (w : Wave) (clk : Nat) : RKey → Wave
  | .v _ i => if w.base ≤ i then { w with drowsy := false, lastExt := clk } else w
  | _ => w
/-- A write to a register is pending (R349). -/
def Wave.pendingAt (w : Wave) (clk : Nat) (k : RKey) : Bool := w.pend.contains k || w.unready clk k
/-- A remote read of 32 bits (R113, R349): the value, and whether a write to it is pending. -/
def Mach.remoteRead (m : Mach) (gid wave : Nat) (k : RKey) (who : Option (Nat × Nat)) : Mach × Word × Bool :=
  match m.wave gid wave with
  | none => (m, 0, false)
  | some w =>
    if !w.holds k then (m.unalloc who, 0, false) else
    (m.updWave gid wave fun w => { w.wake m.clk k with weak := w.weak.filter (· != k) }, w.reg m.clk k, w.pendingAt m.clk k)
/-- A remote write of 32 bits: newer than every producer in flight, and marked as written in the region (R119). -/
def Mach.remoteWrite (m : Mach) (gid wave : Nat) (k : RKey) (v : Word) (who : Option (Nat × Nat)) : Mach :=
  match m.wave gid wave with
  | none => m
  | some w => if !w.holds k then m.unalloc who else m.updWave gid wave fun w => ((w.wake m.clk k).putNow k v).mark (w.live.headD 0) k
/-- Read a dword of a halt block. (log 28, DEDUCED) -/
def Mach.haltRead (m : Mach) (core : Nat) (asid : BitVec 16) (r : Nat) (who : Option (Nat × Nat)) : Mach × DWord :=
  let h := m.halt core asid
  let bit (b : Bool) (k : Nat) : Nat := if b then 2 ^ k else 0
  if r = 0x808 then (m, BitVec.ofNat 64 (bit h.halted 0 + bit h.armed 1 + bit h.byBrk 2))
  else if 0x810 ≤ r ∧ r < 0x828 then
    (m, BitVec.ofNat 64 (leNat (((h.select.bytes ++ List.replicate 6 0).drop (r - 0x810)).take 8)))
  else match m.selected core asid with
    | none => (m, 0)
    | some (gid, wi, l) =>
      match m.wave gid wi with
      | none => (m, 0)
      | some w =>
        let t := w.lane l
        if r = 0x828 then (m, BitVec.ofNat 64 (t.prio.toNat * 2 ^ 56 + t.pc.toNat % 2 ^ 48))
        else if r = 0x830 then
          (m, BitVec.ofNat 64 (bit (t.st == .live) 0 + bit (w.helper l) 1 + bit (t.st == .live && t.wait.parked) 2 + bit h.pendSeen 3))
        else if r = 0x840 then
          let cc (n : Nat) : Nat := (w.ccAt m.clk l n).toNat * 2 ^ (8 * n)
          let m := if (List.range 4).any fun n => w.pendingAt m.clk (.c l n) then m.setHalt core asid { h with pendSeen := true } else m
          (m, BitVec.ofNat 64 (cc 0 + cc 1 + cc 2 + cc 3))
        else
          let one (m : Mach) (off : Nat) : Mach × Word × Bool := match windowKey l off with
            | some k => m.remoteRead gid wi k who
            | none => (m, 0, false)
          let (m, lo, p0) := one m r
          let (m, hi, p1) := one m (r + 4)
          let m := if p0 || p1 then m.setHalt core asid { m.halt core asid with pendSeen := true } else m
          (m, hi ++ lo)
/-- Move the selected thread (R349): it leaves any wait and a region begins. (log 28, DEDUCED) -/
def Mach.threadWrite (m : Mach) (core : Nat) (asid : BitVec 16) (v : DWord) : Mach :=
  match m.selected core asid with
  | none => m
  | some (gid, wi, l) => (m.updWave gid wi fun w =>
      if (w.lane l).st != .live then w else
      (w.updLane l fun t =>
        { t with pc := v &&& 0xFFFFFFFFFFFF, prio := BitVec.ofNat 8 (v.toNat / 2 ^ 56), wait := .none, age := 0 }).closeRegions [l] |>.trimNotes).trimLoops core
/-- A store to SELECT: dword i of the name. (log 28, DEDUCED) -/
def HaltBlock.selectWrite (h : HaltBlock) (i : Nat) (v : DWord) : HaltBlock :=
  let bs := ((List.range 24).map fun j =>
    if j / 8 = i then BitVec.ofNat 8 (v.toNat / 2 ^ (8 * (j % 8))) else (h.select.bytes ++ List.replicate 6 0).getD j 0)
  { h with
    pendSeen := false
    select := ⟨BitVec.ofNat 32 (fieldAt bs 0 4), BitVec.ofNat 32 (fieldAt bs 4 4), BitVec.ofNat 32 (fieldAt bs 8 4),
      BitVec.ofNat 32 (fieldAt bs 12 4), BitVec.ofNat 16 (fieldAt bs 16 2)⟩ }
/-- A store to a register of the selected thread or to SELECT. Every word of the halt block that names a register can be
written, K, X, W and the condition codes as well as V (R349). (log 28, DEDUCED) -/
def Mach.registerWrite (m : Mach) (core : Nat) (asid : BitVec 16) (r : Nat) (v : DWord) (who : Option (Nat × Nat)) : Mach :=
  if 0x810 ≤ r ∧ r < 0x828 then m.setHalt core asid ((m.halt core asid).selectWrite ((r - 0x810) / 8) v)
  else match m.selected core asid with
    | none => m
    | some (gid, wi, l) =>
      if r = 0x840 then m.updWave gid wi fun w =>
        (List.range 4).foldl (fun w n => w.putNow (.c l n) ((v >>> (8 * n)).setWidth 5 |>.setWidth 32)) w
      else
        let one (m : Mach) (off : Nat) (x : Word) : Mach := match windowKey l off with
          | some k => m.remoteWrite gid wi k x who
          | none => m
        one (one m r (v.setWidth 32)) (r + 4) ((v >>> 32).setWidth 32)
/-- A store to a halt block. -/
def Mach.haltWrite (m : Mach) (core : Nat) (asid : BitVec 16) (r : Nat) (v : DWord) (who : Option (Nat × Nat)) : Mach :=
  if r = 0x800 then
    (if v = 1 then m.debugHalt core asid (who.map (·.1)) false
    else if v = 2 then m.debugResume core asid
    else if v = 4 then m.debugArm core asid true
    else if v = 8 then m.debugArm core asid false
    else m)
  else if r = 0x828 then m.threadWrite core asid v
  else m.registerWrite core asid r v who

/-! ## The window (R342) -/

/-- The registers a load of a window dword reads, with the wave they are in. -/
def Mach.windowKeys (m : Mach) (asid : BitVec 16) (off : Nat) : Option (Nat × Nat × List RKey) :=
  if off < 0x80000 && decide (0x848 ≤ off % 0x1000) then
    (m.selected (off / 0x1000) asid).map fun p =>
      (p.1, p.2.1, (windowKey p.2.2 (off % 0x1000)).toList ++ (windowKey p.2.2 (off % 0x1000 + 4)).toList)
  else none
/-- A load of the window meets a parity error (R118): the wave the register is in rolls back and the load is tried again,
or REG_PARITY of the register (R120). -/
def Mach.windowParity (m : Mach) (asid : BitVec 16) (off : Nat) : Option (Mach ⊕ Nat) :=
  match m.windowKeys asid off with
  | none => none
  | some (gid, wi, ks) =>
    match m.wave gid wi with
    | none => none
    | some w =>
      (ks.find? w.parity.contains).map fun k =>
        if w.marked k && (w.live.all fun l => (w.lane l).rollbacks < 2) then .inl (m.rollbackWave gid wi true) else .inr k.field

/-- Read a dword of a context's debug window. -/
def Mach.windowRead (m : Mach) (asid : BitVec 16) (off : Nat) (who : Option (Nat × Nat)) : Mach × DWord :=
  let r := off % 0x1000
  if off < 0x80000 then
    (if r < 0x80 then (m, m.counterRead (.core (off / 0x1000) asid) r)
    else if 0x800 ≤ r then m.haltRead (off / 0x1000) asid r who
    else (m, 0))
  else if off < 0x90000 then
    let s := (off - 0x80000) / 0x200
    (m, if (off - 0x80000) % 0x200 < 0x100 then m.counterRead (.slice s) ((off - 0x80000) % 0x200) else 0)
  else if 0xA0000 ≤ off ∧ off < 0xA0080 then (m, m.counterRead .device (off - 0xA0000))
  else if 0xA0800 ≤ off ∧ off < 0xA0828 then
    (m, match m.ctxOf asid with | some c => c.ringField ((off - 0xA0800) / 8) | none => 0)
  else (m, 0)
/-- Store a dword to a context's debug window; an undefined offset ignores it. -/
def Mach.windowWrite (m : Mach) (asid : BitVec 16) (off : Nat) (v : DWord) (who : Option (Nat × Nat)) : Mach :=
  let r := off % 0x1000
  if off < 0x80000 then
    (if r < 0x80 then m.counterWrite (.core (off / 0x1000) asid) r v
    else if 0x800 ≤ r then m.haltWrite (off / 0x1000) asid r v who
    else m)
  else if off < 0x90000 then
    let s := (off - 0x80000) / 0x200
    if (off - 0x80000) % 0x200 < 0x100 then m.counterWrite (.slice s) ((off - 0x80000) % 0x200) v else m
  else if 0xA0000 ≤ off ∧ off < 0xA0080 then m.counterWrite .device (off - 0xA0000) v
  else if 0xA0800 ≤ off ∧ off < 0xA0828 then
    (match m.ctxOf asid with | some c => m.setCtx (c.ringWrite ((off - 0xA0800) / 8) v) | none => m)
  else m

end Sys2Proof.Machine
end

