-- ==== Sys2Proof/Machine/Collective.lean ====
section
/-! DEFINITION. Submitting a request to the collective engine (R387). -/

namespace Sys2Proof.Machine

/-- A store of a descriptor's VA to a context's doorbell: the descriptor is read at the LLC and the request waits for
its match. A descriptor that cannot be read makes no request (log 24, DESIGN CHOICE). -/
def Mach.doorbell (m : Mach) (slot va : Nat) : Mach :=
  match mget m.ctxs slot with
  | none => m
  | some c =>
    if va % 64 ≠ 0 then m else
    match m.agentReadRun c.asid false 0 va 64 with
    | .ok m bs =>
      let f := fieldAt bs
      let q : Collective :=
        { id := m.nextId, asid := c.asid, data := none, sent := 0, out := none, written := 0, src := f 0 8, dst := f 8 8, count := f 16 4, op := f 20 1, ndev := f 21 1
          tag := BitVec.ofNat 16 (f 22 2), signal := f 24 8
          bad := f 32 32 != 0 || f 16 4 == 0 || decide (2 ^ 24 < f 16 4) || decide (2 < f 20 1)
            || decide (f 21 1 < 2 ∨ m.link.count < f 21 1) }
      { m with nextId := m.nextId + 1, link := { m.link with requests := m.link.requests ++ [q] } }
    | .grove m _ => m
    | .bad m _ _ => m
    | .again m => m

/-- A store to a doorbell waits: its descriptor lies at a sector or a bank that other accesses hold (R188, R214). -/
def Mach.doorbellHeld (m : Mach) (asid : BitVec 16) (va : Nat) (bs : List Byte) : Bool :=
  match (m.translate asid va).2 with
  | none => false
  | some t =>
    match (collectiveOf (t.pa va)).bind (mget m.ctxs) with
    | some c => m.agentHeld c.asid (leNat bs) 64
    | none => false
/-- A write of an uncached or bank-op page: the doorbell of the collective engine takes a descriptor's address (R387), any
other window or memory takes the bytes (R174). -/
def Mach.uncachedPut (m : Mach) (asid : BitVec 16) (va : Nat) (bs : List Byte) (who : Option (Nat × Nat × Nat)) : Mach :=
  match m.translate asid va with
  | (m, none) => m
  | (m, some t) =>
    match collectiveOf (t.pa va) with
    | some slot => if t.pa va % 0x1000 = 0 ∧ bs.length = 8 then m.doorbell slot (leNat bs) else m
    | none =>
      match m.bankWrite asid va bs who with
      | .ok m _ => m
      | .grove m _ => m
      | .bad m _ _ => m
      | .again m => m

end Sys2Proof.Machine
end

