-- ==== Sys2Proof/Machine/Access.lean ====
section
/-! DEFINITION. Accesses of a wave entry: the checks over its threads (R175, R203, R353), loads and stores of one
thread by range class (R174, R185, R188, R205), consignments around them (R211, R212, R214), waits on groves
(R47, R203, R235) and results that return later (R88, R204, R354). -/

namespace Sys2Proof.Machine

/-! ## Consignments -/

/-- Replace a thread's consignment. -/
def Mach.setConsign (m : Mach) (c : Consign) : Mach :=
  { m with consigns := m.consigns.map fun d => if d.gid == c.gid && d.wave == c.wave && d.lane == c.lane then c else d }
/-- Sectors held by the open consignments of a core (R211). -/
def Mach.consignSectors (m : Mach) (core : Nat) : Nat :=
  (m.consigns.filter fun c => match m.group c.gid with | some g => g.core == core | none => false).foldl
    (fun n c => n + c.sectors.length) 0
/-- A consignment touches the sector of an address: recorded (and locked when exclusive), or an abort with cause 1 at
another's lock, or with cause 2 beyond 16 sectors or 256 a core. What the core holds dirty of the sector, an earlier store of the
thread's among it, goes to the home slice first, so that it stands before what the consignment writes (R194, R214).
(log 88, DEDUCED) -/
def Mach.touch (m : Mach) (core : Nat) (c : Consign) (va : Nat) : Mach :=
  let k := va / 32
  if m.locked c.asid va (some (c.gid, c.wave, c.lane)) then m.abortConsign c 1 0
  else if (mget c.sectors k).isSome then m
  else if c.sectors.length ≥ 16 ∨ m.consignSectors core ≥ 256 then m.abortConsign c 2 0
  else
    let m := (m.l1WriteBack core (lineKey c.asid va) (some (va % 64 / 32))).setConsign { c with sectors := mput c.sectors k false }
    if c.exclusive then
      -- another consignment that holds a sector locked now aborts (R214)
      let hit := m.consigns.filter fun d => !d.aborted && d.asid == c.asid && (mget d.sectors k).isSome
        && !(d.gid == c.gid && d.wave == c.wave && d.lane == c.lane)
      hit.foldl (fun m d => m.abortConsign d 1 0) m
    else m
/-- Threads with a consignment, open or aborted: their faults are suppressed (R212). -/
def Env.inTx (e : Env) (l : Nat) : Bool :=
  !e.m.consigns.isEmpty && (e.m.consignOf e.iss.gid e.iss.wave l).isSome
/-- Threads whose open consignment is exclusive: their faults are raised (R214). -/
def Env.exclTx (e : Env) (l : Nat) : Bool :=
  match e.m.openConsign e.iss.gid e.iss.wave l with
  | some c => c.exclusive
  | none => false
/-! ## Checks over an entry (R175, R203, R353) -/

/-- One thread's access: lane and address. -/
abbrev Acs := Nat × Nat

/-- What the checks of an entry find. -/
inductive Checked where
  /-- class of each access; accesses of helpers and consigned threads that fail are listed as failing -/
  | ok (cls : List (Nat × Nat)) (failing : List (Nat × Nat))
  | walk (va : Nat)
  | trap (lanes : List Nat) (code : Nat) (addr : DWord)

/-- A load or store of the thread that fails is no trap: that of a helper (R35), and that of a thread whose consignment is
not exclusive (R212, R214). A uniform load led by a helper is the helper's. (log 33, DEDUCED) -/
def Env.hushed (e : Env) (l : Nat) : Bool := !e.act.contains l || (e.inTx l && !e.exclTx l)
/-- Judge the checks of an entry's accesses (R175, R353): the failing check that comes first decides, and names the
threads that fail it. A thread whose fault is suppressed names nothing. -/
def Env.judge (e : Env) (quiet : Nat → Bool) (rs : List (Nat × Chk)) : Checked :=
  let failed (k : Nat) := rs.filterMap fun r => match r.2 with
    | .bad o code va => if o == k && !quiet r.1 then some (r.1, code, va) else none
    | _ => none
  let raise (f : List (Nat × Nat × Nat)) : Option Checked := match f with
    | [] => none
    | p :: _ => some (.trap (f.map (·.1)) p.2.1 (BitVec.ofNat 64 p.2.2))
  match raise (failed 0) with
  | some t => t
  | none =>
    match rs.findSome? (fun r => match r.2 with | .walk va => some va | _ => none) with
    | some va => .walk va
    | none =>
      match ([1, 2, 3, 4].findSome? fun k => raise (failed k)) with
      | some t => t
      | none => .ok (rs.filterMap fun r => match r.2 with | .ok c => some (r.1, c) | _ => none)
          (rs.filterMap fun r => match r.2 with | .bad _ code _ => some (r.1, code) | _ => none)
/-- Check the accesses of an entry, one a thread, of n bytes each. No fault of an atomic is suppressed (R212). -/
def Env.checkAll (e : Env) (m : Mach) (acc : Acc) (path n : Nat) (only64 : Bool) (rq : List Acs) : Checked :=
  let chk (p : Acs) : Chk := match m.check e.core e.asid e.system acc path p.2 n with
    | .ok c => if c == 4 && (only64 || e.inTx p.1) then .bad 2 Code.perm p.2 else .ok c
    | x => x
  e.judge (if acc == .atomic then fun _ => false else e.hushed) (rq.map fun p => (p.1, chk p))
/-- A failed page walk is used up by the check that met it (R175). -/
def Mach.usedWalks (m : Mach) (core : Nat) (asid : BitVec 16) : Mach :=
  if (m.core core).walks.isEmpty then m
  else m.updCore core fun c => { c with walks := c.walks.filter fun f => f.asid != asid }
/-- A trap raised by an access: exclusive consignments of the threads named abort with cause 4 first (R214). -/
def Env.accessTrap (e : Env) (m : Mach) (lanes : List Nat) (code info : Nat) (addr : DWord) : Eff :=
  let m := lanes.foldl (fun m l => match m.openConsign e.iss.gid e.iss.wave l with
    | some c => m.abortConsign c 4 0
    | none => m) (m.usedWalks e.core e.asid)
  .trap (e.upd m fun w => { w with denied := w.denied.filter fun d => !e.lanes.contains d.lane }) lanes code info addr
/-- The fault the entry's access has met at a waystation, once nothing of it is missing any more: the lowest thread's,
naming every thread that fails that check (R244, R353). `names` gives the threads named for those. -/
def Env.denial (e : Env) (m : Mach) (names : List Nat → List Nat) : Option Eff :=
  let ds := e.w.denied.filter fun d => e.lanes.contains d.lane
  ((e.ordered (List.range 64)).findSome? fun l => ds.find? fun d => d.lane == l).map fun d =>
    e.accessTrap m (names ((List.range 64).filter fun l => ds.any fun f => f.lane == l && f.code == d.code)) d.code d.info
      (BitVec.ofNat 64 d.va)
/-- A load meets a fault: where it is an uncorrectable word, the wave rolls back and runs the load again first (R354). -/
def Env.loadTrap (e : Env) (m : Mach) (lanes : List Nat) (code info : Nat) (addr : DWord) : Eff :=
  let nums := e.lanes.map fun l => (l, (e.w.lane l).loadNo)
  if code = Code.dataUncorrectable ∧ !e.w.reruns e.iss.pc nums then
    .wait (((m.usedWalks e.core e.asid).rollbackWave e.iss.gid e.iss.wave false).updWave e.iss.gid e.iss.wave fun w => w.markRerun e.iss.pc nums)
  else e.accessTrap m lanes code info addr
def Env.isDenied (e : Env) (lane : Nat) : Bool := e.w.denied.any fun d => d.lane == lane
/-- Threads of the entry wait for a walk, a grove or another event; the wave has used its issue. -/
def Env.waits (e : Env) (m : Mach) (x : Wait) : Eff :=
  .wait (e.upd m fun w => { w.updLanes e.lanes (fun t => { t with wait := x }) with lastIssue := e.clk + 1 })
/-- The entry waits for grove lines that some of its accesses miss (R203, R235): one request a line, which names the
accesses to it. The entry goes on when every one is answered. The priority is the TPRI of the group; the request raises it
to a fill's effective priority where the group is one (R242). (log 38, DEDUCED) -/
def Env.parkOn (e : Env) (m : Mach) (path : Nat) (missing : List Acs) : Eff :=
  let ask (r : Mach × List Nat) (k : Nat) : Mach × List Nat :=
    let here := missing.filter fun p => lineKey e.asid p.2 == k
    let who : Requester := .entry e.iss.gid e.iss.wave (here.filter fun p => !e.hushed p.1) (here.filter fun p => e.hushed p.1)
    let (m, id) := r.1.askGrove who e.asid ((here.map (·.2)).headD 0) path e.g.task.tpri e.g.task.flvl.toNat
    (m, r.2 ++ [id])
  let r := ((missing.map fun p => lineKey e.asid p.2).eraseDups).foldl ask (m, [])
  e.waits r.1 (.grove r.2 [])

/-! ## Loads -/

/-- What one thread's load finds. -/
inductive Got where
  | ok (m : Mach) (bs : List Byte)
  /-- an uncorrectable word (R354) -/
  | poison (m : Mach) (va : Nat)
  | miss (m : Mach) (va : Nat)
  /-- a sector locked by another's exclusive consignment (R214) -/
  | held (m : Mach)
  | fault (m : Mach) (code info va : Nat)
/-- A read below the checks as a load's answer; a grove line delivered to the waiting access answers it (R249). -/
def Env.got (e : Env) (lane va n : Nat) : Rd → Got
  | .ok m bs => .ok m bs
  | .grove m a =>
    match e.w.given lane e.asid a with
    | some bs => .ok m ((bs.drop (va % 32)).take n)
    | none => .miss m a
  | .bad m code a => if code = Code.dataUncorrectable then .poison m a else .fault m code 0 a
  | .again m => .held m
/-- Overlay the bytes of a list by a lookup. -/
def overlay (va : Nat) (bs : List Byte) (f : Nat → Option Byte) : List Byte :=
  ((List.range bs.length).zip bs).map fun p => (f (va + p.1)).getD p.2
/-- A read of a generated sector that the thread was given uses what it was given, even if a new line has come since (R249). -/
def Env.givenOr (e : Env) (m : Mach) (lane va n : Nat) (r : Unit → Rd) : Got :=
  match e.w.given lane e.asid va with
  | some bs => .ok m ((bs.drop (va % 32)).take n)
  | none => e.got lane va n (r ())
/-- Load n bytes of one thread through the load-store path in its class (R174, R181, R188, R205, R211, R342). -/
def Env.load1 (e : Env) (m : Mach) (lane va n cls : Nat) (hint : Hint) : Got :=
  let who := some (e.iss.gid, e.iss.wave, lane)
  let below (m : Mach) : Got :=
    if cls = 2 && m.bankBusy e.asid va n then .held m
    else if cls = 2 ∨ cls = 3 then e.got lane va n (m.bankRead e.asid va n)
    else if cls = 4 then
      match m.windowParity e.asid (va % 2 ^ 24) with
      | some (.inl m) => .held m
      | some (.inr field) => .fault m Code.regParity field 0
      | none =>
        let (m, v) := m.windowRead e.asid (va % 2 ^ 24) (some (e.iss.gid, e.iss.wave))
        .ok m ((leBytes 8 v.toNat).take n)
    else e.givenOr m lane va n fun _ => m.l1Load e.core e.asid va n hint
  match m.openConsign e.iss.gid e.iss.wave lane with
  | some c =>
    let m := m.touch e.core c va
    match m.openConsign e.iss.gid e.iss.wave lane with
    | none => below m
    | some c =>
      if cls = 2 && m.bankBusy e.asid va n then .held m
      else if cls = 2 ∨ cls = 3 then
        (match e.got lane va n (m.bankRead e.asid va n) with
        | .ok m bs => .ok m (overlay va bs fun a => mget c.buffer a)
        | r => r)
      else
        let line := (m.core e.core).l1Line e.asid va
        (match e.givenOr m lane va n fun _ => m.llcRead e.asid va n with
        | .ok m bs => .ok (m.l1Follow e.core e.asid va bs) (overlay va bs fun a =>
            (mget c.buffer a).or (let b := line.getD (a % 64) ⟨0, false, false⟩; if b.written then some b.val else none))
        | r => r)
  | none => if m.locked e.asid va who then .held m else below m

/-- Read through the constant or sampler path (R183, R205). -/
def Env.pathRead (e : Env) (m : Mach) (lane path va n cls : Nat) : Got :=
  if m.locked e.asid va (some (e.iss.gid, e.iss.wave, lane)) || (cls == 2 && m.bankBusy e.asid va n) then .held m
  else if cls = 2 ∨ cls = 3 then e.got lane va n (m.bankRead e.asid va n)
  else e.givenOr m lane va n fun _ => if path = 1 then m.constRead e.core e.asid va n else m.texelRead e.core e.asid va n

/-- A suppressed fault of a thread aborts its open consignment with cause 4 (R212). -/
def Env.suppress1 (e : Env) (m : Mach) (l : Nat) : Mach :=
  match m.openConsign e.iss.gid e.iss.wave l with
  | some c => m.abortConsign c 4 0
  | none => m
/-- Suppressed faults of consigned threads abort their consignments with cause 4 (R212). -/
def Env.suppress (e : Env) (m : Mach) (failing : List (Nat × Nat)) : Mach :=
  failing.foldl (fun m f => e.suppress1 m f.1) m
/-- What the loads of an entry find. -/
inductive Loads where
  /-- bytes by lane, and the lanes that met an uncorrectable word with the first address -/
  | ok (m : Mach) (vals : List (Nat × List Byte)) (bad : List (Nat × Nat))
  | eff (x : Eff)
/-- Perform the loads of an entry in ascending threads (R204): `one` reads one thread's access. Every missing line is asked
for, and the entry parks until every thread's data is present (R203). A thread whose fault is suppressed reads 0.
(log 38, DEDUCED) -/
def Env.loadAll (e : Env) (m : Mach) (path n : Nat) (cls : List (Nat × Nat)) (rq : List Acs)
    (names : List Nat → List Nat) (one : Mach → Nat → Nat → Nat → Got) : Loads :=
  let zero := List.replicate n (0 : Byte)
  let r := rq.foldl (fun (r : Loads × List Acs) p =>
    match r.1 with
    | .eff _ => r
    | .ok m vals bad =>
      if e.isDenied p.1 then r else
      match cls.lookup p.1 with
      | none => (.ok m (vals ++ [(p.1, zero)]) bad, r.2)
      | some c =>
        match one m p.1 p.2 c with
        | .ok m bs => (.ok m (vals ++ [(p.1, bs)]) bad, r.2)
        | .poison m va =>
          if e.hushed p.1 then (.ok (e.suppress1 m p.1) (vals ++ [(p.1, zero)]) bad, r.2)
          else (.ok m (vals ++ [(p.1, zero)]) (bad ++ [(p.1, va)]), r.2)
        | .miss m _ => (.ok m (vals ++ [(p.1, zero)]) bad, r.2 ++ [p])
        | .held m => (.eff (.hold m), r.2)
        | .fault m code info va =>
          if e.hushed p.1 then (.ok (e.suppress1 m p.1) (vals ++ [(p.1, zero)]) bad, r.2)
          else (.eff (e.loadTrap m (names [p.1]) code info (BitVec.ofNat 64 va)), r.2)) (Loads.ok m [] [], [])
  match r.1 with
  | .ok m _ _ =>
    if !r.2.isEmpty then .eff (e.parkOn m path r.2) else
    (match e.denial m names with
    | some x => .eff x
    | none => r.1)
  | _ => r.1

/-- Register words of loaded bytes: sign- or zero-extended to 32 bits, or words in order (R205). -/
def wordsOf (sz : Size) (sgn : Bool) (bs : List Byte) : List Word :=
  match sz with
  | .b8 => [let b : Byte := BitVec.ofNat 8 (leNat bs); if sgn then b.signExtend 32 else b.setWidth 32]
  | .b16 => [let h : Half := BitVec.ofNat 16 (leNat bs); if sgn then h.signExtend 32 else h.setWidth 32]
  | _ => (List.range sz.regs).map fun i => BitVec.ofNat 32 (leNat ((bs.drop (4 * i)).take 4))
/-- Writes of words to an operand's run in a lane. -/
def wordWrites (o : Opnd) (lane : Nat) (ws : List Word) : List (RKey × Word) :=
  ((List.range ws.length).zip ws).map fun p => (o.key lane p.1, p.2)
/-- Results that arrive later (R88, R204): their registers are pending until LOAD_RETURN. -/
def Env.later (e : Env) (m : Mach) (writes : List (RKey × Word)) (flags : List (Nat × Nat × BitVec 5))
    (bad : List (Nat × Nat)) : Mach :=
  let op : LoadOp :=
    { pc := e.iss.pc, prio := e.iss.prio, mask := maskOf e.lanes, writes := writes, flags := flags
      nums := e.lanes.map fun l => (l, (e.w.lane l).loadNo)
      poison := match bad with
        | [] => none
        | b :: _ => some (maskOf (bad.map (·.1)), b.2) }
  e.upd m fun w => { w.updLanes e.lanes fun t => { t with loadNo := t.loadNo + 1 } with
    loads := w.loads ++ [op]
    pend := w.pend ++ writes.map (·.1) ++ flags.map fun f => .c f.1 f.2.1 }

/-! ## Stores -/

/-- Set the G bits of a sector (R185). -/
def Env.signs (e : Env) (m : Mach) (va : Nat) : Mach := e.updG m fun g => { g with sig := g.sig ||| sectorSig va }
/-- Store bytes of one thread through the load-store path in its class; the sector is not locked by another. -/
def Env.store1 (e : Env) (m : Mach) (lane va cls : Nat) (bs : List Byte) (hint : Hint) : Mach :=
  match m.consignOf e.iss.gid e.iss.wave lane with
  | some c =>
    if c.aborted then m else
    let m := m.touch e.core c va
    (match m.openConsign e.iss.gid e.iss.wave lane with
    | some c => m.setConsign { c with buffer := ((List.range bs.length).zip bs).foldl (fun b p => mput b (va + p.1) p.2) c.buffer }
    | none => m)
  | none =>
    if cls = 4 then m.windowWrite e.asid (va % 2 ^ 24) (BitVec.ofNat 64 (leNat bs)) (some (e.iss.gid, e.iss.wave))
    else if cls = 2 ∨ cls = 3 then m.uncachedPut e.asid va bs none
    else e.signs (m.l1Store e.core e.asid va bs hint) va

/-! ## Addresses (R80, R206) -/

/-- The address of an E-MEM form. -/
def Env.addr (e : Env) (x : MemOp) (l : Nat) : Nat :=
  let idx : DWord := if x.idx then ((e.get l x.b).signExtend 64) <<< x.sh.toNat else 0
  (e.getPair l x.a + idx + BitVec.ofNat 64 (x.off.toNat * x.size.bytes)).toNat
/-- The scratchpad offset of an E-MEM form of R206. -/
def Env.spadAddr (e : Env) (x : MemOp) (l : Nat) : Nat :=
  let idx : Word := if x.idx then (e.get l x.b) <<< x.sh.toNat else 0
  (e.get l x.a + idx + BitVec.ofNat 32 (x.off.toNat * x.size.bytes)).toNat

end Sys2Proof.Machine
end

