-- ==== Sys2Proof/Machine/Waits.lean ====
section
/-! DEFINITION. What ends and wakes waves: the end of a wave and its group (R267), tokens (R88, R271, R279), the
rendezvous of AWAIT (R43, R276), named barriers (R330 to R332), and transaction barrier words (R333 to R339). -/

namespace Sys2Proof.Machine

/-! ## The end of a wave (R267) -/

/-- Commands of a wave among Depot items. -/
def DepotItem.ofWave (gid wave : Nat) : DepotItem → Bool
  | .mx c => c.gid == gid && c.wave == wave
  | .porter c => c.gid == gid && c.wave == wave
  | .ray c => c.gid == gid && c.wave == wave
  | _ => false
/-- An async command of the wave has not completed. -/
def Mach.commandsOf (m : Mach) (core gid wave : Nat) : Bool :=
  let k := m.core core
  k.mxQ.any (fun c => c.gid == gid && c.wave == wave) || k.porterQ.any (fun c => c.gid == gid && c.wave == wave)
    || k.rayQ.any (fun c => c.gid == gid && c.wave == wave) || m.banks.any (fun c => c.gid == gid && c.wave == wave)
    || m.rings.any fun p => p.2.items.any (·.ofWave gid wave)
/-- A group whose waves have all ended. -/
def Group.over (g : Group) : Bool := g.waves.all (·.ended)
/-- A write-back of the core's lines would meet a sector locked by an exclusive consignment: it waits (R214). -/
def Mach.flushHeld (m : Mach) (core : Nat) (asid : BitVec 16) : Bool :=
  m.wbWait.any (fun q => q.1 == core && q.2.1 == asid) || (!m.consigns.isEmpty && ((m.core core).l1Keys asid).any fun k =>
    [0, 1].any fun h => m.locked asid (k % 2 ^ 42 * 64 + 32 * h) none && !(l1DirtyHalf ((mget (m.core core).l1 k).getD []) h).isEmpty)
/-- A wave without live threads, tokens and commands ends and frees its registers; the last one releases. -/
def Mach.endWave (m : Mach) (gid wave : Nat) : Mach :=
  match m.group gid with
  | none => m
  | some g =>
    match g.wave wave with
    | none => m
    | some w =>
      if w.ended || !w.live.isEmpty || !w.toks.isEmpty || m.commandsOf g.core gid wave then m else
      let m := m.updWave gid wave fun w =>
        { w with ended := true, ext := 0, drowsy := false, v := [], k := [], w := [], refresh := [], parity := [], weak := [], pend := [], cmdPend := [], loads := [] }
      match m.group gid with
      | some g => if g.over && !m.flushHeld g.core g.asid then m.release g.core g.asid else m
      | none => m
/-- A token is written with its status: once, and no longer pending (R279); it is marked as written in the region (R119). -/
def Mach.putToken (m : Mach) (gid wave tok : Nat) (status : Word) : Mach :=
  (m.updWave gid wave fun w =>
    let w := (w.putNow (.w tok) status).mark (w.live.headD 0) (.w tok)
    { w with pend := w.pend.filter (· != .w tok), toks := w.toks.filter (· != tok) })
/-- A token becomes pending at issue. -/
def Wave.takeToken (w : Wave) (tok : Nat) : Wave :=
  { w with toks := w.toks ++ [tok], pend := w.pend ++ [.w tok] }

/-! ## The rendezvous (R43, R276) -/

/-- Every live thread of the wave is parked at AWAIT, with no load outstanding. (log 67, DEDUCED) -/
def Wave.atAwait (w : Wave) : Bool := !w.live.isEmpty && w.loads.isEmpty && w.live.all fun l => (w.lane l).wait == .await
/-- The depth of a group at a complete rendezvous. -/
def Group.meeting (g : Group) : Option Nat :=
  let ws := g.waves.filter fun w => !w.live.isEmpty
  if ws.all (·.atAwait) then ws.head?.map (·.depth) else none
/-- The count of a frame. -/
def Mach.countOf (m : Mach) (asid : BitVec 16) (h : Nat) : Nat := ((m.frame asid h).map (·.count)).getD 0
/-- A stack of frames with the handle at a depth changed: 0 at a depth without a frame, none above the last one. -/
def framesSet (fs : List Nat) (d h : Nat) : List Nat :=
  (((fs ++ List.replicate (d + 1 - fs.length) 0).set d h).reverse.dropWhile (· == 0)).reverse
/-- A group at AWAIT goes on: the frame's signature is acquired, with the group's own where it moved (R191), and the frame is
retired unless it is the initial one (R43, R276). Frames that ended waves left at other depths stay where they are. -/
def Mach.resumeGroup (m : Mach) (gid : Nat) (own : Sig) : Mach :=
  match m.group gid with
  | none => m
  | some g =>
    match g.meeting with
    | none => m
    | some d =>
      let h := g.frames.getD d 0
      let sig := ((m.frame g.asid h).map (·.sig)).getD 0
      let m := m.acquire gid (sig ||| own)
      let m := if d = 0
        then m.updFrame g.asid h fun f => { f with parked := false, ready := false, cont := none }
        else m.dropFrame g.asid h
      m.updGroup gid fun g => { g with
        parked := false
        frames := if d = 0 then g.frames else framesSet g.frames d 0
        waves := g.waves.map fun w =>
          let ls := w.live.filter fun l => (w.lane l).wait == .await
          let w := (w.updLanes ls fun t => { t with wait := .none, age := 0 }).closeRegions ls
          { w with depth := if d = 0 then 0 else d - 1 } }
/-- A complete rendezvous resumes in place at COUNT zero, else the group becomes a continuation. (log 58, DEDUCED) -/
def Mach.rendezvous (m : Mach) (gid : Nat) : Mach :=
  match m.group gid with
  | none => m
  | some g =>
    if g.parked then m else
    match g.meeting with
    | none => m
    | some d =>
      let h := g.frames.getD d 0
      if m.countOf g.asid h = 0 then (m.updFrame g.asid h fun f => { f with ready := true }).resumeGroup gid 0
      else (m.updFrame g.asid h fun f => { f with parked := true, cont := some gid }).updGroup gid
        fun g => { g with parked := true }

/-! ## Named barriers (R330 to R332) -/

/-- The slot of a named barrier, and a free slot. -/
def Group.barSlot (g : Group) (id : BitVec 6) : Option Nat := g.slots.findIdx? fun s => s.kind == .named id
def Group.freeBar (g : Group) : Option Nat := g.slots.findIdx? fun s => s.kind == .free
def Group.slot (g : Group) (k : Nat) : BarSlot := g.slots.getD k BarSlot.free
def Group.updSlot (g : Group) (k : Nat) (f : BarSlot → BarSlot) : Group := { g with slots := lset g.slots k f }
/-- Threads of a group that wait for a phase of a named barrier go on; BARW clears the arrival record (R332). -/
def Group.wakeBar (g : Group) (id : BitVec 6) (p : Nat) : Group :=
  let wake (t : Lane) : Lane :=
    if t.wait == .bar id p true then { t with wait := .none, age := 0, arrival := none }
    else if t.wait == .bar id p false then { t with wait := .none, age := 0 } else t
  { g with waves := g.waves.map fun w => w.updLanes w.live wake }
/-- A named phase completes: its waiters go on, the phase advances, the counts return to zero. -/
def Group.completeNamed (g : Group) (id : BitVec 6) (k : Nat) : Group :=
  let p := (g.slot k).phase
  (g.wakeBar id p).updSlot k fun s => { s with phase := p + 1, arrived := 0, expected := 0 }
/-- Every live thread has arrived in the open phase of barrier 0 (R331). -/
def Group.all0 (g : Group) : Bool :=
  let p := (g.slot 0).phase
  g.waves.any (fun w => !w.live.isEmpty) && g.waves.all fun w => w.live.all fun l => (w.lane l).at0 == some p
/-- Complete the open phase of barrier 0 when it can. -/
def Group.settle0 (g : Group) : Group := if g.all0 then g.completeNamed 0 0 else g
/-- One thread arrives at the named barrier in slot k with a count (R330). (log 58, DEDUCED) -/
def Group.arrive1 (g : Group) (id : BitVec 6) (k n : Nat) (wave lane : Nat) : Group :=
  let p := (g.slot k).phase
  let g := g.updWave wave fun w => w.updLane lane fun t =>
    { t with arrival := some (id, p), at0 := if id == 0 then some p else t.at0 }
  let g := g.updSlot k fun s => { s with arrived := s.arrived + 1, expected := if id == 0 then 0 else if s.expected = 0 then n else s.expected }
  if id == 0 then g.settle0
  else if (g.slot k).arrived = (g.slot k).expected then g.completeNamed id k else g
/-- Arrivals of threads of one wave in ascending thread index. -/
def Group.arrive (g : Group) (id : BitVec 6) (k n : Nat) (wave : Nat) (ls : List Nat) : Group :=
  (g.task.byThread wave (·) ls).foldl (fun g l => g.arrive1 id k n wave l) g

/-- What follows the exit of threads of a wave: the wave may end, barrier 0 and a rendezvous may complete. -/
def Mach.afterExit (m : Mach) (gid wave : Nat) : Mach :=
  ((m.endWave gid wave).updGroup gid Group.settle0).rendezvous gid

/-! ## Transaction barrier words (R333 to R339) -/

/-- A transaction barrier word (R333). -/
structure TbWord where
  phase : Nat
  arrive : Nat
  expect : Nat
  sectors : Nat
  deriving DecidableEq, Repr
def TbWord.ofNat (n : Nat) : TbWord := ⟨n % 16, n / 2 ^ 8 % 2 ^ 16, n / 2 ^ 24 % 2 ^ 16, n / 2 ^ 40 % 2 ^ 32⟩
def TbWord.toNat (w : TbWord) : Nat := w.phase + w.arrive * 2 ^ 8 + w.expect * 2 ^ 24 + w.sectors * 2 ^ 40
def Mach.tbWord (m : Mach) (g : Group) (off : Nat) : TbWord := TbWord.ofNat (leNat (m.spadRead g off 16))
def Mach.setTb (m : Mach) (g : Group) (off : Nat) (w : TbWord) : Mach := m.spadWrite g off (leBytes 16 w.toNat)
/-- Threads parked at TBWAIT in the open phase of a slot. -/
def Group.tbWaiters (g : Group) (k : Nat) (w : Wave) : List Nat :=
  let p := (g.slot k).phase
  w.live.filter fun l => (w.lane l).wait == .tbar k p true || (w.lane l).wait == .tbar k p false
/-- The phase of a binding completes: waiters at TBWAIT go on past it, and the word monitor keeps the phase's merged signature
when it held an arrival from another core (R335, R336, R337). (log 34, DEDUCED) -/
def Group.completeTb (g : Group) (k : Nat) : Group :=
  let wake (w : Wave) : Wave :=
    let ls := g.tbWaiters k w
    (w.updLanes ls fun t => { t with wait := .none, pc := t.pc + 8, age := 0 }).closeRegions ls
  let g : Group := { g with waves := g.waves.map wake }
  g.updSlot k fun s =>
    { s with phase := s.phase + 1, sig := 0, remote := false
             sigs := if s.remote then mput s.sigs (s.phase % 16) s.sig else mdel s.sigs (s.phase % 16) }
/-- Change the gates of a group's commands, in every queue and ring. -/
def Mach.mapGates (m : Mach) (core gid : Nat) (f : Gate → Gate) : Mach :=
  let mx (c : MxCmd) : MxCmd := if c.gid = gid then { c with gate := c.gate.map f } else c
  let po (c : PorterCmd) : PorterCmd := if c.gid = gid then { c with gate := c.gate.map f } else c
  let ra (c : RayCmd) : RayCmd := if c.gid = gid then
      { c with op := match c.op with
        | .beam b => .beam { b with gate := b.gate.map f }
        | x => x }
    else c
  let item : DepotItem → DepotItem
    | .mx c => .mx (mx c)
    | .porter c => .porter (po c)
    | .ray c => .ray (ra c)
    | x => x
  let k := m.core core
  let m := if k.mxQ.isEmpty && k.porterQ.isEmpty && k.rayQ.isEmpty then m
    else m.setCore core { k with mxQ := k.mxQ.map mx, porterQ := k.porterQ.map po, rayQ := k.rayQ.map ra }
  { m with
    rings := m.rings.map fun p => (p.1, { p.2 with items := p.2.items.map item })
    banks :=
      -- a command whose gate opens arrives now, behind those that have arrived (R188)
      let moved (b : BankCmd) : Bool := decide (b.gid = gid) && b.gate != b.gate.map f
      m.banks.filter (fun b => !moved b) ++ (m.banks.filter moved).map fun b => { b with gate := b.gate.map f } }
/-- The group at a position of a convoy placement (R206). (log 64, DEDUCED) -/
def Mach.atPosition (m : Mach) (g : Group) (p : Nat) : Option Group :=
  if p = g.position then some g
  else (m.groups.map (·.2)).find? fun h => h.asid == g.asid && h.placement == g.placement && h.position == p
/-- A gate over a word whose phase of a parity completes is released (R335). -/
def Gate.pass (off : Nat) (par : Bool) (q : Gate) : Gate := if q.off = off ∧ q.par = par then { q with passed := true } else q
/-- One step on the live word at an offset of a group (R335): `da` arrivals leave, `up` sectors are added and `down`
leave. At a completion, waiters of a phase with an arrival from another core acquire its signature (R187), and its gates are
released. None says that a count would leave its range: nothing changes. (log 34, DEDUCED) -/
def Mach.tbStep (m : Mach) (gid off da up down : Nat) : Option Mach :=
  match m.group gid with
  | none => none
  | some g =>
    match g.binding off with
    | none => none
    | some k =>
      let w := m.tbWord g off
      if decide (w.arrive < da) || decide (w.sectors + up < down) || decide (2 ^ 32 ≤ w.sectors + up - down) then none else
      let w := { w with arrive := w.arrive - da, sectors := w.sectors + up - down }
      if w.arrive = 0 ∧ w.sectors = 0 then
        let m := m.setTb g off { w with phase := (w.phase + 1) % 16, arrive := w.expect }
        let s := g.slot k
        let m := (m.updGroup gid fun g => g.completeTb k).mapGates g.core gid (Gate.pass off (w.phase % 2 == 1))
        some (if s.remote && g.waves.any fun u => !(g.tbWaiters k u).isEmpty then m.acquire gid s.sig else m)
      else some (m.setTb g off w)
/-- A gate is open: its phase has completed, or its binding was released (R280). -/
def Mach.gateOpen (m : Mach) (gid : Nat) : Option Gate → Bool
  | none => true
  | some q => q.gone || q.passed || (match m.group gid with
    | some g => ((m.tbWord g q.off).phase % 2 == 1) != q.par
    | none => true)
/-- A gate over a word that is released: a command that no longer waits on it loses nothing (R280, R335). -/
def Gate.lose (off : Nat) (q : Gate) : Gate := if q.off = off ∧ q.passed = false then { q with gone := true } else q
/-- Release the binding in a slot (R338): threads at TBWAIT raise BARRIER_COUNT there; gated commands run. -/
def Mach.dropBinding (m : Mach) (gid k : Nat) : Mach :=
  match m.group gid with
  | none => m
  | some g =>
    match (g.slot k).kind with
    | .binding off =>
      let waits (t : Lane) (act : Bool) : Bool := match t.wait with
        | .tbar j _ a => j == k && (a || !act)
        | _ => false
      let m := m.updGroup gid fun g =>
        { g with
          waves := g.waves.map fun w =>
            let ls := w.live.filter fun l => waits (w.lane l) false
            let es := ((ls.filter fun l => waits (w.lane l) true).map fun l => (w.lane l).entry).eraseDups
            let traps := es.map fun e => (⟨e.1, e.2, maskOf (ls.filter fun l => waits (w.lane l) true && (w.lane l).entry == e),
              Code.barrierCount, 0, BitVec.ofNat 64 off, false⟩ : PendTrap)
            { w.updLanes ls (fun t => { t with wait := .none, age := 0 }) with traps := w.traps ++ traps }
          slots := g.slots.set k BarSlot.free }
      m.mapGates g.core gid (Gate.lose off)
    | _ => m

end Sys2Proof.Machine
end

