-- ==== Sys2Proof/Machine/Memory.lean ====
section
/-! DEFINITION. Rows 0x9 and 0xA: loads, stores, prefetch, atomics, consignments, fences and line operations
(R200 to R218). -/

namespace Sys2Proof.Machine

/-- Threads that perform a load, in ascending index: the lead of a uniform one, else every active thread and helper (R32, R201).
(log 38, DEDUCED) -/
def Env.readers (e : Env) (i : Instr) : List Nat :=
  if isUniform (uses i) then (if e.w.guard e.clk e.ctl e.lead then [e.lead] else []) else e.ordered e.all
/-- Threads that perform an atomic, in ascending index: the lead of a uniform one, else every active thread (R32). A lead that is
a helper, or whose open consignment forbids atomics, performs none (R35, R211). -/
def Env.actors (e : Env) (i : Instr) : List Nat :=
  if isUniform (uses i) then (if e.act.contains e.lead then [e.lead] else []) else e.ordered e.act
/-- The condition codes of a CAS: of the threads that performed it, or of every active thread where one performed it for the
entry (R32, R208). -/
def Env.casFlags (e : Env) (i : Instr) (x : MemOp) (olds : List (Nat × DWord)) : List (Nat × Nat × BitVec 5) :=
  match x.flag with
  | none => []
  | some k => olds.flatMap fun p =>
    (if isUniform (uses i) then e.act else [p.1]).map fun l => (l, k.toNat, zCc (p.2 == e.getN p.1 x.c x.size.regs))
/-- Threads a trap of an instruction names: the failing ones, or for a uniform instruction every active thread. -/
def Env.names (e : Env) (i : Instr) (ls : List Nat) : List Nat := if isUniform (uses i) then e.named else ls

/-! ## Loads -/

/-- The loads of an instruction through a path, checked and performed; results arrive later (R203 to R205). -/
def Env.loads (e : Env) (i : Instr) (path n : Nat) (only64 : Bool) (rq : List Acs)
    (one : Mach → Nat → Nat → Nat → Got) (put : Nat → List Byte → List (RKey × Word)) : Eff :=
  if rq.isEmpty then .done e.m e.lanes else
  match e.checkAll e.m .load path n only64 rq with
  | .walk va => e.waits e.m (.walk va)
  | .trap ls code addr => e.loadTrap e.m (e.names i ls) code 0 addr
  | .ok cls failing =>
    match e.loadAll (e.suppress (e.m.usedWalks e.core e.asid) failing) path n cls rq (e.names i) one with
    | .eff x => x
    | .ok m vals bad =>
      .done (e.later m (vals.reverse.flatMap fun v => put v.1 v.2) [] bad) e.lanes

def execLd (x : MemOp) (s : State) : Host.Outcome State Fault Refusal :=
  perform (.ld x) x.ctl (fun e =>
    e.loads (.ld x) 0 x.size.bytes (x.size != .b64) ((e.readers (.ld x)).map fun l => (l, e.addr x l))
      (fun m l va cls => e.load1 m l va x.size.bytes cls x.hint)
      (fun l bs => wordWrites x.d l (wordsOf x.size x.sgn bs))) s
/-- LDC reads through the constant path (R205). -/
def execLdc (x : MemOp) (s : State) : Host.Outcome State Fault Refusal :=
  perform (.ldc x) x.ctl (fun e =>
    e.loads (.ldc x) 1 x.size.bytes true ((e.readers (.ldc x)).map fun l => (l, e.addr x l))
      (fun m l va cls => e.pathRead m l 1 va x.size.bytes cls)
      (fun l bs => wordWrites x.d l (wordsOf x.size x.sgn bs))) s
/-- WLDC (R137): one word or pair of words of the wave, by a word index of the type's width (R125). -/
def execWldc (x : IntOp) (s : State) : Host.Outcome State Fault Refusal :=
  perform (.wldc x) x.ctl (fun e =>
    let n := 4 * x.ty.regs
    let va (l : Nat) : Nat := (e.getPair l x.a + BitVec.ofNat 64 (n * (e.getSrc l x.b x.ty.regs).toNat)).toNat
    e.loads (.wldc x) 1 n true ((e.readers (.wldc x)).map fun l => (l, va l))
      (fun m l va cls => e.pathRead m l 1 va n cls)
      (fun l bs => wordWrites x.d l (wordsOf (if n = 8 then .b64 else .b32) false bs))) s

/-! ## Stores -/

/-- Accesses to a sector that another's exclusive consignment has locked (R214), those of `skip` apart. -/
def Env.lockedAny (e : Env) (skip : Nat → Bool) (rq : List Acs) : Bool :=
  !e.m.consigns.isEmpty && rq.any fun p => !skip p.1 && e.m.locked e.asid p.2 (some (e.iss.gid, e.iss.wave, p.1))
/-- Stores of n bytes wait at a locked sector, and behind earlier commands at a bank; one to a doorbell waits where its descriptor
does (R188, R214). -/
def Env.storeHeld (e : Env) (cls : List (Nat × Nat)) (rq : List Acs) (n : Nat) (data : Nat → List Byte) : Bool :=
  e.lockedAny e.inTx rq || (!e.m.banks.isEmpty && rq.any fun p => !e.inTx p.1 && cls.lookup p.1 == some 2 && e.m.bankBusy e.asid p.2 n)
    || rq.any fun p => !e.inTx p.1 && cls.lookup p.1 == some 3 && e.m.doorbellHeld e.asid p.2 (data p.1)
/-- Perform stores in the order of their list. -/
def Env.storeAll (e : Env) (m : Mach) (cls : List (Nat × Nat)) (rq : List Acs) (data : Nat → List Byte) (hint : Hint) : Eff :=
  .done (rq.foldl (fun m p => match cls.lookup p.1 with
    | none => m
    | some c => e.store1 m p.1 p.2 c (data p.1) hint) m) e.lanes
/-- The low bytes of an operand's run. -/
def Env.bytesOf (e : Env) (l : Nat) (o : Opnd) (sz : Size) : List Byte :=
  ((List.range sz.regs).flatMap fun k => leBytes 4 (e.w.getI e.clk l o k).toNat).take sz.bytes
def execSt (x : MemOp) (s : State) : Host.Outcome State Fault Refusal :=
  perform (.st x) x.ctl (fun e =>
    let rq := (e.ordered e.act).map fun l => (l, e.addr x l)
    if rq.isEmpty then .done e.m e.lanes else
    match e.checkAll e.m .store 0 x.size.bytes (x.size != .b64) rq with
    | .walk va => e.waits e.m (.walk va)
    | .trap ls code addr => e.accessTrap e.m ls code 0 addr
    | .ok cls failing =>
      let data (l : Nat) : List Byte := e.bytesOf l x.c x.size
      if e.storeHeld cls rq x.size.bytes data then .hold e.m else
      e.storeAll (e.suppress (e.m.usedWalks e.core e.asid) failing) cls rq data x.hint) s

/-! ## Atomics (R208 to R210) -/

/-- The new value of an atomic of w bits: o the old value, c the operand, d the swap value of CAS. -/
def atomNew (op : AOp) (sgn : Bool) (w : Nat) (o c d : DWord) : DWord :=
  let le (a b : DWord) : Bool :=
    if sgn then (if w = 64 then decide (a.toInt ≤ b.toInt) else decide ((a.setWidth 32).toInt ≤ (b.setWidth 32).toInt))
    else decide (a.toNat ≤ b.toNat)
  let r : DWord := match op with
    | .add => o + c
    | .min => if le o c then o else c
    | .max => if le c o then o else c
    | .and => o &&& c
    | .or => o ||| c
    | .xor => o ^^^ c
    | .exch => c
    | .cas => if o == c then d else o
    | .fadd => (fadd32 (o.setWidth 32) (c.setWidth 32)).setWidth 64
    | .inc => if c.toNat ≤ o.toNat then 0 else o + 1
    | .dec => if o == 0 || decide (c.toNat < o.toNat) then c else o - 1
  if w = 64 then r else (r.setWidth 32).setWidth 64
/-- The old values, the flags of CAS and the machine after atomics in ascending lanes. -/
structure AtomRun where
  m : Mach
  olds : List (Nat × DWord)
/-- Write the core's dirty bytes of a sector back and drop its copy (R209, R213). -/
def Mach.l1DropSector (m : Mach) (core : Nat) (asid : BitVec 16) (va : Nat) : Mach :=
  (m.l1WriteBack core (lineKey asid va) (some (va % 64 / 32))).l1Forget core asid va
/-- Read n bytes where an atomic performs: the home slice, or the bank of an uncached page. -/
def Mach.atomRead (m : Mach) (asid : BitVec 16) (va n cls : Nat) (tally : Bool) : Rd :=
  if cls = 3 then m.bankRead asid va n tally else m.llcRead asid va n .norm tally
/-- One atomic at the home slice. -/
def Env.atom1 (e : Env) (x : MemOp) (r : AtomRun) (l va cls : Nat) (c d : DWord) : AtomRun :=
  let n := x.size.bytes
  match r.m.atomRead e.asid va n cls false with
  | .ok m bs =>
    let o := BitVec.ofNat 64 (leNat bs)
    let new := leBytes n (atomNew x.op x.sgn (8 * n) o c d).toNat
    let m := if cls = 3 then (match m.bankWrite e.asid va new none false with | .ok m _ => m | _ => m)
      else
        let m := e.signs (m.llcWriteRun e.asid va new none false) va
        if x.hint == .evf then m.markFirst (lineKey e.asid va) else m
    ⟨m, r.olds ++ [(l, o)]⟩
  | _ => r
/-- The readings every atomic needs first: the threads whose word cannot be read, with their faults. The lanes of one word are one
request (R105, R344). -/
def Env.atomReady (e : Env) (m : Mach) (n : Nat) (cls : List (Nat × Nat)) (rq : List Acs) : Mach × List (Nat × Nat × Nat) :=
  let r := rq.foldl (fun (a : Mach × List (Nat × Nat × Nat) × List Nat) p =>
    let seen := p.2 :: a.2.2
    match a.1.atomRead e.asid p.2 n ((cls.lookup p.1).getD 0) (!a.2.2.contains p.2) with
    | .ok m _ => (m, a.2.1, seen)
    | .bad m code va => (m, a.2.1 ++ [(p.1, code, va)], seen)
    | .grove m va => (m, a.2.1 ++ [(p.1, Code.genWrite, va)], seen)
    | .again m => (m, a.2.1, seen)) (m, [], [])
  (r.1, r.2.1)
/-- Perform the atomics of an entry at their home slices: the lanes of one word in ascending order (R105, R209). -/
def Env.atoms (e : Env) (i : Instr) (x : MemOp) (ret : Bool) : Eff :=
  let n := x.size.bytes
  let rq := (e.actors i).map fun l => (l, e.addr x l)
  if rq.isEmpty then .done e.m e.lanes else
  match e.checkAll e.m .atomic 0 n true rq with
  | .walk va => e.waits e.m (.walk va)
  | .trap ls code addr => e.accessTrap e.m (e.names i ls) code 0 addr
  | .ok cls _ =>
    if e.lockedAny (fun _ => false) rq then .hold e.m else
    let m := rq.foldl (fun m p => m.l1DropSector e.core e.asid p.2) (e.m.usedWalks e.core e.asid)
    match e.atomReady m n cls rq with
    | (m, p :: ps) =>
      -- every thread that fails the same check is named (R353)
      e.accessTrap m (e.names i (((p :: ps).filter fun q => q.2.1 == p.2.1).map (·.1))) p.2.1 0 (BitVec.ofNat 64 p.2.2)
    | (m, []) =>
      let r := (e.g.task.byThread e.w.index (·.1) rq).foldl (fun r p =>
        e.atom1 x r p.1 p.2 ((cls.lookup p.1).getD 0) (e.getN p.1 x.c x.size.regs) (e.getN p.1 x.d x.size.regs)) ⟨m, []⟩
      if !ret then .done r.m e.lanes else
      .done (e.later r.m (r.olds.reverse.flatMap fun p =>
        wordWrites x.d p.1 (wordsOf x.size false (leBytes n p.2.toNat))) (e.casFlags i x r.olds) []) e.lanes
def execAtom (x : MemOp) (s : State) : Host.Outcome State Fault Refusal :=
  perform (.atom x) x.ctl (fun e => e.atoms (.atom x) x true) s
def execRed (x : MemOp) (s : State) : Host.Outcome State Fault Refusal :=
  perform (.red x) x.ctl (fun e => e.atoms (.red x) x false) s

/-! ## Scratchpad (R172, R206, R210, R339) -/

/-- A group and an offset in its grant that an access names. -/
structure SpadAcs where
  lane : Nat
  /-- the sum of R80 as written -/
  sum : Nat
  /-- the target group, when the position names one -/
  g : Option Group
  off : Nat
/-- An access to the issuing group's own grant. -/
def Env.ownSpad (e : Env) (l a : Nat) : SpadAcs := ⟨l, a, some e.g, a⟩
/-- An access of LDV or STV. -/
def Env.convoySpad (e : Env) (l a : Nat) : SpadAcs :=
  ⟨l, a, if a / 2 ^ 26 = 0 then e.m.atPosition e.g (a / 2 ^ 24 % 4) else none, a % 2 ^ 24⟩
/-- Check scratchpad accesses of n bytes: ALIGN, then PERM, then a live barrier word written (R172, R206, R339). -/
def spadCheck (quiet : Nat → Bool) (n : Nat) (write : Bool) (rq : List SpadAcs) : Option (List Nat × Nat × Nat) :=
  let loud := rq.filter fun p => !quiet p.lane
  let out (p : SpadAcs) : Bool := match p.g with | none => true | some g => decide (g.grant < p.off + n)
  let word (p : SpadAcs) : Option Nat := p.g.bind fun g => g.slots.findSome? fun s => match s.kind with
    | .binding o => if p.off < o + 16 ∧ o < p.off + n then some o else none
    | _ => none
  match loud.filter fun p => p.off % n != 0 with
  | p :: ps => some ((p :: ps).map (·.lane), Code.align, p.sum)
  | [] =>
    match loud.filter out with
    | p :: ps => some ((p :: ps).map (·.lane), Code.perm, p.sum)
    | [] =>
      if !write then none else
      match loud.filter fun p => (word p).isSome with
      | p :: ps => some ((p :: ps).map (·.lane), Code.barrierClobber, (word p).getD 0)
      | [] => none
/-- The group whose scratchpad an access may read, where its checks hold. -/
def SpadAcs.good (n : Nat) (p : SpadAcs) : Option Group := p.g.filter fun g => decide (p.off % n = 0 ∧ p.off + n ≤ g.grant)
/-- The bytes an access reads; one whose fault is suppressed reads 0. -/
def Mach.spadGet (m : Mach) (n : Nat) (p : SpadAcs) : Mach × List Byte :=
  match p.good n with
  | some g => m.threadRead g p.off n
  | none => (m, List.replicate n 0)
/-- Loads from scratchpads. The fault of a helper, and of a thread whose consignment is not exclusive, is suppressed (R35,
R212). -/
def Env.spadLoads (e : Env) (i : Instr) (x : MemOp) (at' : Nat → SpadAcs) : Eff :=
  let n := x.size.bytes
  let rq := (e.readers i).map at'
  match spadCheck e.hushed n false rq with
  | some (ls, code, addr) => e.accessTrap e.m (e.names i ls) code 0 (BitVec.ofNat 64 addr)
  | none =>
    if rq.isEmpty then .done e.m e.lanes else
    let r := rq.foldl (fun (a : Mach × List (Nat × List Byte)) p =>
      let (m, bs) := (if (p.good n).isSome then a.1 else e.suppress1 a.1 p.lane).spadGet n p
      (m, a.2 ++ [(p.lane, bs)])) (e.m, [])
    .done (e.later r.1 (r.2.reverse.flatMap fun p => wordWrites x.d p.1 (wordsOf x.size x.sgn p.2)) [] []) e.lanes
/-- A thread's write of its own group's scratchpad, which an OPFENCE has yet to follow (R199). -/
def Env.ownWrite (e : Env) (m : Mach) (g : Group) (off n : Nat) : Mach :=
  if g.gid == e.iss.gid then e.upd m fun w => w.wrote (off, n) else m
/-- Stores to scratchpads in ascending threads. One of a thread whose consignment has aborted performs nothing, and its fault is
suppressed (R212). -/
def Env.spadStores (e : Env) (x : MemOp) (at' : Nat → SpadAcs) : Eff :=
  let n := x.size.bytes
  let rq := ((e.ordered e.act).filter fun l => !e.inTx l).map at'
  match spadCheck (fun _ => false) n true rq with
  | some (ls, code, addr) => .trap e.m ls code 0 (BitVec.ofNat 64 addr)
  | none =>
    .done (rq.foldl (fun m p => match p.g with
      | some g => e.ownWrite (m.threadStore g p.off (e.bytesOf p.lane x.c x.size)) g p.off n
      | none => m) e.m) e.lanes
def execLds (x : MemOp) (s : State) : Host.Outcome State Fault Refusal :=
  perform (.lds x) x.ctl (fun e => e.spadLoads (.lds x) x fun l => e.ownSpad l (e.spadAddr x l)) s
def execSts (x : MemOp) (s : State) : Host.Outcome State Fault Refusal :=
  perform (.sts x) x.ctl (fun e => e.spadStores x fun l => e.ownSpad l (e.spadAddr x l)) s
def execLdv (x : MemOp) (s : State) : Host.Outcome State Fault Refusal :=
  perform (.ldv x) x.ctl (fun e => e.spadLoads (.ldv x) x fun l => e.convoySpad l (e.spadAddr x l)) s
def execStv (x : MemOp) (s : State) : Host.Outcome State Fault Refusal :=
  perform (.stv x) x.ctl (fun e => e.spadStores x fun l => e.convoySpad l (e.spadAddr x l)) s
/-- One atomic in the group's scratchpad. -/
def Env.spadAtom1 (e : Env) (x : MemOp) (r : AtomRun) (p : SpadAcs) : AtomRun :=
  let n := x.size.bytes
  let (m, bs) := r.m.threadRead e.g p.off n
  let o := BitVec.ofNat 64 (leNat bs)
  let new := atomNew x.op x.sgn (8 * n) o (e.getN p.lane x.c x.size.regs) (e.getN p.lane x.d x.size.regs)
  ⟨e.ownWrite (m.threadStore e.g p.off (leBytes n new.toNat)) e.g p.off n, r.olds ++ [(p.lane, o)]⟩
def execAtoms (x : MemOp) (s : State) : Host.Outcome State Fault Refusal :=
  perform (.atoms x) x.ctl (fun e =>
    let n := x.size.bytes
    let rq := (e.actors (.atoms x)).map fun l => e.ownSpad l (e.spadAddr x l)
    match spadCheck (fun _ => false) n true rq with
    | some (ls, code, addr) => .trap e.m (e.names (.atoms x) ls) code 0 (BitVec.ofNat 64 addr)
    | none =>
      let r := (e.g.task.byThread e.w.index (·.lane) rq).foldl (fun r p => e.spadAtom1 x r p) ⟨e.m, []⟩
      if rq.isEmpty then .done e.m e.lanes else
      .done (e.later r.m (r.olds.reverse.flatMap fun p =>
        wordWrites x.d p.1 (wordsOf x.size false (leBytes n p.2.toNat))) (e.casFlags (.atoms x) x r.olds) []) e.lanes) s

/-! ## Prefetch, fences and line operations (R207, R215 to R218) -/

/-- Check an access that never faults: its class, walking the table when the TLB misses. -/
def Env.quietCheck (e : Env) (m : Mach) (va : Nat) : Mach × Option Nat :=
  let m := match m.check e.core e.asid e.system .load 0 va 1 with
    | .walk _ => m.tlbWalk e.core e.asid va
    | _ => m
  match m.check e.core e.asid e.system .load 0 va 1 with
  | .ok c => (m, some c)
  | _ => (m.usedWalks e.core e.asid, none)
/-- Prefetch one line (R207): with HINT 0b01 too as a load that misses, so into the LLC alone, first-victim (R181; log 94, DEDUCED). -/
def Env.prefetch1 (e : Env) (hint : Hint) (m : Mach) (va : Nat) : Mach :=
  let line := va / 64 * 64
  match e.quietCheck m va with
  | (m, some 0) =>
    if hint == .byp then { m with prefetch := m.prefetch ++ [(e.asid, line, e.g.task.allot.toNat)] } else
    [line, line + 32].foldl (fun m a => match m.l1Load e.core e.asid a 32 hint with
      | .ok m _ => m
      | .bad m _ _ => m
      | .grove m _ => m
      | .again m => m) m
  | (m, some 1) =>
    -- a generated line is in the LLC whole or not at all (R246)
    let part (m : Mach) (a : Nat) : Rd := if hint == .byp then m.llcRead e.asid a 32 else m.l1Load e.core e.asid a 32 hint
    (match part m line with
    | .ok m _ => (match part m (line + 32) with
      | .ok m _ => m
      | .grove m _ => m
      | .bad m _ _ => m
      | .again m => m)
    | .grove m a => (m.askGrove .prefetch e.asid a 0 e.g.task.tpri e.g.task.flvl.toNat).1
    | .bad m _ _ => m
    | .again m => m)
  | (m, _) => m
def execLdpf (x : MemOp) (s : State) : Host.Outcome State Fault Refusal :=
  perform (.ldpf x) x.ctl (fun e =>
    let line (l : Nat) : Nat := e.addr x l / 64 * 64
    if e.lockedAny (fun _ => false) (e.act.flatMap fun l => [(l, line l), (l, line l + 32)]) then .hold e.m else
    .done ((e.ordered e.act).foldl (fun m l => e.prefetch1 x.hint m (e.addr x l)) e.m) e.lanes) s
/-- A line operation in each active thread, at addresses of ordinary ranges alone (R217). -/
def Env.lineOp (e : Env) (x : MemOp) (f : Mach → Nat → Mach) : Eff :=
  .done ((e.ordered e.act).foldl (fun m l =>
    match e.quietCheck m (e.addr x l) with
    | (m, some 0) => f m (e.addr x l)
    | (m, _) => m) e.m) e.lanes
def execCwb (x : MemOp) (s : State) : Host.Outcome State Fault Refusal :=
  perform (.cwb x) x.ctl (fun e => e.lineOp x fun m va => m.l1WriteBack e.core (lineKey e.asid va)) s
def execCinv (x : MemOp) (s : State) : Host.Outcome State Fault Refusal :=
  perform (.cinv x) x.ctl (fun e => e.lineOp x fun m va => m.l1Drop e.core (lineKey e.asid va)) s
/-- ICINV (R218), after every earlier write-back of the core (R217): loop buffers that are not in use are empty already (R265). -/
def execIcinv (x : MemOp) (s : State) : Host.Outcome State Fault Refusal :=
  perform (.icinv x) x.ctl (fun e => if !e.act.isEmpty && e.m.flushHeld e.core e.asid then .hold e.m else e.lineOp x fun m va =>
    let k := secKey e.asid (va / 64 * 64)
    (m.l1WriteBack e.core (lineKey e.asid va)).updCore e.core fun c => { c with icache := mdel (mdel c.icache k) (k + 1) }) s
def execPfence (x : ImmOp) (s : State) : Host.Outcome State Fault Refusal :=
  perform (.pfence x) x.ctl (fun e => e.once fun e => .done (e.m.pfenceCore e.core e.asid x.n) e.lanes) s
/-- AFENCE (R216) performs once for an entry, whatever the guards are in helpers. -/
def execAfence (x : PlainOp) (s : State) : Host.Outcome State Fault Refusal :=
  perform (.afence x) x.ctl (fun e => e.once fun e =>
    if e.m.flushHeld e.core e.asid then .hold e.m else .done (e.m.l1Purge e.core e.asid) e.lanes) s

/-! ## Consignments (R211 to R214) -/

/-- Open a consignment of a thread, replacing an aborted one. -/
def Mach.openTx (m : Mach) (gid wave lane : Nat) (asid : BitVec 16) (excl : Bool) : Mach :=
  let rest := m.consigns.filter fun c => !(c.gid == gid && c.wave == wave && c.lane == lane)
  { m with consigns := rest ++ [⟨gid, wave, lane, asid, [], [], excl, false, true⟩] }
/-- An exclusive consignment of the context is open or waited for (R214). -/
def Mach.exclusiveBusy (m : Mach) (asid : BitVec 16) : Bool :=
  m.consigns.any (fun c => c.exclusive && !c.aborted && c.asid == asid) || m.exclQ.any fun q => q.asid == asid
/-- TXBEG: a thread with 8 aborts in a row opens an exclusive consignment, or waits for it in FIFO order. -/
def execTxbeg (x : PlainOp) (s : State) : Host.Outcome State Fault Refusal :=
  perform (.txbeg x) x.ctl (fun e =>
    let r := (e.ordered e.act).foldl (fun (a : Mach × List Nat) l =>
      if (e.w.lane l).txAborts < 8 then (a.1.openTx e.iss.gid e.iss.wave l e.asid false, a.2)
      else if a.1.exclusiveBusy e.asid then
        ({ a.1 with exclQ := a.1.exclQ ++ [⟨e.iss.gid, e.iss.wave, l, e.asid, x.ctl⟩] }, a.2 ++ [l])
      else (a.1.openTx e.iss.gid e.iss.wave l e.asid true, a.2)) (e.m, [])
    let m := e.upd r.1 fun w => w.updLanes r.2 fun t => { t with wait := .exclusive }
    .done m (e.lanes.filter fun l => !r.2.contains l)) s
/-- Bytes buffered in one sector. -/
def Consign.inSector (c : Consign) (k : Nat) : List (Nat × Byte) :=
  c.buffer.filterMap fun p => if p.1 / 32 = k then some (p.1 % 32, p.2) else none
/-- Buffered bytes of a sector of an uncached or bank-op page take effect: a dword buffered whole is one write. -/
def Mach.commitUncached (m : Mach) (asid : BitVec 16) (k : Nat) (bs : List (Nat × Byte)) (who : Option (Nat × Nat × Nat)) : Mach :=
  (List.range 4).foldl (fun m w =>
    let mine := (List.range 8).filterMap fun i => bs.lookup (8 * w + i)
    if mine.length = 8 then m.uncachedPut asid (32 * k + 8 * w) mine who
    else (bs.filter fun p => p.1 / 8 == w).foldl (fun m p => m.uncachedPut asid (32 * k + p.1) [p.2] who) m) m
/-- The sectors that a consignment has written. -/
def Consign.written (c : Consign) : List Nat := (c.sectors.map (·.1)).filter fun k => !(c.inSector k).isEmpty
/-- A commit waits for earlier commands at a bank that it writes (R188). -/
def Mach.commitHeld (m : Mach) (c : Consign) : Bool :=
  !m.banks.isEmpty && c.written.any fun k => match (m.translate c.asid (32 * k)).2 with
    | some t => t.cls == 2 && m.bankBusy c.asid (32 * k) 32
    | none => false
/-- Commit a consignment that is no longer open: its buffered bytes take effect at once. What other threads of the core have stored
to its sectors since reaches the home slice after it (R196, R213). (log 88, DEDUCED) -/
def Env.commit (e : Env) (m : Mach) (c : Consign) : Mach :=
  let who := some (c.gid, c.wave, c.lane)
  let m := c.written.foldl (fun m k =>
    match m.translate e.asid (32 * k) with
    | (m, some t) =>
      if t.cls = 0 then (e.signs (m.llcWrite e.asid (32 * k) (c.inSector k) who) (32 * k)).l1DropSector e.core e.asid (32 * k)
      else m.commitUncached e.asid k (c.inSector k) who
    | (m, none) => m) m
  e.upd m fun w => w.updLane c.lane fun t => { t with txAborts := 0 }
/-- End the consignment of a thread: whether it committed. -/
def Env.endTx (e : Env) (m : Mach) (l : Nat) : Mach × Bool :=
  match m.consignOf e.iss.gid e.iss.wave l with
  | none => (m, false)
  | some c =>
    let m : Mach := { m with consigns := m.consigns.filter fun d => !(d.gid == c.gid && d.wave == c.wave && d.lane == c.lane) }
    (if c.aborted then m else e.commit m c, !c.aborted)
def execTxend (x : TxendOp) (s : State) : Host.Outcome State Fault Refusal :=
  perform (.txend x) x.ctl (fun e =>
    if e.act.any fun l => match e.m.openConsign e.iss.gid e.iss.wave l with
      | some c => e.m.commitHeld c
      | none => false then .hold e.m else
    .done ((e.ordered e.act).foldl (fun m l =>
      let (m, ok) := e.endTx m l
      match x.flag with
      | some k => e.upd m fun w => w.setCcAt e.clk 0 l k.toNat (zCc ok)
      | none => m) e.m) e.lanes) s
def execTxabt (x : ImmOp) (s : State) : Host.Outcome State Fault Refusal :=
  perform (.txabt x) x.ctl (fun e =>
    .done (e.act.foldl (fun m l => match m.openConsign e.iss.gid e.iss.wave l with
      | some c => m.abortConsign c 6 x.n.toNat
      | none => m) e.m) e.lanes) s

end Sys2Proof.Machine
end

