-- ==== Sys2Proof/Machine/Commands.lean ====
section
/-! DEFINITION. What the asynchronous commands of rows 0xB to 0xE share: gates and tokens (R279, R280), status words
(R279), the order they are checked in at issue, and the outcome of an event. -/

namespace Sys2Proof.Machine

/-! ## Events -/

/-- How a step of another agent ends. -/
inductive Ev where
  | ok (m : Mach)
  /-- the event cannot happen in this state -/
  | no
/-- What an event has asked for since `m₀` is charged to an allotment. The event waits where the allotment denies it: what is
left of it is the denial, once a clk (R344, R371). (log 42, DESIGN CHOICE) -/
def Ev.billed (r : Ev) (m₀ : Mach) (n : Nat) : Ev :=
  match r with
  | .ok m => (match m₀.bill m n with
    | some m => .ok m
    | none => if m₀.denials.contains (m₀.denial m n) then .no else .ok (m₀.denied m n))
  | .no => .no
/-- An event that cannot happen has no effect: the state notes that it was missed. (log 84, DESIGN CHOICE) -/
def State.miss (s : State) : State := { s with missed := true }
/-- An event of the machine proper. -/
def event (f : Mach → Ev) (s : State) : Host.Outcome State Fault Refusal :=
  match f s.mach with
  | .ok m => .next { s with mach := m }
  | .no => .next s.miss

/-! ## Gates and tokens -/

/-- The gate of a command: none when F names no live binding; a phase that has completed already is no wait (R280). -/
def Env.gateOf (e : Env) (x : AsyncOp) : Option (Option Gate) :=
  if !x.gate then some none else
  let off := (e.get e.first x.f).toNat
  if (e.g.binding off).isSome
  then some (some ⟨off, x.gpar, false, e.m.gateOpen e.iss.gid (some ⟨off, x.gpar, false, false⟩)⟩) else none
/-- The token is pending already (R279). -/
def Env.tokBusy (e : Env) (o : Opnd) : Bool := e.w.toks.contains o.idx.toNat
/-- A status word: fault code in [7:0], index in [31:8] (R279). -/
def statusOf (code index : Nat) : Word := BitVec.ofNat 32 (code % 256 + index % 2 ^ 24 * 256)
/-- A token that is written at its issue. -/
def Env.tokNow (e : Env) (m : Mach) (tok : Nat) (status : Word) : Mach := m.putToken e.iss.gid e.iss.wave tok status
/-- A precise trap that names every active thread (R33). -/
def Env.failAll (e : Env) (code info addr : Nat) : Eff := .trap e.m e.named code info (BitVec.ofNat 64 addr)

/-- Write back the dirty L1 bytes of a memory range on a core (R291). -/
def Mach.l1FlushRange (m : Mach) (core : Nat) (asid : BitVec 16) (va n : Nat) : Mach :=
  ((m.core core).l1Keys asid).foldl (fun m k =>
    let a := k % 2 ^ 42 * 64
    if va < a + 64 ∧ a < va + n then m.l1WriteBack core k else m) m
/-- Write back and invalidate the L1 lines of a memory range on a core (R291). -/
def Mach.l1DropRange (m : Mach) (core : Nat) (asid : BitVec 16) (va n : Nat) : Mach :=
  ((m.core core).l1Keys asid).foldl (fun m k =>
    let a := k % 2 ^ 42 * 64
    if va < a + 64 ∧ a < va + n then m.l1Drop core k else m) m
/-- A group's writes of a memory range set its sectors' bits in G (R185). -/
def Mach.signRange (m : Mach) (gid va n : Nat) : Mach :=
  let sigs := (List.range ((va + n + 31) / 32 - va / 32)).map fun i => sectorSig ((va / 32 + i) * 32)
  m.updGroup gid fun g => { g with sig := sigs.foldl (· ||| ·) g.sig }
/-- A command of a group has written a memory sector: its bits are set in G (R185, R291), and what the group's core still
holds of it goes, so that a read after the command's edge finds the write (R190, R194). -/
def Mach.cmdWrote (m : Mach) (gid : Nat) (asid : BitVec 16) (va n : Nat) : Mach :=
  match m.group gid with
  | some g => ((List.range ((va + n + 31) / 32 - va / 32)).foldl (fun m i => m.l1Forget g.core asid ((va / 32 + i) * 32)) m).signRange gid va n
  | none => m

end Sys2Proof.Machine
end

