-- ==== Sys2Proof/Machine/Scalar.lean ====
section
/-! DEFINITION. Scalar floating operations in any format (R140, R141, R143 to R148): each gives a pattern and the
exceptions it raises. -/

namespace Sys2Proof.Machine

/-! ## Operands and results (R140, R141) -/

/-- ABS, then NEG: operations on the sign bit. -/
def FFmt.prep (f : FFmt) (abs neg : Bool) (x : Nat) : Nat :=
  let s := 2 ^ (f.eb + f.mb)
  let x := if abs then x % s else x
  if neg then (if x < s then x + s else x - s) else x
/-- The clamp to [0, 1]: NaN, −0 and values below 0 become +0, values above 1 become 1. -/
def FFmt.clamp01 (f : FFmt) (x : Nat) : Nat :=
  let one := f.bias * 2 ^ f.mb
  match f.val x with
  | .nan => 0
  | v => if v.sgn then 0 else if one < x then one else x
/-- A result after SAT. -/
def Rounded.sat (r : Rounded) (f : FFmt) (sat : Bool) : Rounded := if sat then { r with bits := f.clamp01 r.bits } else r
/-- The condition code of a comparison (R114, R145). -/
def cmpCc (a b : FV) : BitVec 5 :=
  match a.cmp b with
  | none => mkCc true false false false true
  | some d => mkCc true (decide (d < 0)) (d == 0) (decide (0 < d)) false
/-- The condition code of a result compared with +0 (R141). -/
def FFmt.cc0 (f : FFmt) (x : Nat) : BitVec 5 := cmpCc (f.val x) (.fin false 0 0)

/-! ## Arithmetic (R143, R144) -/

/-- round(a + b) of exact values. -/
def fAddV (f : FFmt) (rm : Rm) (l : List FV) : Rounded :=
  match exactSum rm l with
  | (v, true) => ⟨(v.round f rm).bits, flIV⟩
  | (v, false) => v.round f rm
def fAdd (f : FFmt) (rm : Rm) (a b : Nat) : Rounded := fAddV f rm [f.val a, f.val b]
def fSub (f : FFmt) (rm : Rm) (a b : Nat) : Rounded := fAddV f rm [f.val a, (f.val b).neg]
def fMul (f : FFmt) (rm : Rm) (a b : Nat) : Rounded :=
  match (f.val a).mul (f.val b) with
  | (_, true) => ⟨f.nan, flIV⟩
  | (v, false) => v.round f rm
/-- A sum of exact products and one more addend, rounded once to a format (R143, R150). -/
def fDot (f : FFmt) (rm : Rm) (ps : List (FV × FV)) (c : FV) : Rounded :=
  if ps.any fun p => (p.1.mul p.2).2 then ⟨f.nan, flIV⟩
  else fAddV f rm (ps.map (fun p => (p.1.mul p.2).1) ++ [c])
def fFma (f : FFmt) (rm : Rm) (a b c : Nat) : Rounded := fDot f rm [(f.val a, f.val b)] (f.val c)
/-- FMIN and FMAX: −0 is below +0; a single NaN gives the other operand. -/
def fMinMax (f : FFmt) (max : Bool) (a b : Nat) : Rounded :=
  let r := match (f.val a).cmp (f.val b) with
    | none => if (f.val a).isNan then (if (f.val b).isNan then f.nan else b) else a
    | some d =>
      let aLess := if d = 0 then (f.val a).sgn else decide (d < 0)
      if aLess != max then a else b
  ⟨r, 0⟩

/-! ## Rounding to integers and scaling (R146) -/

/-- Round m × 2^e to an integral magnitude, and whether that was inexact. -/
def roundMag (rm : Rm) (neg : Bool) (m : Nat) (e : Int) : Nat × Bool :=
  let (n, d) := ratOf m e
  let q := n / d
  (if roundUp rm neg q (n % d) d then q + 1 else q, n % d != 0)
/-- FRND: integral values keep their sign and raise nothing. -/
def fRnd (f : FFmt) (rm : Rm) (a : Nat) : Rounded :=
  match f.val a with
  | .nan => ⟨f.nan, 0⟩
  | .inf _ => ⟨a, 0⟩
  | .fin s m e => ⟨(roundRat f .rz s (roundMag rm s m e).1 1).bits, 0⟩
/-- FSCL: a × 2^n. Beyond ±600 every nonzero finite operand overflows or is tiny alike. -/
def fScl (f : FFmt) (rm : Rm) (a : Nat) (n : Int) : Rounded :=
  match f.val a with
  | .fin s m e => (FV.fin s m (e + max (-600) (min 600 n))).round f rm
  | v => v.round f rm
/-- FCLS: the class as one bit (R147). -/
def fCls (f : FFmt) (a : Nat) : Nat :=
  match f.val a with
  | .nan => 2 ^ 8
  | .inf s => if s then 1 else 2 ^ 7
  | .fin s m _ =>
    if m = 0 then (if s then 2 ^ 3 else 2 ^ 4)
    else if a % 2 ^ (f.eb + f.mb) < 2 ^ f.mb then (if s then 2 ^ 2 else 2 ^ 5)
    else (if s then 2 ^ 1 else 2 ^ 6)

/-! ## FSPEC (R148) -/

/-- Square root of n / d × 2^(−2k), as a rational over 2^(k+1): the floor in units of one half, the odd half marking
a remainder. -/
def rootRat (n d k : Nat) : Nat × Nat :=
  let q := n * 2 ^ (2 * k) / d
  let s := Nat.sqrt q
  (2 * s + (if s * s = q ∧ n * 2 ^ (2 * k) % d = 0 then 0 else 1), 2 ^ (k + 1))
/-- Bits of the fixed-point work below. -/
def fxBits : Nat := 384
def fxOne : Nat := 2 ^ fxBits
/-- Sum of z^(2k+1) / (2k+1), signs alternating when `alt`: `t` is the present power, `z2` the square of z. -/
def oddSeries (alt : Bool) (z2 : Nat) : Nat → Nat → Nat → Int
  | 0, _, _ => 0
  | n + 1, k, t =>
    let r := oddSeries alt z2 n (k + 1) (t * z2 / fxOne)
    (t / (2 * k + 1) : Nat) + (if alt then -r else r)
/-- Sum of x^k / k! by steps of `j` factors: j = 1 for exp, j = 2 with alternating signs for sine and cosine. -/
def expSeries : Nat → Nat → Nat → Nat → Int
  | 0, _, _, _ => 0
  | n + 1, k, x, t => (t : Int) + expSeries n (k + 1) x (t * x / fxOne / (k + 1))
def trigSeries : Nat → Nat → Nat → Nat → Int
  | 0, _, _, _ => 0
  | n + 1, k, x2, t => (t : Int) - trigSeries n (k + 2) x2 (t * x2 / fxOne / ((k + 1) * (k + 2)))
/-- ln 2 and 2π in fixed point. -/
def fxLn2 : Nat := (2 * oddSeries false (fxOne / 9) 130 0 (fxOne / 3)).toNat
def fxTau : Nat :=
  (2 * (16 * oddSeries true (fxOne / 25) 95 0 (fxOne / 5) - 4 * oddSeries true (fxOne / 57121) 35 0 (fxOne / 239))).toNat
/-- Error bound of the work, in units of its last bit. (log 15, DESIGN CHOICE) -/
def fxErr : Nat := 2 ^ 40
/-- Round a value known to within the error bound, x × 2^e / 2^fxBits; where the two ends round differently the
result is not decided here (log 15, DESIGN CHOICE). -/
def roundNear (f : FFmt) (rm : Rm) (neg : Bool) (x : Nat) (e : Int) (dflt : Rounded) : Rounded :=
  let r (y : Nat) : Rounded := let (n, d) := ratOf y (e - fxBits); roundRat f rm neg n d
  let lo := r (x - fxErr)
  let hi := r (x + fxErr)
  if lo.bits = hi.bits ∧ fxErr < x then ⟨lo.bits, lo.fl ||| flNX⟩ else dflt

/-- 2^a. -/
def fExp2 (f : FFmt) (rm : Rm) (neg : Bool) (m : Nat) (e : Int) (dflt : Rounded) : Rounded :=
  let (n, d) := ratOf m e
  let a : Int := if neg then -(n : Int) else n
  let q := a / d
  let rem := (a % d).toNat
  if 300 ≤ q then roundRat f rm false (2 ^ 300) 1
  else if q < -300 then roundRat f rm false 1 (2 ^ 300)
  else if rem = 0 then (FV.fin false 1 q).round f rm
  else roundNear f rm false (expSeries 90 0 (rem * fxLn2 / d) fxOne).toNat q dflt
/-- log2 of m × 2^e, m nonzero. -/
def fLog2 (f : FFmt) (rm : Rm) (m : Nat) (e : Int) (dflt : Rounded) : Rounded :=
  let k := Nat.log2 m
  let q : Int := k + e
  if m = 2 ^ k then roundRat f rm (decide (q < 0)) q.natAbs 1
  else
    let z := (m - 2 ^ k) * fxOne / (m + 2 ^ k)
    let ln := (2 * oddSeries false (z * z / fxOne) 130 0 z).toNat
    let v : Int := q * fxOne + (ln * fxOne / fxLn2 : Nat)
    roundNear f rm (decide (v < 0)) v.natAbs 0 dflt
/-- The sine (or cosine) of a fraction n / d of a turn, not a multiple of a quarter: sign and magnitude. -/
def fxSin (cos : Bool) (n d : Nat) : Bool × Nat :=
  -- the turn as 4n/d quarters: q whole quarters and a rest
  let n := if cos then (4 * n + d) % (4 * d) else 4 * n % (4 * d)
  let q := n / d
  let r := if q % 2 = 1 then d - n % d else n % d
  let x := r * fxTau / (4 * d)
  (decide (2 ≤ q), (trigSeries 90 1 (x * x / fxOne) x).toNat)
/-- sin(2πa) or cos(2πa). -/
def fSinCos (f : FFmt) (rm : Rm) (cos neg : Bool) (m : Nat) (e : Int) (dflt : Rounded) : Rounded :=
  let (n, d) := ratOf m e
  let r := 4 * n % (4 * d)
  if r % d = 0 then
    -- a multiple of a quarter turn; sine is odd
    let q := if cos then (r / d + 1) % 4 else r / d
    let small := decide (n < d)
    if q % 2 = 0 then ⟨f.sign (!cos && neg && small), 0⟩
    else ⟨f.bias * 2 ^ f.mb + f.sign ((q == 3) != (!cos && neg)), 0⟩
  else
    let (s, x) := fxSin cos n d
    roundNear f rm (s != (!cos && neg)) x 0 dflt
/-- FSPEC by function number. (log 15, DESIGN CHOICE) -/
def fSpec (fn : Nat) (rm : Rm) (a : Word) : Rounded :=
  let f := fp32
  let pat := (Config.specResult fn a (match rm with | .rn => 0 | .rz => 1 | .ru => 2 | .rd => 3 | .rna => 4)).toNat
  let dflt : Rounded := ⟨pat, flNX⟩
  let inf (s : Bool) : Nat := f.infBits + f.sign s
  match f32 a, fn with
  | .nan, _ => ⟨f.nan, 0⟩
  | .inf s, 0 => ⟨f.sign s, 0⟩
  | .fin s m e, 0 =>
    if m = 0 then ⟨inf s, flDZ⟩
    else (let (n, d) := ratOf m e; roundRat f rm s d n)
  | .inf s, 1 => if s then ⟨f.nan, flIV⟩ else ⟨0, 0⟩
  | .fin s m e, 1 =>
    if m = 0 then ⟨inf s, flDZ⟩ else if s then ⟨f.nan, flIV⟩
    else (let (n, d) := ratOf m e; let (n, d) := rootRat d n 120; roundRat f rm false n d)
  | .inf s, 2 => if s then ⟨f.nan, flIV⟩ else ⟨inf false, 0⟩
  | .fin s m e, 2 =>
    if m = 0 then ⟨f.sign s, 0⟩ else if s then ⟨f.nan, flIV⟩
    else (let (n, d) := ratOf m e; let (n, d) := rootRat n d 120; roundRat f rm false n d)
  | .inf s, 3 => ⟨if s then 0 else inf false, 0⟩
  | .fin s m e, 3 => fExp2 f rm s m e dflt
  | .inf s, 4 => if s then ⟨f.nan, flIV⟩ else ⟨inf false, 0⟩
  | .fin s m e, 4 =>
    if m = 0 then ⟨inf true, flDZ⟩ else if s then ⟨f.nan, flIV⟩ else fLog2 f rm m e dflt
  | .inf _, _ => ⟨f.nan, flIV⟩
  | .fin s m e, 5 => fSinCos f rm false s m e dflt
  | .fin s m e, _ => fSinCos f rm true s m e dflt

end Sys2Proof.Machine
end

