-- ==== Sys2Proof/Machine/Bank.lean ====
section
/-! DEFINITION. Row 0xB, the memory-side commands (R219 to R223), and BANK_COMMAND_COMPLETION. -/

namespace Sys2Proof.Machine

/-! ## Issue -/

/-- One base address of a command: the lane, its address, the access, its alignment, and the class it must lie in. -/
structure BankBase where
  lane : Nat
  va : Nat
  acc : Acc
  align : Nat
  cls : Nat
/-- The fault of a memory-side access: on a generator-backed page it is BANKOP_RANGE, as on any page of another class (R174). -/
def bankCode (code : Nat) : Nat := if code = Code.genWrite then Code.bankopRange else code
/-- The check of one base address (R175): a page of another class raises BANKOP_RANGE (R174). -/
def Env.bankChk (e : Env) (b : BankBase) : Nat × Chk :=
  (b.lane, match e.m.check e.core e.asid e.system b.acc 0 b.va b.align with
    | .ok c => if c = b.cls then .ok c else .bad 4 Code.bankopRange b.va
    | .bad k code va => if code = Code.genWrite then .bad 4 Code.bankopRange va else .bad k code va
    | x => x)
/-- Check every base address; then go on. A single command names every active thread (R33). -/
def Env.bankIssue (e : Env) (single : Bool) (bases : List BankBase) (k : Mach → Eff) : Eff :=
  match e.judge (fun _ => false) (bases.map e.bankChk) with
  | .walk va => e.waits e.m (.walk va)
  | .trap ls code addr => e.accessTrap e.m (if single then e.named else ls) code 0 addr
  | .ok _ _ => k (e.m.usedWalks e.core e.asid)
/-- Queue a command: its token, and the registers it will write, are pending (R220). -/
def Env.bankPush (e : Env) (m : Mach) (op : BankOp) (tok : Nat) (gate : Option Gate) (regs : List RKey) : Eff :=
  let m := e.upd m fun w =>
    let w := w.takeToken tok
    { w with pend := w.pend ++ regs, cmdPend := w.cmdPend ++ regs }
  .done { m with banks := m.banks ++ [⟨m.nextId, e.iss.gid, e.iss.wave, op, tok, gate, e.system⟩], nextId := m.nextId + 1 } e.lanes
/-- The gate and the token, and then the command. A gate that is open already holds nothing. -/
def Env.bankGo (e : Env) (x : AsyncOp) (k : Nat → Option Gate → Eff) : Eff :=
  match e.gateOf x with
  | none => e.failAll Code.illegalOperand 0 0
  | some gate =>
    let gate := gate.map fun q => { q with passed := e.m.gateOpen e.iss.gid (some q) }
    let tok := x.compl.idx.toNat
    if e.tokBusy x.compl then e.failAll Code.tokenReuse tok 0 else k tok gate
/-- MRED or MCAS has no V or K operand beside COMPL: a single command (R219). -/
def singleForm (i : Instr) : Bool := (uses i).all fun u => u.tok || u.o.cls == .w
/-- Threads that a form performs for. -/
def Env.bankLanes (e : Env) (single : Bool) : List Nat :=
  if single then [e.first] else e.g.task.byThread e.w.index (·) e.act
def execMred (x : AsyncOp) (s : State) : Host.Outcome State Fault Refusal :=
  perform (.mred x) x.ctl (fun e => e.once fun e =>
    let single := singleForm (.mred x)
    let ls := e.bankLanes single
    let va (l : Nat) : Nat := (e.getPair l x.a).toNat
    e.bankIssue single (ls.map fun l => ⟨l, va l, .store, x.size.bytes, 2⟩) fun m =>
      e.bankGo x fun tok gate =>
        e.bankPush m (.mred x.op x.sgn (x.size == .b64) (ls.map fun l => (l, va l, e.getSrc l x.b x.size.regs))) tok gate []) s
def execMcas (x : AsyncOp) (s : State) : Host.Outcome State Fault Refusal :=
  perform (.mcas x) x.ctl (fun e => e.once fun e =>
    let single := singleForm (.mcas x)
    let ls := e.bankLanes single
    let va (l : Nat) : Nat := (e.getPair l x.a).toNat
    let n := x.size.regs
    e.bankIssue single (ls.map fun l => ⟨l, va l, .store, x.size.bytes, 2⟩) fun m =>
      e.bankGo x fun tok gate =>
        e.bankPush m (.mcas (x.size == .b64) x.d (ls.map fun l => (l, va l, e.getSrc l x.b n, e.getN l x.e n))) tok gate
          (ls.flatMap fun l => (List.range n).map fun i => x.d.key l i)) s
/-- The counted commands: a count of 0 completes at once, one above 2^24 with ILLEGAL_OPERAND (R223). -/
def Env.bankCount (e : Env) (x : AsyncOp) (n : Nat) (m : Mach) (op : BankOp) (prep : Mach → Mach) : Eff :=
  e.bankGo x fun tok gate =>
    if n = 0 then .done (e.tokNow m tok 0) e.lanes
    else if 2 ^ 24 < n then .done (e.tokNow m tok (statusOf Code.illegalOperand 0)) e.lanes
    else e.bankPush (prep m) op tok gate []
def execMsac (x : AsyncOp) (s : State) : Host.Outcome State Fault Refusal :=
  perform (.msac x) x.ctl (fun e => e.once fun e =>
    let l := e.first
    let y := (e.getPair l x.a).toNat
    let z := (e.getPair l x.e).toNat
    e.bankIssue true [⟨l, y, .store, 4, 2⟩, ⟨l, z, .load, 4, 2⟩] fun m =>
      let n := (e.get l x.f).toNat
      e.bankCount x n m (.msac y z n (e.getSrc32 l x.b)) fun m => m) s
/-- GATHM and SCATM (R222): the packed buffer lies in an ordinary range; the core's own copies of it are written back
at issue, and dropped where the command writes it, as for a Porter copy (log 19, DEDUCED). -/
def Env.listBody (e : Env) (x : AsyncOp) (gather : Bool) : Eff :=
  let l := e.first
  let tbl := (e.getPair l x.a).toNat
  let buf := (e.getSrc l x.b 2).toNat
  let idx := (e.getPair l x.e).toNat
  let lg := x.imm8b.toNat
  e.bankIssue true [⟨l, tbl, if gather then .load else .store, 2 ^ lg, 2⟩,
      ⟨l, buf, if gather then .store else .load, 2 ^ lg, 0⟩, ⟨l, idx, .load, 4, 2⟩] fun m =>
    let n := (e.get l x.f).toNat
    e.bankCount x n m (if gather then .gathm tbl buf idx n lg else .scatm tbl buf idx n lg) fun m =>
      if gather then m.l1DropRange e.core e.asid buf (n * 2 ^ lg) else m.l1FlushRange e.core e.asid buf (n * 2 ^ lg)
def execGathm (x : AsyncOp) (s : State) : Host.Outcome State Fault Refusal :=
  perform (.gathm x) x.ctl (fun e => e.once fun e => e.listBody x true) s
def execScatm (x : AsyncOp) (s : State) : Host.Outcome State Fault Refusal :=
  perform (.scatm x) x.ctl (fun e => e.once fun e => e.listBody x false) s

/-! ## Completion (R223) -/

/-- How far a command has come: the machine, the first failure (code, index), whether a locked sector holds it. -/
structure BankRun where
  m : Mach
  fail : Option (Nat × Nat)
  held : Bool
/-- Read a bank word or element of n bytes: a page of another class is a BANKOP_RANGE fault. -/
def Mach.bankSide (m : Mach) (asid : BitVec 16) (sys : Bool) (acc : Acc) (va n : Nat) : Mach × (List Byte ⊕ Nat) :=
  match m.checkNow asid sys acc 0 va n with
  | (m, .ok 2) =>
    (match m.bankRead asid va n with
    | .ok m bs => (m, .inl bs)
    | .bad m code _ => (m, .inr code)
    | .grove m _ => (m, .inr Code.bankopRange)
    | .again m => (m, .inr Code.bankopRange))
  | (m, .ok _) => (m, .inr Code.bankopRange)
  | (m, .bad _ code _) => (m, .inr (bankCode code))
  | (m, .walk _) => (m, .inr Code.page)
/-- Write at a bank. -/
def Mach.bankPut (m : Mach) (asid : BitVec 16) (va : Nat) (bs : List Byte) : Mach :=
  match m.bankWrite asid va bs with
  | .ok m _ => m
  | .bad m _ _ => m
  | .grove m _ => m
  | .again m => m
/-- One entry of a command on what the entries before it left: a failure ends it, a locked sector holds it. -/
def BankRun.step (r : BankRun) (asid : BitVec 16) (range : Nat × Nat) (i : Nat) (f : Mach → Mach × Option Nat) : BankRun :=
  if r.fail.isSome || r.held then r
  else if r.m.lockedRange asid range.1 range.2 then { r with held := true }
  else match f r.m with
    | (m, none) => { r with m := m }
    | (m, some code) => { r with m := m, fail := some (code, i) }
/-- One thread's word of MRED or MCAS: the old value, or the fault code (R220). -/
def Mach.bankWordOp (m : Mach) (g : Group) (va n : Nat) (new : DWord → DWord) : Mach × (DWord ⊕ Nat) :=
  match m.bankSide g.asid g.system .store va n with
  | (m, .inl bs) =>
    let o := BitVec.ofNat 64 (leNat bs)
    (m.bankPut g.asid va (leBytes n (new o).toNat), .inl o)
  | (m, .inr code) => (m, .inr code)
/-- What the per-thread commands leave: the machine, old values by lane, the lowest failing thread. -/
structure WordRun where
  m : Mach
  olds : List (Nat × DWord)
  fail : Option (Nat × Nat)
/-- The commands of threads, each a step of its own at its bank. -/
def Mach.bankWords (m : Mach) (g : Group) (n : Nat) (items : List (Nat × Nat × (DWord → DWord))) : WordRun :=
  items.foldl (fun r p =>
    match r.m.bankWordOp g p.2.1 n p.2.2 with
    | (m, .inl o) => { r with m := m, olds := r.olds ++ [(p.1, o)] }
    | (m, .inr code) => { r with m := m, fail := r.fail.or (some (code, p.1)) }) ⟨m, [], none⟩
/-- Ranges of 4-byte elements overlap at an address. -/
def inWords (base n a : Nat) : Bool := decide (base < a + 4 ∧ a < base + 4 * n)
/-- MSAC's element i (R221): free where the ranges overlap. -/
def Mach.msacStep (m : Mach) (g : Group) (y x n : Nat) (b : Word) (i : Nat) : Mach × Option Nat :=
  match m.bankSide g.asid g.system .store (y + 4 * i) 4 with
  | (m, .inr code) => (m, some code)
  | (m, .inl yb) =>
    match m.bankSide g.asid g.system .load (x + 4 * i) 4 with
    | (m, .inr code) => (m, some code)
    | (m, .inl xb) =>
      let r := fFma fp32 .rn b.toNat (leNat yb) (leNat xb)
      if inWords x n (y + 4 * i) || inWords y n (x + 4 * i) then
        let (v, m) := m.free
        (m.bankPut g.asid (y + 4 * i) (leBytes 4 v.toNat), none)
      else (m.bankPut g.asid (y + 4 * i) (leBytes 4 r.bits), none)
/-- Entry j of GATHM or SCATM (R222). -/
def Mach.listStep (m : Mach) (g : Group) (gather : Bool) (tbl buf idx lg j : Nat) : Mach × Option Nat :=
  let n := 2 ^ lg
  match m.bankSide g.asid g.system .load (idx + 4 * j) 4 with
  | (m, .inr code) => (m, some code)
  | (m, .inl ib) =>
    let va := (tbl + leNat ib * n) % 2 ^ 64
    let at' := buf + j * n
    if gather then
      match m.bankSide g.asid g.system .load va n with
      | (m, .inr code) => (m, some code)
      | (m, .inl bs) =>
        match m.checkNow g.asid g.system .store 0 at' n with
        | (m, .ok 0) => ((m.llcWriteRun g.asid at' bs none).cmdWrote g.gid g.asid at' n, none)
        | (m, .ok _) => (m, some Code.bankopRange)
        | (m, .bad _ code _) => (m, some (bankCode code))
        | (m, .walk _) => (m, some Code.page)
    else
      match m.checkNow g.asid g.system .load 0 at' n with
      | (m, .ok 0) =>
        (match m.agentReadRun g.asid g.system 0 at' n with
        | .ok m bs =>
          (match m.bankSide g.asid g.system .store va n with
          | (m, .inl _) => (m.bankPut g.asid va bs, none)
          | (m, .inr code) =>
            -- the element is overwritten whole, so a poisoned word under it is no fault (R376)
            if code = Code.dataUncorrectable then (m.bankPut g.asid va bs, none) else (m, some code))
        | .bad m code _ => (m, some code)
        | .grove m _ => (m, some Code.bankopRange)
        | .again m => (m, some Code.bankopRange))
      | (m, .ok _) => (m, some Code.bankopRange)
      | (m, .bad _ code _) => (m, some (bankCode code))
      | (m, .walk _) => (m, some Code.page)
/-- The ranges entry j of GATHM or SCATM touches are not locked, as far as its index can be read. -/
def Mach.listHeld (m : Mach) (g : Group) (tbl buf idx lg j : Nat) : Bool :=
  !m.consigns.isEmpty &&
  (m.lockedRange g.asid (buf + j * 2 ^ lg) (2 ^ lg) || m.lockedRange g.asid (idx + 4 * j) 4 ||
    match m.bankSide g.asid g.system .load (idx + 4 * j) 4 with
    | (_, .inl ib) => m.lockedRange g.asid (tbl + leNat ib * 2 ^ lg) (2 ^ lg)
    | _ => false)
/-- Perform a command: the machine, the registers it writes and its status; none while a locked sector holds it. -/
def Mach.bankRun (m : Mach) (g : Group) : BankOp → Option (Mach × List (RKey × Word) × Word)
  | .mred op sgn w64 items =>
    let n := if w64 then 8 else 4
    if items.any fun p => m.lockedRange g.asid p.2.1 n then none else
    let r := m.bankWords g n (items.map fun p => (p.1, p.2.1, fun o => atomNew op sgn (8 * n) o p.2.2 0))
    some (r.m, [], match r.fail with | some (c, l) => statusOf c l | none => 0)
  | .mcas w64 dst items =>
    let n := if w64 then 8 else 4
    if items.any fun p => m.lockedRange g.asid p.2.1 n then none else
    let r := m.bankWords g n (items.map fun p => (p.1, p.2.1, fun o => atomNew .cas false (8 * n) o p.2.2.1 p.2.2.2))
    -- where threads share a destination, the lowest one's value stays (R72)
    some (r.m, r.olds.reverse.flatMap fun p => wordWrites dst p.1 (wordsOf (if w64 then .b64 else .b32) false (leBytes n p.2.toNat)),
      match r.fail with | some (c, l) => statusOf c l | none => 0)
  | .msac y x n b =>
    let r := (List.range n).foldl (fun (r : BankRun) i =>
      let r := if r.m.lockedRange g.asid (x + 4 * i) 4 then { r with held := true } else r
      r.step g.asid (y + 4 * i, 4) i fun m => m.msacStep g y x n b i) ⟨m, none, false⟩
    if r.held then none else some (r.m, [], match r.fail with | some (c, i) => statusOf c i | none => 0)
  | .gathm tbl buf idx n lg =>
    let r := (List.range n).foldl (fun (r : BankRun) j =>
      let r := if r.m.listHeld g tbl buf idx lg j then { r with held := true } else r
      r.step g.asid (buf + j * 2 ^ lg, 2 ^ lg) j fun m => m.listStep g true tbl buf idx lg j) ⟨m, none, false⟩
    if r.held then none else some (r.m, [], match r.fail with | some (c, i) => statusOf c i | none => 0)
  | .scatm tbl buf idx n lg =>
    let r := (List.range n).foldl (fun (r : BankRun) j =>
      let r := if r.m.listHeld g tbl buf idx lg j then { r with held := true } else r
      r.step g.asid (buf + j * 2 ^ lg, 2 ^ lg) j fun m => m.listStep g false tbl buf idx lg j) ⟨m, none, false⟩
    if r.held then none else some (r.m, [], match r.fail with | some (c, i) => statusOf c i | none => 0)
/-- Registers that a command wrote are no longer pending. -/
def Wave.arrives (w : Wave) (clk : Nat) (ws : List (RKey × Word)) (keys : List RKey) : Wave :=
  let w := ws.foldl (fun w p => ((w.putNow p.1 p.2).mark (w.live.headD 0) p.1).wake clk p.1) w
  { w with pend := w.pend.filter fun k => !keys.contains k, cmdPend := w.cmdPend.filter fun k => !keys.contains k }
/-- Every register a command was to write. -/
def BankOp.regs : BankOp → List RKey
  | .mcas w64 dst items => items.flatMap fun p => (List.range (if w64 then 2 else 1)).map fun i => dst.key p.1 i
  | _ => []
/-- BANK_COMMAND_COMPLETION (R220 to R223): the command performs, its registers and then its token are written. A gate
whose binding was released makes the status BARRIER_COUNT where no fault stands (R280). -/
def Mach.bankComplete (m : Mach) (n : Nat) : Ev :=
  match m.banks.find? (fun b => b.id == n) with
  | none => .no
  | some b =>
    match m.group b.gid with
    | none => .no
    | some g =>
      -- commands that arrived earlier at one of its banks come first (R188)
      let first := m.banks.takeWhile fun c => c.id != n
      if !m.bankArrived b || first.any (fun c => m.bankArrived c && (b.op.listed || b.op.ranges.any fun r => m.bankMeets c g.asid r.1 r.2))
        then .no else
      Ev.billed (n := g.task.allot.toNat) (m₀ := m) <| match m.bankRun { g with system := b.system } b.op with
      | none => .no
      | some (m, ws, status) =>
        let lost := match b.gate with | some q => q.gone | none => false
        let status := if status == 0 && lost then statusOf Code.barrierCount 0 else status
        let m := { m with banks := m.banks.filter fun c => c.id != n }.updWave b.gid b.wave
          fun w => w.arrives m.clk ws b.op.regs
        .ok ((m.putToken b.gid b.wave b.tok status).endWave b.gid b.wave)
/-- BANK_COMMAND_COMPLETION (R223): a command is one step. (log 18, DESIGN CHOICE; log 35, DEDUCED) -/
def execBankCommandCompletion (n : Nat) (s : State) : Host.Outcome State Fault Refusal :=
  event (fun m => m.bankComplete n) s

end Sys2Proof.Machine
end

