-- ==== Sys2Proof/Machine/Barriers.lean ====
section
/-! DEFINITION. Row 0x1, barriers (R328 to R339). -/

namespace Sys2Proof.Machine

/-! ## Named barriers -/

/-- The slot an arrival counts in: the barrier's own, or a free one taken now (R328). -/
def Group.takeBar (g : Group) (id : BitVec 6) : Option (Group × Nat) :=
  match g.barSlot id with
  | some k => some (g, k)
  | none => g.freeBar.map fun k => (g.updSlot k fun _ => { BarSlot.free with kind := .named id }, k)
/-- What BARA and BARAW share (R330): the checks, the arrivals, and the group after them. -/
inductive Arrived where
  | ok (g : Group) (slot : Nat)
  | bad (code : Nat)
def Env.arrivals (e : Env) (x : BarOp) : Arrived :=
  match e.g.takeBar x.id with
  | none => .bad Code.illegalOperand
  | some (g, k) =>
    let count (l : Nat) : Nat := (e.getSrc32 l x.count).toNat
    let n := count e.first
    let fixed := (g.slot k).expected
    let ok := x.id == 0 || ((x.wave || e.act.all fun l => count l == n) && decide (1 ≤ n ∧ n ≤ 1024) && (fixed == 0 || fixed == n))
    if !ok then .bad Code.barrierCount
    else .ok (g.arrive x.id k n e.iss.wave (if x.wave then e.w.live else e.act)) k
def execBara (x : BarOp) (s : State) : Host.Outcome State Fault Refusal :=
  perform (.bara x) x.ctl (fun e => e.once fun e =>
    match e.arrivals x with
    | .bad code => .trap e.m e.act code 0 0
    | .ok g _ => .done (e.updG e.m fun _ => g) e.lanes) s
/-- BARAW (R332): threads of the entry whose arrival counted into an open phase park until it completes. -/
def execBaraw (x : BarOp) (s : State) : Host.Outcome State Fault Refusal :=
  perform (.baraw x) x.ctl (fun e => e.once fun e =>
    match e.arrivals x with
    | .bad code => .trap e.m e.act code 0 0
    | .ok g k =>
      let p := (g.slot k).phase
      let parks (w : Wave) : List Nat := e.act.filter fun l => (w.lane l).arrival == some (x.id, p)
      let m := e.updG e.m fun _ => g
      let m := if (parks (e.wIn m)).isEmpty then m else e.countPark m
      .done (e.upd m fun w => w.updLanes (parks w) fun t => { t with wait := .bar x.id p false }) e.lanes) s
/-- BARW (R332): wait for the phase of the arrival record, and clear it. -/
def execBarw (x : PlainOp) (s : State) : Host.Outcome State Fault Refusal :=
  perform (.barw x) x.ctl (fun e =>
    let wait (t : Lane) : Wait := match t.arrival with
      | some (id, p) => (match e.g.barSlot id with
        | some k => if (e.g.slot k).phase = p then .bar id p true else .none
        | none => .none)
      | none => .none
    let m := if e.act.any fun l => wait (e.w.lane l) != .none then e.countPark e.m else e.m
    .done (e.upd m fun w => w.updLanes e.act fun t =>
      if wait t == .none then { t with arrival := none } else { t with wait := wait t }) e.lanes) s

/-! ## Transaction barriers -/

/-- TBINIT (R334). The word that becomes live keeps its value, what else a command's buffer holds there does not (R199, R339).
(log 57, DEDUCED; log 52, DESIGN CHOICE) -/
def execTbinit (x : AbcOp) (s : State) : Host.Outcome State Fault Refusal :=
  perform (.tbinit x) x.ctl (fun e => e.once fun e =>
    let a := (e.get e.first x.a).toNat
    let b := (e.getSrc32 e.first x.b).toNat
    let c := (e.get e.first x.c).toNat
    let fail (code addr : Nat) : Eff := .trap e.m e.act code 0 (BitVec.ofNat 64 addr)
    if a % 16 ≠ 0 then fail Code.align a
    else if e.g.grant < a + 16 then fail Code.perm a
    else if b = 0 ∨ 65535 < b ∨ 15 < c then fail Code.barrierCount a
    else if (e.g.binding a).isSome then fail Code.illegalOperand 0
    else match e.g.freeBar with
      | none => fail Code.illegalOperand 0
      | some k =>
        let bind (g : Group) : Group := g.updSlot k fun _ => { BarSlot.free with kind := .binding a, phase := c }
        let m := (e.updG e.m bind).threadTouch (bind e.g) (a, 16)
        .done (m.setTb e.g a ⟨c, b, b, 0⟩) e.lanes) s
/-- The group and offset a word's address names (R329, R336). -/
def Env.wordAt (e : Env) (cv : Bool) (a : Nat) : Option (Group × Nat) :=
  if cv then (if a / 2 ^ 26 = 0 then (e.m.atPosition e.g (a / 2 ^ 24 % 4)).map fun g => (g, a % 2 ^ 24) else none)
  else some (e.g, a)
/-- A step on a live word (R335, R336): an arrival from another core is a release that leaves its signature with the
word monitor. -/
def Env.wordStep (e : Env) (x : TbOp) (arrive : Bool) : Eff :=
  let a := (e.get e.first x.a).toNat
  let n := (e.getSrc32 e.first x.b).toNat
  let fail (code addr : Nat) : Eff := .trap e.m e.act code 0 (BitVec.ofNat 64 addr)
  match (e.wordAt x.cv a).bind fun p => (p.1.binding p.2).map fun k => (p.1, p.2, k) with
  | none => fail Code.illegalOperand 0
  | some (g, off, k) =>
    let remote := arrive && g.core != e.core
    if remote && e.m.flushHeld e.core e.asid then .hold e.m else
    let m := if remote then e.m.release e.core e.asid else e.m
    let m := if remote then m.updGroup g.gid fun h => h.updSlot k fun s => { s with sig := s.sig ||| e.g.sig, remote := true } else m
    if n = 0 then fail Code.barrierCount off
    else match m.tbStep g.gid off (if arrive then n else 0) (if arrive then 0 else n) 0 with
      | some m => .done m e.lanes
      | none => fail Code.barrierCount off
/-- TBARR (R336). (log 57, DEDUCED) -/
def execTbarr (x : TbOp) (s : State) : Host.Outcome State Fault Refusal :=
  perform (.tbarr x) x.ctl (fun e => e.once fun e => e.wordStep x true) s
/-- TBEXP (R336). (log 57, DEDUCED) -/
def execTbexp (x : TbOp) (s : State) : Host.Outcome State Fault Refusal :=
  perform (.tbexp x) x.ctl (fun e => e.once fun e => e.wordStep x false) s
/-- TBWAIT (R337): a phase that has completed is acquired with the signature the word monitor holds for it (R187, R336). -/
def execTbwait (x : AbOp) (s : State) : Host.Outcome State Fault Refusal :=
  perform (.tbwait x) x.ctl (fun e => e.once fun e =>
    let a := (e.get e.first x.a).toNat
    let b := (e.getSrc32 e.first x.b).toNat
    match e.g.binding a with
    | none => .trap e.m e.act Code.illegalOperand 0 0
    | some k =>
      if 15 < b then .trap e.m e.act Code.barrierCount 0 (BitVec.ofNat 64 a)
      else if (e.m.tbWord e.g a).phase ≠ b then
        .done (match mget (e.g.slot k).sigs b with
          | some sig => e.m.acquire e.iss.gid sig
          | none => e.m) e.lanes
      else
        let p := (e.g.slot k).phase
        .done (e.upd (e.countPark e.m) fun w =>
          (w.updLanes e.lanes fun t => { t with wait := .tbar k p false }).updLanes e.act fun t => { t with wait := .tbar k p true }) []) s
/-- TBREL (R338): held until every Porter command that counts into the word has completed. -/
def execTbrel (x : OneOp) (s : State) : Host.Outcome State Fault Refusal :=
  perform (.tbrel x) x.ctl (fun e => e.once fun e =>
    let a := (e.get e.first x.a).toNat
    let counts (c : PorterCmd) : Bool := c.gid == e.iss.gid && (match c.compl with | .bar off _ => off == a | _ => false)
    match e.g.binding a with
    | none => .trap e.m e.act Code.illegalOperand 0 0
    | some k =>
      if (e.m.core e.core).porterQ.any counts || e.m.rings.any (fun r => r.2.items.any fun i => match i with
          | .porter c => counts c
          | _ => false)
      then .hold e.m
      else .done (e.m.dropBinding e.iss.gid k) e.lanes) s

end Sys2Proof.Machine
end

