-- ==== Sys2Proof/Machine/Fetch.lean ====
section
/-! DEFINITION. Fetching an instruction (R68, R69, R86, R265), choosing the wave and the entry that issue (R25, R27,
R29), the passing of a clk, and the turns of other parties that are not instructions (log 1, DESIGN CHOICE). -/

namespace Sys2Proof.Machine

/-! ## Fetch -/

/-- What a fetch finds. -/
inductive Fetched where
  | ok (m : Mach) (i : Instr) (len : Nat) (ctl : Ctl)
  /-- a failing check; with the control fields when the first word was read -/
  | trap (m : Mach) (code : Nat) (addr : Nat) (ctl : Option Ctl)
  /-- an attribute TLB walk of this page -/
  | walk (va : Nat)
  /-- a grove line that no memory holds -/
  | grove (m : Mach) (va : Nat)
  /-- a locked sector, or one whose bank has earlier work: tried again (R188, R214) -/
  | later (m : Mach)

/-- Bytes of the loop buffer of a laneset at an address, when it holds that address (R265). -/
def Core.loopBytes (c : Core) (ls : Nat) (asid : BitVec 16) (pc : Nat) : List Byte :=
  match mget c.loops ls with
  | some (a, base, bs) => if a == asid && base ≤ pc then bs.drop (pc - base) else []
  | none => []
/-- Another thread than these of a wave has locked the sector of an address (R214). -/
def Mach.lockedFor (m : Mach) (g : Group) (w : Wave) (ls : List Nat) (va : Nat) : Bool :=
  m.locked g.asid va none && ls.all fun l => m.locked g.asid va (some (g.gid, w.index, l))
/-- Read bytes of one sector through the fetch path for threads of a wave, the page checked; the read waits at a locked sector,
and behind earlier commands at a bank (R188, R214). -/
def Mach.codeRead (m : Mach) (g : Group) (w : Wave) (ls : List Nat) (va n : Nat) : Rd :=
  match m.check g.core g.asid (w.system g) .fetch 4 va 0 with
  | .ok cls =>
    if m.lockedFor g w ls va || (cls == 2 && m.bankBusy g.asid va n) then .again m
    else if cls = 2 ∨ cls = 3 then m.bankRead g.asid va n else m.fetchRead g.core g.asid va n
  | .bad _ code a => .bad m code a
  | .walk a => .bad m Code.page a
/-- LEN and OPC of the first bytes. (log 29, DEDUCED) -/
def opcOf (bs : List Byte) : Nat := leNat (bs.take 2) / 4 % 256
/-- Decode the bytes fetched at a PC, in the order of R86: length, placement, form. (log 29, DEDUCED) -/
def decodeAt (m : Mach) (pc : Nat) (bs : List Byte) : Fetched :=
  let len := (bs.headD 0).toNat % 4
  let ctl := ctlOf (Raw.ofNat (leNat (bs.take 8)))
  if len = 3 then .trap m Code.illegalLength 0 (some ctl)
  else if 32 < pc % 32 + lenBytes len ∨ (opcOf bs = 5 ∧ len = 2 ∧ pc % 32 ≠ 0) then .trap m Code.fetchAlign pc (some ctl)
  else match decode bs with
    | .ok (i, n) => .ok m i n ctl
    | .error _ => .trap m Code.illegalInstruction 0 (some ctl)
/-- Fetch at a PC for threads of a wave. A generated sector that one of them was delivered answers it (R249). -/
def Mach.fetch (m : Mach) (g : Group) (w : Wave) (ls : List Nat) (pc : Nat) : Fetched :=
  if pc % 4 ≠ 0 then .trap m Code.fetchAlign pc none else
  match m.check g.core g.asid (w.system g) .fetch 4 pc 0 with
  | .walk va => .walk va
  | .bad _ code va =>
    .trap (m.updCore g.core fun c => { c with walks := c.walks.filter fun f => f.asid != g.asid }) code va none
  | .ok _ =>
    let loop := (m.core g.core).loopBytes w.laneset g.asid pc
    if 8 ≤ loop.length ∧ lenBytes ((loop.headD 0).toNat % 4) ≤ loop.length then decodeAt m pc loop else
    match ls.findSome? fun l => w.given l g.asid pc with
    | some bs => decodeAt m pc (bs.drop (pc % 32))
    | none =>
      match m.codeRead g w ls pc (min 16 (32 - pc % 32)) with
      | .ok m bs => decodeAt m pc bs
      | .grove m va => .grove m va
      | .bad m code va => .trap m code va none
      | .again m => .later m

/-! ## Choosing an entry -/

/-- The best entry of a list in frontier order. -/
def firstEntry (es : List (DWord × Byte)) : Option (DWord × Byte) :=
  es.foldl (fun b e => match b with
    | some x => if before e x then some e else b
    | none => some e) none
/-- The entry of a list after a yielding one in frontier order, wrapping to the first; the yielding one last (R27). -/
def entryAfter (es : List (DWord × Byte)) (y : DWord × Byte) : Option (DWord × Byte) :=
  (firstEntry (es.filter fun e => before y e)).or ((firstEntry (es.filter (· != y))).or (firstEntry es))
/-- The age count of an entry has reached 1024 (R27). -/
def Wave.aged (w : Wave) (x : DWord × Byte) : Bool := w.live.any fun l => (w.lane l).entry == x && decide (1024 ≤ (w.lane l).age)
/-- The entry a wave issues (R25, R27): a forced one, the first whose age count has reached 1024, the one after a yielding entry,
or the first. -/
def Mach.choose (m : Mach) (g : Group) (w : Wave) : Option (DWord × Byte) :=
  let es := m.eligible g w
  ((w.forced.filter es.contains).or (firstEntry (es.filter w.aged))).or <| match w.yieldFrom with
    | some y => entryAfter es y
    | none => firstEntry es
/-- A group is held by its core's halt block (R349). -/
def Mach.haltedGroup (m : Mach) (g : Group) : Bool :=
  match mget (m.core g.core).halts g.asid.toNat with
  | some h => h.halted && h.exempt != some g.gid
  | none => false
/-- The order in which traps of one wave are delivered (R355). (log 43, DEDUCED) -/
def PendTrap.before (r : TaskRec) (wave : Nat) (a b : PendTrap) : Bool :=
  Machine.before (a.pc, a.prio) (b.pc, b.prio)
    || (!Machine.before (b.pc, b.prio) (a.pc, a.prio) && r.threadAt wave (r.lowest wave (lanesOf a.mask)) < r.threadAt wave (r.lowest wave (lanesOf b.mask)))
/-- The trap that is delivered next (R355): a constant table's comes before the wave's first instruction (R37).
(log 43, DEDUCED) -/
def Wave.deliverable (w : Wave) (r : TaskRec) : Option PendTrap :=
  (w.traps.find? fun t => t.keep && t.code != Code.perfOvf).or <| w.traps.foldl (fun b t => match b with
    | some x => if t.before r w.index x then some t else b
    | none => some t) none
/-- The wave may issue now: it did not in this clk, no re-run load is out, no trap is to be delivered, its context
is not halted, and a wave on a fill reserve has an issue slot left (R371). -/
def Mach.canIssue (m : Mach) (g : Group) (w : Wave) : Bool :=
  !w.ended && (w.deliverable g.task).isNone && decide (w.lastIssue ≤ m.clk) && !g.parked && !m.haltedGroup g
    && !w.loads.any (fun o => w.reruns o.pc o.nums)
    && (m.choose g w).isSome && m.maySlot g
/-- The lead of the next bundle: the wave that has waited longest (R29). -/
def Mach.leadWave (m : Mach) : Option (Nat × Nat) :=
  let cs := m.groups.flatMap fun p => (p.2.waves.filter fun w => m.canIssue p.2 w).map fun w => (p.1, w.index, w.lastIssue)
  (cs.foldl (fun (b : Option (Nat × Nat × Nat)) c => match b with
    | some x => if c.2.2 < x.2.2 then some c else b
    | none => some c) none).map fun c => (c.1, c.2.1)
/-- Quad positions that an entry of a wave takes: the quads with a thread of its active set (R25, R28). An entry whose instruction
is not fetched takes those of all its threads. (log 70, DEDUCED) -/
def Mach.quads (m : Mach) (g : Group) (w : Wave) (e : DWord × Byte) : Nat :=
  let ls := w.entryLanes e.1 e.2
  let act := match m.fetch g w ls e.1.toNat with
    | .ok _ (.nop _) _ _ => ls
    | .ok _ _ _ c => ls.filter fun l => w.guard m.clk c l
    | _ => ls
  ((act.map (· / 4)).eraseDups).length
/-- Waves of a list that join, in its order, while their quads fit in n positions. (log 70, DEDUCED) -/
def joiners (quads : Wave → Nat) : Nat → List Wave → List Wave
  | _, [] => []
  | n, w :: ws => if quads w ≤ n then w :: joiners quads (n - quads w) ws else []
/-- The bundle of a lead wave (R29): the other waves of its group and laneset whose chosen entry is the same pair join in
ascending index; in this order the members make their effects (R30). (log 70, DEDUCED) -/
def Mach.bundleOf (m : Mach) (gid wave : Nat) : List (Nat × Nat × DWord × Byte) :=
  match m.group gid with
  | none => []
  | some g =>
    match g.wave wave with
    | none => []
    | some w =>
      match m.choose g w with
      | none => []
      | some e =>
        let more := g.waves.filter fun x => x.index != wave && x.laneset == w.laneset && m.canIssue g x && m.choose g x == some e
        let js := (joiners (fun x => m.quads g x e) (16 - m.quads g w e) more).map (·.index)
        ((List.range g.waves.length).filter fun i => i == wave || js.contains i).map fun i => (gid, i, e)
/-- The members of the bundle at hand that can still issue their entry. -/
def Mach.bundleLeft (m : Mach) : List (Nat × Nat × DWord × Byte) :=
  m.bundle.filter fun b => match m.group b.1 with
    | some g => (match g.wave b.2.1 with
      | some w => m.canIssue g w && m.choose g w == some b.2.2
      | none => false)
    | none => false
/-- The wave that issues next, with the bundle after it (R29, R30): the bundle at hand, then one formed anew. -/
def Mach.pickWave (m : Mach) : Option (Nat × Nat × Mach) :=
  match m.bundleLeft with
  | b :: bs => some (b.1, b.2.1, { m with bundle := bs })
  | [] =>
    match m.leadWave with
    | none => none
    | some (gid, wave) =>
      match m.bundleOf gid wave with
      | [] => none
      | b :: bs =>
        let m := match bs, m.group gid with
          | _ :: _, some g => m.count g.core g.asid 0x0004 1 (some (gid, wave))
          | _, _ => m
        some (b.1, b.2.1, { m with bundle := bs })

/-! ## The passing of time and other turns -/

/-- The lanesets of a core, of groups of a context, that lost their issue in this clk: a wave has an entry that the scoreboard
alone keeps from issuing, and no wave of the laneset issued (R344). (log 71, DEDUCED) -/
def Mach.lostIssues (m : Mach) (core : Nat) (asid : BitVec 16) : Nat :=
  let gs := (m.resident core).filter fun g => g.asid == asid && !g.parked && !m.haltedGroup g
  let ws := gs.flatMap fun g => (g.waves.filter (!·.ended)).map fun w => (g, w)
  ((List.range 8).filter fun ls =>
    (ws.any fun p => p.2.laneset == ls && ((p.2.ready m.clk).any fun x => m.scoreHeld p.1 p.2 x)
      && (m.eligible p.1 p.2).isEmpty)
    && !(ws.any fun p => p.2.laneset == ls && p.2.lastIssue == m.clk + 1)).length
/-- The clk counters of the cores count (R344). (log 71, DEDUCED) -/
def Mach.countClk (m : Mach) : Mach :=
  (m.cores.filter fun p => !p.2.counters.isEmpty).foldl (fun m p =>
    ((p.2.counters.map (·.1 / 8)).eraseDups).foldl (fun m a =>
      (m.count p.1 (BitVec.ofNat 16 a) 0x0001 1).count p.1 (BitVec.ofNat 16 a) 0x0005 (m.lostIssues p.1 (BitVec.ofNat 16 a))) m) m
/-- Parts of a nanosecond: the least common multiple of the clock settings in units of 100 MHz, 8 to 23 (R397). -/
def timeUnit : Nat := 5354228880
/-- A clk begins: nothing has been used, borrowed or denied in it (R371). A resource that work with budget was held from is
claimed. (log 42, DESIGN CHOICE) -/
def Mach.newClk (m : Mach) : Mach :=
  let u := m.used
  let from' (k n : Nat) : Nat := if m.behind.contains k then n - 1 else n
  { m with
    clkUsed := { u with llc := from' 0 u.llc, beats := from' 1 u.beats, gddr := from' 2 u.gddr }
    slack := [0, 0, 0, 0, 0], denials := [], behind := [] }
/-- A halt by UNMAP or SWITCH is in progress (R360, R370). -/
def Mach.halting (m : Mach) : Bool :=
  match m.board.command with
  | some (.unmap _) | some (.swap _ _ false) => true
  | _ => false
/-- The arithmetic clock in MHz: at least 1.2 GHz while a halt is in progress (R397). -/
def Mach.clockNow (m : Mach) : Nat := if m.halting then max 1200 m.mhz else m.mhz
/-- One clk (R6, R117, R397): SR_TIME counts nanoseconds at any setting; BUSY_NS counts of mapped contexts rise.
A clk of k times 100 MHz lasts 10 / k nanoseconds. (log 59, DESIGN CHOICE) -/
def Mach.tick (m : Mach) : Mach :=
  let m := m.countClk
  let t := m.timeRem + 10 * timeUnit / (m.clockNow / 100)
  let ns := t / timeUnit
  { m.newClk with
    clk := m.clk + 1
    timeNs := m.timeNs + ns
    timeRem := t % timeUnit
    board := { m.board with busyNs := m.ctxs.foldl (fun (b : Map Nat) p =>
      if m.groups.any (fun g => g.2.asid == p.2.asid)
          || m.queues.any (fun q => q.2.slot == p.1 && !q.2.stopped && (q.2.stage != .idle || decide (q.2.index < q.2.seen)))
      then mput b p.1 (mgetD b p.1 0 + ns) else b) m.board.busyNs }
    cores := m.cores.map fun p =>
      if m.groups.any (fun g => g.2.core == p.1) then (p.1, { p.2 with lastResident := m.clk }) else p }
/-- A parity error strikes a register; a K or X error that its shadow row does not share is repaired when read (R118).
(log 55, DEDUCED) -/
def Mach.strike (m : Mach) (gid wave : Nat) (key : RKey) (shadow : Bool) : Mach :=
  m.updWave gid wave fun w =>
    if key.shadowed && !shadow then
      (if w.weak.contains key || w.parity.contains key then w else { w with weak := key :: w.weak })
    else if w.parity.contains key then w else { w with parity := key :: w.parity }
/-- A stored bit flips (R376). -/
def Mach.flip (m : Mach) (word bit : Nat) : Mach :=
  let f := (mgetD m.rel.flips word 0) ^^^ ((1 : BitVec 72) <<< bit)
  { m with rel := { m.rel with flips := if f == 0 then mdel m.rel.flips word else mput m.rel.flips word f } }
/-- The machine's clocks run (R393, R396). -/
def State.clocked (s : State) : Bool := s.plat.power == .d0 && !s.plat.host.thermtrip
/-- The lanes of an entry wait; the issue opportunity is used, and the other entries age (R27). -/
def Mach.park (m : Mach) (gid wave : Nat) (e : DWord × Byte) (x : Wait) : Mach :=
  (m.updWave gid wave fun w =>
    { w.updLanes (w.entryLanes e.1 e.2) fun t => { t with wait := x, age := 0 } with
      lastIssue := m.clk + 1, yieldFrom := none, forced := none }).ageOthers gid wave e
/-- An entry is tried again at the next clk. -/
def Mach.later (m : Mach) (gid wave : Nat) (e : DWord × Byte) : Mach :=
  m.updWave gid wave fun w => w.updLanes (w.entryLanes e.1 e.2) fun t => { t with ready := m.clk + 1 }

/-- What the issue of a wave comes to before its instruction performs. -/
inductive Issued where
  | run (m : Mach) (i : Instr)
  | stay (m : Mach)
/-- Issue a wave: choose its entry, fetch and decode; a failing fetch check is a trap of every thread of the entry, after
every earlier load of the wave has returned (R352). (log 25, DEDUCED; log 67, DEDUCED) -/
def Mach.issueWave (m : Mach) (gid wave : Nat) : Issued :=
  match m.group gid with
  | none => .stay m
  | some g =>
    match g.wave wave with
    | none => .stay m
    | some w =>
      if !m.canIssue g w then .stay m else
      let m := (m.trimLoops g.core).paySlot g
      match m.choose g w with
      | none => .stay m
      | some e =>
        let lanes := w.entryLanes e.1 e.2
        -- a forced issue that FORCED_ISSUE has not counted (R27, R344)
        let counted (m : Mach) : Mach := if w.aged e && w.forced != some e then m.count g.core g.asid 0x000A 1 (some (gid, wave)) else m
        match m.fetch g w lanes e.1.toNat with
        | .later m => .stay (m.later gid wave e)
        | .ok m' i n _ => (match m.bill m' g.task.allot.toNat with
          | some m => .run { counted m with issue := some ⟨gid, wave, e.1, e.2, n⟩ } i
          | none => .stay ((m.denied m' g.task.allot.toNat).later gid wave e))
        | .trap m' code addr ctl =>
          if !w.loads.isEmpty then .stay (m.later gid wave e) else
          let m := m'
          -- every active thread (R353); all of the entry where no guard was read or none is true
          let all := lanes
          let act := match ctl with | some c => all.filter fun l => w.guard m.clk c l | none => all
          let lanes := if act.isEmpty then all else act
          .stay (((counted m).ageOthers gid wave e).deliver gid wave ⟨e.1, e.2, maskOf lanes, code, 0, BitVec.ofNat 64 addr, false⟩)
        | .walk va => .stay ((counted m).park gid wave e (.walk va))
        | .grove m va =>
          let (m, id) := m.askGrove (.entry gid wave (lanes.map fun l => (l, va)) []) g.asid va 4 g.task.tpri g.task.flvl.toNat
          .stay ((counted m).park gid wave e (.grove [id] []))

end Sys2Proof.Machine
end

