-- ==== Sys2Proof/Machine/Control.lean ====
section
/-! DEFINITION. Row 0x0: branches, thread ends, software traps, ERET, ISYNC and TOKW (R259 to R271). -/

namespace Sys2Proof.Machine

/-! ## Branches (R259 to R265) -/

/-- Move threads to a target with a priority; the others of the entry fall through. -/
def Env.move (e : Env) (m : Mach) (ls : List Nat) (dest : Nat → DWord × Byte) : Eff :=
  .done (e.upd m fun w => ls.foldl (fun w l => w.updLane l fun t => { t with pc := (dest l).1, prio := (dest l).2 }) w)
    (e.lanes.filter fun l => !ls.contains l)
/-- The target of an E-CTL displacement (R79). -/
def Env.rel (e : Env) (disp : BitVec 24) : DWord := e.iss.pc + (disp.signExtend 64 <<< 2)
/-- The bytes of a range read through the fetch path, if all can be read. -/
def Mach.codeRange (m : Mach) (g : Group) (w : Wave) (ls : List Nat) (va n : Nat) : Option (Mach × List Byte) :=
  let secs := (List.range ((va + n + 31) / 32 - va / 32)).map (· + va / 32)
  secs.foldl (fun r s =>
    match r with
    | none => none
    | some (m, bs) =>
      let a := max va (32 * s)
      let b := min (va + n) (32 * s + 32)
      match m.codeRead g w ls a (b - a) with
      | .ok m x => some (m, bs ++ x)
      | _ => none) (some (m, []))
/-- Load the loop buffer of the laneset, unless it is in use (R265). (log 32, DEDUCED) -/
def Env.loadLoop (e : Env) (m : Mach) (target : Nat) : Mach :=
  let n := e.next.toNat - target
  let m := m.trimLoops e.core
  if (mget (m.core e.core).loops e.w.laneset).isSome then m else
  match m.codeRange e.g e.w e.lanes target n with
  | some (m, bs) => m.updCore e.core fun c => { c with loops := mput c.loops e.w.laneset (e.asid, target, bs) }
  | none => m
/-- Priority of threads that fall through a BRA or CALL: FPRIO with F = 1, else their own. -/
def Env.fall (e : Env) (m : Mach) (fprio : Option Byte) : Mach :=
  match fprio with
  | some p => e.upd m fun w => w.updLanes (e.lanes.filter fun l => !e.act.contains l) fun t => { t with prio := p }
  | none => m
def execBra (x : BraOp) (s : State) : Host.Outcome State Fault Refusal :=
  perform (.bra x) x.ctl (fun e =>
    let dest := e.rel x.disp
    match e.move (e.fall e.m x.fprio) e.act fun _ => (dest, x.tprio) with
    | .done m adv =>
      let short := !e.act.isEmpty && x.disp.getLsbD 23 && decide (dest.toNat < e.iss.pc.toNat) && decide (e.next.toNat - dest.toNat ≤ 512)
      .done (if short then e.loadLoop m dest.toNat else m) adv
    | r => r) s
def execBrx (x : BrxOp) (s : State) : Host.Outcome State Fault Refusal :=
  perform (.brx x) x.ctl (fun e =>
    e.move e.m e.act fun l => (e.getPair l x.a, (e.getSrc32 l x.b).setWidth 8)) s
/-- The return link of CALL (R262). -/
def Env.link (e : Env) (fprio : Option Byte) : DWord :=
  (e.next &&& 0xFFFFFFFFFFFF) ||| ((fprio.getD e.iss.prio).setWidth 64 <<< 56)
def execCall (x : CallOp) (s : State) : Host.Outcome State Fault Refusal :=
  perform (.call x) x.ctl (fun e =>
    let m := e.upd (e.fall e.m x.fprio) fun w => e.all.foldl (fun w l => w.setN e.clk 0 l x.d 2 (e.link x.fprio)) w
    e.move m e.act fun _ => (e.rel x.disp, x.tprio)) s
def execRet (x : OneOp) (s : State) : Host.Outcome State Fault Refusal :=
  perform (.ret x) x.ctl (fun e =>
    e.move e.m e.act fun l =>
      let a := e.getPair l x.a
      (a &&& 0xFFFFFFFFFFFF, (a >>> 56).setWidth 8)) s

/-- The key a thread meets first, or 8 (R264). -/
def switchEntry (x : SwitchOp) (a : Word) : Nat :=
  ((List.range x.n.toNat).find? fun k => ((x.keys >>> (8 * k)).setWidth 8).signExtend 32 == a).getD 8
/-- What reading an entry of a SWITCH table finds. -/
inductive TableRead where
  | ok (m : Mach) (w : Word)
  | eff (x : Eff)
/-- Read table entry k through the fetch path; a generated sector that the entry was delivered answers it (R249). -/
def Env.tableAt (e : Env) (m : Mach) (k : Nat) : TableRead :=
  let va := e.iss.pc.toNat + 16 + 4 * k
  let loop := (m.core e.core).loopBytes e.w.laneset e.asid va
  if 4 ≤ loop.length then .ok m (BitVec.ofNat 32 (leNat (loop.take 4))) else
  match m.check e.core e.asid e.system .fetch 4 va 0, e.w.given (e.named.headD 0) e.asid va with
  | .walk a, _ => .eff (e.waits m (.walk a))
  | .ok _, some bs => .ok m (BitVec.ofNat 32 (leNat ((bs.drop (va % 32)).take 4)))
  | _, _ =>
    match m.codeRead e.g e.w e.lanes va 4 with
    | .ok m bs => .ok m (BitVec.ofNat 32 (leNat bs))
    | .grove m a => .eff (e.parkOn m 4 (e.named.map fun l => (l, a)))
    | .bad m code a => .eff (e.accessTrap m e.named code 0 (BitVec.ofNat 64 a))
    | .again m => .eff (.hold m)
/-- SWITCH: threads whose guard is false go to entry 8. -/
def execSwitch (x : SwitchOp) (s : State) : Host.Outcome State Fault Refusal :=
  perform (.switch x) x.ctl (fun e =>
    let k (l : Nat) : Nat := if e.act.contains l then switchEntry x (e.get l x.a) else 8
    let ks := (e.lanes.map k).eraseDups
    let r := ks.foldl (fun (r : TableRead × List (Nat × Word)) k =>
      match r.1 with
      | .eff _ => r
      | .ok m _ =>
        match e.tableAt m k with
        | .ok m w => (.ok m w, r.2 ++ [(k, w)])
        | x => (x, r.2)) (.ok e.m 0, [])
    match r.1 with
    | .eff x => x
    | .ok m _ => e.move m e.lanes fun l =>
        let w := ((r.2.lookup (k l)).getD 0)
        (e.rel (w.setWidth 24), (w >>> 24).setWidth 8)) s

/-! ## Thread ends, traps and waits (R266 to R271) -/

/-- NOP: COND and GCC have no effect, so every thread of the entry is active (R258). -/
def execNop (x : PlainOp) (s : State) : Host.Outcome State Fault Refusal :=
  perform (.nop x) { x.ctl with cond := .al } (fun e => .done e.m e.lanes) s
/-- Threads that leave abort their open consignments first (R211, R267). -/
def Mach.leaveConsigns (m : Mach) (gid wave : Nat) (ls : List Nat) : Mach :=
  let m := m.forbid gid wave ls
  { m with consigns := m.consigns.filter fun c => !(c.gid == gid && c.wave == wave && ls.contains c.lane) }
/-- EXIT: an open consignment aborts first. -/
def execExit (x : PlainOp) (s : State) : Host.Outcome State Fault Refusal :=
  perform (.exit x) x.ctl (fun e => e.once fun e =>
    let m := e.m.leaveConsigns e.iss.gid e.iss.wave e.act
    let m := e.upd m fun w => w.updLanes e.act fun t => { t with st := .exited, wait := .none, handler := false }
    .done (m.afterExit e.iss.gid e.iss.wave) (e.lanes.filter fun l => !e.act.contains l)) s
def execTrap (x : ImmOp) (s : State) : Host.Outcome State Fault Refusal :=
  perform (.trap x) x.ctl (fun e => e.once fun e => .soft e.m e.act Code.swtrap x.n.toNat) s
/-- BRK halts the core when the debug window arms it, and traps otherwise (R269, R349). (log 28, DEDUCED) -/
def execBrk (x : ImmOp) (s : State) : Host.Outcome State Fault Refusal :=
  perform (.brk x) x.ctl (fun e => e.once fun e =>
    if (e.m.halt e.core e.asid).armed
    then .done (e.m.debugHalt e.core e.asid none true) e.lanes
    else .soft e.m e.act Code.brk x.n.toNat) s
/-- YIELD: `Env.finishWave` hands the issue opportunity over, whether or not a guard is true, as YLD = 1 does (R27, R71, R268).
(log 69, DEDUCED) -/
def execYield (x : PlainOp) (s : State) : Host.Outcome State Fault Refusal :=
  perform (.yield x) x.ctl (fun e => .done e.m e.lanes) s
/-- ERET (R270, R357): outside a handler it is illegal. Threads it discards count as exited. -/
def execEret (x : PlainOp) (s : State) : Host.Outcome State Fault Refusal :=
  perform (.eret x) x.ctl (fun e => e.once fun e =>
    if !e.w.inHandler then .trap e.m e.named Code.illegalInstruction 0 0
    else
      let gone := (List.range 64).filter fun l => (e.w.lane l).handler && !e.w.tmask.getLsbD l
      .done ((e.upd (e.m.leaveConsigns e.iss.gid e.iss.wave gone) Wave.eret).afterExit e.iss.gid e.iss.wave) []) s
/-- ISYNC: a write-back of an earlier CWB, CINV or ICINV that a lock still holds is waited for (R214, R266); the loop buffer of the
laneset empties. -/
def execIsync (x : PlainOp) (s : State) : Host.Outcome State Fault Refusal :=
  perform (.isync x) x.ctl (fun e => e.once fun e =>
    if e.m.wbWait.any fun q => q.1 == e.core && q.2.1 == e.asid then .hold e.m else
    .done (e.m.updCore e.core fun c => { c with loops := mdel c.loops e.w.laneset }) e.lanes) s
def execTokw (x : TokwOp) (s : State) : Host.Outcome State Fault Refusal :=
  perform (.tokw x) x.ctl (fun e => if e.all.isEmpty then .done e.m e.lanes else
    let ts := e.waited x
    let rest (w : Wave) := w.tokw.filter fun r => (r.1, r.2.1) != (e.iss.pc, e.iss.prio)
    if ts.any e.w.toks.contains then
      .hold (if x.target.isSome then e.m
        else e.upd e.m fun w => { w with tokw := (e.iss.pc, e.iss.prio, ts) :: rest w })
    else
      let z := ts.all fun t => (e.w.reg e.clk (.w t)).setWidth 8 == (0 : Byte)
      .done (e.upd e.m fun w =>
        let w := { w with tokw := rest w }
        match x.flag with
        | some k => e.all.foldl (fun w l => w.setCcAt e.clk 0 l k.toNat (zCc z)) w
        | none => w) e.lanes) s

end Sys2Proof.Machine
end

