-- ==== Sys2Proof/Machine/FloatOps.lean ====
section
/-! DEFINITION. Row 0x5, FP32 arithmetic (R140 to R148), and row 0x6, packed halves (R149 to R151). -/

namespace Sys2Proof.Machine

/-! ## Row 0x5 -/

/-- Prepared operands (R140). -/
def Env.fA (e : Env) (x : FltOp) (l : Nat) : Nat := fp32.prep x.absA x.negA (e.get l x.a).toNat
def Env.fB (e : Env) (x : FltOp) (l : Nat) : Nat := fp32.prep x.absB x.negB (e.getSrc32 l x.b).toNat
def Env.fC (e : Env) (x : FltOp) (l : Nat) : Nat := fp32.prep x.absC x.negC (e.get l x.c).toNat
/-- An FP32 result after SAT, its comparison with +0, and its exceptions (R140, R141). -/
def Env.flt (e : Env) (i : Instr) (x : FltOp) (val : Nat → Rounded) : Eff :=
  e.result i x.ctl (some (x.d, 1)) x.flag fun l =>
    let r := (val l).sat fp32 x.sat
    ⟨BitVec.ofNat 64 r.bits, fp32.cc0 r.bits, r.fl⟩

def execFadd (x : FltOp) (s : State) : Host.Outcome State Fault Refusal :=
  perform (.fadd x) x.ctl (fun e => e.flt (.fadd x) x fun l => fAdd fp32 x.rm (e.fA x l) (e.fB x l)) s
def execFsub (x : FltOp) (s : State) : Host.Outcome State Fault Refusal :=
  perform (.fsub x) x.ctl (fun e => e.flt (.fsub x) x fun l => fSub fp32 x.rm (e.fA x l) (e.fB x l)) s
def execFmul (x : FltOp) (s : State) : Host.Outcome State Fault Refusal :=
  perform (.fmul x) x.ctl (fun e => e.flt (.fmul x) x fun l => fMul fp32 x.rm (e.fA x l) (e.fB x l)) s
def execFfma (x : FltOp) (s : State) : Host.Outcome State Fault Refusal :=
  perform (.ffma x) x.ctl (fun e => e.flt (.ffma x) x fun l => fFma fp32 x.rm (e.fA x l) (e.fB x l) (e.fC x l)) s
def execFmin (x : FltOp) (s : State) : Host.Outcome State Fault Refusal :=
  perform (.fmin x) x.ctl (fun e => e.flt (.fmin x) x fun l => fMinMax fp32 false (e.fA x l) (e.fB x l)) s
def execFmax (x : FltOp) (s : State) : Host.Outcome State Fault Refusal :=
  perform (.fmax x) x.ctl (fun e => e.flt (.fmax x) x fun l => fMinMax fp32 true (e.fA x l) (e.fB x l)) s
/-- FCMP writes a condition code and no register (R145). -/
def execFcmp (x : FltOp) (s : State) : Host.Outcome State Fault Refusal :=
  perform (.fcmp x) x.ctl (fun e => e.result (.fcmp x) x.ctl none x.flag fun l =>
    ⟨0, cmpCc (fp32.val (e.fA x l)) (fp32.val (e.fB x l)), 0⟩) s
def execFrnd (x : FltOp) (s : State) : Host.Outcome State Fault Refusal :=
  perform (.frnd x) x.ctl (fun e => e.flt (.frnd x) x fun l => fRnd fp32 x.rm (e.fA x l)) s
def execFspec (x : FltOp) (s : State) : Host.Outcome State Fault Refusal :=
  perform (.fspec x) x.ctl (fun e => e.flt (.fspec x) x fun l =>
    fSpec (match x.b with | .imm _ v => v.toNat | .reg _ => 0) x.rm (BitVec.ofNat 32 (e.fA x l))) s
/-- FCLS: an integer result (R147). -/
def execFcls (x : FltOp) (s : State) : Host.Outcome State Fault Refusal :=
  perform (.fcls x) x.ctl (fun e => e.result (.fcls x) x.ctl (some (x.d, 1)) none fun l =>
    ⟨BitVec.ofNat 64 (fCls fp32 (e.fA x l)), 0, 0⟩) s
/-- FSCL: the scale is read as S32, an n8 immediate zero-extended (R73, R146). -/
def execFscl (x : FltOp) (s : State) : Host.Outcome State Fault Refusal :=
  perform (.fscl x) x.ctl (fun e => e.flt (.fscl x) x fun l =>
    fScl fp32 x.rm (e.fA x l) (e.getSrc32 l x.b).toInt) s

/-! ## Row 0x6 -/

/-- The format of a packed pair (R149). -/
def halfFmt (fp16? : Bool) : FFmt := if fp16? then fp16 else bf16
/-- Element j of a word. -/
def halfAt (x : Word) (j : Nat) : Nat := x.toNat / 2 ^ (16 * j) % 2 ^ 16
/-- Prepared element j of A, B and C; an immediate gives its exact value to both. -/
def Env.hA (e : Env) (x : HalfOp) (l j : Nat) : Nat := (halfFmt x.fp16).prep x.absA x.negA (halfAt (e.get l x.a) j)
def Env.hB (e : Env) (x : HalfOp) (l j : Nat) : Nat :=
  let f := halfFmt x.fp16
  f.prep false x.negB (match x.b with
    | .reg o => halfAt (e.get l o) j
    | .imm _ _ => ((f32 (e.getSrc32 l x.b)).round f .rn).bits)
def Env.hC (e : Env) (x : HalfOp) (l j : Nat) : Nat := (halfFmt x.fp16).prep x.absC x.negC (halfAt (e.get l x.c) j)
/-- A pair result, element by element, after SAT. -/
def Env.half (e : Env) (i : Instr) (x : HalfOp) (val : Nat → Nat → Rounded) : Eff :=
  e.result i x.ctl (some (x.d, 1)) none fun l =>
    let r0 := (val l 0).sat (halfFmt x.fp16) x.sat
    let r1 := (val l 1).sat (halfFmt x.fp16) x.sat
    ⟨BitVec.ofNat 64 (r0.bits + r1.bits * 2 ^ 16), 0, r0.fl ||| r1.fl⟩

def execHadd2 (x : HalfOp) (s : State) : Host.Outcome State Fault Refusal :=
  perform (.hadd2 x) x.ctl (fun e => e.half (.hadd2 x) x fun l j =>
    fAdd (halfFmt x.fp16) x.rm (e.hA x l j) (e.hB x l j)) s
def execHmul2 (x : HalfOp) (s : State) : Host.Outcome State Fault Refusal :=
  perform (.hmul2 x) x.ctl (fun e => e.half (.hmul2 x) x fun l j =>
    fMul (halfFmt x.fp16) x.rm (e.hA x l j) (e.hB x l j)) s
def execHfma2 (x : HalfOp) (s : State) : Host.Outcome State Fault Refusal :=
  perform (.hfma2 x) x.ctl (fun e => e.half (.hfma2 x) x fun l j =>
    fFma (halfFmt x.fp16) x.rm (e.hA x l j) (e.hB x l j) (e.hC x l j)) s
def execHmin2 (x : HalfOp) (s : State) : Host.Outcome State Fault Refusal :=
  perform (.hmin2 x) x.ctl (fun e => e.half (.hmin2 x) x fun l j =>
    fMinMax (halfFmt x.fp16) false (e.hA x l j) (e.hB x l j)) s
def execHmax2 (x : HalfOp) (s : State) : Host.Outcome State Fault Refusal :=
  perform (.hmax2 x) x.ctl (fun e => e.half (.hmax2 x) x fun l j =>
    fMinMax (halfFmt x.fp16) true (e.hA x l j) (e.hB x l j)) s
/-- HCMP2 (R151): a condition-code value for each element in D, element 0's in c(CCD) too. -/
def execHcmp2 (x : HalfOp) (s : State) : Host.Outcome State Fault Refusal :=
  perform (.hcmp2 x) x.ctl (fun e => e.result (.hcmp2 x) x.ctl (some (x.d, 1)) x.flag fun l =>
    let f := halfFmt x.fp16
    let c (j : Nat) := cmpCc (f.val (e.hA x l j)) (f.val (e.hB x l j))
    ⟨BitVec.ofNat 64 ((c 0).toNat + (c 1).toNat * 2 ^ 16), c 0, 0⟩) s
/-- HDOT2 (R150): an FP32 sum of two exact products and C. -/
def execHdot2 (x : HalfOp) (s : State) : Host.Outcome State Fault Refusal :=
  perform (.hdot2 x) x.ctl (fun e => e.result (.hdot2 x) x.ctl (some (x.d, 1)) none fun l =>
    let f := halfFmt x.fp16
    let p (j : Nat) := (f.val (e.hA x l j), f.val (e.hB x l j))
    let c := fp32.val (fp32.prep x.absC x.negC (e.get l x.c).toNat)
    let r := (fDot fp32 x.rm [p 0, p 1] c).sat fp32 x.sat
    ⟨BitVec.ofNat 64 r.bits, 0, r.fl⟩) s

end Sys2Proof.Machine
end

