-- ==== Sys2Proof/Machine/Integer.lean ====
section
/-! DEFINITION. Row 0x2, integer arithmetic (R125 to R129). -/

namespace Sys2Proof

/-- Width of an integer TYPE (R125). -/
def IType.w (t : IType) : Nat := if t = .s64 ∨ t = .n64 then 64 else 32
/-- TYPE[0] = 0. -/
def IType.signed (t : IType) : Bool := t == .s32 || t == .s64

namespace Machine

/-! ## Values (R125) -/

/-- The low w bits as a natural number. -/
def uv (w : Nat) (x : DWord) : Nat := x.toNat % 2 ^ w
/-- The low w bits as a signed number. -/
def sv (w : Nat) (x : DWord) : Int := if 2 ^ (w - 1) ≤ uv w x then (uv w x : Int) - 2 ^ w else uv w x
/-- The value a TYPE gives a pattern. -/
def tv (t : IType) (x : DWord) : Int := if t.signed then sv t.w x else uv t.w x
/-- The low w bits of an integer. -/
def wrap (w : Nat) (e : Int) : DWord := BitVec.ofNat 64 (e % (2 : Int) ^ w).toNat
/-- Saturation to a TYPE. -/
def clamp (t : IType) (e : Int) : Int :=
  if t.signed then max (-(2 : Int) ^ (t.w - 1)) (min ((2 : Int) ^ (t.w - 1) - 1) e)
  else max 0 (min ((2 : Int) ^ t.w - 1) e)
/-- Outside S(w). -/
def outs (w : Nat) (e : Int) : Bool := decide (e < -(2 : Int) ^ (w - 1) ∨ (2 : Int) ^ (w - 1) ≤ e)
/-- Outside the format of a TYPE. -/
def outt (t : IType) (e : Int) : Bool := clamp t e != e

/-- What an integer instruction computes: the exact value, or the result itself, and C and V. -/
structure IRes where
  e : Int
  c : Bool
  v : Bool
/-- The written pattern: saturated or wrapped (R129). -/
def IRes.bits (x : IRes) (t : IType) (sat : Bool) : DWord := wrap t.w (if sat then clamp t x.e else x.e)

/-! ## The table of R129 -/

def iAdd (t : IType) (a b : DWord) (k : Nat) : IRes :=
  ⟨tv t a + tv t b + k, decide (2 ^ t.w ≤ uv t.w a + uv t.w b + k), outs t.w (sv t.w a + sv t.w b + k)⟩
def iSub (t : IType) (a b : DWord) (k : Nat) : IRes :=
  ⟨tv t a - tv t b - k, decide (uv t.w b + k ≤ uv t.w a), outs t.w (sv t.w a - sv t.w b - k)⟩
def iNeg (t : IType) (a : DWord) : IRes := ⟨-tv t a, uv t.w a == 0, outs t.w (-sv t.w a)⟩
def iAbs (t : IType) (a : DWord) : IRes :=
  ⟨(tv t a).natAbs, false, t.signed && sv t.w a == -(2 : Int) ^ (t.w - 1)⟩
def iMul (t : IType) (a b : DWord) : IRes := ⟨tv t a * tv t b, false, outt t (tv t a * tv t b)⟩
def iMulh (t : IType) (a b : DWord) : IRes := ⟨tv t a * tv t b / (2 : Int) ^ t.w, false, false⟩
def iMad (t : IType) (a b c : DWord) : IRes :=
  ⟨tv t a * tv t b + tv t c, false, outt t (tv t a * tv t b + tv t c)⟩
def iMin (t : IType) (a b : DWord) : IRes := ⟨min (tv t a) (tv t b), false, false⟩
def iMax (t : IType) (a b : DWord) : IRes := ⟨max (tv t a) (tv t b), false, false⟩
/-- LEA: the shifted index is taken as 64 bits. -/
def iLea (t : IType) (a b : DWord) (s : Nat) : IRes :=
  let x := if t.signed then (b.setWidth 32).signExtend 64 else (b.setWidth 32).setWidth 64
  let y : DWord := x <<< s
  ⟨(a.toNat + y.toNat : Nat), decide (2 ^ 64 ≤ a.toNat + y.toNat), outs 64 (sv 64 a + sv 64 y)⟩
/-- Byte j of a pattern, signed or natural. -/
def dotByte (a : DWord) (j : Nat) (signed : Bool) : Int :=
  let b := (a >>> (8 * j)).setWidth 8
  if signed then b.toInt else b.toNat
def iDot4 (t : IType) (a b c : DWord) (sa sb : Bool) : IRes :=
  let e := (List.range 4).foldl (fun e j => e + dotByte a j sa * dotByte b j sb) (tv t c)
  ⟨e, false, outt t e⟩

/-- An integer arithmetic instruction (R129): `val` computes in a lane; flags by R126. -/
def Env.arith (e : Env) (i : Instr) (x : IntOp) (val : Nat → IRes) : Eff :=
  e.result i x.ctl (some (x.d, x.ty.regs)) x.flag fun l =>
    let y := val l
    let r := y.bits x.ty x.sat
    ⟨r, intCc x.ty.w r y.c y.v, 0⟩
/-- Operand A, B and C at the TYPE's width. -/
def Env.opA (e : Env) (x : IntOp) (l : Nat) : DWord := e.getN l x.a x.ty.regs
def Env.opB (e : Env) (x : IntOp) (l : Nat) : DWord := e.getSrc l x.b x.ty.regs
def Env.opC (e : Env) (x : IntOp) (l : Nat) : DWord := e.getN l x.c x.ty.regs
/-- The C bit of condition code SUB[1:0] (R129). -/
def Env.carry (e : Env) (x : IntOp) (l : Nat) : Bool := ccC (e.w.ccAt e.clk l (x.sub.toNat % 4))

def execIadd (x : IntOp) (s : State) : Host.Outcome State Fault Refusal :=
  perform (.iadd x) x.ctl (fun e => e.arith (.iadd x) x fun l => iAdd x.ty (e.opA x l) (e.opB x l) 0) s
def execIsub (x : IntOp) (s : State) : Host.Outcome State Fault Refusal :=
  perform (.isub x) x.ctl (fun e => e.arith (.isub x) x fun l => iSub x.ty (e.opA x l) (e.opB x l) 0) s
def execImul (x : IntOp) (s : State) : Host.Outcome State Fault Refusal :=
  perform (.imul x) x.ctl (fun e => e.arith (.imul x) x fun l => iMul x.ty (e.opA x l) (e.opB x l)) s
def execImulh (x : IntOp) (s : State) : Host.Outcome State Fault Refusal :=
  perform (.imulh x) x.ctl (fun e => e.arith (.imulh x) x fun l => iMulh x.ty (e.opA x l) (e.opB x l)) s
def execImad (x : IntOp) (s : State) : Host.Outcome State Fault Refusal :=
  perform (.imad x) x.ctl (fun e => e.arith (.imad x) x fun l => iMad x.ty (e.opA x l) (e.opB x l) (e.opC x l)) s
def execIaddc (x : IntOp) (s : State) : Host.Outcome State Fault Refusal :=
  perform (.iaddc x) x.ctl (fun e => e.arith (.iaddc x) x fun l =>
    iAdd x.ty (e.opA x l) (e.opB x l) (if e.carry x l then 1 else 0)) s
def execIsubb (x : IntOp) (s : State) : Host.Outcome State Fault Refusal :=
  perform (.isubb x) x.ctl (fun e => e.arith (.isubb x) x fun l =>
    iSub x.ty (e.opA x l) (e.opB x l) (if e.carry x l then 0 else 1)) s
def execIneg (x : IntOp) (s : State) : Host.Outcome State Fault Refusal :=
  perform (.ineg x) x.ctl (fun e => e.arith (.ineg x) x fun l => iNeg x.ty (e.opA x l)) s
def execIabs (x : IntOp) (s : State) : Host.Outcome State Fault Refusal :=
  perform (.iabs x) x.ctl (fun e => e.arith (.iabs x) x fun l => iAbs x.ty (e.opA x l)) s
def execImin (x : IntOp) (s : State) : Host.Outcome State Fault Refusal :=
  perform (.imin x) x.ctl (fun e => e.arith (.imin x) x fun l => iMin x.ty (e.opA x l) (e.opB x l)) s
def execImax (x : IntOp) (s : State) : Host.Outcome State Fault Refusal :=
  perform (.imax x) x.ctl (fun e => e.arith (.imax x) x fun l => iMax x.ty (e.opA x l) (e.opB x l)) s
/-- ICMP writes no register: the flags of the wrapped difference. -/
def execIcmp (x : IntOp) (s : State) : Host.Outcome State Fault Refusal :=
  perform (.icmp x) x.ctl (fun e => e.result (.icmp x) x.ctl none x.flag fun l =>
    let y := iSub x.ty (e.opA x l) (e.opB x l) 0
    let r := y.bits x.ty false
    ⟨r, intCc x.ty.w r y.c y.v, 0⟩) s
/-- LEA: B is 32-bit. -/
def execLea (x : IntOp) (s : State) : Host.Outcome State Fault Refusal :=
  perform (.lea x) x.ctl (fun e => e.arith (.lea x) x fun l =>
    iLea x.ty (e.opA x l) (e.getSrc l x.b 1) (x.sub.toNat % 4)) s
def execIdot4 (x : IntOp) (s : State) : Host.Outcome State Fault Refusal :=
  perform (.idot4 x) x.ctl (fun e => e.arith (.idot4 x) x fun l =>
    iDot4 x.ty (e.opA x l) (e.opB x l) (e.opC x l) (x.sub.getLsbD 0) (x.sub.getLsbD 1)) s

end Machine
end Sys2Proof
end

