-- ==== Sys2Proof/Machine/Vb4.lean ====
section
/-! DEFINITION. VB4 blocks: scale words, code values, decoding and quantising (R97 to R101), and the order of a
matrix sum (R102). -/

namespace Sys2Proof

/-- Largest magnitude a quantiser uses (R99). -/
def VbType.qmax : VbType → Nat
  | .uint => 7 | .e2m1 => 6 | .p2 => 8 | .hyb => 12
/-- Code of a TYPE (R98). -/
def VbType.tag : VbType → Nat
  | .uint => 0 | .e2m1 => 1 | .p2 => 2 | .hyb => 3
/-- The TYPE with a code. -/
def VbType.ofCode (n : Nat) : VbType :=
  match n % 4 with
  | 0 => .uint | 1 => .e2m1 | 2 => .p2 | _ => .hyb
/-- Eight times the magnitude of code bits [2:0] in a signed TYPE (R99). -/
def VbType.mag8 (t : VbType) (c : Nat) : Nat :=
  match t with
  | .uint => 8 * c
  | .e2m1 => [0, 4, 8, 12, 16, 24, 32, 48].getD c 0
  | .p2 => [0, 1, 2, 4, 8, 16, 32, 64].getD c 0
  | .hyb => [0, 8, 16, 24, 32, 48, 64, 96].getD c 0
/-- Eight times the value of a code, and its sign (R99). -/
def VbType.val8 (t : VbType) (c : Nat) : Bool × Nat :=
  if c < 8 then (false, t.mag8 c)
  else match t with
    | .uint => (true, 8 * (16 - c))
    | _ => (true, t.mag8 (c - 8))

namespace Machine

/-- A NaN block and a zero block (R98). -/
def scaleNan (w : Word) : Bool := w.toNat / 2 ^ 24 == 0xFF
def scaleZero (w : Word) : Bool := w.toNat / 4 == 0
/-- The FP32 pattern of a scale (R98). -/
def scaleBits (w : Word) : Nat := w.toNat / 2 % 2 ^ 31 / 2 * 2
/-- Decode a code (R100): OF and NX alone are raised (R156). -/
def vbDecode (c : Nat) (w : Word) (f : FFmt) : Rounded :=
  if scaleNan w then ⟨f.nan, 0⟩
  else if scaleZero w then ⟨0, 0⟩
  else
    let (s, v) := (VbType.ofCode w.toNat).val8 c
    match fp32.val (scaleBits w) with
    | .fin _ m e =>
      let r := (FV.fin s (v * m) (e - 3)).round f .rn
      ⟨r.bits, r.fl &&& (flOF ||| flNX)⟩
    | _ => ⟨f.nan, 0⟩

/-- The format of a scale: 22 fraction bits. -/
def scaleFmt : FFmt := ⟨8, 22, true⟩
/-- A scale not below n / d (R101): 22 fraction bits, or a power of two not below 2^(−126). A pattern beyond the largest
scale says that there is none. -/
def scaleUp (p2 : Bool) (n d : Nat) : Nat :=
  if p2 then
    let k := ilog2 n d
    let exact := if 0 ≤ k then n == d * 2 ^ k.toNat else n * 2 ^ (-k).toNat == d
    let k := max (-126) (if exact then k else k + 1)
    (k + 127).toNat * 2 ^ 22
  else
    let r := roundRat scaleFmt .ru false n d
    r.bits
/-- A finite value as a rational. -/
def FV.rat : FV → Bool × Nat × Nat
  | .fin s m e => let (n, d) := ratOf m e; (s, n, d)
  | _ => (false, 0, 1)
/-- The code nearest x / S (R101): 8x against 8 value(c) S, ties to c[0] = 0, code 8 never. -/
def vbCode (t : VbType) (s : Bool) (n d : Nat) (sn sd : Nat) : Nat :=
  let dist (c : Nat) : Nat :=
    let (cs, v) := t.val8 c
    let a := 8 * n * sd
    let b := v * sn * d
    if cs == s then (if a < b then b - a else a - b) else a + b
  let best := ((List.range 16).filter (· != 8)).foldl (fun (b : Nat) c =>
    if dist c < dist b ∨ (dist c = dist b ∧ c % 2 < b % 2) then c else b) 0
  if (t.val8 best).2 = 0 then 0 else best
/-- What a quantised block is: its word and codes, or no scale that is large enough. -/
inductive Quant where
  | block (word : Word) (codes : List Nat)
  | none
/-- Quantise a block (R101), with a floor `m` for the scale (R155). (log 23, DESIGN CHOICE) -/
def vbQuantise (xs : List FV) (t : VbType) (p2 : Bool) (m : FV) : Quant :=
  let zero := List.replicate xs.length 0
  if xs.any fun x => match x with | .fin _ _ _ => false | _ => true then
    .block (BitVec.ofNat 32 (0xFF000000 + t.tag)) zero
  else if xs.all (·.isZero) then .block (BitVec.ofNat 32 t.tag) zero
  else
    let amax := xs.foldl (fun (b : FV) x => if b.abs.cmp x.abs == some (-1) then x.abs else b) (.fin false 0 0)
    let (_, n, d) := amax.rat
    let s0 := scaleUp p2 n (d * t.qmax)
    let above := (scaleFmt.val s0).cmp m == some (-1)
    let s := if above then (let (_, a, b) := m.rat; scaleUp p2 a b) else s0
    if scaleFmt.maxBits < s then .none else
    let (_, sn, sd) := (scaleFmt.val s).rat
    .block (BitVec.ofNat 32 (s * 4 + t.tag)) (xs.map fun x => let (g, n, d) := x.rat; vbCode t g n d sn sd)

/-! ## The matrix sum (R102) -/

/-- One group of at most eight products added to an accumulator. -/
def mxStep (acc : Nat) (ps : List (Nat × Nat)) : Nat :=
  let b (x : Nat) : FV := bf16.val (ftz bf16 x)
  let prods := ps.map fun p => ((b p.1).mul (b p.2))
  if prods.any (·.2) then fp32.nan
  else ftz fp32 ((exactSum .rn (fp32.val acc :: prods.map (·.1))).1.round fp32 .rn).bits
/-- The sum of an output element over K products (R102). -/
def mxSum (acc : Nat) (ps : List (Nat × Nat)) : Nat :=
  ((List.range ((ps.length + 7) / 8)).foldl (fun a g => mxStep a ((ps.drop (8 * g)).take 8)) (ftz fp32 acc))

end Machine
end Sys2Proof
end

