-- ==== Sys2Proof/Machine/Convert.lean ====
section
/-! DEFINITION. Row 0x7: conversions between formats and VB4 quantising (R152 to R157). -/

namespace Sys2Proof

/-- The floating format of a conversion format. -/
def Fmt.flt : Fmt → Machine.FFmt
  | .fp16 => Machine.fp16 | .bf16 => Machine.bf16 | .e4m3 => Machine.e4m3 | .e5m2 => Machine.e5m2
  | _ => Machine.fp32
/-- A signed integer format. -/
def Fmt.signed : Fmt → Bool
  | .s8 | .s16 | .s32 | .s64 => true
  | _ => false
/-- The smallest and largest value of an integer format. -/
def Fmt.range (f : Fmt) : Int × Int :=
  if f.signed then (-(2 : Int) ^ (f.bits - 1), (2 : Int) ^ (f.bits - 1) - 1) else (0, (2 : Int) ^ f.bits - 1)

namespace Machine

/-! ## CVT (R153) -/

/-- The value of an integer pattern. -/
def intOf (f : Fmt) (x : Nat) : Int :=
  if f.signed && decide (2 ^ (f.bits - 1) ≤ x) then (x : Int) - 2 ^ f.bits else x
/-- An integer result, wrapped to its format and extended to its register width (R90). -/
def intBits (f : Fmt) (v : Int) : DWord :=
  let x := (v % (2 : Int) ^ f.bits).toNat
  BitVec.ofNat 64 (intOf f x % (2 : Int) ^ (if f.bits = 64 then 64 else 32)).toNat
/-- Floating to floating. -/
def cvtFF (src dst : FFmt) (rm : Rm) (sat : Bool) (x : Nat) : Rounded :=
  match src.val x with
  | .nan => ⟨dst.nan, 0⟩
  | .inf s =>
    if sat then ⟨dst.maxBits + dst.sign s, 0⟩
    else if dst.inf then ⟨dst.infBits + dst.sign s, 0⟩ else ⟨dst.nan, flIV⟩
  | .fin s m e =>
    let r := (FV.fin s m e).round dst rm
    if sat && r.fl &&& flOF != 0 then ⟨dst.maxBits + dst.sign s, r.fl⟩ else r
/-- Integer to floating. -/
def cvtIF (src : Fmt) (dst : FFmt) (rm : Rm) (sat : Bool) (x : Nat) : Rounded :=
  let v := intOf src x
  let s := decide (v < 0)
  let r := roundRat dst rm s v.natAbs 1
  if sat && r.fl &&& flOF != 0 then ⟨dst.maxBits + dst.sign s, r.fl⟩ else r
/-- Floating to integer. -/
def cvtFI (src : FFmt) (dst : Fmt) (rm : Rm) (x : Nat) : Int × BitVec 5 :=
  let (lo, hi) := dst.range
  match src.val x with
  | .nan => (0, flIV)
  | .inf s => (if s then lo else hi, flIV)
  | .fin s m e =>
    let (q, inexact) := roundMag rm s m e
    let v : Int := if s then -(q : Int) else q
    if v < lo then (lo, flIV) else if hi < v then (hi, flIV) else (v, if inexact then flNX else 0)
/-- A conversion: the register pattern and the exceptions. -/
def cvt (src dst : Fmt) (rm : Rm) (sat : Bool) (x : Nat) : DWord × BitVec 5 :=
  if src.isInt then
    if dst.isInt then
      let v := intOf src x
      (intBits dst (if sat then max dst.range.1 (min dst.range.2 v) else v), 0)
    else (let r := cvtIF src dst.flt rm sat x; (BitVec.ofNat 64 r.bits, r.fl))
  else if dst.isInt then (let (v, fl) := cvtFI src.flt dst rm x; (intBits dst v, fl))
  else (let r := cvtFF src.flt dst.flt rm sat x; (BitVec.ofNat 64 r.bits, r.fl))
def execCvt (x : CvtOp) (s : State) : Host.Outcome State Fault Refusal :=
  perform (.cvt x) x.ctl (fun e =>
    e.result (.cvt x) x.ctl (some (x.d, if x.dst.bits = 64 then 2 else 1)) none fun l =>
      let a := (e.getN l x.a (if x.src.bits = 64 then 2 else 1)).toNat / 2 ^ (x.el.toNat * x.src.bits) % 2 ^ x.src.bits
      let (r, fl) := cvt x.src x.dst x.rm x.sat a
      ⟨r, 0, fl⟩) s
/-- PACK2 (R154): each element by the rule of CVT without its SAT, then the clamp to [0, 1]. -/
def execPack2 (x : HalfOp) (s : State) : Host.Outcome State Fault Refusal :=
  perform (.pack2 x) x.ctl (fun e => e.result (.pack2 x) x.ctl (some (x.d, 1)) none fun l =>
    let f := halfFmt x.fp16
    let a := fp32.prep x.absA x.negA (e.get l x.a).toNat
    let b := fp32.prep false x.negB (e.getSrc32 l x.b).toNat
    let r0 := (cvtFF fp32 f x.rm false a).sat f x.sat
    let r1 := (cvtFF fp32 f x.rm false b).sat f x.sat
    ⟨BitVec.ofNat 64 (r0.bits + r1.bits * 2 ^ 16), 0, r0.fl ||| r1.fl⟩) s

/-! ## VB4 (R155 to R157) -/

/-- Write the code byte of a slot and the scale word to a lane's pair. -/
def putBlock (e : Env) (i : Instr) (d : Opnd) (word : Word) (byte : Nat → Byte) (w : Wave) : Wave :=
  e.all.foldl (fun w l =>
    let r : DWord := word ++ (byte l).setWidth 32
    (w.setN e.clk (latency i) l d 2 r).latch e.clk (latency i) l (r.setWidth 32)) w
/-- QNTB. m is read in the lowest lane that holds an active thread: a collective names lanes (R22, R31), and a helper's C gives
no m (log 86, DESIGN CHOICE). An m of −0 is no negative value: it gives the block of 0 and raises no IV. (log 77, DESIGN CHOICE) Where m is so
large that no scale reaches it, the spec states no block: word and codes are free values. (log 23, DESIGN CHOICE) -/
def execQntb (x : QntbOp) (s : State) : Host.Outcome State Fault Refusal :=
  perform (.qntb x) x.ctl (fun e =>
    if e.all.isEmpty then .done e.m e.lanes else
    let xs := (List.range 64).flatMap fun t =>
      if e.all.contains t then [f32 (e.get t x.a), f32 (e.get t x.b)] else [.fin false 0 0, .fin false 0 0]
    let mv := f32 (e.get (e.act.headD 0) x.c)
    let bad := match mv with
      | .nan => true
      | .inf _ => true
      | .fin g n _ => g && n != 0
    let m0 : FV := if bad then .fin false 0 0 else mv
    let fx (w : Wave) : Wave := if bad then e.all.foldl (fun w l => w.orFpx l flIV) w else w
    match vbQuantise xs x.ty x.p2 m0 with
    | .block word codes =>
      .done (e.upd e.m fun w => fx (putBlock e (.qntb x) x.d word (fun t =>
        BitVec.ofNat 8 (codes.getD (2 * t) 0 + codes.getD (2 * t + 1) 0 * 16)) w)) e.lanes
    | .none =>
      let v (k : Nat) : DWord := Config.freeValue (e.m.fresh + k)
      .done (e.upd { e.m with fresh := e.m.fresh + 65 } fun w =>
        fx (putBlock e (.qntb x) x.d ((v 64).setWidth 32) (fun t => (v t).setWidth 8) w)) e.lanes) s
/-- The format DQNT decodes to. -/
def dqntFmt : DFmt → FFmt
  | .fp32 => fp32 | .bf16 => bf16 | .fp16 => fp16
def execDqnt (x : DqntOp) (s : State) : Host.Outcome State Fault Refusal :=
  perform (.dqnt x) x.ctl (fun e => e.result (.dqnt x) x.ctl (some (x.d, 1)) none fun l =>
    let code (k : Nat) := (e.get l x.a).toNat / 2 ^ (4 * k) % 16
    let r (k : Nat) := vbDecode (code k) (e.get l x.b) (dqntFmt x.dfmt)
    let n := x.n.toNat
    if x.dfmt = .fp32 then ⟨BitVec.ofNat 64 (r n).bits, 0, (r n).fl⟩
    else ⟨BitVec.ofNat 64 ((r n).bits + (r (n + 1)).bits * 2 ^ 16), 0, (r n).fl ||| (r (n + 1)).fl⟩) s
/-- Make a block scale word (R157). -/
def sclwMake (ty : VbType) (rm : Rm) (a : Word) : Rounded :=
  let nanW := 0xFF000000 + ty.tag
  match f32 a with
  | .nan => ⟨nanW, flIV⟩
  | .inf _ => ⟨nanW, 0⟩
  | .fin g m e =>
    if m = 0 then ⟨ty.tag, 0⟩
    else if g then ⟨nanW, flIV⟩
    else
      let r := (FV.fin false m e).round scaleFmt rm
      if scaleFmt.maxBits < r.bits then ⟨scaleFmt.maxBits * 4 + ty.tag, flOF ||| flNX⟩
      else ⟨r.bits * 4 + ty.tag, r.fl &&& flNX⟩
/-- The FP32 value of a block scale word (R157). -/
def sclwVal (w : Word) : Nat := if scaleNan w then fp32.nan else if scaleZero w then 0 else scaleBits w
def execSclw (x : SclwOp) (s : State) : Host.Outcome State Fault Refusal :=
  perform (.sclw x) x.ctl (fun e => e.result (.sclw x) x.ctl (some (x.d, 1)) none fun l =>
    if x.val then ⟨BitVec.ofNat 64 (sclwVal (e.get l x.a)), 0, 0⟩
    else (let r := sclwMake x.ty x.rm (e.get l x.a); ⟨BitVec.ofNat 64 r.bits, 0, r.fl⟩)) s

end Machine
end Sys2Proof
end

