-- ==== Sys2Proof/Machine/Engine.lean ====
section
/-! DEFINITION. How the engines reach memory (R174, R183, R287, R288, R303, R385): reads with grove waits and delivered
lines (R235, R249), writes of scattered bytes, and remote ranges over the Swegohel Link. -/

namespace Sys2Proof.Machine

/-! ## Remote ranges (R383 to R385) -/

/-- The device and offset of a remote address. (log 21, DESIGN CHOICE) -/
def Mach.remoteAt (m : Mach) (asid : BitVec 16) (va : Nat) : Option (Nat × Nat) :=
  match (m.translate asid va).2 with
  | some t => if t.cls = 3 then remoteOf (t.pa va) else none
  | none => none
/-- The rights of a page, whether it is a remote range or not: the fault an access of a copy meets (R287, R385). -/
def Mach.remoteCheck (m : Mach) (asid : BitVec 16) (sys : Bool) (acc : Acc) (va : Nat) : Mach × Option Nat :=
  match m.translate asid va with
  | (m, none) => (m, some Code.page)
  | (m, some t) =>
    let (m, e) := m.tlbOf t
    match permCheck e sys false acc 0 va with
    | .bad _ code _ => (m, some code)
    | _ => (m, none)
/-- The lowest address of a range that lies in a debug window (R342). -/
def Mach.windowIn (m : Mach) (asid : BitVec 16) (va n : Nat) : Option Nat :=
  ((List.range ((va + n + 4095) / 4096 - va / 4096)).find? fun i =>
    match (m.translate asid ((va / 4096 + i) * 4096)).2 with
    | some t => t.cls == 4
    | none => false).map fun i => max va ((va / 4096 + i) * 4096)
/-- The port by which a device of a ring of n reaches another: the shorter way, port 1 where both are equal
(log 21, DESIGN CHOICE). -/
def ringPort (n a b : Nat) : Nat := if (b + n - a % n) % n ≤ n / 2 then 1 else 0
/-- The port that leads to a device, and the one at which what it sends arrives (R383). -/
def Link.portTo (k : Link) (d : Nat) : Nat := ringPort k.count k.device d
def Link.portFrom (k : Link) (d : Nat) : Nat := 1 - ringPort k.count d k.device
/-- A port is trained and not down. -/
def Link.works (k : Link) (port : Nat) : Bool :=
  match k.ports[port]? with
  | some p => p.trained && !p.down
  | none => false
/-- The link reaches a device. -/
def Link.up (k : Link) (d : Nat) : Bool := decide (d < k.count) && k.works (k.portTo d)
/-- The port to a device takes n flits more: its buffer has room, and the neighbour has given the credits (R384). -/
def Link.room (k : Link) (d n : Nat) : Bool :=
  k.up d && (match k.ports[k.portTo d]? with
    | some p => decide (p.replay.length + n ≤ 512 ∧ n ≤ p.credits)
    | none => false)
/-- A port sends a flit, which stays in the buffer until it is acknowledged, for one of its credits (R384). -/
def Port.send (p : Port) (d ty : Nat) (payload : List Byte) : Port :=
  let f : Flit := ⟨BitVec.ofNat 4 ty, p.nextSeq, BitVec.ofNat 2 d, 0, 0, payload ++ List.replicate (224 - payload.length) 0⟩
  { p with replay := p.replay ++ [f], nextSeq := p.nextSeq + 1, credits := p.credits - 1, sent := some f }
/-- Send one flit to a device. (log 21, DESIGN CHOICE) -/
def Mach.sendFlit (m : Mach) (d ty : Nat) (payload : List Byte) : Mach :=
  { m with link := { m.link with ports := lset m.link.ports (m.link.portTo d) fun p => p.send d ty payload } }.countDevice 0x0204 1
/-- Ask another device for bytes of its memory, once, with a read request flit, and take the data once it has come (R384, R385).
(log 46, DEDUCED) -/
def Mach.remoteFetch (m : Mach) (core id d p va n : Nat) : Rd :=
  match m.link.reads.find? fun r => r.core == core && r.id == id && r.va == va with
  | some r => (match r.data with
    | some [] => .bad m Code.link va
    | some bs => .ok m bs
    | none => .again m)
  | none =>
    if !m.link.up d || !m.link.works (m.link.portFrom d) then .bad m Code.link va
    else if !m.link.room d 1 then .again m
    else
      let m := m.sendFlit d 2 (leBytes 8 p ++ leBytes 8 n)
      .again { m with link := { m.link with reads := m.link.reads ++ [⟨core, id, va, n, d, none⟩] } }
/-- What a reader has asked other devices for is used up, or no longer wanted. -/
def Mach.fetched (m : Mach) (core id : Nat) : Mach :=
  if m.link.reads.isEmpty then m
  else { m with link := { m.link with reads := m.link.reads.filter fun r => !(r.core == core && r.id == id) } }
/-- The names under which the LLC may hold the sectors of a range of physical addresses (R178). -/
def Mach.namesAt (m : Mach) (pa n : Nat) : List (BitVec 16 × Nat) :=
  ((List.range ((pa + n + 31) / 32 - pa / 32)).map (· + pa / 32)).filterMap fun s =>
    (m.remap.find? fun e => e.line == s / 2).map fun e => (e.asid, e.vl * 64 + s % 2 * 32)
/-- Write back and invalidate the LLC copies of a range of physical lines. -/
def Mach.dropRange (m : Mach) (pa n : Nat) : Mach :=
  ((List.range ((pa + n + 63) / 64 - pa / 64)).map (· + pa / 64)).foldl (fun m l => m.dropPhys l) m
/-- Read at the controller that owns a range: LLC copies go first, and a locked sector holds it back (R178, R214, R385). -/
def Mach.ownerRead (m : Mach) (pa n va : Nat) : Rd :=
  if !m.consigns.isEmpty && (m.namesAt pa n).any fun p => m.locked p.1 p.2 none then .again m else
  match (m.dropRange pa n).paRead pa n with
  | (m, bs, none) => .ok m bs
  | (m, _, some _) => .bad m Code.dataUncorrectable va
/-- Write at the controller that owns a range (R178, R196, R214, R385). -/
def Mach.ownerWrite (m : Mach) (pa : Nat) (bs : List Byte) : Rd :=
  let ns := if m.consigns.isEmpty then [] else m.namesAt pa bs.length
  if ns.any fun p => m.locked p.1 p.2 none then .again m else
  .ok (((ns.foldl (fun m p => m.noteWrite p.1 p.2 none) m).dropRange pa bs.length).paWrite pa bs) []
/-- Where an address of a copy lies: where its class says, in the window of this device at a physical address, or in that of
another device (R385). -/
inductive Side where
  | here
  | own (pa : Nat)
  | other (d pa : Nat)
def Mach.sideOf (m : Mach) (asid : BitVec 16) (va : Nat) : Side :=
  match m.remoteAt asid va with
  | none => .here
  | some (d, p) => if d = m.link.device then .own p else .other d p
/-- Read bytes within a sector from where they lie; `here` reads this device's own. -/
def Mach.sideRead (m : Mach) (core id : Nat) (asid : BitVec 16) (sys : Bool) (va n : Nat) (here : Mach → Rd) : Rd :=
  let checked (f : Mach → Rd) : Rd := match m.remoteCheck asid sys .load va with
    | (m, some code) => .bad m code va
    | (m, none) => f m
  match m.sideOf asid va with
  | .here => here m
  | .own p => checked fun m => m.ownerRead p n va
  | .other d p => checked fun m => m.remoteFetch core id d p va n
/-- The fault that a write within a sector meets where it lies: its code and address. -/
def Mach.sideCheck (m : Mach) (asid : BitVec 16) (sys : Bool) (va : Nat) (here : Mach → Mach × Option (Nat × Nat)) :
    Mach × Option (Nat × Nat) :=
  let checked (ok : Bool) : Mach × Option (Nat × Nat) := match m.remoteCheck asid sys .store va with
    | (m, some code) => (m, some (code, va))
    | (m, none) => (m, if ok then none else some (Code.link, va))
  match m.sideOf asid va with
  | .here => here m
  | .own _ => checked true
  | .other d _ => checked (m.link.up d)

/-! ## Reading -/

/-- Grove data delivered to an engine query that has not used it yet (R249). -/
def Mach.servedTo (m : Mach) (who : Requester) : List (Nat × List Byte) :=
  (m.replies.filter fun r => r.who == who && r.code == 0).map fun r => (r.sector, r.bytes)
/-- The fault code an engine query was answered with, and the address of the sector. -/
def Mach.refusedTo (m : Mach) (who : Requester) : Option (Nat × Nat) :=
  (m.replies.find? fun r => r.who == who && r.code != 0).map fun r => (r.code, r.sector % 2 ^ 43 * 32)
/-- The answers of a query are used up. -/
def Mach.answered (m : Mach) (who : Requester) : Mach :=
  if m.replies.isEmpty then m else { m with replies := m.replies.filter fun r => r.who != who }
/-- A grove request is still outstanding. -/
def Mach.asking (m : Mach) (r : Option Nat) : Bool :=
  match r with
  | some r => m.reqs.any fun q => q.id == r
  | none => false
/-- Read n bytes within a sector for an engine: path 0 at the LLC, 2 in the texel cache, 3 in the tile read buffer. A
bank-op page is read at the bank where the engine may (R174). -/
def Mach.engineOne (m : Mach) (core : Nat) (who : Requester) (asid : BitVec 16) (sys : Bool) (path : Nat) (bank : Bool)
    (va n : Nat) : Rd :=
  match (m.servedTo who).lookup (secKey asid va) with
  | some bs => .ok m ((bs.drop (va % 32)).take n)
  | none =>
    if m.locked asid va none then .again m else
    match m.checkNow asid sys (if path = 4 then .fetch else .load) path va 0 with
    | (m, .ok 4) => .bad m Code.perm va
    | (m, .ok 3) => m.bankRead asid va n
    | (m, .ok 2) => if !bank then .bad m Code.bankopRange va else if m.bankBusy asid va n then .again m else m.bankRead asid va n
    | (m, .ok _) =>
      if path = 2 then m.texelRead core asid va n else if path = 3 then m.tileRead core asid va n else m.llcRead asid va n
    | (m, .bad _ code a) => .bad m code a
    | (m, .walk a) => .bad m Code.page a
/-- Read a run of bytes for an engine. -/
def Mach.engineRun (m : Mach) (core : Nat) (who : Requester) (asid : BitVec 16) (sys : Bool) (path : Nat) (bank : Bool)
    (va n : Nat) : Rd :=
  ((List.range ((va + n + 31) / 32 - va / 32)).map fun i => i + va / 32).foldl (fun r s =>
    match r with
    | .ok m bs =>
      let a := max va (32 * s)
      let b := min (va + n) (32 * s + 32)
      (match m.engineOne core who asid sys path bank a (b - a) with
      | .ok m x => .ok m (bs ++ x)
      | r => r)
    | r => r) (.ok m [])
/-- Read single bytes; an absent address reads 0. -/
def Mach.engineBytes (m : Mach) (core : Nat) (who : Requester) (asid : BitVec 16) (sys : Bool) (path : Nat) (bank : Bool)
    (vas : List (Option Nat)) : Rd :=
  vas.foldl (fun r va =>
    match r, va with
    | .ok m bs, none => .ok m (bs ++ [0])
    | .ok m bs, some va =>
      (match m.engineOne core who asid sys path bank va 1 with
      | .ok m x => .ok m (bs ++ x)
      | r => r)
    | r, _ => r) (.ok m [])

/-! ## Writing -/

/-- Check an engine's write of bytes: the first sector that fails, with the first address in it. -/
def Mach.engineCheck (m : Mach) (asid : BitVec 16) (sys bank : Bool) (bs : List (Nat × Byte)) : Mach × Option (Nat × Nat) :=
  (bs.map fun p => p.1 / 32).eraseDups.foldl (fun a k =>
    if a.2.isSome then a else
    let va := ((bs.find? fun p => p.1 / 32 == k).map (·.1)).getD (32 * k)
    match a.1.checkNow asid sys .store 0 va 0 with
    | (m, .ok 4) => (m, some (Code.perm, va))
    | (m, .ok 2) => (m, if bank then none else some (Code.bankopRange, va))
    | (m, .ok _) => (m, none)
    | (m, .bad _ code _) => (m, some (code, va))
    | (m, .walk _) => (m, some (Code.page, va))) (m, none)
/-- Write bytes for an engine, each memory sector as one write. -/
def Mach.engineWrite (m : Mach) (asid : BitVec 16) (sys bank : Bool) (gid : Nat) (bs : List (Nat × Byte)) : Rd :=
  let secs := (bs.map fun p => p.1 / 32).eraseDups
  if secs.any fun k => m.agentHeld asid (32 * k) 32 then .again m else
  match m.engineCheck asid sys bank bs with
  | (m, some (code, va)) => .bad m code va
  | (m, none) =>
    secs.foldl (fun r k =>
      match r with
      | .ok m _ =>
        let mine := bs.filter fun p => p.1 / 32 = k
        (match m.translate asid (32 * k) with
        | (m, some t) =>
          let m := if t.cls = 0 then m.llcWrite asid (32 * k) (mine.map fun p => (p.1 % 32, p.2)) none
            else m.commitUncached asid k (mine.map fun p => (p.1 % 32, p.2)) none
          .ok (m.cmdWrote gid asid (32 * k) 32) []
        | (m, none) => .bad m Code.page (32 * k))
      | r => r) (.ok m [])

end Sys2Proof.Machine
end

