-- ==== Sys2Proof/Machine/Grove.lean ====
section
/-! DEFINITION. Generated memory: the miss path (R235 to R242), waystations (R243, R244), FST, FILLC, FILLX and GRVINV
(R245 to R249), the placement of fill tasks (R50, R236), and the events of the granule homes. -/

namespace Sys2Proof.Machine

/-! ## Requesters (R235, R244) -/

/-- The group a requester belongs to. -/
def Mach.whoGroup (m : Mach) : Requester → Option Group
  | .entry gid _ _ _ => m.group gid
  | .ctab gid => m.group gid
  | .vector gid _ => m.group gid
  | .porter core id => ((m.core core).porterQ.find? fun c => c.id == id).bind fun c => m.group c.gid
  | .ray core id _ => ((m.core core).rayQ.find? fun c => c.id == id).bind fun c => m.group c.gid
  | _ => none
/-- A request is over. -/
def Mach.dropReq (m : Mach) (id : Nat) : Mach := { m with reqs := m.reqs.filter fun q => q.id != id }
/-- Change a request. -/
def Mach.setReq (m : Mach) (q : GroveReq) : Mach := { m with reqs := m.reqs.map fun r => if r.id == q.id then q else r }
/-- The lanes of a wave no longer wait for a request: they go on when it was their last. -/
def Mach.unpark (m : Mach) (gid wave id : Nat) : Mach :=
  m.updWave gid wave fun w =>
    w.updLanes (w.live.filter fun l => (w.lane l).wait.awaits id) fun t => { t with wait := t.wait.over id, age := 0 }
/-- The lanes of a wave park on a waystation for a request (R47); the first one of an entry is its parking. -/
def Mach.parkAt (m : Mach) (gid wave id : Nat) : Mach :=
  match m.group gid, m.wave gid wave with
  | some g, some w =>
    let ls := w.live.filter fun l => (w.lane l).wait.awaits id
    let m := if ls.any fun l => (w.lane l).wait.parked then m else m.count g.core g.asid 0x0009 1 (some (gid, wave))
    m.updWave gid wave fun w => w.updLanes ls fun t => { t with wait := t.wait.parks id }
  | _, _ => m
/-- The bytes of a sector for the accesses that lie in it, by lane. -/
def giveAll (asid : BitVec 16) (rq : List (Nat × Nat)) (bs : List (Nat × List Byte)) (d : Map (List Byte)) : Map (List Byte) :=
  rq.foldl (fun d p => match bs.lookup (secKey asid p.2) with
    | some b => mput d (givenKey p.1 asid p.2) b
    | none => d) d
/-- Serve a request (R244, R249): whoever waits tries again and finds the line. Bytes that no memory keeps (a stale
granule) are delivered to the access itself; the constant table is loaded while the LLC still holds them. -/
def Mach.answerReq (m : Mach) (q : GroveReq) (bs : List (Nat × List Byte)) : Mach :=
  let m := m.dropReq q.id
  match q.who with
  | .entry gid wave loud quiet =>
    (m.unpark gid wave q.id).updWave gid wave fun w => { w with delivered := giveAll q.asid (loud ++ quiet) bs w.delivered }
  | .ctab gid => m.loadCtab gid []
  | .prefetch => m
  | _ => { m with replies := m.replies ++ bs.map fun p => ⟨q.id, q.who, p.1, p.2, 0, 0⟩ }
/-- A request ends with a fault of its range of `n` bytes at `va` (R240, R244): precisely at a wave entry's access,
naming the threads whose access lies there; in a command's own form for an engine query. A thread whose fault is
suppressed reads zeros, and its consignment aborts. (log 50, DEDUCED) -/
def Mach.refuseReq (m : Mach) (q : GroveReq) (code info va n : Nat) : Mach :=
  let m := m.dropReq q.id
  match q.who with
  | .entry gid wave loud quiet =>
    let here (p : Nat × Nat) : Bool := decide (va ≤ p.2 ∧ p.2 < va + n)
    let names := loud.filter here
    let shy := quiet.filter here
    let give (m : Mach) (l : Nat) : Mach := match m.openConsign gid wave l with
      | some c => m.abortConsign c 4 0 (some (gid, wave))
      | none => m
    (match m.wave gid wave with
    | none => m
    | some w =>
      let waits := w.live.any fun l => (w.lane l).wait.awaits q.id
      let names := if waits then names else []
      let none0 (w : Wave) : Map (List Byte) := giveAll q.asid shy (shy.map fun p => (secKey q.asid p.2, List.replicate 32 0)) w.delivered
      let m := ((if q.path = 4 then names else []) ++ shy).foldl (fun m p => give m p.1) m
      let m := m.unpark gid wave q.id
      match names with
      | p :: _ =>
        if q.path ≠ 4 then m.updWave gid wave fun w => { w with
          denied := w.denied ++ names.map fun p => ⟨p.1, p.2, code, info⟩
          delivered := none0 w } else
        let t := w.lane p.1
        let trap : PendTrap := ⟨t.pc, t.prio, maskOf (names.map (·.1)), code, info, BitVec.ofNat 64 p.2, false⟩
        m.updWave gid wave fun w => { w with traps := w.traps ++ [trap] }
      | [] => m.updWave gid wave fun w =>
        { w with delivered := none0 w })
  | .ctab gid => m.loadCtab gid [(va, n, code, info)]
  | .prefetch => m
  | _ => { m with replies := m.replies ++ [⟨q.id, q.who, secKey q.asid q.va, [], code, info⟩] }
/-- A new attempt (R237): whoever asked tries again, from the checks of R175 on. -/
def Mach.retryReq (m : Mach) (q : GroveReq) : Mach :=
  match q.who with
  | .entry gid wave _ _ => (m.dropReq q.id).unpark gid wave q.id
  | .ctab gid => (m.dropReq q.id).loadCtab gid []
  | .prefetch => m.setReq { q with stage := .missed }
  | _ => m.dropReq q.id

/-! ## Grove entries and fill records (R232, R236) -/

/-- The record of a fill of granule g of grove i, with a requester priority. -/
def Grove.task (e : Grove) (i g prio : Nat) : TaskRec :=
  { entry := BitVec.ofNat 64 e.entry, arg := BitVec.ofNat 64 e.arg, tileX := BitVec.ofNat 32 g, tileY := BitVec.ofNat 32 (g / 2 ^ 32)
    tileZ := BitVec.ofNat 32 i, q2x2 := e.shape / 2 ^ 30 % 2 == 1, gx := BitVec.ofNat 10 e.shape
    gy := BitVec.ofNat 10 (e.shape / 2 ^ 10), gz := BitVec.ofNat 10 (e.shape / 2 ^ 20), succ := 0
    convoy := BitVec.ofNat 2 (e.res / 2 ^ 13), spad := BitVec.ofNat 9 (e.res / 2 ^ 4), xpre := BitVec.ofNat 2 (e.res / 4)
    base := BitVec.ofNat 2 e.res, bars := BitVec.ofNat 6 e.bars, split := false, fill := true
    wcount := BitVec.ofNat 7 e.wcount, allot := BitVec.ofNat 6 e.allot, flvl := BitVec.ofNat 2 e.flvl
    tpri := BitVec.ofNat 8 (max e.bpri prio), ctab := BitVec.ofNat 64 e.ctab, link := 0
    bad := e.shape / 2 ^ 31 != 0 || e.res / 2 ^ 15 != 0 }
/-- A malformed entry (R232). -/
def Grove.malformed (e : Grove) : Bool :=
  e.resv || e.flvl == 0 || e.gran == 3 || decide (e.size < 16 ∨ 47 < e.size) || e.base % 2 ^ e.size != 0
    || e.res / 2 ^ 13 % 4 != 0 || !{ e.task 0 0 0 with fill := false }.ok
/-- The grove of an address: its index and entry, when the page names one that is valid and holds it (R232). -/
def Mach.groveAt (m : Mach) (asid : BitVec 16) (va : Nat) : Mach × Option (Nat × Grove) :=
  match m.translate asid va with
  | (m, some t) =>
    if t.cls ≠ 1 then (m, none) else
    (match m.groveBytes asid t.gidx with
    | (m, some bs) => let e := Grove.ofBytes bs
      (m, if e.has va then some (t.gidx, e) else none)
    | (m, none) => (m, none))
  | (m, none) => (m, none)

/-! ## Priorities (R242) -/

/-- A group's requester priority: a fill's is its effective priority. -/
def Mach.effPrio (m : Mach) (g : Group) : Nat :=
  match g.fillWs.bind (mget m.ways) with
  | some w => if w.filler = some g.gid then max g.task.tpri.toNat w.prio.toNat else g.task.tpri.toNat
  | none => g.task.tpri.toNat
/-- The priority of a request. -/
def Mach.reqPrio (m : Mach) (q : GroveReq) : Nat :=
  match m.whoGroup q.who with
  | some g => max q.prio.toNat (m.effPrio g)
  | none => q.prio.toNat
/-- A fill record's TPRI is raised in place. -/
def FillEntry.raise (ws p : Nat) (e : FillEntry) : FillEntry :=
  if e.ws = ws then { e with task := { e.task with tpri := BitVec.ofNat 8 (max e.task.tpri.toNat p) } } else e
def DepotItem.raise (ws p : Nat) : DepotItem → DepotItem
  | .fill e => .fill (e.raise ws p)
  | x => x
/-- Raise a waystation's priority, the queued record or, through a running fill, the waystations it waits on; levels
rise along the chain, so it is at most three long. -/
def Mach.raisePrio : Nat → Mach → Nat → Nat → Mach
  | 0, m, _, _ => m
  | n + 1, m, ws, p =>
    match mget m.ways ws with
    | none => m
    | some w =>
      if p ≤ w.prio.toNat then m else
      let m := { m with ways := mput m.ways ws { w with prio := BitVec.ofNat 8 p } }
      match w.state with
      | .queued => { m with
          fillQ := m.fillQ.map fun q => (q.1, q.2.map (FillEntry.raise ws p))
          rings := m.rings.map fun r => (r.1, { r.2 with items := r.2.items.map (DepotItem.raise ws p) }) }
      | _ =>
        (m.reqs.filterMap fun q => match q.stage with
          | .waiting x => if (m.whoGroup q.who).any (fun g => some g.gid == w.filler) then some x else none
          | _ => none).foldl (fun m x => Mach.raisePrio n m x p) m

/-! ## Waystations (R237, R243) -/

/-- Waystations of a slice, and waiter entries in use there. -/
def Mach.waysOf (m : Mach) (slice : Nat) : List (Nat × Waystation) := m.ways.filter fun p => p.1 / 64 == slice
def Mach.waitersOf (m : Mach) (slice : Nat) : Nat := (m.waysOf slice).foldl (fun n p => n + p.2.waiters.length) 0
/-- Places of a slice's waiter pool that waystations hold, and the lowest free one. (log 83, DESIGN CHOICE) -/
def poolUsed (ws : Map Waystation) (slice : Nat) : List Nat :=
  (ws.filter fun p => p.1 / 64 == slice).flatMap fun p => p.2.waiters.map (·.1)
def poolFree (ws : Map Waystation) (slice : Nat) : Nat :=
  ((List.range 2048).find? fun i => !(poolUsed ws slice).contains i).getD 0
/-- A waystation as its table holds it (R326): WHEAD is the pool entry of its first waiter. -/
def Waystation.bits (w : Waystation) : BitVec 128 :=
  BitVec.ofNat 128 (w.asid.toNat * 2 ^ 112 + w.grove % 2 ^ 10 * 2 ^ 102 + w.granule % 2 ^ 42 * 2 ^ 60
    + (match w.state with | .queued => 1 | .running => 2 | .commit => 3) * 2 ^ 58 + (if w.stale then 2 ^ 57 else 0)
    + w.prio.toNat * 2 ^ 48 + w.flvl % 4 * 2 ^ 46 + ((w.waiters.head?.map (·.1)).getD 0) % 2 ^ 11 * 2 ^ 35
    + w.waiters.length % 2 ^ 12 * 2 ^ 23)
/-- The limits of R237 for a level. -/
def waysMax (level : Nat) : Nat := if level ≤ 1 then 47 else if level = 2 then 55 else 63
def waitersMax (level : Nat) : Nat := if level ≤ 1 then 1535 else if level = 2 then 1791 else 2047
/-- Waystations and waiter entries of a slice that the restore at hand waits for: new misses leave them to it (R243). -/
def Mach.wanted (m : Mach) (slice : Nat) : Nat × Nat :=
  (m.board.wants.filter fun p => p.1 == slice).foldl (fun a p => (a.1 + p.2.1, a.2 + p.2.2)) (0, 0)
/-- A new miss of a level may take a waiter entry of a slice, and a waystation (R237, R243). -/
def Mach.waiterFree (m : Mach) (slice level : Nat) : Bool := decide (m.waitersOf slice + (m.wanted slice).2 ≤ waitersMax level)
def Mach.wayFree (m : Mach) (slice level : Nat) : Bool :=
  decide ((m.waysOf slice).length + (m.wanted slice).1 ≤ waysMax level) && m.waiterFree slice level
/-- The pending waystation of a granule that new misses find. -/
def Mach.findWay (m : Mach) (asid : BitVec 16) (grove g : Nat) : Option (Nat × Waystation) :=
  m.ways.find? fun p => p.2.asid == asid && p.2.grove == grove && p.2.granule == g && !p.2.stale
/-- A wave entry whose request waits on a waystation parks (R47, R235). -/
def Mach.parkReq (m : Mach) (q : GroveReq) : Mach :=
  match q.who with
  | .entry gid wave _ _ => m.parkAt gid wave q.id
  | _ => m
/-- A request joins a waystation and may raise its priority. -/
def Mach.join (m : Mach) (q : GroveReq) (ws : Nat) : Mach :=
  match mget m.ways ws with
  | none => m
  | some w =>
    let m := { m with ways := mput m.ways ws { w with waiters := w.waiters ++ [(poolFree m.ways (ws / 64), q.id)] } }.parkReq q
    Mach.raisePrio 4 (m.setReq { q with stage := .waiting ws }) ws (m.reqPrio q)
/-- The core whose fill queue takes a record (R236): the one beneath the home, or the first of its convoy with an idle
reserve. -/
def Mach.fillCore (m : Mach) (home level : Nat) : Nat :=
  if m.reserveIdle home level then home else
  (((List.range 4).map (· + home / 4 * 4)).find? fun n => m.reserveIdle n level).getD home
/-- Start a fill: a waystation, its record, and the first waiter. -/
def Mach.startFill (m : Mach) (q : GroveReq) (i : Nat) (e : Grove) (home : Nat) : Mach :=
  let g := e.granule q.va
  let prio := m.reqPrio q
  let place := ((List.range 64).find? fun k => (mget m.ways (64 * home + k)).isNone).getD 0
  let ws := 64 * home + place
  let core := m.fillCore home e.flvl
  let w : Waystation := ⟨q.asid, i, g, .queued, false, BitVec.ofNat 8 prio, e.flvl, [(poolFree m.ways home, q.id)], [], none, core, e.base + g * 2 ^ e.lg, e.lg⟩
  let f : FillEntry := ⟨q.asid, e.task i g prio, ws, m.nextSerial⟩
  let m := ({ m with ways := mput m.ways ws w, nextSerial := m.nextSerial + 1 }.setReq { q with stage := .waiting ws }).parkReq q
  (m.push q.asid (32 + 3 * core + (e.flvl - 1)) (.fill f)).countSlice home 0x0105 1
/-- A request refused a waystation or a waiter entry tries again after 256 clk (R237). -/
def Mach.refuseWay (m : Mach) (q : GroveReq) : Mach := m.setReq { q with stage := .refused (m.clk + 256) }
/-- The granule home decides (R235 steps 2 and 3, R237 to R239). -/
def Mach.atHome (m : Mach) (q : GroveReq) (i : Nat) (e : Grove) : Mach :=
  let g := e.granule q.va
  let va := e.base + g * 2 ^ e.lg
  let home := homeSlice q.asid va
  if e.malformed then m.refuseReq q Code.genAbort 0xF2 (q.va / 32 * 32) 32
  else if 0 < q.level ∧ e.flvl ≤ q.level then m.refuseReq q Code.genOrder 0 va (2 ^ e.lg)
  else match m.findWay q.asid i g with
    | some (ws, w) => if m.waiterFree (ws / 64) w.flvl then m.join q ws else m.refuseWay q
    | none =>
      let nest := ((m.ctxOf q.asid).map (·.nestmax)).getD 0
      if nest < e.flvl then m.refuseReq q Code.genDepth 0 va (2 ^ e.lg)
      else if m.wayFree home e.flvl then m.startFill q i e home
      else m.refuseWay q

/-! ## Events of the miss path -/

/-- GROVE_MISS (R232, R235): the entry is checked, then the home slice probes the victim store. -/
def Mach.groveMissed (m : Mach) (n : Nat) : Ev :=
  match m.reqs.find? fun q => q.id == n with
  | none => .no
  | some q =>
    if q.stage = .held then (if m.locked q.asid q.va none then .no else .ok (m.retryReq q)) else
    if q.stage ≠ .missed then .no else
    match m.groveAt q.asid q.va with
    | (m, some _) => .ok (m.setReq { q with stage := .probing })
    | (m, none) => .ok (m.refuseReq q Code.page 0 (q.va / 4096 * 4096) 4096)
def execGroveMiss (n : Nat) (s : State) : Host.Outcome State Fault Refusal := event (fun m => m.groveMissed n) s
/-- A generated line comes into the LLC: its address and 64 bytes, and whether its grove keeps evicted lines (R180). -/
def Mach.putGen (m : Mach) (asid : BitVec 16) (va : Nat) (keep : Bool) (bs : List Byte) : Mach :=
  let m := m.llcRoom (lineKey asid va)
  let put (llc : Map LlcSector) (h : Nat) : Map LlcSector :=
    mput llc (secKey asid va + h) ⟨(bs.drop (32 * h)).take 32, false, true, false, keep, none⟩
  { m with llc := put (put m.llc 0) 1 }
/-- VICTIM_STORE_PROBE_RESULT (R189, R235). -/
def Mach.victimProbed (m : Mach) (n : Nat) : Ev :=
  match m.reqs.find? fun q => q.id == n with
  | none => .no
  | some q =>
    if q.stage ≠ .probing then .no else
    let line := q.va / 64 * 64
    match m.victimGet (lineKey q.asid line) with
    | (m, some bs) =>
      let m := m.putGen q.asid line true bs
      .ok ((m.countSlice (homeSlice q.asid line) 0x0104 1).answerReq q [])
    | (m, none) =>
      match m.groveAt q.asid q.va with
      | (m, some (i, e)) => .ok (m.atHome q i e)
      | (m, none) => .ok (m.refuseReq q Code.page 0 (q.va / 4096 * 4096) 4096)
def execVictimStoreProbeResult (n : Nat) (s : State) : Host.Outcome State Fault Refusal :=
  event (fun m => m.victimProbed n) s
/-- WAYSTATION_RETRY (R237). -/
def Mach.wayRetry (m : Mach) (n : Nat) : Ev :=
  match m.reqs.find? fun q => q.id == n with
  | none => .no
  | some q =>
    match q.stage with
    | .refused due =>
      if m.clk < due then .no else .ok ((m.countSlice (homeSlice q.asid q.va) 0x0106 1).retryReq q)
    | _ => .no
def execWaystationRetry (n : Nat) (s : State) : Host.Outcome State Fault Refusal := event (fun m => m.wayRetry n) s

/-! ## Committing, aborting and dropping granules (R243, R246, R247, R249) -/

/-- Drop the generated lines of a range from every cache but the instruction caches, and from the victim store (R249):
ordinary lines, which the range holds where a page of another class lies or lay in it, stay. -/
def Mach.dropGen (m : Mach) (asid : BitVec 16) (va n : Nat) : Mach :=
  let s0 := secKey asid va
  let s1 := s0 + (n + 31) / 32
  let l0 := lineKey asid va
  let l1 := l0 + (n + 63) / 64
  -- a page of the range that is of another class keeps the lines that the other caches hold of it
  let plain (a : Nat) : Bool := match (m.translate asid a).2 with | some t => t.cls != 1 | none => false
  let outS (k : Nat) : Bool := !decide (s0 ≤ k ∧ k < s1) || plain (k % 2 ^ 43 * 32)
  let outL (k : Nat) : Bool := !decide (l0 ≤ k ∧ k < l1) || plain (k % 2 ^ 42 * 64)
  { m with
    llc := m.llc.filter fun p => !p.2.generated || !decide (s0 ≤ p.1 ∧ p.1 < s1)
    victim := m.victim.filter fun p => !decide (l0 ≤ p.1 ∧ p.1 < l1)
    cores := m.cores.map fun p => (p.1, { p.2 with
      l1 := p.2.l1.filter fun q => outL q.1 || l1Dirty q.2
      const := mkeep p.2.const outS, texel := mkeep p.2.texel outS, tile := mkeep p.2.tile outS }) }
/-- The lines of a granule: address and bytes, those no FST wrote being zero. -/
def Waystation.lines (w : Waystation) : List (Nat × List Byte) :=
  (List.range (2 ^ w.lg / 64)).map fun i => (w.va + 64 * i, (List.range 64).map fun b => mgetD w.copy (64 * i + b) 0)
/-- The grove entry's KEEP as the Glade holds it (R231). -/
def Mach.keepOf (m : Mach) (asid : BitVec 16) (grove : Nat) : Bool :=
  match (m.groveBytes asid grove).2 with
  | some bs => (Grove.ofBytes bs).keep
  | none => false
/-- The requests that wait on a waystation, in the order they joined. -/
def Mach.waitersAt (m : Mach) (w : Waystation) : List GroveReq :=
  w.waiters.filterMap fun p => m.reqs.find? fun q => q.id == p.2
/-- Threads of the fill group held by FILLC go on. -/
def Mach.freeFillc (m : Mach) (w : Waystation) : Mach :=
  match w.filler with
  | none => m
  | some gid =>
    let free (w : Wave) : Wave :=
      w.updLanes (w.live.filter fun l => (w.lane l).wait == .fillc) fun t => { t with wait := .none, age := 0 }
    m.updGroup gid fun g => { g with waves := g.waves.map free }
/-- GRANULE_PUBLISHED (R243, R246): the lines are installed, the waiters are served, and a stale granule's lines go. -/
def Mach.publish (m : Mach) (ws : Nat) : Ev :=
  match mget m.ways ws with
  | none => .no
  | some w =>
    if w.state ≠ .commit then .no else
    let keep := m.keepOf w.asid w.grove
    let m := w.lines.foldl (fun m s => m.putGen w.asid s.1 keep s.2) { m with ways := mdel m.ways ws }
    let bs := if w.stale then w.lines.flatMap fun s =>
      [(secKey w.asid s.1, s.2.take 32), (secKey w.asid (s.1 + 32), s.2.drop 32)] else []
    let m := (m.waitersAt w).foldl (fun m q => m.answerReq q bs) m
    let m := if w.stale then m.dropGen w.asid w.va (2 ^ w.lg) else m
    .ok (m.freeFillc w)
def execGranulePublished (ws : Nat) (s : State) : Host.Outcome State Fault Refusal := event (fun m => m.publish ws) s
/-- Abort a fill (R243, R247): what FST wrote is discarded and every waiter meets GEN_ABORT. -/
def Mach.abortFill (m : Mach) (ws code : Nat) : Mach :=
  match mget m.ways ws with
  | none => m
  | some w =>
    (m.waitersAt w).foldl (fun m q => m.refuseReq q Code.genAbort code w.va (2 ^ w.lg)) { m with ways := mdel m.ways ws }
/-- Drop a range of a grove (R249 steps 2 to 4). -/
def Mach.groveDrop (m : Mach) (asid : BitVec 16) (grove va n : Nat) : Mach :=
  let m := m.dropGen asid va n
  { m with ways := m.ways.map fun p =>
      if p.2.asid == asid && p.2.grove == grove && decide (p.2.va < va + n ∧ va < p.2.va + 2 ^ p.2.lg)
      then (p.1, { p.2 with stale := true }) else p }

/-! ## Instructions -/

/-- The checks of FST for one thread (R245): ALIGN and PAGE as for an access, PERM by mode alone, and GEN_WRITE where
the address is not in the granule the task fills. -/
def Env.fstChk (e : Env) (va n : Nat) : Chk :=
  match e.m.check e.core e.asid e.system .load 0 va n with
  | .walk a => .walk a
  | .bad 0 c a => .bad 0 c a
  | .bad 1 c a => .bad 1 c a
  | _ =>
    match (e.m.core e.core).tlb.find? fun t => t.asid == e.asid && covers t.vpn t.size va with
    | none => .walk va
    | some t =>
      if !e.system && (decide (2 ^ 47 ≤ va) || !t.u) then .bad 2 Code.perm va else
      match e.g.fillWs.bind (mget e.m.ways) with
      | some w =>
        if e.g.task.flvl ≠ 0 ∧ !e.g.decided ∧ t.cls = 1 ∧ t.gidx.toNat = w.grove ∧ w.va ≤ va ∧ va < w.va + 2 ^ w.lg
        then .ok 1 else .bad 3 Code.genWrite va
      | none => .bad 3 Code.genWrite va
def execFst (x : MemOp) (s : State) : Host.Outcome State Fault Refusal :=
  perform (.fst x) x.ctl (fun e => e.once fun e =>
    let n := x.size.bytes
    let rq := (e.ordered e.act).map fun l => (l, e.addr x l)
    match e.judge (fun _ => false) (rq.map fun p => (p.1, e.fstChk p.2 n)) with
    | .walk va => e.waits e.m (.walk va)
    | .trap ls code addr => e.accessTrap e.m ls code 0 addr
    | .ok _ _ =>
      let m := e.m.usedWalks e.core e.asid
      match e.g.fillWs with
      | none => .done m e.lanes
      | some ws =>
        let put (w : Waystation) (p : Nat × Nat) : Waystation :=
          { w with copy := ((List.range n).zip (e.bytesOf p.1 x.c x.size)).foldl (fun c b => mput c (p.2 - w.va + b.1) b.2) w.copy }
        match mget m.ways ws with
        | none => .done m e.lanes
        | some w =>
          let w := rq.foldl put w
          .done { m with ways := mput m.ways ws w } e.lanes) s
/-- The instruction that decides the granule (R246, R247): GEN_WRITE outside a fill, nothing once it is decided. -/
def Env.answerFill (e : Env) (k : Mach → Nat → Mach) : Eff :=
  if e.g.task.flvl = 0 then e.failAll Code.genWrite 0 0
  else if e.g.decided then .done e.m e.lanes
  else match e.g.fillWs with
    | none => e.failAll Code.genWrite 0 0
    | some ws => .done (k (e.updG e.m fun g => { g with decided := true }) ws) e.lanes
/-- FILLC (R246): the wave's next instruction waits until the granule is published. -/
def execFillc (x : PlainOp) (s : State) : Host.Outcome State Fault Refusal :=
  perform (.fillc x) x.ctl (fun e => e.once fun e => e.answerFill fun m ws =>
    match mget m.ways ws with
    | none => m
    | some w =>
      e.upd { m with ways := mput m.ways ws { w with state := .commit } } fun w =>
        w.updLanes (w.live.filter fun l => (w.lane l).wait == .none) fun t => { t with wait := .fillc }) s
/-- FILLX (R247). -/
def execFillx (x : ImmOp) (s : State) : Host.Outcome State Fault Refusal :=
  perform (.fillx x) x.ctl (fun e => e.once fun e => e.answerFill fun m ws => m.abortFill ws x.n.toNat) s
/-- GRVINV (R248, R249). -/
def execGrvinv (x : GrvinvOp) (s : State) : Host.Outcome State Fault Refusal :=
  perform (.grvinv x) x.ctl (fun e => e.once fun e =>
    let va := (e.getPair e.first x.a).toNat
    match e.m.groveAt e.asid va with
    | (_, none) => e.failAll Code.page 0 va
    | (m, some (i, g)) =>
      let n := if x.all then g.size else (e.getSrc32 e.first x.b).toNat
      if n < g.lg ∨ g.size < n then e.failAll Code.illegalOperand 0 0
      else if m.flushHeld e.core e.asid then .hold m
      else .done ((m.l1Flush e.core e.asid).groveDrop e.asid i (va / 2 ^ n * 2 ^ n) (2 ^ n)) e.lanes) s

/-! ## Placing fills (R50, R236) -/

/-- FILL_TASK_PLACEMENT (R236, R243): the head of a core's fill queue of a level, with a launch id of its own.
(log 14, DESIGN CHOICE; log 26, DEDUCED) -/
def Mach.placeFill (m : Mach) (core level : Nat) : Ev :=
  let key := 3 * core + (level - 1)
  let q := mgetD m.fillQ key []
  match headFill q with
  | none => .no
  | some f =>
    match m.fitsFill core f.asid f.task, mget m.ways f.ws, m.openFrame f.asid 0 0 true with
    | some gr, some w, some (m, h) =>
      let gid := m.nextGid
      let launch : Word := BitVec.ofNat 32 m.nextLaunch
      let m := { m with
        fillQ := mput m.fillQ key (q.filter fun e => e.serial != f.serial)
        ways := mput m.ways f.ws { w with state := .running, filler := some gid, core := core }
        nextLaunch := m.nextLaunch + 1, nextId := m.nextId + 1 }
      .ok (m.place core gr h ⟨f.asid, f.task, launch, sigOnes, m.nextId, 0, some f.ws, none, false⟩)
    | _, _, _ => .no
def execFillTaskPlacement (core level : Nat) (s : State) : Host.Outcome State Fault Refusal :=
  event (fun m => m.placeFill core level) s

end Sys2Proof.Machine
end

