-- ==== Sys2Proof/Machine/Logic.lean ====
section
/-! DEFINITION. Row 0x3, logic and bits (R130 to R132). -/

namespace Sys2Proof.Machine

/-- Bit i of the low w bits. -/
def bitAt (w : Nat) (a : DWord) (i : Nat) : Bool := decide (i < w) && a.getLsbD i
/-- Build a pattern of w bits from its bits. -/
def ofBits (w : Nat) (f : Nat → Bool) : DWord := BitVec.ofNat 64 ((List.range w).foldl (fun n i => if f i then n + 2 ^ i else n) 0)
/-- Bits of a w-bit source with the sign above it (SAR). -/
def bitSign (w : Nat) (a : DWord) (i : Nat) : Bool := a.getLsbD (min i (w - 1))

/-- A result of row 0x3 and its C flag. -/
def shlOp (w n : Nat) (a : DWord) : DWord × Bool :=
  (ofBits w fun i => decide (n ≤ i) && bitAt w a (i - n), n != 0 && decide (n ≤ w) && bitAt w a (w - n))
def shrOp (w n : Nat) (a : DWord) : DWord × Bool :=
  (ofBits w fun i => bitAt w a (i + n), n != 0 && bitAt w a (n - 1))
def sarOp (w n : Nat) (a : DWord) : DWord × Bool :=
  (ofBits w fun i => bitSign w a (i + n), n != 0 && bitSign w a (n - 1))
def rolOp (w n : Nat) (a : DWord) : DWord × Bool :=
  let r := ofBits w fun i => bitAt w a ((i + w - n % w) % w)
  (r, n % w != 0 && r.getLsbD 0)
def popcOp (w : Nat) (a : DWord) : Nat := ((List.range w).filter fun i => a.getLsbD i).length
def clzOp (w : Nat) (a : DWord) : Nat := ((List.range w).find? fun i => a.getLsbD (w - 1 - i)).getD w
def ctzOp (w : Nat) (a : DWord) : Nat := ((List.range w).find? fun i => a.getLsbD i).getD w
def brevOp (w : Nat) (a : DWord) : DWord := ofBits w fun i => a.getLsbD (w - 1 - i)
/-- BFE (R131): `ctl` is the control word. -/
def bfeOp (w : Nat) (signed : Bool) (a : DWord) (ctl : Word) : DWord :=
  let pos := ctl.toNat % 256
  let len := min (ctl.toNat / 256 % 256) w
  if len = 0 then 0 else
  let f (i : Nat) : Bool := if pos + i < w then a.getLsbD (pos + i) else signed && a.getLsbD (w - 1)
  ofBits w fun i => if i < len then f i else signed && f (len - 1)
/-- BFI (R131). -/
def bfiOp (w : Nat) (a c : DWord) (ctl : Word) : DWord :=
  let pos := ctl.toNat % 256
  let len := min (ctl.toNat / 256 % 256) w
  ofBits w fun i => if pos ≤ i ∧ i < pos + len then a.getLsbD (i - pos) else c.getLsbD i
/-- PRMT (R132). -/
def prmtOp (a b c : Word) : DWord :=
  let src (k : Nat) : Byte := if k < 4 then (a >>> (8 * k)).setWidth 8 else (b >>> (8 * (k - 4))).setWidth 8
  let out (j : Nat) : Nat :=
    let s := c.toNat / 16 ^ j % 16
    let x := src (s % 8)
    if 8 ≤ s then (if x.getLsbD 7 then 255 else 0) else x.toNat
  BitVec.ofNat 64 (out 0 + 256 * (out 1 + 256 * (out 2 + 256 * out 3)))

/-- A logic instruction: result at the TYPE's width and C; V is 0 (R130). -/
def Env.logic (e : Env) (i : Instr) (x : IntOp) (val : Nat → DWord × Bool) : Eff :=
  e.result i x.ctl (some (x.d, x.ty.regs)) x.flag fun l =>
    let y := val l
    ⟨y.1, intCc x.ty.w y.1 y.2 false, 0⟩
/-- A counting instruction: D and the flags are 32-bit (R130). -/
def Env.counting (e : Env) (i : Instr) (x : IntOp) (val : Nat → Nat) : Eff :=
  e.result i x.ctl (some (x.d, 1)) x.flag fun l =>
    let r := BitVec.ofNat 64 (val l)
    ⟨r, intCc 32 r false false, 0⟩
/-- The count of a shift: 32 bits of B. -/
def Env.count (e : Env) (x : IntOp) (l : Nat) : Nat := (e.getSrc32 l x.b).toNat

def execAnd (x : IntOp) (s : State) : Host.Outcome State Fault Refusal :=
  perform (.and x) x.ctl (fun e => e.logic (.and x) x fun l => (e.opA x l &&& e.opB x l, false)) s
def execOr (x : IntOp) (s : State) : Host.Outcome State Fault Refusal :=
  perform (.or x) x.ctl (fun e => e.logic (.or x) x fun l => (e.opA x l ||| e.opB x l, false)) s
def execXor (x : IntOp) (s : State) : Host.Outcome State Fault Refusal :=
  perform (.xor x) x.ctl (fun e => e.logic (.xor x) x fun l => (e.opA x l ^^^ e.opB x l, false)) s
def execAndn (x : IntOp) (s : State) : Host.Outcome State Fault Refusal :=
  perform (.andn x) x.ctl (fun e => e.logic (.andn x) x fun l => (e.opA x l &&& ~~~e.opB x l, false)) s
def execNot (x : IntOp) (s : State) : Host.Outcome State Fault Refusal :=
  perform (.not x) x.ctl (fun e => e.logic (.not x) x fun l => (~~~e.opA x l, false)) s
def execShl (x : IntOp) (s : State) : Host.Outcome State Fault Refusal :=
  perform (.shl x) x.ctl (fun e => e.logic (.shl x) x fun l => shlOp x.ty.w (e.count x l) (e.opA x l)) s
def execShr (x : IntOp) (s : State) : Host.Outcome State Fault Refusal :=
  perform (.shr x) x.ctl (fun e => e.logic (.shr x) x fun l => shrOp x.ty.w (e.count x l) (e.opA x l)) s
def execSar (x : IntOp) (s : State) : Host.Outcome State Fault Refusal :=
  perform (.sar x) x.ctl (fun e => e.logic (.sar x) x fun l => sarOp x.ty.w (e.count x l) (e.opA x l)) s
def execRol (x : IntOp) (s : State) : Host.Outcome State Fault Refusal :=
  perform (.rol x) x.ctl (fun e => e.logic (.rol x) x fun l => rolOp x.ty.w (e.count x l) (e.opA x l)) s
def execBfe (x : IntOp) (s : State) : Host.Outcome State Fault Refusal :=
  perform (.bfe x) x.ctl (fun e => e.logic (.bfe x) x fun l =>
    (bfeOp x.ty.w x.ty.signed (e.opA x l) (e.getSrc32 l x.b), false)) s
def execBfi (x : IntOp) (s : State) : Host.Outcome State Fault Refusal :=
  perform (.bfi x) x.ctl (fun e => e.logic (.bfi x) x fun l =>
    (bfiOp x.ty.w (e.opA x l) (e.opC x l) (e.getSrc32 l x.b), false)) s
def execPopc (x : IntOp) (s : State) : Host.Outcome State Fault Refusal :=
  perform (.popc x) x.ctl (fun e => e.counting (.popc x) x fun l => popcOp x.ty.w (e.opA x l)) s
def execClz (x : IntOp) (s : State) : Host.Outcome State Fault Refusal :=
  perform (.clz x) x.ctl (fun e => e.counting (.clz x) x fun l => clzOp x.ty.w (e.opA x l)) s
def execCtz (x : IntOp) (s : State) : Host.Outcome State Fault Refusal :=
  perform (.ctz x) x.ctl (fun e => e.counting (.ctz x) x fun l => ctzOp x.ty.w (e.opA x l)) s
def execBrev (x : IntOp) (s : State) : Host.Outcome State Fault Refusal :=
  perform (.brev x) x.ctl (fun e => e.logic (.brev x) x fun l => (brevOp x.ty.w (e.opA x l), false)) s
def execPrmt (x : IntOp) (s : State) : Host.Outcome State Fault Refusal :=
  perform (.prmt x) x.ctl (fun e => e.logic (.prmt x) x fun l =>
    (prmtOp (e.get l x.a) (e.getSrc32 l x.b) (e.get l x.c), false)) s

end Sys2Proof.Machine
end

