-- ==== Sys2Proof/Machine/Moves.lean ====
section
/-! DEFINITION. Row 0x4 but WLDC: moves, special registers (R116, R117, R134 to R136), condition codes (R133) and
extended register blocks (R109 to R112, R138, R139). -/

namespace Sys2Proof.Machine

/-- Flags of a result with C and V clear (R126). -/
def plainRes (t : IType) (r : DWord) : Res := ⟨r, intCc t.w r false false, 0⟩

def execMov (x : IntOp) (s : State) : Host.Outcome State Fault Refusal :=
  perform (.mov x) x.ctl (fun e => e.result (.mov x) x.ctl (some (x.d, x.ty.regs)) x.flag fun l =>
    plainRes x.ty (match x.b with
      | .reg _ => e.opA x l
      | .imm _ _ => e.opB x l)) s
/-- The condition SUB[3:0] on the guard register (R133). -/
def Env.selects (e : Env) (x : IntOp) (l : Nat) : Bool :=
  (condOfCode (x.sub.toNat % 16)).holds (e.w.ccAt e.clk l x.ctl.gcc.toNat)
def execSel (x : IntOp) (s : State) : Host.Outcome State Fault Refusal :=
  perform (.sel x) x.ctl (fun e => e.result (.sel x) x.ctl (some (x.d, x.ty.regs)) x.flag fun l =>
    plainRes x.ty (if e.selects x l then e.opA x l else e.opB x l)) s
def execCctst (x : IntOp) (s : State) : Host.Outcome State Fault Refusal :=
  perform (.cctst x) x.ctl (fun e => e.result (.cctst x) x.ctl (some (x.d, 1)) x.flag fun l =>
    plainRes .n32 (if e.selects x l then 1 else 0)) s
def execCcrd (x : IntOp) (s : State) : Host.Outcome State Fault Refusal :=
  perform (.ccrd x) x.ctl (fun e => e.result (.ccrd x) x.ctl (some (x.d, 1)) none fun l =>
    plainRes .n32 ((e.w.ccAt e.clk l (x.sub.toNat % 4)).setWidth 64)) s
/-- CCWR writes c(CCD) from A[4:0] and no register. -/
def execCcwr (x : IntOp) (s : State) : Host.Outcome State Fault Refusal :=
  perform (.ccwr x) x.ctl (fun e => e.result (.ccwr x) x.ctl none x.flag fun l =>
    ⟨0, (e.get l x.a).setWidth 5, 0⟩) s

/-! ## Special registers (R116, R117) -/

/-- The number in the B field. -/
def srNum (b : Src) : Nat := match b with | .imm _ v => v.toNat | .reg _ => 0
/-- SR_TID (R22, R117): a helper beyond the thread count follows the Q2X2-clear rule. -/
def TaskRec.tid (r : TaskRec) (wave lane : Nat) : Nat :=
  let i := if 64 * wave + lane < r.threads then r.threadAt wave lane else 64 * wave + lane
  let nx := r.gx.toNat + 1
  let ny := r.gy.toNat + 1
  i % nx % 2 ^ 10 + i / nx % ny % 2 ^ 10 * 2 ^ 10 + i / (nx * ny) % 2 ^ 10 * 2 ^ 20
/-- SR_CLK of a core: clk since its reset. -/
def Mach.clkOf (m : Mach) (core : Nat) : Nat := m.clk - (m.core core).clkBase
/-- SR_TVEC of a context. -/
def Mach.tvec (m : Mach) (asid : BitVec 16) : DWord := ((m.ctxOf asid).map (·.tvec)).getD 0
/-- The 32 bits of a word at position k of a dword. -/
def dwordPart (x : DWord) (k : Nat) : Word := (x >>> (32 * k)).setWidth 32
/-- A special register as a lane sees it (R117, R135). -/
def Env.special (e : Env) (n l : Nat) : Word :=
  let t := e.w.lane l
  let w := e.w
  let nat (x : Nat) : Word := BitVec.ofNat 32 x
  match n with
  | 0x00 => nat (e.g.task.tid w.index l)
  | 0x01 => nat l
  | 0x02 => nat (l / 4)
  | 0x03 => nat w.index
  | 0x04 => e.g.task.tileX
  | 0x05 => e.g.task.tileY
  | 0x06 => e.g.task.tileZ
  | 0x07 => nat e.g.task.shape
  | 0x08 => dwordPart e.g.task.arg 0
  | 0x09 => dwordPart e.g.task.arg 1
  | 0x0A => nat e.core
  | 0x0B => nat (e.core / 4)
  | 0x0C => e.g.launch
  | 0x0D => e.iss.prio.setWidth 32
  | 0x0E => e.g.task.flvl.setWidth 32
  | 0x0F => if w.helper l then 1 else 0
  | 0x10 => nat (e.m.clkOf e.core)
  | 0x11 => t.clkHi.getD (nat (e.m.clkOf e.core / 2 ^ 32))
  | 0x12 => nat e.m.timeNs
  | 0x13 => t.timeHi.getD (nat (e.m.timeNs / 2 ^ 32))
  | 0x14 => nat (e.g.frames.getD w.depth 0)
  | 0x15 => nat (e.g.frames.getD w.depth 0 / 2 ^ 32)
  | 0x18 => t.fpx.setWidth 32
  | 0x19 => w.ctl
  | 0x1A => w.dbg.setWidth 32
  | 0x20 => w.tcause
  | 0x21 => dwordPart w.tpc 0
  | 0x22 => dwordPart w.tpc 1
  | 0x23 => dwordPart w.taddr 0
  | 0x24 => dwordPart w.taddr 1
  | 0x25 => dwordPart w.tmask 0
  | 0x26 => dwordPart w.tmask 1
  | 0x27 => dwordPart (e.m.tvec e.asid) 0
  | 0x28 => dwordPart (e.m.tvec e.asid) 1
  | 0x29 => t.txcause
  | n => if 0x30 ≤ n ∧ n ≤ 0x37 then (e.m.counter (.core e.core e.asid) (n - 0x30)).value.setWidth 32 else 0
/-- A MOVSR's effect on the captured halves of its thread (R135). -/
def Env.captures (e : Env) (n : Nat) (t : Lane) : Lane :=
  { t with
    clkHi := if n = 0x10 then some (BitVec.ofNat 32 (e.m.clkOf e.core / 2 ^ 32)) else none
    timeHi := if n = 0x12 then some (BitVec.ofNat 32 (e.m.timeNs / 2 ^ 32)) else none }
def execMovsr (x : IntOp) (s : State) : Host.Outcome State Fault Refusal :=
  perform (.movsr x) x.ctl (fun e =>
    let n := srNum x.b
    match e.result (.movsr x) x.ctl (some (x.d, 1)) none fun l => ⟨(e.special n l).setWidth 64, 0, 0⟩ with
    | .done m adv =>
      let readers := if isUniform (uses (.movsr x)) then
          (if e.w.guard e.clk x.ctl e.lead then [e.lead] else []) else e.all
      .done (e.upd m fun w => w.updLanes readers (e.captures n)) adv
    | r => r) s

/-- A listed special register that MOVSW may not write (R116, R117): SR_TXCAUSE is one, since aborts alone write it (R212).
(log 72, DEDUCED) -/
def srReadOnly (n : Nat) : Bool := decide (n ≤ 0x15) || n == 0x29
/-- Put a word at position k of a dword. -/
def dwordPut (x : DWord) (k : Nat) (v : Word) : DWord :=
  if k = 0 then (x &&& 0xFFFFFFFF00000000) ||| v.setWidth 64
  else (x &&& 0xFFFFFFFF) ||| (v.setWidth 64 <<< 32)
/-- The same for a 48-bit register pair: bits 31 to 16 of the upper half are reserved. -/
def dwordPut48 (x : DWord) (k : Nat) (v : Word) : DWord := dwordPut x k v &&& 0xFFFFFFFFFFFF
/-- Write a special register of wave, core or context scope (R116, R117, R136). SR_TCAUSE has no reserved bit: R352 gives
what a delivery leaves in [31:24], and MOVSW writes all of it. (log 72, DEDUCED) -/
def Env.specialPut (e : Env) (n : Nat) (v : Word) : Mach :=
  let tvec (k : Nat) : Mach := match e.m.ctxOf e.asid with
    | some c => e.m.setCtx { c with tvec := dwordPut48 c.tvec k v }
    | none => e.m
  match n with
  | 0x19 => e.upd e.m fun w => { w with ctl := v &&& 1 }
  | 0x1A => e.upd e.m fun w => { w with dbg := v.setWidth 2 }
  | 0x20 => e.upd e.m fun w => { w with tcause := v }
  | 0x21 => e.upd e.m fun w => { w with tpc := dwordPut48 w.tpc 0 v }
  | 0x22 => e.upd e.m fun w => { w with tpc := dwordPut48 w.tpc 1 v }
  | 0x23 => e.upd e.m fun w => { w with taddr := dwordPut48 w.taddr 0 v }
  | 0x24 => e.upd e.m fun w => { w with taddr := dwordPut48 w.taddr 1 v }
  | 0x25 => e.upd e.m fun w => { w with tmask := dwordPut w.tmask 0 v }
  | 0x26 => e.upd e.m fun w => { w with tmask := dwordPut w.tmask 1 v }
  | 0x27 => tvec 0
  | 0x28 => tvec 1
  | n => if 0x30 ≤ n ∧ n ≤ 0x37
      then e.m.valueWrite (.core e.core e.asid) (n - 0x30) (v.setWidth 64) else e.m
/-- MOVSW: SR_FPX is each thread's own, the others take A from the lowest active thread. A read-only register raises
ILLEGAL_OPERAND whatever the guard, as the checks of R86 do. (log 72, DEDUCED) -/
def execMovsw (x : IntOp) (s : State) : Host.Outcome State Fault Refusal :=
  perform (.movsw x) x.ctl (fun e =>
    let n := srNum x.b
    if srReadOnly n then .trap e.m e.named Code.illegalOperand 0 0
    else e.once fun e =>
      if n = 0x18 then e.regs fun w => e.act.foldl (fun w l =>
        w.updLane l fun t => { t with fpx := (e.get l x.a).setWidth 5 }) w
      else .done (e.specialPut n (e.get e.first x.a)) e.lanes) s

/-! ## Extended blocks -/

/-- A register of the extended block. -/
def Wave.inExt (w : Wave) : RKey → Bool
  | .v _ i => decide (w.base ≤ i)
  | _ => false
/-- Grant a block of n registers: every register reads 0 (R111). -/
def Wave.grantBlock (w : Wave) (clk n : Nat) : Wave :=
  { w with
    ext := n, drowsy := false, lastExt := clk
    v := w.v.filter fun p => p.1 % 256 < w.base
    inflight := w.inflight.filter fun f => !w.inExt f.key
    refresh := w.refresh.filter fun k => !w.inExt k
    parity := w.parity.filter fun k => !w.inExt k
    weak := w.weak.filter fun k => !w.inExt k }
/-- Gate the block: its contents are lost (R111). -/
def Wave.gateBlock (w : Wave) : Wave := w.grantBlock w.lastExt 0
/-- Key of a laneset's XACQ FIFO. -/
def xacqKey (core ls : Nat) : Nat := core * 8 + ls
/-- A laneset can grant n registers now (R110). -/
def Mach.canGrant (m : Mach) (core ls n : Nat) : Bool := decide (n / 32 ≤ m.freeUnits core ls)
/-- XACQ (R110, R138). A blocking one that cannot be granted at once joins the FIFO. (log 58, DEDUCED) -/
def execXacq (x : IntOp) (s : State) : Host.Outcome State Fault Refusal :=
  perform (.xacq x) x.ctl (fun e => e.once fun e =>
    if e.w.ext ≠ 0 then .trap e.m e.named Code.illegalOperand 0 0 else
    let n := if x.sub.getLsbD 0 then 128 else 64
    let ls := e.w.laneset
    let k := xacqKey e.core ls
    let q := mgetD e.m.xacqQ k []
    let ok := q.isEmpty && e.m.canGrant e.core ls n
    let m := if ok then e.upd e.m fun w => w.grantBlock e.clk n else e.m
    match x.flag with
    | some c => .done (e.upd m fun w => e.all.foldl (fun w l => w.setCcAt e.clk 0 l c.toNat (zCc ok)) w) e.lanes
    | none =>
      if ok then .done m e.lanes else
      let mine (r : XacqReq) : Bool := r.gid == e.iss.gid && r.wave == e.iss.wave && r.pc == e.iss.pc && r.prio == e.iss.prio
      let q := if q.any mine
        then q else q ++ [⟨e.iss.gid, e.iss.wave, e.iss.pc, e.iss.prio, n, m.timeNs, x.ctl, e.act⟩]
      e.waits { m with xacqQ := mput m.xacqQ k q } .xacq) s
/-- XREL (R138): held while a write to the block is pending. -/
def execXrel (x : IntOp) (s : State) : Host.Outcome State Fault Refusal :=
  perform (.xrel x) x.ctl (fun e => e.once fun e =>
    if e.w.ext = 0 then .done e.m e.lanes
    else if e.w.pend.any e.w.inExt then .hold e.m
    else .done (e.upd e.m fun w => w.gateBlock) e.lanes) s

end Sys2Proof.Machine
end

