-- ==== Sys2Proof/Machine/FrontEnd.lean ====
section
/-! DEFINITION. The launch front ends: user queues (R363, R411), packets and their status (R364, R365), launches (R366),
and prologues (R367). -/

namespace Sys2Proof.Machine

/-! ## Accesses of a front end (R363, R411) -/

/-- How an access of a front end ends. -/
inductive Fe where
  | ok (m : Mach) (bs : List Byte)
  | access (m : Mach)
  | wait (m : Mach) (req : Nat)
  /-- a locked sector -/
  | held
/-- Read as user mode at the LLC; a grove line waits for its fill with priority 0. -/
def Mach.feRead (m : Mach) (n : Nat) (asid : BitVec 16) (path va len : Nat) : Fe :=
  match m.refusedTo (.packet n) with
  | some _ => .access (m.answered (.packet n))
  | none =>
    match m.engineRun 0 (.packet n) asid false path true va len with
    | .ok m bs => .ok m bs
    | .bad m _ _ => .access m
    | .grove m a => let (m, r) := m.askGrove (.packet n) asid a path 0 0
      .wait m r
    | .again _ => .held
/-- Write dwords as user mode at the LLC: every one is checked before the first is written. -/
def Mach.feWrite (m : Mach) (asid : BitVec 16) (va : Nat) (bs : List Byte) : Option Mach :=
  let vas := (List.range (bs.length / 8)).map fun i => va + 8 * i
  let bad := vas.any fun a => match (m.checkNow asid false .store 0 a 0).2 with
    | .ok 4 => true
    | .ok _ => false
    | _ => true
  if bad then none else
  ((List.range vas.length).zip vas).foldl (fun (r : Option Mach) p => r.bind fun m =>
    match m.agentWrite asid false p.2 ((bs.drop (8 * p.1)).take 8) with
    | .ok m _ => some m
    | _ => none) (some m)

/-! ## Queues and the ends of packets (R363, R365) -/

/-- The context of a queue. -/
def Mach.queueCtx (m : Mach) (q : Queue) : Option Ctx := mget m.ctxs q.slot
def Mach.setQueue (m : Mach) (n : Nat) (q : Queue) : Mach := { m with queues := mput m.queues n q }
def Mach.updQueue (m : Mach) (n : Nat) (f : Queue → Queue) : Mach :=
  match mget m.queues n with
  | some q => m.setQueue n (f q)
  | none => m
/-- Write the error record (R365). -/
def Mach.errRecord (m : Mach) (asid : BitVec 16) (q : Queue) (status : Nat) : Option Mach :=
  m.feWrite asid q.err (leBytes 4 status ++ leBytes 4 0 ++ leBytes 8 q.index)
/-- The queue stops. -/
def Queue.stop (q : Queue) : Queue := { q with stopped := true, stage := .idle, wait := none, window := [] }
/-- A packet ends with a status (R365): the error record, then RIDX where the packet is retired. A write that fails stops
the queue. -/
def Mach.packetEnd (m : Mach) (n status : Nat) : Mach :=
  match mget m.queues n with
  | none => m
  | some q =>
    match m.queueCtx q with
    | none => m
    | some c =>
      let m := m.answered (.packet n)
      let stop (m : Mach) : Mach := m.setQueue n q.stop
      match (if status = 0 then some m else m.errRecord c.asid q status) with
      | none => stop m
      | some m =>
        if status = 2 ∨ status = 5 then stop m else
        match m.feWrite c.asid q.ridx (leBytes 8 (q.index + 1)) with
        | some m => m.setQueue n { q with
            index := q.index + 1, window := q.window.tail, stage := .idle, wait := none, run := 0, outstanding := 0, again := false, status := 0, pw := [], pcc := [] }
        | none => stop ((m.errRecord c.asid q 5).getD m)
/-- The words that the end of a packet writes are locked by an exclusive consignment, or wait at their bank (R188, R214). -/
def Mach.endHeld (m : Mach) (n : Option Nat) : Bool :=
  match n.bind (mget m.queues) with
  | some q => (match m.queueCtx q with
    | some c => m.agentHeld c.asid q.ridx 8 || m.agentHeld c.asid q.err 8 || m.agentHeld c.asid (q.err + 8) 8
    | none => false)
  | none => false
/-- One of n dwords of a packet's write is held in the same way. -/
def Mach.dwordsHeld (m : Mach) (asid : BitVec 16) (va n : Nat) : Bool :=
  (List.range n).any fun i => m.agentHeld asid (va + 8 * i) 8
/-- A group of a LAUNCH has completed: the last one ends the packet (R364). -/
def Mach.launchDone (m : Mach) (q : Option Nat) : Mach :=
  match q with
  | none => m
  | some n =>
    match mget m.queues n with
    | none => m
    | some x =>
      let m := m.setQueue n { x with outstanding := x.outstanding - 1 }
      if x.outstanding ≤ 1 ∧ x.stage = .launched then m.packetEnd n x.status else m
/-- Read packets ahead into the window: in order, below the write index seen, at most 16, up to one that cannot be read at
once (R250, R252). -/
def Mach.readAhead (m : Mach) (n : Nat) (asid : BitVec 16) (q : Queue) : Mach × Queue :=
  let r := (List.range 16).foldl (fun (r : Mach × List (List Byte) × Bool) i =>
    if !r.2.2 || i < q.window.length || q.seen ≤ q.index + i then r else
    match r.1.engineRun 0 (.packet n) asid false 0 true (q.ring + 64 * ((q.index + i) % 2 ^ q.logN)) 64 with
    | .ok m bs => (m, r.2.1 ++ [bs], true)
    | _ => (r.1, r.2.1, false)) (m, q.window, true)
  (r.1, { q with window := r.2.1 })
/-- The packet at hand: from the window, or read from the ring. -/
def Mach.packetBytes (m : Mach) (n : Nat) (asid : BitVec 16) (q : Queue) : Fe :=
  match q.window with
  | bs :: _ => .ok m bs
  | [] => m.feRead n asid 0 (q.ring + 64 * (q.index % 2 ^ q.logN)) 64
/-- WRITE_INDEX_OBSERVED (R363): the front end sees a new WIDX, and reads packets ahead. -/
def Mach.widxSeen (m : Mach) (n : Nat) : Ev :=
  match mget m.queues n with
  | none => .no
  | some q =>
    match m.queueCtx q with
    | none => .no
    | some c =>
      if q.stopped || q.stage != .idle || m.asking q.wait then .no else
      Ev.billed (n := c.allot.toNat) (m₀ := m) <| match m.feRead n c.asid 0 q.widx 8 with
      | .ok m bs =>
        let v := leNat bs
        if v = q.seen then .no else
        let (m, q) := (m.answered (.packet n)).readAhead n c.asid { q with seen := v, wait := none }
        .ok (m.setQueue n q)
      | .access m => if m.endHeld (some n) then .no else .ok (m.packetEnd n 5)
      | .wait m r => .ok (m.setQueue n { q with wait := some r })
      | .held => .no
def execWriteIndexObserved (q : Nat) (s : State) : Host.Outcome State Fault Refusal := event (fun m => m.widxSeen q) s

/-! ## Packets (R364) -/

/-- A packet: its fields. -/
structure Packet where
  bs : List Byte
def Packet.ty (p : Packet) : Nat := (p.bs.getD 0 0).toNat
def Packet.args (p : Packet) : Nat := fieldAt p.bs 1 3
def Packet.dword (p : Packet) (off : Nat) : Nat := fieldAt p.bs off 8
/-- Bytes from one offset to another are zero. -/
def Packet.zero (p : Packet) (a b : Nat) : Bool := ((p.bs.drop a).take (b - a)).all (· == 0)
/-- What a packet's type and fields must be (R364, R365): a reserved byte is zero, a field is in its range.
(log 41, DEDUCED) -/
def Packet.ok (p : Packet) : Bool :=
  let a := p.args
  match p.ty with
  | 0 => a == 0 && p.zero 4 64
  | 1 => a == 0 && p.zero 10 16 && p.zero 32 64 && p.dword 16 % 64 == 0
  | 2 => decide (1 ≤ a ∧ a ≤ 5) && p.zero 4 8 && p.zero (16 + 8 * a) 64 && p.dword 8 % 8 == 0
  | 3 => decide (a % 16 ≤ 2) && a / 32 % 8 == 0 && a / 2 ^ 16 == 0 && p.zero 4 8 && p.zero 24 64 && p.dword 8 % 8 == 0
  | 4 => decide (a ≤ 3) && p.zero 4 8 && p.zero 32 64 && p.dword 8 % 8 == 0
  | 5 => let n := a % 8
    decide (1 ≤ n ∧ n ≤ 3) && a / 8 % 2 == 0 && decide (a / 16 ≤ 2) && p.zero 4 8 && p.zero (16 + 8 * n) 40 && p.zero 56 64
      && p.dword 8 % 8 == 0 && p.dword 40 % 8 == 0
  | 6 => a / 32 == 0 && a % 2 == 0 && p.zero 4 64
  | 7 => decide (a % 256 ≤ 1) && a / 2 ^ 14 == 0 && p.zero 4 8 && p.zero 16 64
  | _ => false
/-- Read the packet at hand and act on it: the type must be the event's, PACKET_NOP also taking reserved types and packets
that cannot be read. -/
def Mach.packet (m : Mach) (n ty : Nat) (f : Mach → Queue → Ctx → Packet → Ev) : Ev :=
  match mget m.queues n with
  | none => .no
  | some q =>
    match m.queueCtx q with
    | none => .no
    | some c =>
      if q.stopped || q.stage != .idle || m.asking q.wait || decide (q.seen ≤ q.index) || m.endHeld (some n) then .no else
      Ev.billed (n := c.allot.toNat) (m₀ := m) <| match m.packetBytes n c.asid q with
      | .ok m bs =>
        let p : Packet := ⟨bs⟩
        let here := if p.ty ≤ 7 then p.ty else 0
        if here ≠ ty then .no
        else if p.ok then f m q c p else .ok (m.packetEnd n 2)
      | .access m => if ty = 0 then .ok (m.packetEnd n 5) else .no
      | .wait m r => if ty = 0 then .ok (m.setQueue n { q with wait := some r }) else .no
      | .held => .no
/-- NOP completes when read. -/
def execPacketNop (q : Nat) (s : State) : Host.Outcome State Fault Refusal :=
  event (fun m => m.packet q 0 fun m _ _ _ => .ok (m.packetEnd q 0)) s
/-- The dwords of a WRITE. -/
def Mach.packetWrite (m : Mach) (c : Ctx) (p : Packet) (n : Nat) : Option Mach :=
  m.feWrite c.asid (p.dword 8) ((p.bs.drop 16).take (8 * n))
def execWrite (q : Nat) (s : State) : Host.Outcome State Fault Refusal :=
  event (fun m => m.packet q 2 fun m _ c p =>
    if m.dwordsHeld c.asid (p.dword 8) p.args then .no else
    match m.packetWrite c p p.args with
    | some m => .ok (m.packetEnd q 0)
    | none => .ok (m.packetEnd q 5)) s
/-- The N64 at SIG is updated as one step (R195, R364): as a store for OP 0 and as an atomic else, with the right W alone
(R319, R411). (log 41, DEDUCED) -/
def Mach.signalAt (m : Mach) (asid : BitVec 16) (sig op value : Nat) : Fe :=
  match m.checkNow asid false (if op = 0 then .store else .atomic) 0 sig 8 with
  | (m, .ok k) =>
    if k = 4 then .access m else
    (match (if op = 0 then .ok m [] else if k = 0 then m.llcRead asid sig 8 else m.bankRead asid sig 8 : Rd) with
    | .ok m bs =>
      let o := leNat bs
      let v := if op = 0 then value else if op = 1 then o + value else o + 2 ^ 64 - value
      (match m.feWrite asid sig (leBytes 8 v) with
      | some m => .ok m []
      | none => .access m)
    | .bad m _ _ => .access m
    | .grove m _ => .access m
    | .again m => .access m)
  | (m, _) => .access m
/-- What follows an access of a packet. -/
def Fe.thenEnd (r : Fe) (n : Nat) (q : Queue) (k : Mach → List Byte → Ev) : Ev :=
  match r with
  | .ok m bs => k m bs
  | .access m => .ok (m.packetEnd n 5)
  | .wait m r => .ok (m.setQueue n { q with wait := some r })
  | .held => .no
/-- In the endpoint personality, SIGNAL's interrupt line n raises MSI-X vector n mod 64 (R382). -/
def signalled (f : Mach → Ev) (s : State) : Host.Outcome State Fault Refusal :=
  match event f s with
  | .next t =>
    let new := (t.mach.irqs.drop s.mach.irqs.length).map (· % 64)
    if s.plat.host.hostMode || new.isEmpty then .next t
    else .next { t with
      plat := { t.plat with host := { t.plat.host with msix := t.plat.host.msix ++ new } }
      mach := t.mach.countDevice 0x0205 new.length }
  | r => r
def execSignal (q : Nat) (s : State) : Host.Outcome State Fault Refusal :=
  signalled (fun m => m.packet q 3 fun m x c p =>
    if m.agentHeld c.asid (p.dword 8) 8 then .no else
    (m.signalAt c.asid (p.dword 8) (p.args % 16) (p.dword 16)).thenEnd q x fun m _ =>
      let m := if p.args / 16 % 2 = 1 then { m with irqs := m.irqs ++ [p.args / 256 % 256] } else m
      .ok (m.packetEnd q 0)) s
/-- WRITE_SIGNAL: the write, then the signal, with no step between them (R368). -/
def execWriteSignal (q : Nat) (s : State) : Host.Outcome State Fault Refusal :=
  event (fun m => m.packet q 5 fun m x c p =>
    let n := p.args % 8
    if m.dwordsHeld c.asid (p.dword 8) n || m.agentHeld c.asid (p.dword 40) 8 then .no else
    match m.packetWrite c p n with
    | some m => (m.signalAt c.asid (p.dword 40) (p.args / 16) (p.dword 48)).thenEnd q x fun m _ => .ok (m.packetEnd q 0)
    | none => .ok (m.packetEnd q 5)) s
/-- The condition of a WAIT. -/
def Packet.holds (p : Packet) (v : Nat) : Bool :=
  let x := v &&& p.dword 24
  match p.args with
  | 0 => x == p.dword 16
  | 1 => x != p.dword 16
  | 2 => decide (p.dword 16 ≤ x)
  | _ => decide (x < p.dword 16)
/-- WAIT polls SIG: satisfied at once, or a wait step (R368). -/
def execWait (q : Nat) (s : State) : Host.Outcome State Fault Refusal :=
  event (fun m => m.packet q 4 fun m x c p =>
    (m.feRead q c.asid 0 (p.dword 8) 8).thenEnd q x fun m bs =>
      if p.holds (leNat bs) then .ok (m.packetEnd q 0) else .ok (m.setQueue q { x with stage := .waiting, wait := none })) s
/-- WAIT_SATISFIED: a later poll finds the condition, or a fault. -/
def Mach.waitOver (m : Mach) (n : Nat) : Ev :=
  match mget m.queues n with
  | none => .no
  | some q =>
    match m.queueCtx q with
    | none => .no
    | some c =>
      if q.stage ≠ .waiting ∨ m.asking q.wait ∨ m.endHeld (some n) then .no else
      Ev.billed (n := c.allot.toNat) (m₀ := m) <| (m.packetBytes n c.asid q).thenEnd n q fun m bs =>
        let p : Packet := ⟨bs⟩
        (m.feRead n c.asid 0 (p.dword 8) 8).thenEnd n q fun m bs =>
          if p.holds (leNat bs) then .ok (m.packetEnd n 0) else .no
def execWaitSatisfied (q : Nat) (s : State) : Host.Outcome State Fault Refusal := event (fun m => m.waitOver q) s
/-- PFENCE: the caches named are invalidated for the ASID on every core (R215). -/
def execPacketPfence (q : Nat) (s : State) : Host.Outcome State Fault Refusal :=
  event (fun m => m.packet q 6 fun m _ c p =>
    .ok (((m.cores.map (·.1)).foldl (fun (m : Mach) n => m.pfenceCore n c.asid (BitVec.ofNat 8 p.args)) m).packetEnd q 0)) s
/-- GROVE_INV (R249, R365). -/
def execGroveInv (q : Nat) (s : State) : Host.Outcome State Fault Refusal :=
  event (fun m => m.packet q 7 fun m _ c p =>
    let va := p.dword 8
    match m.groveAt c.asid va with
    | (m, none) => .ok (m.packetEnd q 5)
    | (m, some (i, g)) =>
      let n := if p.args % 2 = 1 then g.size else p.args / 256 % 64
      if n < g.lg ∨ g.size < n then .ok (m.packetEnd q 2)
      else .ok ((m.groveDrop c.asid i (va / 2 ^ n * 2 ^ n) (2 ^ n)).packetEnd q 0)) s

/-! ## Launches (R366) -/

/-- A grid from its two words. -/
def gridOf (a b : Nat) : Nat × Nat × Nat := (a % 2 ^ 16 + 1, a / 2 ^ 16 % 2 ^ 16 + 1, b % 2 ^ 16 + 1)
/-- Push placement units from u on, as long as the rings take them (R256): the next unit where one does not. -/
def Mach.pushUnits (n : Nat) (asid : BitVec 16) (t : TaskRec) (gx gy gz : Nat) (launch : Word) : Nat → Nat → Mach → Mach × Option Nat
  | 0, _, m => (m, none)
  | k + 1, u, m =>
    if !m.quotaOk asid (u % 32) 1 then (m, some u) else
    let e : SpawnEntry :=
      { asid := asid, task := unitTask t (some (gx, gy, gz, u)) 0, sig := sigOnes, launch := launch, grid := none, queue := some n
        serial := m.nextSerial, system := false }
    let m := { m with nextSerial := m.nextSerial + 1 }.push asid (u % 32) (.spawn e)
    let m := m.updQueue n fun q => { q with outstanding := q.outstanding + t.parts }
    Mach.pushUnits n asid t gx gy gz launch k (u + 1) m
/-- Push what is left of a launch, and say where the packet stands then. -/
def Mach.launchFrom (m : Mach) (n : Nat) (asid : BitVec 16) (t : TaskRec) (gx gy gz u : Nat) (launch : Word) : Mach :=
  match Mach.pushUnits n asid t gx gy gz launch (gridUnits t gx gy gz - u) u m with
  | (m, some u) => m.updQueue n fun q => { q with stage := .held t gx gy gz u launch, wait := none }
  | (m, none) => m.updQueue n fun q => { q with stage := if q.again then .prologue else .launched, wait := none }
/-- A launch that ends with a status: the packet ends when the groups of its earlier launches have completed. -/
def Mach.launchFail (m : Mach) (n status : Nat) : Mach :=
  match mget m.queues n with
  | none => m
  | some q => if q.outstanding = 0 then m.packetEnd n status
    else m.setQueue n { q with stage := .launched, status := status, again := false, wait := none }
/-- Launch a record over a grid, with a new launch id (R366). (log 14, DESIGN CHOICE) -/
def Mach.launch (m : Mach) (n : Nat) (asid : BitVec 16) (bs : List Byte) (a b : Nat) (again : Bool) : Mach :=
  let t := { TaskRec.ofBytes bs with link := 0 }
  let (gx, gy, gz) := gridOf a b
  if !t.ok || gx % t.parts != 0 then m.launchFail n 3 else
  let id : Word := BitVec.ofNat 32 m.nextLaunch
  let m := { m with nextLaunch := m.nextLaunch + 1 }.updQueue n fun q => { q with again := again }
  (m.answered (.packet n)).launchFrom n asid t gx gy gz 0 id
/-- LAUNCH: without a prologue the record and grid as they are, else the prologue's first registers (R367). -/
def execLaunch (q : Nat) (s : State) : Host.Outcome State Fault Refusal :=
  event (fun m => m.packet q 1 fun m x c p =>
    (m.feRead q c.asid 0 (p.dword 16) 64).thenEnd q x fun m bs =>
      let a := fieldAt p.bs 4 4
      let b := fieldAt p.bs 8 4
      if p.dword 24 = 0 then .ok (m.launch q c.asid bs a b false) else
      let w : Map Word := (List.range 16).foldl (fun w i => mput w i (BitVec.ofNat 32 (fieldAt bs (4 * i) 4))) []
      let w := mput (mput w 16 (BitVec.ofNat 32 a)) 17 (BitVec.ofNat 32 b)
      .ok ((m.answered (.packet q)).setQueue q
        { x with stage := .prologue, entry := p.dword 24, pw := w, pcc := [0, 0, 0, 0], run := 0, wait := none })) s
/-- HELD_LAUNCH_RESUME (R256): space has freed. -/
def Mach.heldResume (m : Mach) (n : Nat) : Ev :=
  match mget m.queues n with
  | none => .no
  | some q =>
    match m.queueCtx q, q.stage with
    | some c, .held t gx gy gz u id =>
      if m.quotaOk c.asid (u % 32) 1 then Ev.billed (.ok (m.launchFrom n c.asid t gx gy gz u id)) m c.allot.toNat else .no
    | _, _ => .no
def execHeldLaunchResume (q : Nat) (s : State) : Host.Outcome State Fault Refusal := event (fun m => m.heldResume q) s

/-! ## Prologues (R367) -/

/-- The thread of a prologue. -/
structure Pro where
  pc : Nat
  w : Map Word
  cc : List (BitVec 5)
/-- The meaning of an instruction that a prologue may use, WLDC and EXIT apart. (log 41, DEDUCED) -/
def proMeaning : Instr → Option (State → Host.Outcome State Fault Refusal)
  | .iadd x => some (execIadd x) | .isub x => some (execIsub x) | .imul x => some (execImul x) | .imulh x => some (execImulh x)
  | .imad x => some (execImad x) | .iaddc x => some (execIaddc x) | .isubb x => some (execIsubb x) | .ineg x => some (execIneg x)
  | .iabs x => some (execIabs x) | .imin x => some (execImin x) | .imax x => some (execImax x) | .icmp x => some (execIcmp x)
  | .lea x => some (execLea x) | .idot4 x => some (execIdot4 x)
  | .and x => some (execAnd x) | .or x => some (execOr x) | .xor x => some (execXor x) | .andn x => some (execAndn x)
  | .not x => some (execNot x) | .shl x => some (execShl x) | .shr x => some (execShr x) | .sar x => some (execSar x)
  | .rol x => some (execRol x) | .bfe x => some (execBfe x) | .bfi x => some (execBfi x) | .popc x => some (execPopc x)
  | .clz x => some (execClz x) | .ctz x => some (execCtz x) | .brev x => some (execBrev x) | .prmt x => some (execPrmt x)
  | .mov x => some (execMov x) | .sel x => some (execSel x) | .ccrd x => some (execCcrd x) | .ccwr x => some (execCcwr x)
  | .cctst x => some (execCctst x) | .bra x => some (execBra x) | .nop x => some (execNop x)
  | _ => none
/-- Every register a form names is a W register. -/
def onlyW (i : Instr) : Bool := (uses i).all fun u => !(u.src || u.dst) || u.o.cls == .w
/-- A machine that holds the prologue's thread alone. Results land before the next instruction. -/
def Pro.state (p : Pro) (len : Nat) : State :=
  let t : TaskRec := { TaskRec.ofBytes (List.replicate 64 0) with entry := BitVec.ofNat 64 p.pc }
  let w := Wave.born t 0 0 0 0
  let c (i : Nat) : BitVec 5 := p.cc.getD i 0
  let w := { w with w := p.w }.updLane 0 fun l => { l with c0 := c 0, c1 := c 1, c2 := c 2, c3 := c 3 }
  let g : Group :=
    { gid := 0, asid := 0, core := 0, launch := 0, task := t, place := 0, placement := 0, position := 0, units := [], slots := [], frames := []
      sig := 0, parked := false, fillWs := none, decided := false, reserve := 0, system := false, mxStatus := 0, waves := [w]
      queue := none, ctabDead := [] }
  { State.reset with mach := { Mach.reset with groups := [(0, g)], issue := some ⟨0, 0, BitVec.ofNat 64 p.pc, 0xFF, len⟩ } }
/-- The thread after an instruction: none where it trapped. -/
def proAfter (s : State) : Option Pro :=
  match s.mach.wave 0 0 with
  | none => none
  | some w =>
    let l := w.lane 0
    if w.tcause = 0 ∧ w.traps.isEmpty then some ⟨l.pc.toNat, w.w, [l.c0, l.c1, l.c2, l.c3]⟩ else none
/-- How a run ends. -/
inductive ProEnd where
  | exit (m : Mach) (p : Pro)
  | fault (m : Mach)
  | wait (m : Mach) (req : Nat)
  | held
/-- A WLDC of a prologue reads at the LLC through the constant path (R367, R411). -/
def Mach.proLoad (m : Mach) (n : Nat) (asid : BitVec 16) (x : IntOp) (p : Pro) (len : Nat) : Fe × Nat :=
  match Env.of x.ctl (p.state len).mach with
  | none => (.access m, 0)
  | some e =>
    let k := 4 * x.ty.regs
    let va := (e.getPair 0 x.a + BitVec.ofNat 64 (k * (e.getSrc 0 x.b x.ty.regs).toNat)).toNat
    if !usesOk (uses (.wldc x)) 32 || va % k != 0 then (.access m, k) else (m.feRead n asid 1 va k, k)
/-- Run a prologue for at most so many instructions. (log 41, DEDUCED) -/
def Mach.proRun (n : Nat) (asid : BitVec 16) : Nat → Mach → Pro → ProEnd
  | 0, m, _ => .fault m
  | k + 1, m, p =>
    if p.pc % 4 ≠ 0 then .fault m else
    match m.feRead n asid 4 p.pc (min 16 (32 - p.pc % 32)) with
    | .access m => .fault m
    | .wait m r => .wait m r
    | .held => .held
    | .ok m bs =>
      match decodeAt m p.pc bs with
      | .ok m i len _ =>
        let next : Pro := { p with pc := p.pc + len }
        let runs (c : Ctl) : Bool := c.cond.holds (p.cc.getD c.gcc.toNat 0)
        if !onlyW i then .fault m else
        (match i with
        | .exit x => if runs x.ctl then .exit m next else Mach.proRun n asid k m next
        | .wldc x =>
          if !runs x.ctl then Mach.proRun n asid k m next else
          (match m.proLoad n asid x p len with
          | (.ok m bs, sz) =>
            let ws := wordWrites x.d 0 (wordsOf (if sz = 8 then .b64 else .b32) false bs)
            let w := ws.foldl (fun (w : Map Word) q => match q.1 with | .w i => mput w i q.2 | _ => w) p.w
            Mach.proRun n asid k m { next with w := w }
          | (.access m, _) => .fault m
          | (.wait m r, _) => .wait m r
          | (.held, _) => .held)
        | i =>
          match proMeaning i with
          | none => .fault m
          | some f =>
            match f (p.state len) with
            | .next s => (match proAfter s with
              | some q => Mach.proRun n asid k m q
              | none => .fault m)
            | _ => .fault m)
      | _ => .fault m
/-- PROLOGUE_RUN (R367): one run, and what its exit code asks for. (log 41, DEDUCED) -/
def Mach.prologue (m : Mach) (n : Nat) : Ev :=
  match mget m.queues n with
  | none => .no
  | some q =>
    match m.queueCtx q with
    | none => .no
    | some c =>
      if q.stage ≠ .prologue ∨ m.asking q.wait ∨ m.endHeld (some n) then .no else
      let w := mput (mput q.pw 18 0) 19 (BitVec.ofNat 32 q.run)
      Ev.billed (n := c.allot.toNat) (m₀ := m) <| match Mach.proRun n c.asid 256 m ⟨q.entry, w, q.pcc⟩ with
      | .held => .no
      | .wait m r => .ok (m.setQueue n { q with wait := some r })
      | .fault m => .ok (m.launchFail n 4)
      | .exit m p =>
        let r (i : Nat) : Nat := (mgetD p.w i 0).toNat
        let m := m.setQueue n { q with pw := p.w, pcc := p.cc, run := q.run + 1, wait := none }
        let code := r 18 % 4
        if code = 3 then .ok (m.launchFail n 4)
        else if code = 1 then .ok (m.launchFail n 1)
        else if r 17 / 2 ^ 16 ≠ 0 then .ok (m.launchFail n 4)
        else .ok (m.launch n c.asid ((List.range 16).flatMap fun i => leBytes 4 (r i)) (r 16) (r 17) (code == 2))
def execPrologueRun (q : Nat) (s : State) : Host.Outcome State Fault Refusal := event (fun m => m.prologue q) s

end Sys2Proof.Machine
end

