-- ==== Sys2Proof/Machine/CoreEvents.lean ====
section
/-! DEFINITION. Steps of the cores, hubs, join units and the Depot around the instructions: traps (R352, R355), forced issues
(R27), extended blocks (R110 to R112), loads that return (R204, R354), translation and LLC fills (R175, R177), placement
(R49), refills (R255), completion and resumption (R42, R44), and counters that wrap (R345). -/

namespace Sys2Proof.Machine

/-! ## Traps and forced issues -/

/-- A PERF_OVF takes the entry that issues next (R345); none while no entry can issue. (log 39, DEDUCED) -/
def PendTrap.placed (t : PendTrap) (m : Mach) (g : Group) (w : Wave) : Option PendTrap :=
  if t.code ≠ Code.perfOvf ∨ w.inHandler then some t else
  (m.choose g w).map fun e => { t with pc := e.1, prio := e.2, mask := maskOf (w.entryLanes e.1 e.2) }
/-- A query was answered with a fault, and its answers are used up (R244). -/
def Mach.refused (m : Mach) (who : Requester) : Bool := m.replies.any fun r => r.who == who && r.code != 0
def Mach.settled (m : Mach) (who : Requester) : Mach :=
  if m.replies.isEmpty then m else { m with replies := m.replies.filter fun r => r.who != who }
/-- A pending trap is taken. -/
def Mach.tookTrap (m : Mach) (gid wave : Nat) (t : PendTrap) : Mach := m.updWave gid wave fun w => { w with traps := w.traps.erase t }
/-- The same finding in another machine. -/
def VectorRead.within (m : Mach) : VectorRead → VectorRead
  | .ok _ pc => .ok m pc
  | .fault _ o => .fault m o
  | .later _ a => .later m a
/-- Read a vector entry in a page of any class (R323): a grove line is waited for, a fault met there is the read's; a window
is read at its unit. (log 27, DEDUCED) -/
def Mach.vectorAt (m : Mach) (wave : Nat) (g : Group) (va : Nat) : VectorRead :=
  let who : Requester := .vector g.gid wave
  match m.vectorPage g va with
  | (m, .ok c) =>
    if m.refused who then .fault (m.settled who) 2
    else if m.locked g.asid va none || (c == 2 && m.bankBusy g.asid va 8) then .later m false
    else if c = 4 then
      (match m.windowParity g.asid (va % 2 ^ 24) with
      | some (.inl m) => .later m true
      | some (.inr _) => .fault m 2
      | none => let (m, v) := m.windowRead g.asid (va % 2 ^ 24) (some (g.gid, wave))
        vectorOf m (leBytes 8 v.toNat))
    else
      match (if c = 2 ∨ c = 3 then m.bankRead g.asid va 8 else m.l1Load g.core g.asid va 8 .norm) with
      | .ok m bs => vectorOf (m.settled who) bs
      | .grove m a =>
        (match m.replies.find? fun r => r.who == who && r.sector == secKey g.asid a with
        | some r => vectorOf (m.settled who) ((r.bytes.drop (va % 32)).take 8)
        | none =>
          if m.reqs.any fun q => q.who == who then .later m false
          else .later (m.askGrove who g.asid a 0 g.task.tpri g.task.flvl.toNat).1 true)
      | .bad m _ _ => .fault m 2
      | .again m => .later m false
  | (m, _) => .fault m 2
/-- TRAP_DELIVERY (R352, R355): every earlier load of the wave has returned. (log 43, DEDUCED; log 67, DEDUCED) -/
def Mach.trapDeliver (m : Mach) (gid wave : Nat) : Ev :=
  match m.group gid with
  | none => .no
  | some g =>
    match g.wave wave with
    | none => .no
    | some w =>
      if w.ended || g.parked || m.haltedGroup g || !w.loads.isEmpty then .no else
      match w.deliverable g.task with
      | none => .no
      | some t =>
        match t.placed m g w with
        | none => .no
        | some p =>
          let tvec := match m.ctxOf g.asid with | some c => c.tvec | none => 0
          let read := m.vectorAt wave g (vectorAddr tvec p.code)
          Ev.billed (n := g.task.allot.toNat) (m₀ := m) <| match w.inHandler, read with
          | false, .later m true => .ok m
          | false, .later _ false => .no
          | false, .ok m' _ => .ok ((m'.tookTrap gid wave t).deliverBy (fun m _ _ => read.within m) gid wave p)
          | false, .fault m' _ => .ok ((m'.tookTrap gid wave t).deliverBy (fun m _ _ => read.within m) gid wave p)
          | true, _ => .ok ((m.tookTrap gid wave t).deliver gid wave p)
def execTrapDelivery (gid wave : Nat) (s : State) : Host.Outcome State Fault Refusal :=
  event (fun m => m.trapDeliver gid wave) s
/-- FORCED_ISSUE (R27): the entry whose age reached 1024 is the next to issue. A thread carries its entry's age into an
entry it merges with, whose age is the largest. (log 73, DEDUCED) -/
def Mach.forceIssue (m : Mach) (gid wave : Nat) : Ev :=
  match m.group gid with
  | none => .no
  | some g =>
    match g.wave wave with
    | none => .no
    | some w =>
      if w.forced.isSome then .no else
      match firstEntry ((m.eligible g w).filter fun e => w.live.any fun l => (w.lane l).entry == e && decide (1024 ≤ (w.lane l).age)) with
      | none => .no
      | some e => .ok ((m.count g.core g.asid 0x000A 1 (some (gid, wave))).updWave gid wave fun w => { w with forced := some e })
def execForcedIssue (gid wave : Nat) (s : State) : Host.Outcome State Fault Refusal :=
  event (fun m => m.forceIssue gid wave) s

/-! ## Extended blocks and refresh (R110 to R112) -/

/-- REGISTER_DROWSY (R111). -/
def execRegisterDrowsy (gid wave : Nat) (s : State) : Host.Outcome State Fault Refusal :=
  event (fun m => match m.wave gid wave with
    | some w => if w.ext ≠ 0 ∧ !w.drowsy ∧ w.lastExt + 4096 ≤ m.clk
        then .ok (m.updWave gid wave fun w => { w with drowsy := true }) else .no
    | none => .no) s
/-- BACKGROUND_REFRESH (R112). -/
def execBackgroundRefresh (gid wave : Nat) (s : State) : Host.Outcome State Fault Refusal :=
  event (fun m => match m.wave gid wave with
    | some w => if w.refresh.isEmpty then .no else .ok (m.updWave gid wave fun w => { w with refresh := [] })
    | none => .no) s
/-- The threads of the entry a request stands for, those that joined it since among them (R24). -/
def XacqReq.entry (r : XacqReq) (w : Wave) : List Nat :=
  w.live.filter fun l => (w.lane l).entry == (r.pc, r.prio) && !(w.lane l).wait.after
/-- The threads that perform a waiting XACQ: those whose guard held at its issue and that wait at it still (R138). -/
def XacqReq.here (r : XacqReq) (w : Wave) : List Nat := (r.entry w).filter fun l => r.lanes.contains l && (w.lane l).wait == .xacq
/-- A request waits no longer. -/
def Mach.dropXacq (m : Mach) (core ls : Nat) (r : XacqReq) : Mach :=
  { m with xacqQ := mput m.xacqQ (xacqKey core ls) ((mgetD m.xacqQ (xacqKey core ls) []).erase r) }
/-- A request leaves without a grant: threads that wait at its XACQ issue it again, and `traps` are raised there. -/
def Mach.leaveXacq (m : Mach) (core ls : Nat) (r : XacqReq) (traps : List PendTrap) : Mach :=
  (m.dropXacq core ls r).updWave r.gid r.wave fun w =>
    { w.updLanes ((r.entry w).filter fun l => (w.lane l).wait == .xacq) (fun t => { t with wait := .none }) with traps := w.traps ++ traps }
/-- XACQ_GRANT (R110): the head request is granted and its XACQ completes with its STALL and YLD (R71). A wave that has come
to hold a block raises ILLEGAL_OPERAND; a request nobody waits on leaves. -/
def Mach.xacqGrant (m : Mach) (core ls : Nat) : Ev :=
  match mgetD m.xacqQ (xacqKey core ls) [] with
  | [] => .no
  | r :: _ =>
    match m.wave r.gid r.wave with
    | none => .ok (m.dropXacq core ls r)
    | some w =>
      let here := r.here w
      if here.isEmpty then .ok (m.leaveXacq core ls r [])
      else if w.ext ≠ 0 then .ok (m.leaveXacq core ls r [⟨r.pc, r.prio, maskOf here, Code.illegalOperand, 0, 0, false⟩])
      else if !m.canGrant core ls r.regs then .no
      else
        let asid := ((m.group r.gid).map (·.asid)).getD 0
        let who := some (r.gid, r.wave)
        let all := r.entry w
        let m := (m.dropXacq core ls r).updWave r.gid r.wave fun w =>
          let w := w.updLanes all fun t => { t with wait := .none, pc := t.pc + 8, age := 0, ready := m.clk + max 1 r.ctl.stall.toNat }
          let w := (w.closeRegions all).grantBlock m.clk r.regs
          { w with yieldFrom := if r.ctl.yld then some (r.pc + 8, r.prio) else w.yieldFrom }
        .ok ((m.count core asid 0x0002 1 who).count core asid 0x0003 here.length who)
def execXacqGrant (core laneset : Nat) (s : State) : Host.Outcome State Fault Refusal :=
  event (fun m => m.xacqGrant core laneset) s
/-- XACQ_TIMEOUT (R110): a request that has waited 1 ms leaves and the trap is raised at its XACQ. -/
def Mach.xacqTimeout (m : Mach) (core ls n : Nat) : Ev :=
  match (mgetD m.xacqQ (xacqKey core ls) [])[n]? with
  | none => .no
  | some r =>
    if m.timeNs < r.since + 1000000 then .no else
    match m.wave r.gid r.wave with
    | none => .ok (m.dropXacq core ls r)
    | some w =>
      let here := r.here w
      .ok (m.leaveXacq core ls r (if here.isEmpty then [] else [⟨r.pc, r.prio, maskOf here, Code.xacqTimeout, 0, 0, false⟩]))
def execXacqTimeout (core laneset n : Nat) (s : State) : Host.Outcome State Fault Refusal :=
  event (fun m => m.xacqTimeout core laneset n) s

/-! ## Memory answers -/

/-- The registers a load writes. -/
def LoadOp.keys (o : LoadOp) : List RKey := o.writes.map (·.1) ++ o.flags.map fun f => .c f.1 f.2.1
/-- The results of a load arrive: newer than what is in flight, marked as written in the region (R119), an access to the
extended block (R111). -/
def Wave.land (w : Wave) (clk : Nat) (o : LoadOp) : Wave :=
  let lead := (lanesOf o.mask).headD 0
  let w := o.writes.foldl (fun w p => (((w.putNow p.1 p.2).mark lead p.1).wake clk p.1)) w
  let w := o.flags.foldl (fun w f => w.setCcAt 0 0 f.1 f.2.1 f.2.2) w
  { w with loads := w.loads.erase o, pend := w.pend.filter fun k => !o.keys.contains k }
/-- A load that was run again has returned good data (R354). -/
def Wave.clearRerun (w : Wave) (o : LoadOp) : Wave :=
  o.nums.foldl (fun w p => w.updLane p.1 fun t => if t.rerun == some (o.pc, p.2) then { t with rerun := none } else t) w
/-- LOAD_RETURN (R204, R354): the oldest load of a wave returns. A first uncorrectable word rolls the wave back to run the
load again; a second is a trap at it. A wave parked at AWAIT is at its rendezvous when its loads have returned.
(log 67, DEDUCED) -/
def Mach.loadReturn (m : Mach) (gid wave : Nat) : Ev :=
  match m.wave gid wave with
  | none => .no
  | some w =>
    match w.loads with
    | [] => .no
    | o :: _ =>
      match o.poison with
      | none => .ok ((m.updWave gid wave fun w => (w.land m.clk o).clearRerun o).rendezvous gid)
      | some (mask, va) =>
        if w.reruns o.pc o.nums then
          let t : PendTrap := ⟨o.pc, o.prio, mask, Code.dataUncorrectable, 0, BitVec.ofNat 64 va, false⟩
          -- the threads stand at the load again; should another trap come first, it is run once more
          let back (w : Wave) : Wave := o.nums.foldl (fun w p => w.updLane p.1 fun t =>
            if t.st == .live then { t with pc := o.pc, prio := o.prio, loadNo := p.2 } else t) w
          -- an exclusive consignment aborts with cause 4 before the fault is raised (R214)
          let m := (lanesOf mask).foldl (fun m l => match m.openConsign gid wave l with
            | some c => m.abortConsign c 4 0 (some (gid, wave))
            | none => m) m
          .ok (m.updWave gid wave fun w =>
            { back w with
              loads := w.loads.erase o, pend := w.pend.filter fun k => !o.keys.contains k, traps := w.traps ++ [t] })
        else .ok ((m.rollbackWave gid wave false).updWave gid wave fun w => w.markRerun o.pc o.nums)
def execLoadReturn (gid wave : Nat) (s : State) : Host.Outcome State Fault Refusal :=
  event (fun m => m.loadReturn gid wave) s
/-- A lane waits for a walk of a page. -/
def Lane.walks (t : Lane) (va : Nat) : Bool :=
  match t.wait with
  | .walk a => a / 4096 == va / 4096
  | _ => false
/-- ATTRIBUTE_TLB_FILL (R175, R177): the walk returns, and the accesses that waited for it try again. -/
def Mach.tlbFill (m : Mach) (core : Nat) (asid : BitVec 16) (va : Nat) : Ev :=
  let mine (g : Group) : Bool := g.core == core && g.asid == asid
  if !(m.groups.any fun p => mine p.2 && p.2.waves.any fun w => w.live.any fun l => (w.lane l).walks va) then .no else
  let m := m.tlbWalk core asid va
  let wake (w : Wave) : Wave := w.updLanes (w.live.filter fun l => (w.lane l).walks va) fun t => { t with wait := .none }
  .ok { m with groups := m.groups.map fun p => if mine p.2 then (p.1, { p.2 with waves := p.2.waves.map wake }) else p }
def execAttributeTlbFill (core : Nat) (asid : BitVec 16) (va : DWord) (s : State) : Host.Outcome State Fault Refusal :=
  event (fun m => m.tlbFill core asid va.toNat) s
/-- LLC_MISS (R177, R178, R207): a line on its way into the LLC is translated and filled; at a locked sector it waits (R214). It is
charged to the allotment that asked (R371). (log 42, DESIGN CHOICE) -/
def Mach.llcMiss (m : Mach) (asid : BitVec 16) (va : Nat) : Ev :=
  let line := va / 64 * 64
  match m.prefetch.find? fun p => p.1 == asid && p.2.1 == line with
  | none => .no
  | some p =>
    if m.lockedRange asid line 64 then .no else
    Ev.billed (.ok ([line, line + 32].foldl (fun m a => match m.llcFill asid a 32 with
      | .ok m _ => m
      | .bad m _ _ => m
      | .grove m _ => m
      | .again m => m) { m with prefetch := m.prefetch.erase p })) m p.2.2
def execLlcMiss (asid : BitVec 16) (va : DWord) (s : State) : Host.Outcome State Fault Refusal :=
  event (fun m => m.llcMiss asid va.toNat) s
/-- EXCLUSIVE_CONSIGNMENT_GRANT (R214): no exclusive consignment of the context is open; the first that waits opens. -/
def Mach.exclusiveGrant (m : Mach) (asid : BitVec 16) : Ev :=
  if m.consigns.any (fun c => c.exclusive && !c.aborted && c.asid == asid) then .no else
  match m.exclQ.find? fun q => q.asid == asid with
  | none => .no
  | some q =>
    let m := { m with exclQ := m.exclQ.erase q }
    match m.wave q.gid q.wave with
    | none => .ok m
    | some w =>
      if (w.lane q.lane).wait != .exclusive then .ok m else
      .ok ((m.openTx q.gid q.wave q.lane asid true).updWave q.gid q.wave fun w =>
        { w.updLane q.lane (fun t => { t with wait := .none, pc := t.pc + 8, age := 0, rolled := false, ready := m.clk + max 1 q.ctl.stall.toNat }) with
          yieldFrom := if q.ctl.yld then some ((w.lane q.lane).pc + 8, (w.lane q.lane).prio) else w.yieldFrom })
def execExclusiveConsignmentGrant (asid : BitVec 16) (s : State) : Host.Outcome State Fault Refusal :=
  event (fun m => m.exclusiveGrant asid) s

/-! ## Placement and refills -/

/-- HUB_PLACEMENT (R48, R49): the record that leaves first is placed, or the next unit of its grid. (log 26, DEDUCED) -/
def Mach.hubPlace (m : Mach) (convoy : Nat) : Ev :=
  let q := mgetD m.spawnQ convoy []
  match headSpawn q with
  | none => .no
  | some e =>
    match m.hubChoice convoy e with
    | none => .no
    | some cores =>
      if !m.framesFor e.asid cores.length then .no else
      let q := match e.advance with
        | some e' => q.map fun x => if x.serial == e.serial then e' else x
        | none => q.filter fun x => x.serial != e.serial
      .ok ({ m with spawnQ := mput m.spawnQ convoy q }.placeUnit e cores)
def execHubPlacement (convoy : Nat) (s : State) : Host.Outcome State Fault Refusal :=
  event (fun m => m.hubPlace convoy) s
/-- A refilled fill record's TPRI is set from its waystation's priority (R255). -/
def Mach.refilled (m : Mach) : DepotItem → DepotItem
  | .fill e => match mget m.ways e.ws with
    | some w => .fill { e with task := { e.task with tpri := BitVec.ofNat 8 (max e.task.tpri.toNat w.prio.toNat) } }
    | none => .fill e
  | x => x
/-- DEPOT_REFILL (R255, R257): the entry at HEAD moves into its queue; a ring that cannot be read is a context fault. -/
def Mach.depotRefill (m : Mach) (asid : BitVec 16) (ring : Nat) : Ev :=
  match m.ring asid ring with
  | none => .no
  | some r =>
    match r.items with
    | [] => .no
    | x :: rest =>
      if queueDepth ring ≤ m.queueLen ring then .no else
      let n := entryBytes ring
      match m.agentReadRun asid true 0 (r.base.toNat + r.head) n with
      | .bad m code va => .ok (m.contextFault asid ⟨BitVec.ofNat 32 code, 3, 0, BitVec.ofNat 64 va, 0, ⟨0, 0, 0, 0, 0⟩, none⟩)
      | .ok m _ =>
        let r := { r with head := (r.head + n) % 2 ^ r.logSize, used := r.used - n, items := rest }
        let m : Mach := { m with rings := mput m.rings (ringKey asid ring) r }.ringPointers asid ring r
        .ok (m.enqueue ring (m.refilled x))
      | _ => .no
def execDepotRefill (asid : BitVec 16) (ring : Nat) (s : State) : Host.Outcome State Fault Refusal :=
  event (fun m => m.depotRefill asid ring) s

/-! ## Completion and resumption -/

/-- Decrement a successor counter (R42, R341): modulo 2^32, without a fault. -/
def Mach.decrement (m : Mach) (asid : BitVec 16) (va : Nat) : Mach :=
  match m.agentRead asid false 0 va 4 with
  | .ok m bs =>
    (match m.agentWrite asid false va (leBytes 4 (leNat bs + 2 ^ 32 - 1)) with
    | .ok m _ => m
    | _ => m)
  | _ => m
/-- TASK_COMPLETION (R42, R267, R328): bindings are dropped, the signature is merged into the parent, whose COUNT falls;
then the successor counter. A fill that decided nothing is aborted with 0xF0 (R247). -/
def Mach.complete (m : Mach) (gid : Nat) : Ev :=
  match m.group gid with
  | none => .no
  | some g =>
    let succ := g.task.succ.toNat
    if !g.over || g.frames.any (fun h => m.countOf g.asid h != 0) || m.flushHeld g.core g.asid
        || (succ != 0 && m.locked g.asid succ none) || m.endHeld g.queue then .no else
    let m := m.release g.core g.asid
    let m := (List.range g.slots.length).foldl (fun (m : Mach) k => m.dropBinding gid k) m
    let m := match g.fillWs with
      | some ws => if g.decided then m else m.abortFill ws 0xF0
      | none => m
    let sig := g.frames.foldl (fun (s : Sig) h => s ||| ((m.frame g.asid h).map (·.sig)).getD 0) g.sig
    let first := g.frames.headD 0
    let parent := ((m.frame g.asid first).map (·.parent)).getD 0
    let m := g.frames.foldl (fun (m : Mach) h => m.dropFrame g.asid h) m
    let m := if parent = 0 then m else
      (m.updFrame g.asid parent fun f => { f with
        sig := f.sig ||| sig, count := f.count - 1, last := g.core, ready := f.ready || f.count == 1 }).countSlice
          (homeSlice g.asid parent) 0x0109 1
    let m := if succ = 0 then m else m.decrement g.asid succ
    let m := { m with groups := mdel m.groups gid, consigns := m.consigns.filter fun c => c.gid != gid }
    .ok ((m.trimLoops g.core).launchDone g.queue)
def execTaskCompletion (gid : Nat) (s : State) : Host.Outcome State Fault Refusal :=
  event (fun m => m.complete gid) s
/-- A group's core can be changed: nothing it issued is still under way there (R293). -/
def Mach.movable (m : Mach) (g : Group) : Bool :=
  g.waves.all fun w => w.loads.isEmpty && !m.commandsOf g.core g.gid w.index
/-- The core where a continuation resumes (R44): LAST if it can take the group, then the convoy of LAST, then any. Its own
core still holds its resources. -/
def Mach.resumeCore (m : Mach) (g : Group) (last : Nat) : Option (Nat × Option Grant) :=
  let can (n : Nat) : Bool := n == g.core || (m.fitsAgain g n).isSome
  let choose (cs : List Nat) : Option Nat := mostFree m (cs.filter can)
  let n := if can last then some last else (choose ((List.range 4).map (· + last / 4 * 4))).or (choose coreNums)
  n.map fun n => (n, if n = g.core then none else m.fitsAgain g n)
/-- CONTINUATION_RESUME (R44, R45): the group goes on where R44 says; moved, it writes back its old core's lines, takes its
scratchpad with it, and acquires everything on the new core. -/
def Mach.resumeParked (m : Mach) (gid : Nat) : Ev :=
  match m.group gid with
  | none => .no
  | some g =>
    match g.meeting with
    | none => .no
    | some d =>
      let h := g.frames.getD d 0
      if !g.parked || m.countOf g.asid h != 0 then .no else
      let last := ((m.frame g.asid h).map (·.last)).getD g.core
      match m.resumeCore g last with
      | none => .no
      | some (_, none) => .ok (m.resumeGroup gid 0)
      | some (n, some gr) =>
        if !m.movable g || m.flushHeld g.core g.asid then .no else
        let m := m.l1Flush g.core g.asid
        let g := (m.group gid).getD g
        let image := m.spadImage g
        let m := m.reseat g n gr image
        .ok (m.resumeGroup gid g.sig)
def execContinuationResume (gid : Nat) (s : State) : Host.Outcome State Fault Refusal :=
  event (fun m => m.resumeParked gid) s

/-! ## Counters that wrap (R345) -/

/-- The wave that takes PERF_OVF: the one whose instruction made the count wrap, else the resident unparked wave of the
context with the lowest slot number. (log 39, DEDUCED) -/
def Mach.ovfWave (m : Mach) (core : Nat) (asid : BitVec 16) (who : Option (Nat × Nat)) : Option (Nat × Nat) :=
  let live (gid wave : Nat) : Bool := match m.group gid with
    | some g => g.core == core && g.asid == asid && (match g.wave wave with | some w => !w.live.isEmpty | none => false)
    | none => false
  match who.filter fun p => live p.1 p.2 with
  | some p => some p
  | none =>
    let ws := ((m.resident core).filter fun g => g.asid == asid && !g.parked).flatMap fun g =>
      (g.waves.filter fun w => !w.ended && w.live.any fun l => !(w.lane l).wait.parked).map fun w =>
        (g.gid, w.index, 16 * w.laneset + w.slot)
    (ws.foldl (fun (b : Option (Nat × Nat × Nat)) x => match b with
      | some y => if x.2.2 < y.2.2 then some x else b
      | none => some x) none).map fun x => (x.1, x.2.1)
/-- COUNTER_WRAP, once the clk of the wrap is over (R136): OVF is set; a core counter with OVFIE raises PERF_OVF, unless one is still undelivered.
(log 39, DEDUCED) -/
def Mach.counterWrap (m : Mach) (u : CtrUnit) (n : Nat) : Ev :=
  let c := m.counter u n
  match c.wrapped with
  | none => .no
  | some who =>
    if m.clk ≤ c.wrapAt then .no else
    let m := m.setCounter u n { c with ctl := c.ctl ||| 0x40000, wrapped := none }
    match u with
    | .core core asid =>
      if !c.ctl.getLsbD 17 then .ok m else
      let out (w : Wave) : Bool := w.perfHeld.contains n || w.traps.any fun t => t.code == Code.perfOvf && t.info == n
      if (m.resident core).any (fun g => g.asid == asid && g.waves.any out) then .ok m else
      (match m.ovfWave core asid who with
      | some (gid, wave) =>
        .ok (m.updWave gid wave fun w => { w with traps := w.traps ++ [⟨0, 0xFF, 0, Code.perfOvf, n, 0, true⟩] })
      | none => .ok m)
    | _ => .ok m
def execCounterWrap (unit : CtrUnit) (n : Nat) (s : State) : Host.Outcome State Fault Refusal :=
  event (fun m => m.counterWrap unit n) s

end Sys2Proof.Machine
end

