-- ==== Sys2Proof/Machine/Cross.lean ====
section
/-! DEFINITION. Row 0x8, cross-lane instructions (R158 to R169). Sources are the active lanes, helpers included;
members are the active threads. -/

namespace Sys2Proof

namespace Machine

/-- The members of a slot's segment. -/
def Env.seg (e : Env) (s : Seg) (l : Nat) : List Nat := e.act.filter fun k => Seg.base s k == Seg.base s l
/-- A result with flags of Z alone. -/
def zRes (r : DWord) (z : Bool) : Res := ⟨r, zCc z, 0⟩

/-! ## Moving values between slots -/

def execShfl (x : ShflOp) (s : State) : Host.Outcome State Fault Refusal :=
  perform (.shfl x) x.ctl (fun e =>
    let n := if x.w64 then 2 else 1
    e.result (.shfl x) x.ctl (some (x.d, n)) x.flag fun l =>
      match e.shflSlot x l with
      | some k => zRes (e.getN k x.a n) true
      | none => zRes (e.getN l x.c n) false) s
def execQexch (x : QexchOp) (s : State) : Host.Outcome State Fault Refusal :=
  perform (.qexch x) x.ctl (fun e =>
    let n := if x.w64 then 2 else 1
    e.result (.qexch x) x.ctl (some (x.d, n)) none fun l =>
      ⟨e.getN (e.quadAt l (qexchFrom x.mode (l % 4))) x.a n, 0, 0⟩) s
/-- The two quad positions whose difference QDER forms at position q (R164). -/
def qderPair (x : QderOp) (q : Nat) : Nat × Nat :=
  if x.coarse then (if x.yAxis then 2 else 1, 0)
  else if x.yAxis then (q ||| 2, q &&& 1) else (q ||| 1, q &&& 2)
def execQder (x : QderOp) (s : State) : Host.Outcome State Fault Refusal :=
  perform (.qder x) x.ctl (fun e => e.result (.qder x) x.ctl (some (x.d, 1)) none fun l =>
    let (p, q) := qderPair x (l % 4)
    let r := fSub fp32 .rn (e.get (e.quadAt l p) x.a).toNat (e.get (e.quadAt l q) x.a).toNat
    ⟨BitVec.ofNat 64 r.bits, 0, r.fl⟩) s

/-! ## Votes, matches, election -/

def execVote (x : VoteOp) (s : State) : Host.Outcome State Fault Refusal :=
  perform (.vote x) x.ctl (fun e =>
    let p (k : Nat) : Bool := e.get k x.a != 0
    match x.mode with
    | .all => e.result (.vote x) x.ctl none x.flag fun l => zRes 0 ((e.seg x.seg l).all p)
    | .any => e.result (.vote x) x.ctl none x.flag fun l => zRes 0 ((e.seg x.seg l).any p)
    | .ballot => e.result (.vote x) x.ctl (some (x.d, 2)) x.flag fun l =>
      let mask := maskOf ((e.seg x.seg l).filter p)
      zRes mask (mask == 0)) s
def execMatchv (x : MatchOp) (s : State) : Host.Outcome State Fault Refusal :=
  perform (.matchv x) x.ctl (fun e =>
    let n := if x.w64 then 2 else 1
    e.result (.matchv x) x.ctl (some (x.d, 2)) x.flag fun l =>
      let same := (e.seg x.seg l).filter fun k => e.getN k x.a n == e.getN l x.a n
      zRes (maskOf same) (e.act.contains l && same.head? == some l)) s
/-- ELECT (R167): the lowest member of each segment. -/
def execElect (x : ElectOp) (s : State) : Host.Outcome State Fault Refusal :=
  perform (.elect x) x.ctl (fun e => e.result (.elect x) x.ctl (x.d.map fun d => (d, 1)) (some x.ccd) fun l =>
    let k := (e.seg x.seg l).headD 0
    zRes (BitVec.ofNat 64 k) (k == l && e.act.contains l)) s

/-! ## Reductions and scans (R103, R104, R168) -/

/-- An integer combination. -/
def comb (op : ROp) (t : IType) (a b : DWord) : DWord :=
  match op with
  | .add => wrap t.w (uv t.w a + uv t.w b)
  | .min => wrap t.w (min (tv t a) (tv t b))
  | .max => wrap t.w (max (tv t a) (tv t b))
  | .and => a &&& b
  | .or => a ||| b
  | .xor => a ^^^ b
/-- A floating combination: pattern and exceptions. -/
def fcomb (op : ROp) (rm : Rm) (a b : Rounded) : Rounded :=
  let r := match op with
    | .min => fMinMax fp32 false a.bits b.bits
    | .max => fMinMax fp32 true a.bits b.bits
    | _ => fAdd fp32 rm a.bits b.bits
  ⟨r.bits, a.fl ||| b.fl ||| r.fl⟩
/-- The identity of an exclusive scan. -/
def scanIdent (x : ReduxOp) : Rounded :=
  if x.flt then ⟨match x.op with | .min => fp32.infBits | .max => fp32.infBits + fp32.sign true | _ => 0, 0⟩
  else
    let w := x.ty.w
    ⟨match x.op with
      | .min => if x.ty.signed then 2 ^ (w - 1) - 1 else 2 ^ w - 1
      | .max => if x.ty.signed then 2 ^ (w - 1) else 0
      | .and => 2 ^ w - 1
      | _ => 0, 0⟩
/-- Combine two values of a REDUX or SCAN. -/
def rcomb (x : ReduxOp) (a b : Rounded) : Rounded :=
  if x.flt then fcomb x.op x.rm a b
  else ⟨(comb x.op x.ty (BitVec.ofNat 64 a.bits) (BitVec.ofNat 64 b.bits)).toNat, 0⟩
/-- The value of a member. -/
def Env.rval (e : Env) (x : ReduxOp) (l : Nat) : Rounded := ⟨(e.getN l x.a x.ty.regs).toNat, 0⟩
/-- One round of the tree of R103: neighbours at even places combine; an absent one gives way to the other. -/
def treeRound (f : Rounded → Rounded → Rounded) : List (Option Rounded) → List (Option Rounded)
  | a :: b :: t => (match a, b with
      | some x, some y => some (f x y)
      | some x, none => some x
      | none, y => y) :: treeRound f t
  | l => l
/-- The tree over 2^n slots. -/
def tree (f : Rounded → Rounded → Rounded) : Nat → List (Option Rounded) → Option Rounded
  | 0, l => (l.head?).join
  | n + 1, l => tree f n (treeRound f l)
/-- A segment's combined value. -/
def Env.reduce (e : Env) (x : ReduxOp) (l : Nat) : Rounded :=
  let base := Seg.base x.seg l
  let vals := (List.range x.seg.size).map fun i =>
    if e.act.contains (base + i) then some (e.rval x (base + i)) else none
  (tree (rcomb x) 6 vals).getD (scanIdent x)
def execRedux (x : ReduxOp) (s : State) : Host.Outcome State Fault Refusal :=
  perform (.redux x) x.ctl (fun e => e.result (.redux x) x.ctl (some (x.d, x.ty.regs)) none fun l =>
    let r := e.reduce x l
    ⟨BitVec.ofNat 64 r.bits, 0, r.fl⟩) s
/-- The running value over a list of members. (log 53, DEDUCED) -/
def Env.running (e : Env) (x : ReduxOp) (ls : List Nat) : Rounded :=
  match ls with
  | [] => scanIdent x
  | k :: ks => ks.foldl (fun a j => rcomb x a (e.rval x j)) (e.rval x k)
/-- SCAN (R168). (log 53, DEDUCED) -/
def execScan (x : ReduxOp) (s : State) : Host.Outcome State Fault Refusal :=
  perform (.scan x) x.ctl (fun e => e.result (.scan x) x.ctl (some (x.d, x.ty.regs)) none fun l =>
    let ms := e.seg x.seg l
    let r := e.running x (ms.filter fun k => if x.excl then k < l else k ≤ l)
    ⟨BitVec.ofNat 64 r.bits, 0, (e.running x ms).fl⟩) s

/-! ## Lane writes (R169) -/

/-- LANEW: all reads before all writes; the highest source of a target prevails. (log 51, DEDUCED) -/
def execLanew (x : LanewOp) (s : State) : Host.Outcome State Fault Refusal :=
  perform (.lanew x) x.ctl (fun e =>
    let dst (l : Nat) : Nat := (e.getSrc32 l x.b).toNat % 64
    let holds (k : Nat) : Bool := (e.w.lane k).st == .live || e.w.helper k
    let lat := latency (.lanew x)
    e.regs fun w =>
      let w := e.all.foldl (fun (w : Wave) l =>
        if holds (dst l) then
          (w.setN e.clk lat (dst l) x.d 1 ((e.get l x.a).setWidth 64)).mark e.lead (x.d.key (dst l) 0)
        else w) w
      e.all.foldl (fun (w : Wave) l =>
        w.latch e.clk lat l (if holds (dst l) then e.get (dst l) x.d else 0)) w) s

end Machine
end Sys2Proof
end

