-- ==== Sys2Proof/Machine/Debug.lean ====
section
/-! DEFINITION. Stores to the debug window as steps of their own (R113, R342, R343, R349). A wave's ST performs the same
store through `Mach.windowWrite`. -/

namespace Sys2Proof.Machine

/-- A store to the halt block of a core by a mapped context. -/
def Mach.blockStore (m : Mach) (asid : BitVec 16) (core : Nat) (f : Mach → Mach) : Ev :=
  if (m.ctxOf asid).isSome && decide (core < 128) then .ok (f m) else .no
/-- CMD 1: every group of the context on the core halts but the one that performs the store. -/
def execDebugHalt (asid : BitVec 16) (core : Nat) (byGid : Option Nat) (s : State) : Host.Outcome State Fault Refusal :=
  event (fun m => m.blockStore asid core fun m => m.debugHalt core asid byGid false) s
/-- CMD 2: every halted wave issues again. -/
def execDebugResume (asid : BitVec 16) (core : Nat) (s : State) : Host.Outcome State Fault Refusal :=
  event (fun m => m.blockStore asid core fun m => m.debugResume core asid) s
/-- CMD 4 arms BRK stops. -/
def execDebugArmBrk (asid : BitVec 16) (core : Nat) (s : State) : Host.Outcome State Fault Refusal :=
  event (fun m => m.blockStore asid core fun m => m.debugArm core asid true) s
/-- CMD 8 disarms them. -/
def execDebugDisarmBrk (asid : BitVec 16) (core : Nat) (s : State) : Host.Outcome State Fault Refusal :=
  event (fun m => m.blockStore asid core fun m => m.debugArm core asid false) s
/-- A store to THREAD (R349). -/
def execDebugThreadWrite (asid : BitVec 16) (core : Nat) (value : DWord) (s : State) : Host.Outcome State Fault Refusal :=
  event (fun m => m.blockStore asid core fun m => m.threadWrite core asid value) s
/-- A store to a register of the selected thread: a remote write (R113). -/
def execDebugRegisterWrite (asid : BitVec 16) (core off : Nat) (value : DWord) (byWave : Option (Nat × Nat)) (s : State) :
    Host.Outcome State Fault Refusal :=
  event (fun m => m.blockStore asid core fun m => m.registerWrite core asid off value byWave) s
/-- A store to a CTL word (R343). -/
def execCounterCtlWrite (unit : CtrUnit) (n : Nat) (value : DWord) (s : State) : Host.Outcome State Fault Refusal :=
  event (fun m => if n < unit.size then .ok (m.ctlWrite unit n value) else .no) s
/-- Any other store to the window (R342): an offset without a word ignores it. -/
def execDebugWindowWrite (asid : BitVec 16) (off : Nat) (value : DWord) (s : State) : Host.Outcome State Fault Refusal :=
  event (fun m => if (m.ctxOf asid).isSome && decide (off < 2 ^ 24) then .ok (m.windowWrite asid off value none) else .no) s

end Sys2Proof.Machine
end

