-- ==== Sys2Proof/Machine/Firmware.lean ====
section
/-! DEFINITION. Firmware images and keys (R373, R389 to R391), booting (R390), flash (R393), and the SPDM responder (R392). -/

namespace Sys2Proof.Machine

/-- A step of the platform: none where it cannot happen. (log 84, DESIGN CHOICE) -/
def platform (f : State → Option State) (s : State) : Host.Outcome State Fault Refusal :=
  match f s with
  | some t => .next t
  | none => .next s.miss
/-- Change the security state. -/
def State.withSec (s : State) (x : Sec) : State := { s with plat := { s.plat with sec := x } }

/-! ## Images (R373) -/

/-- Numbers and parts of a slot's header. -/
def fwField (bs : List Byte) (off n : Nat) : Nat := fieldAt bs off n
def fwSeq (bs : List Byte) : Nat := fwField bs 4 4
def fwLayouts (bs : List Byte) : Nat := fwField bs 8 4
def fwHandover (bs : List Byte) : Nat := fwField bs 12 4
/-- Header and image together. -/
def fwWhole (bs : List Byte) : List Byte := bs.take (512 + fwField bs 16 8)
/-- An image is accepted (R390 step 2): the key slot is programmed and unrevoked, the signature over bytes 0 to 75 verifies,
the image's digest matches. -/
def Sec.accepts (x : Sec) (bs : List Byte) : Bool :=
  fwField bs 0 4 == 0x4B564657 && decide (512 + fwField bs 16 8 ≤ bs.length)
    && (match x.keys[fwField bs 72 4]? with
      | some k => !k.revoked && (match k.key with
        | some pub => Config.ecdsaVerify pub (Config.sha384 (bs.take 76)) ((bs.drop 76).take 96)
        | none => false)
      | none => false)
    && Config.sha384 ((fwWhole bs).drop 512) == (bs.drop 24).take 48
/-- Of two slots, the one the boot ROM runs: accepted and not marked invalid, with the higher SEQ; A where they are equal. -/
def Sec.choose (x : Sec) (a b : Nat) : Option Nat :=
  let good (n : Nat) : Bool := match x.flash[n]? with
    | some s => s.valid && x.accepts s.bytes
    | none => false
  let seq (n : Nat) : Nat := ((x.flash[n]?).map fun s => fwSeq s.bytes).getD 0
  if good a ∧ good b then (if seq a < seq b then some b else some a)
  else if good a then some a else if good b then some b else none
/-- Extend a measurement block, once per stage. -/
def Sec.measured (x : Sec) (block : Nat) (bs : List Byte) : Sec := { x with measure := x.measure.set block (Config.sha384 bs) }
/-- Bytes of a slot. -/
def Sec.slotBytes (x : Sec) (n : Nat) : List Byte := ((x.flash[n]?).map (·.bytes)).getD []
/-- Tchiavo runs: it loads, verifies and measures the front-end firmware into block 1, and the resident OS image into
block 2, each before it runs (R390 step 4). How an OS image is verified is not stated. (log 12, DESIGN CHOICE) -/
def Sec.stages (x : Sec) : Sec :=
  let x := match x.choose 0 1 with
    | none => { x with runFront := none }
    | some n => { x with runFront := some n }.measured 1 (fwWhole (x.slotBytes n))
  if Config.osImageOk x.osImage then { x with runOs := true }.measured 2 x.osImage else { x with runOs := false }
/-- The boot ROM at a reset (R390): measurements are zero, SPDM starts over, and the accepted Tchiavo slot runs, or only the
recovery mailbox is served. -/
def Sec.boot (x : Sec) : Sec :=
  let x : Sec := { x with
    measure := List.replicate 8 (List.replicate 48 0), runFront := none, runMon := none, runOs := false, update := none, pending := false
    drain := none, recovery := false, recoveryImage := [], version := false, caps := false, algs := false, doe := [], swBox := []
    transcript := [] }
  match x.choose 2 3 with
  | some n => ({ x with runMon := some n }.measured 0 (fwWhole (x.slotBytes n))).stages
  | none => { x with recovery := true }
/-- The front-end image that runs, with its header. -/
def Sec.frontImage (x : Sec) : List Byte := match x.runFront with
  | some n => fwWhole (x.slotBytes n)
  | none => []
/-- What firmware may write over I²C and GPIO, from its verified image at boot, locked until reset (R393).
(log 48, DEDUCED) -/
def State.locked (s : State) : State :=
  let i := s.plat.sec.frontImage
  let on := s.plat.sec.runFront.isSome
  { s with plat := { s.plat with host := { s.plat.host with
      i2cAllowed := if on then (Config.i2cListed i).take 32 else [], gpioAllowed := if on then (Config.gpioListed i).take 32 else [] } } }
/-- RECOVERY_MAILBOX_IMAGE: one image into on-chip memory, checked in the same way; an accepted one runs as Tchiavo, slot 4
standing for on-chip memory. -/
def Sec.mailbox (x : Sec) (image : List Byte) : Sec :=
  if x.accepts image then
    ({ x with recovery := false, recoveryImage := image, runMon := some 4 }.measured 0 (fwWhole image)).stages
  else x
def execRecoveryMailboxImage (image : List Byte) (s : State) : Host.Outcome State Fault Refusal :=
  platform (fun s =>
    -- the mailbox lies in BAR0, which the endpoint personality alone has (R382)
    if !s.plat.sec.recovery || s.plat.host.hostMode then none
    else if s.plat.sec.accepts image then some (s.withSec (s.plat.sec.mailbox image)).locked
    else some s) s

/-! ## Keys (R391) -/

/-- PROGKEY: an unprogrammed owner slot takes its key, once; a REVOKE fuse is set for good. -/
def Sec.progkey (x : Sec) (slot : Nat) (act : KeyAct) : Sec :=
  { x with keys := lset x.keys slot fun k =>
      match act with
      | .program key => if slot ≠ 0 ∧ k.key = none ∧ key.length = 49 then { k with key := some key } else k
      | .revoke => { k with revoked := true } }
/-- Tchiavo performs it only while PROGEN was asserted at cold reset. -/
def execProgkey (slot : Nat) (act : KeyAct) (s : State) : Host.Outcome State Fault Refusal :=
  platform (fun s =>
    if s.plat.sec.runMon.isNone || decide (5 ≤ slot) then none
    else if s.plat.host.progenLatched then some (s.withSec (s.plat.sec.progkey slot act)) else some s) s

/-- The running front-end image restores save areas of layout 4 (R373, R374). -/
def Sec.restores (x : Sec) : Bool := x.runFront.isNone || fwLayouts x.frontImage / 16 % 2 == 1

/-! ## Flash (R393) -/

/-- The slot is not the running one of its pair. -/
def Sec.idleSlot (x : Sec) (n : Nat) : Bool := x.runFront != some n && x.runMon != some n
/-- Put bytes at an offset; what was never written reads as erased flash (log 12, DESIGN CHOICE). -/
def putFlash (old : List Byte) (off : Nat) (bs : List Byte) : List Byte :=
  let old := old ++ List.replicate (off - old.length) 0xFF
  old.take off ++ bs ++ old.drop (off + bs.length)
/-- FLASH_WRITE: the Hedgerow lets it through only to an idle slot, and an erase only 100 ms after the last one; a slot whose
image fails the check when its write closes is marked invalid. -/
def State.flashWrite (s : State) (slot : Nat) (act : FlashAct) : State :=
  let x := s.plat.sec
  let put (f : FwSlot → FwSlot) : State := s.withSec { x with flash := lset x.flash slot f }
  if !x.idleSlot slot then s else
  match act with
  | .erase block =>
    if s.mach.timeNs < x.eraseReady then s else
    s.withSec { x with
      eraseReady := s.mach.timeNs + 100000000
      flash := lset x.flash slot fun f => { f with bytes := putFlash f.bytes (65536 * block) (List.replicate 65536 0xFF) } }
  | .write off bytes => put fun f => { f with bytes := putFlash f.bytes off bytes }
  | .close => put fun f => { f with valid := x.accepts f.bytes }
def execFlashWrite (slot : Nat) (act : FlashAct) (s : State) : Host.Outcome State Fault Refusal :=
  platform (fun s => if slot < 4 then some (s.flashWrite slot act) else none) s

/-! ## SPDM (R392) -/

/-- The key that signs: derived from the unique secret and measurement block 0. -/
def Sec.signKey (x : Sec) : List Byte := Config.deriveKey (leBytes 32 Config.uniqueSecret.toNat) (x.measure.getD 0 [])
/-- An answer: what the standard lays out for a request, then the part the rule names. -/
def Sec.answered (x : Sec) (code : Nat) (req : List Byte) (part : List Byte) : Sec × List Byte :=
  let a := Config.spdmBody code req ++ part
  ({ x with transcript := x.transcript ++ req ++ a }, a)
/-- The same with a signature over the transcript with the request. -/
def Sec.signed (x : Sec) (code : Nat) (req : List Byte) (part : List Byte) : Sec × List Byte :=
  let body := Config.spdmBody code req ++ part
  x.answered code req (part ++ Config.ecdsaSign x.signKey (Config.sha384 (x.transcript ++ req ++ body)))
/-- A request out of the order of the negotiation is answered with an error, code 127 here. (log 13, PRESUMED) -/
def Sec.inOrder (x : Sec) (ok : Bool) (req : List Byte) (f : Sec → Sec × List Byte) : Sec × List Byte :=
  if ok then f x else (x, Config.spdmBody 127 req)
/-- A request reaches the responder, which firmware runs; it answers on the DOE mailbox, or on the switchboard's in the root-port
personality. -/
def spdm (f : Sec → Sec × List Byte) (s : State) : Host.Outcome State Fault Refusal :=
  platform (fun s =>
    let (x, a) := f s.plat.sec
    if s.plat.sec.runMon.isNone then none
    else some (s.withSec (if s.plat.host.hostMode then { x with swBox := a } else { x with doe := a }))) s
def execGetVersion (req : List Byte) (s : State) : Host.Outcome State Fault Refusal :=
  spdm (fun x => { x with version := true, caps := false, algs := false, transcript := [] }.answered 0 req []) s
def execGetCapabilities (req : List Byte) (s : State) : Host.Outcome State Fault Refusal :=
  spdm (fun x => x.inOrder x.version req fun x => { x with caps := true, algs := false }.answered 1 req []) s
def execNegotiateAlgorithms (req : List Byte) (s : State) : Host.Outcome State Fault Refusal :=
  spdm (fun x => x.inOrder x.caps req fun x => { x with algs := true }.answered 2 req []) s
def execGetDigests (req : List Byte) (s : State) : Host.Outcome State Fault Refusal :=
  spdm (fun x => x.inOrder x.algs req fun x => x.answered 3 req (Config.sha384 (Config.certChain x.signKey))) s
def execGetCertificate (req : List Byte) (s : State) : Host.Outcome State Fault Refusal :=
  spdm (fun x => x.inOrder x.algs req fun x => x.answered 4 req (Config.certChain x.signKey)) s
def execChallenge (req : List Byte) (s : State) : Host.Outcome State Fault Refusal :=
  spdm (fun x => x.inOrder x.algs req fun x => x.signed 5 req []) s
def execGetMeasurements (req : List Byte) (s : State) : Host.Outcome State Fault Refusal :=
  spdm (fun x => x.inOrder x.algs req fun x => x.signed 6 req x.measure.flatten) s

end Sys2Proof.Machine
end

