-- ==== Sys2Proof/Machine/HostSide.lean ====
section
/-! DEFINITION. The outside: BAR2 and downstream devices (R382), RV64 cores as clients (R17), the Hedgerow's limits (R393,
R394) and the display outputs (R388). -/

namespace Sys2Proof.Machine

/-! ## Clients of the Glade (R17, R382) -/

/-- An access of a client of an address space at the home slice. A grove line that is not there is asked for once, and the
access is tried again; a fault or a class the client cannot reach leaves memory as it is. (log 49, DEDUCED) -/
def Mach.client (m : Mach) (asid : BitVec 16) (act : ClientAct) : Ev :=
  match act with
  | .read va n =>
    (match m.agentReadRun asid true 0 va.toNat n with
    | .ok m bs => .ok { m with clientRead := bs }
    | .bad m _ _ => .ok m
    | .grove m a =>
      if m.reqs.any fun q => q.asid == asid && q.who == .prefetch && q.va / 32 == a / 32 then .no
      else .ok (m.askGrove .prefetch asid a 0 0 0).1
    | .again _ => .no)
  | .write va bytes =>
    if m.lockedRange asid va.toNat bytes.length then .no else
    let secs := (List.range ((va.toNat + bytes.length + 31) / 32 - va.toNat / 32)).map (· + va.toNat / 32)
    secs.foldl (fun r s => match r with
      | .ok m =>
        let x := max va.toNat (32 * s)
        (match m.agentWrite asid true x ((bytes.drop (x - va.toNat)).take (min (va.toNat + bytes.length) (32 * s + 32) - x)) with
        | .ok m _ => .ok m
        | .bad m _ _ => .ok m
        | .grove m _ => .ok m
        | .again _ => .no)
      | r => r) (.ok m)
/-- RV64_CLIENT_ACCESS. -/
def execRv64ClientAccess (core : Nat) (asid : BitVec 16) (act : ClientAct) (s : State) : Host.Outcome State Fault Refusal :=
  event (fun m => if core < 16 then m.client asid act else .no) s
/-- Packets pass over PCIe (R344). (log 82, DESIGN CHOICE) -/
def Ev.tlps (r : Ev) (n : Nat) : Ev :=
  match r with
  | .ok m => .ok (m.countDevice 0x0205 n)
  | .no => .no
/-- Packets of a client's access: a write is one, a read a request and its completion. (log 82, DESIGN CHOICE) -/
def clientTlps : ClientAct → Nat
  | .read _ _ => 2
  | .write _ _ => 1
/-- First address and bytes of an access. -/
def clientRange : ClientAct → Nat × Nat
  | .read va n => (va.toNat, n)
  | .write va bs => (va.toNat, bs.length)
/-- Every page of a range is of the ordinary class. -/
def Mach.ordinary (m : Mach) (asid : BitVec 16) (va n : Nat) : Bool :=
  (List.range ((va + n + 4095) / 4096 - va / 4096)).all fun i => match (m.translate asid ((va / 4096 + i) * 4096)).2 with
    | some t => t.cls == 0
    | none => false
/-- What the resident OS may let BAR2 map: a range of 256 MiB to 64 GiB, a power of two, on its own boundary (R382).
(log 49, DEDUCED) -/
def bar2Ok (base size : Nat) : Bool :=
  ((List.range 9).any fun i => size == 2 ^ (28 + i)) && base % size == 0
/-- BAR2_ACCESS: in the endpoint personality, within the VA range that BAR2 maps, under its ASID; an access of another class than
the ordinary one changes nothing. (log 49, DEDUCED) -/
def execBar2Access (act : ClientAct) (s : State) : Host.Outcome State Fault Refusal :=
  event (fun m =>
    let h := s.plat.host
    let (va, n) := clientRange act
    if h.hostMode || va < h.bar2Base || h.bar2Base + h.bar2Size < va + n then .no
    else if !m.ordinary h.bar2Asid va n then .ok (m.countDevice 0x0205 (clientTlps act))
    else (m.client h.bar2Asid act).tlps (clientTlps act)) s
/-- DOWNSTREAM_DEVICE_WRITE: in the root-port personality, a write as of an RV64 client, or an interrupt of the RV64
complex. (log 49, DEDUCED) -/
def execDownstreamDeviceWrite (act : DownAct) (s : State) : Host.Outcome State Fault Refusal :=
  event (fun m =>
    if !s.plat.host.hostMode then .no else
    (match act with
    | .mem asid va bytes => m.client asid (.write va bytes)
    | .msi line => .ok { m with irqs := m.irqs ++ [line] } : Ev).tlps 1) s

/-! ## The Hedgerow (R393, R394) -/

/-- Change the host side. -/
def State.withHost (s : State) (h : HostSide) : State := { s with plat := { s.plat with host := h } }
/-- A write lies inside a valid window. -/
def HostSide.inside (h : HostSide) (addr n : Nat) : Bool :=
  h.windows.any fun w => w.valid && decide (w.base ≤ addr ∧ addr + n ≤ w.base + w.size)
/-- A write to host memory: admitted inside a valid window and within 8000 bytes in the microsecond, else dropped and
logged. (log 48, DEDUCED) -/
def HostSide.write (h : HostSide) (us addr : Nat) (bytes : List Byte) : HostSide :=
  let used := if h.rateUs = us then h.rate else 0
  if !h.inside addr bytes.length || decide (8000 < used + bytes.length) then { h with dropped := h.dropped + 1 } else
  { h with rate := used + bytes.length, rateUs := us, admitted := h.admitted ++ [(addr, bytes)] }
/-- A write admitted in the clk that ends reaches the host, unless a revocation in that clk has taken its window (R394).
(log 48, DEDUCED) -/
def HostSide.land (h : HostSide) (p : Nat × List Byte) : HostSide :=
  if h.inside p.1 p.2.length then
    { h with memory := ((List.range p.2.length).zip p.2).foldl (fun mem q => cellPut mem (p.1 + q.1) q.2) h.memory }
  else { h with dropped := h.dropped + 1 }
/-- The writes admitted in the clk that ends reach the host, a packet each (R344, R394). -/
def State.landWrites (s : State) : State :=
  let h := s.plat.host
  if h.admitted.isEmpty then s else
  let sent := (h.admitted.filter fun p => h.inside p.1 p.2.length).length
  { s with
    mach := s.mach.countDevice 0x0205 sent
    plat := { s.plat with host := { h.admitted.foldl HostSide.land h with admitted := [] } } }
def execHostMemoryWrite (addr : Nat) (bytes : List Byte) (s : State) : Host.Outcome State Fault Refusal :=
  platform (fun s => some (s.withHost (s.plat.host.write (s.mach.timeNs / 1000) addr bytes))) s
/-- The host writes an entry of its window table through BAR0, which the endpoint personality has (R382, R393). -/
def State.hostWindow (s : State) (n base size : Nat) (valid : Bool) : State :=
  if s.plat.host.hostMode then s
  else s.withHost { s.plat.host with windows := lset s.plat.host.windows n fun _ => ⟨base, size, valid⟩ }
/-- The resident OS chooses what BAR2 maps (R382). -/
def State.bar2Set (s : State) (base size : Nat) (asid : BitVec 16) : State :=
  if bar2Ok base size then s.withHost { s.plat.host with bar2Base := base, bar2Size := size, bar2Asid := asid } else s
/-- WINDOW_REVOCATION: a write admitted in an earlier clk has reached the host, so the revocation completes at once; one admitted in
this clk is dropped (R394). (log 48, DEDUCED) -/
def execWindowRevocation (n : Nat) (s : State) : Host.Outcome State Fault Refusal :=
  platform (fun s => if n < 16 then
    some (s.withHost { s.plat.host with windows := lset s.plat.host.windows n fun w => { w with valid := false } }) else none) s
/-- THERMAL_TRIP: the clocks stop and THERMTRIP is asserted until a cold reset. -/
def execThermalTrip (s : State) : Host.Outcome State Fault Refusal :=
  platform (fun s => some (s.withHost { s.plat.host with thermtrip := true })) s
/-- VOLTAGE_CURRENT_REQUEST: clamped to the fused ceilings, and to 1.05 V. -/
def execVoltageCurrentRequest (milliVolt milliAmp : Nat) (s : State) : Host.Outcome State Fault Refusal :=
  platform (fun s => some (s.withHost { s.plat.host with
    milliVolt := min milliVolt (min s.plat.host.fuseVolt 1050), milliAmp := min milliAmp s.plat.host.fuseAmp })) s
/-- I2C_GPIO_WRITE: only listed pairs and bits are written. Keys of the I²C map are bus * 1024 + address. -/
def HostSide.side (h : HostSide) : SideWrite → HostSide
  | .i2c bus address value =>
    if (bus, address) ∈ h.i2cAllowed ∧ address < 1024 then { h with i2c := mput h.i2c (bus * 1024 + address) value } else h
  | .gpio bit value => if bit ∈ h.gpioAllowed then { h with gpio := mput h.gpio bit value } else h
def execI2cGpioWrite (w : SideWrite) (s : State) : Host.Outcome State Fault Refusal :=
  platform (fun s => some (s.withHost (s.plat.host.side w))) s

/-! ## Display (R388) -/

/-- The nearest value in a range. -/
def clampTo (lo hi x : Nat) : Nat := max lo (min hi x)
/-- A programmed timing as the Hedgerow lets it through. -/
def Timing.clamped (t : Timing) : Timing :=
  let clock := clampTo 25000 2700000 t.pixelClockKHz
  let rate := clampTo 23000 500000 t.refreshMilliHz
  ⟨clock, rate, max (Config.minBlanking clock rate) t.blanking⟩
def State.updOutput (s : State) (out : Nat) (f : Output → Output) : State :=
  { s with plat := { s.plat with outputs := lset s.plat.outputs out f } }
def execDisplayTimingWrite (out : Nat) (t : Timing) (s : State) : Host.Outcome State Fault Refusal :=
  platform (fun s => if out < 4 then some (s.updOutput out fun o => { o with timing := Timing.clamped t }) else none) s
/-- The resident OS sets what an output runs and names the allotment of its scanout (R388). -/
def State.outputSet (s : State) (out : Nat) (mode : DispMode) (allot : BitVec 6) : State :=
  s.updOutput out fun o => { o with mode := mode, allot := allot }
/-- Scanout of an output reads memory, on the output's allotment (R371, R388). (log 12, DESIGN CHOICE) -/
def State.scanout (s : State) (out pa n : Nat) : State :=
  match s.plat.outputs[out]? with
  | none => s
  | some o =>
    if gddrTop < pa + n then s else
    match Ev.billed (.ok (s.mach.paRead pa n).1) s.mach o.allot.toNat with
    | .ok m => { s with mach := m }
    | .no => s
/-- SCANOUT_UNDERFLOW: the line is sent black from the first missing pixel, and the sticky bit is set. -/
def execScanoutUnderflow (out pixel : Nat) (s : State) : Host.Outcome State Fault Refusal :=
  platform (fun s => if out < 4 then some (s.updOutput out fun o => { o with underflow := true, blackFrom := some pixel }) else none) s

end Sys2Proof.Machine
end

