-- ==== Sys2Proof/Machine/Waybills.lean ====
section
/-! DEFINITION. Waybills: stamping, retiring and the ring of records (R281, R347, R348). -/

namespace Sys2Proof.Machine

/-- Fields of a waybill that are stamped. -/
inductive Stamp where
  | copyIn | wait | comp | out
  deriving DecidableEq, Repr

def Waybill.get (b : Waybill) : Stamp → Option Half
  | .copyIn => b.tin | .wait => b.wait | .comp => b.comp | .out => b.tout
def Waybill.set (b : Waybill) (s : Stamp) (t : Half) : Waybill :=
  match s with
  | .copyIn => { b with tin := some t } | .wait => { b with wait := some t }
  | .comp => { b with comp := some t } | .out => { b with tout := some t }
/-- The 32 bytes of a record. -/
def Waybill.bytes (b : Waybill) (slot : Nat) (aband : Bool) : List Byte :=
  let bit (x : Bool) (k : Nat) : Nat := if x then 2 ^ k else 0
  let f (x : Option Half) : List Byte := leBytes 2 ((x.map (·.toNat)).getD 0)
  b.name.bytes ++ leBytes 1 slot
    ++ leBytes 1 (bit aband 7 + bit b.fault 6 + bit b.tout.isSome 3 + bit b.comp.isSome 2 + bit b.wait.isSome 1 + bit b.tin.isSome 0)
    ++ leBytes 4 b.t0.toNat ++ f b.tin ++ f b.wait ++ f b.comp ++ f b.tout
/-- Write a retired record at the ring's TAIL, or drop it (R348). A LOG2N outside 5 to 20 holds no record (log 20, DESIGN CHOICE). -/
def Mach.retireRecord (m : Mach) (asid : BitVec 16) (bs : List Byte) : Mach :=
  match m.ctxOf asid with
  | none => m
  | some c =>
    let base := (c.ringField 0).toNat
    let lg := (c.ringField 1).toNat
    let head := (c.ringField 2).toNat
    let tail := (c.ringField 3).toNat
    if base = 0 then m
    else if 5 ≤ lg ∧ lg ≤ 20 ∧ (tail + 2 ^ 32 - head) % 2 ^ 32 < 2 ^ lg then
      let va := base + 32 * (tail % 2 ^ lg)
      match m.checkNow asid false .store 0 va 32 with
      | (m, .ok 0) => (m.llcWriteRun asid va bs none).setCtx (c.setRing 3 (BitVec.ofNat 64 ((tail + 1) % 2 ^ 32)))
      | (m, _) => m.setCtx (c.setRing 4 (BitVec.ofNat 64 (min ((c.ringField 4).toNat + 1) (2 ^ 32 - 1))))
    else m.setCtx (c.setRing 4 (BitVec.ofNat 64 (min ((c.ringField 4).toNat + 1) (2 ^ 32 - 1))))
/-- Key of a slot. -/
def wbKey (asid : BitVec 16) (slot : Nat) : Nat := asid.toNat * 128 + slot
/-- SR_CLK[31:0] of a core at a clk. -/
def Mach.clk32 (m : Mach) (core clk : Nat) : Nat := (clk - (m.core core).clkBase) % 2 ^ 32
/-- A command stamps a slot (R347): a closed slot opens, a field stamped before retires the open record abandoned, and
a copy-out retires it. -/
def Mach.stamp (m : Mach) (core : Nat) (asid : BitVec 16) (slot : Nat) (s : Stamp) (issued : Nat) (name : ThreadName)
    (fault : Bool) : Mach :=
  let key := wbKey asid slot
  let fresh : Waybill := ⟨name, BitVec.ofNat 32 (m.clk32 core issued), none, none, none, none, false⟩
  let (m, b) : Mach × Waybill := match mget (m.core core).waybills key with
    | none => (m, fresh)
    | some b => if (b.get s).isSome then (m.retireRecord asid (b.bytes slot true), fresh) else (m, b)
  let t := (m.clk32 core m.clk + 2 ^ 32 - b.t0.toNat) % 2 ^ 32
  let b := { b.set s (BitVec.ofNat 16 (min t 0xFFFF)) with fault := b.fault || fault }
  if s = .out then
    (m.retireRecord asid (b.bytes slot false)).updCore core fun c => { c with waybills := mdel c.waybills key }
  else m.updCore core fun c => { c with waybills := mput c.waybills key b }
/-- Stamp when a command names a slot. -/
def Mach.stampIf (m : Mach) (core : Nat) (asid : BitVec 16) (wb : Option Nat) (s : Stamp) (issued : Nat)
    (name : ThreadName) (fault : Bool) : Mach :=
  match wb with
  | some slot => m.stamp core asid slot s issued name fault
  | none => m

end Sys2Proof.Machine
end

