-- ==== Sys2Proof/Machine/Porter.lean ====
section
/-! DEFINITION. Row 0xC, the Porter (R278 to R293): TLRREG, TLRDEL, CPY, TCPY, and the events that release, perform and
complete its commands. -/

namespace Sys2Proof.Machine

/-! ## Tensor layout records (R282 to R285) -/

/-- Read a record: none where R282 or R283 is violated or the box exceeds the largest grant (R284). -/
def Tlr.ofBytes (bs : List Byte) : Option Tlr :=
  let c := fieldAt bs 16 4
  let t : Tlr :=
    { base := fieldAt bs 0 8, scales := fieldAt bs 8 8, swz := c / 2 ^ 8 % 4, rank := c / 2 ^ 4 % 8, fmt := c % 16
      dims := (List.range 5).map fun i => fieldAt bs (20 + 4 * i) 4
      strs := (List.range 4).map fun i => fieldAt bs (40 + 8 * i) 8
      boxes := (List.range 5).map fun i => fieldAt bs (72 + 2 * i) 2 }
  let vb := t.fmt == 5
  let beyond := (List.range 5).filter fun i => t.rank < i
  let span := swzSpan t.swz
  let rb := t.rowBytes false
  if c / 2 ^ 10 != 0 || c / 2 ^ 7 % 2 != 0 || fieldAt bs 82 46 != 0 || decide (5 < t.fmt) || decide (4 < t.rank)
    || t.base % (if vb then 64 else t.es2 / 2) != 0 || t.scales % 4 != 0 || (!vb && t.scales != 0)
    || t.dims.any (· == 0) || t.boxes.any (fun b => b == 0 || decide (1024 < b))
    || beyond.any (fun i => t.dims.getD i 1 != 1 || t.boxes.getD i 1 != 1 || t.strs.getD (i - 1) 0 != 0)
    || (vb && (t.dims.getD 0 0 % 128 != 0 || t.boxes.getD 0 0 % 128 != 0 || t.strs.any fun s => s % 64 != 0))
    || rb % 16 != 0 || (span != 0 && rb % span != 0) || decide (393216 < t.boxBytes false)
  then none else some t
/-- Memory ranges of the footprint: the elements, and for VB4 their scale words. -/
def Tlr.ranges (t : Tlr) : List (Nat × Nat) :=
  (t.base, t.footprint) :: (if t.fmt = 5 then [(t.scales, 4 * ((t.footprint + 63) / 64))] else [])
/-- Pin the pages of a range that begins at `first`, lowest first, counting in `used` (R284): how many are pinned, or the
fault with the first address of the range that meets it. The rights checked are those of a load. (log 36, DEDUCED) -/
def Mach.pinPages (m : Mach) (asid : BitVec 16) (sys : Bool) (limit first page : Nat) :
    Nat → Nat → Nat ⊕ (Nat × Nat)
  | 0, used => .inl used
  | n + 1, used =>
    let va := page * 4096
    let here := max first va
    match (m.checkNow asid sys .load 0 here 0).2 with
    | .ok 0 => if limit ≤ used then .inr (Code.quota, 0) else m.pinPages asid sys limit first (page + 1) n (used + 1)
    | .ok _ => m.pinPages asid sys limit first (page + 1) n used
    | .bad _ code a =>
      -- grove pages are neither pinned nor faulted
      (match (m.translate asid va).2 with
      | some t => if t.cls = 1 then m.pinPages asid sys limit first (page + 1) n used else .inr (code, a)
      | none => .inr (code, a))
    | .walk a => .inr (Code.page, a)
/-- Pinned pages of a context. -/
def Ctx.pinned (c : Ctx) : Nat := c.pins.foldl (fun a p => a + p.2) 0
/-- Pin a footprint: the pages pinned for it, or the fault. (log 36, DEDUCED) -/
def Mach.pinAll (m : Mach) (asid : BitVec 16) (sys : Bool) (c : Ctx) (t : Tlr) : Nat ⊕ (Nat × Nat) :=
  match t.ranges.foldl (fun r p => match r with
    | .inl used => if p.2 = 0 then .inl used
      else m.pinPages asid sys c.pinmax p.1 (p.1 / 4096) ((p.1 + p.2 + 4095) / 4096 - p.1 / 4096) used
    | r => r) (Sum.inl c.pinned) with
  | .inl used => .inl (used - c.pinned)
  | .inr f => .inr f
/-- Read the bytes of a record through the load-store path, sector by sector. -/
def Env.readRun (e : Env) (m : Mach) (va n cls : Nat) : Loads :=
  match e.denial m id with
  | some x => .eff x
  | none =>
  let r := (List.range (n / 32)).foldl (fun (r : Loads × List Acs) i =>
    match r.1 with
    | .eff _ => r
    | .ok m vals bad =>
      let a := va + 32 * i
      match e.load1 m e.first a 32 cls .norm with
      | .ok m bs => (.ok m (vals ++ [(i, bs)]) bad, r.2)
      | .poison m a => (.eff (e.loadTrap m e.named Code.dataUncorrectable 0 (BitVec.ofNat 64 a)), r.2)
      | .miss m a => (.ok m vals bad, r.2 ++ e.named.map fun l => (l, a))
      | .held m => (.eff (.hold m), r.2)
      | .fault m code info a => (.eff (e.loadTrap m e.named code info (BitVec.ofNat 64 a)), r.2)) (Loads.ok m [] [], [])
  match r.1 with
  | .ok m _ _ => if r.2.isEmpty then r.1 else .eff (e.parkOn m 0 r.2)
  | .eff x => .eff x
/-- TLRREG (R284). (log 36, DEDUCED) -/
def execTlrreg (x : AbOp) (s : State) : Host.Outcome State Fault Refusal :=
  perform (.tlrreg x) x.ctl (fun e => e.once fun e =>
    let va := (e.getPair e.first x.a).toNat
    let slot := (e.getSrc32 e.first x.b).toNat
    match e.checkAll e.m .load 0 128 true [(e.first, va)] with
    | .walk va => e.waits e.m (.walk va)
    | .trap _ code addr => e.loadTrap e.m e.named code 0 addr
    | .ok cls _ =>
      match e.readRun (e.m.usedWalks e.core e.asid) va 128 ((cls.lookup e.first).getD 0) with
      | .eff y => y
      | .ok m vals _ =>
        match m.ctxOf e.asid, Tlr.ofBytes (vals.flatMap (·.2)) with
        | some c, some t =>
          if decide (255 < slot) || (mget c.tlrs slot).isSome || (m.remoteAt e.asid t.base).isSome
            || (t.fmt == 5 && (m.remoteAt e.asid t.scales).isSome) then .trap m e.named Code.illegalOperand 0 0
          else match m.pinAll e.asid e.system c t with
            | .inr (code, a) => .trap m e.named code (if code = Code.quota then 7 else 0) (BitVec.ofNat 64 a)
            | .inl n => .done ((m.setCtx { c with tlrs := mput c.tlrs slot t, pins := c.pins ++ [(slot, n)] }).attachScales e.asid t) e.lanes
        | _, _ => .trap m e.named Code.illegalOperand 0 0) s
/-- The command is a TCPY of a context that names a slot. -/
def PorterCmd.names (c : PorterCmd) (asid : BitVec 16) (slot : Nat) : Bool :=
  c.asid == asid && (match c.op with
    | .tcpy _ _ _ s _ _ => s == slot
    | _ => false)
/-- TLRDEL (R285): held until the TCPYs that name the slot, and were issued before it, have completed. -/
def execTlrdel (x : TlrdelOp) (s : State) : Host.Outcome State Fault Refusal :=
  perform (.tlrdel x) x.ctl (fun e => e.once fun e =>
    let slot := (e.getSrc32 e.first x.b).toNat
    if 255 < slot then e.failAll Code.illegalOperand 0 0
    else
      -- commands are numbered: those issued before this TLRDEL have a number below the one it noted
      let bound := ((e.w.tlrw.lookup (e.iss.pc, e.iss.prio)).getD e.m.nextId)
      let holds (c : PorterCmd) : Bool := c.names e.asid slot && decide (c.id < bound)
      let rest := e.w.tlrw.filter fun p => p.1 != (e.iss.pc, e.iss.prio)
      if e.m.cores.any (fun p => p.2.porterQ.any holds) || e.m.rings.any (fun r => r.2.items.any fun i => match i with
          | .porter c => holds c
          | _ => false) then .hold (e.upd e.m fun w => { w with tlrw := ((e.iss.pc, e.iss.prio), bound) :: rest })
      else
        let m := e.upd e.m fun w => { w with tlrw := rest }
        match m.ctxOf e.asid with
        | none => .done m e.lanes
        | some c => .done (m.setCtx { c with
            tlrs := mdel c.tlrs slot, pins := c.pins.filter fun p => p.1 != slot }) e.lanes) s

/-! ## Issue (R279, R286) -/

/-- The completion of a command as its operands give it: none where R279 makes it illegal. -/
def Env.complOf (e : Env) (x : AsyncOp) : Option Compl :=
  if !x.cmode then some (.token x.compl.idx.toNat) else
  let off := (e.get e.first x.compl).toNat
  if off % 16 = 0 ∧ (e.g.binding off).isSome then some (.bar off x.d.idx.toNat) else none
/-- The token of a completion. -/
def Compl.tok : Compl → Option Nat
  | .none => Option.none
  | .token w => some w
  | .bar _ w => some w
/-- Checks 5 and 6 of R286, the counting of sectors into the barrier word, and the push. `prep` does the L1 work of
R291. A copy of no sector stamps its waybill and writes its token at once (R281, R286). -/
def Env.porterPush (e : Env) (m : Mach) (x : AsyncOp) (op : PorterOp) (sectors : Nat) (prep : Mach → Mach) : Eff :=
  let fail (code info addr : Nat) : Eff := .trap m e.named code info (BitVec.ofNat 64 addr)
  match e.complOf x, e.gateOf x with
  | some compl, some gate =>
    let tok := compl.tok.getD 0
    let wb := if x.wbe then some x.wbslot.toNat else none
    let name := e.g.nameOf e.iss.wave e.first
    let counted : Option Mach := match compl with
      | .bar off _ => if sectors = 0 then some m else m.tbStep e.iss.gid off 0 sectors 0
      | _ => some m
    (match counted with
    | none => fail Code.barrierCount 0 (match compl with | .bar off _ => off | _ => 0)
    | some m' =>
      if e.w.toks.contains tok then fail Code.tokenReuse tok 0
      else if sectors = 0 then
        let m := m.stampIf e.core e.asid wb .out e.clk name false
        .done (e.tokNow m tok 0) e.lanes
      else if !m.quotaOk e.asid (544 + e.core) 1 then fail Code.quota 5 0
      else
        let c : PorterCmd :=
          { id := m'.nextId, gid := e.iss.gid, wave := e.iss.wave, asid := e.asid, op := op, next := 0, clob := none
            stop := none, barFail := false, gate := gate, compl := compl
            wb := wb, name := name, issued := e.clk
            wait := none, halted := false, lost := false, raced := false, system := e.system, unacked := [] }
        let c := { c with raced := e.w.unfenced c.reads }
        let m := { prep m' with nextId := m'.nextId + 1 }
        .done ((e.upd m fun w => w.takeToken tok).push e.asid (544 + e.core) (.porter c)) e.lanes)
  | _, _ => fail Code.illegalOperand 0 0
def execCpy (x : AsyncOp) (s : State) : Host.Outcome State Fault Refusal :=
  perform (.cpy x) x.ctl (fun e => e.once fun e =>
    let sk := x.spec.getLsbD 0
    let dk := x.spec.getLsbD 1
    let src := if sk then (e.get e.first x.a).toNat else (e.getPair e.first x.a).toNat
    let dst := if dk then (e.getSrc32 e.first x.b).toNat else (e.getSrc e.first x.b 2).toNat
    let n := (e.get e.first x.e).toNat
    if !sk && src % 16 != 0 then e.failAll Code.align 0 src
    else if !dk && dst % 16 != 0 then e.failAll Code.align 0 dst
    else if n % 16 ≠ 0 then e.failAll Code.align 0 (if sk then (if dk then 0 else dst) else src)
    else if 2 ^ 24 < n then e.failAll Code.illegalOperand 0 0
    else if sk && decide (e.g.grant < src + n) then e.failAll Code.perm 0 src
    else if dk && decide (e.g.grant < dst + n) then e.failAll Code.perm 0 dst
    -- no Porter command may name the debug window (R342)
    else match (if sk then none else e.m.windowIn e.asid src n).or (if dk then none else e.m.windowIn e.asid dst n) with
    | some a => e.failAll Code.perm 0 a
    | none =>
    if !(sk && dk) && e.m.flushHeld e.core e.asid then .hold e.m
    else e.porterPush e.m x (.cpy sk dk src dst n) ((n + 31) / 32) fun m =>
      let m := if sk then m else m.l1FlushRange e.core e.asid src n
      if dk then m else m.l1DropRange e.core e.asid dst n) s
/-- Coordinates of dimensions 1 to 4 of a row of a box, lowest dimension fastest. -/
def Tlr.rowCoords (t : Tlr) (origin : List Int) (r : Nat) : List Int :=
  ((List.range 4).foldl (fun (a : List Int × Nat) i =>
    let b := t.boxes.getD (i + 1) 1
    (a.1 ++ [origin.getD (i + 1) 0 + (a.2 % b : Nat)], a.2 / b)) ([], r)).1
/-- Byte offset of a row in the tensor, when its coordinates are inside. -/
def Tlr.rowOff (t : Tlr) (origin : List Int) (r : Nat) : Option Nat :=
  let cs := t.rowCoords origin r
  if (List.range 4).all fun i => decide (0 ≤ cs.getD i 0 ∧ cs.getD i 0 < t.dims.getD (i + 1) 1)
  then some ((List.range 4).foldl (fun a i => a + (cs.getD i 0).toNat * t.strs.getD i 0) 0) else none
/-- Address in the tensor of byte b of an unconverted box, or of the code of a converted element with its parity. -/
def Tlr.elemAt (t : Tlr) (origin : List Int) (r el : Nat) : Option (Nat × Nat) :=
  let x := origin.getD 0 0 + (el : Int)
  match t.rowOff origin r with
  | some o => if 0 ≤ x ∧ x < t.dims.getD 0 1 then some (t.base + x.toNat * t.es2 / 2 + o, x.toNat) else none
  | none => none
def Tlr.byteAt (t : Tlr) (origin : List Int) (b : Nat) : Option Nat :=
  let rb := t.rowBytes false
  let c := b % rb
  if t.fmt = 5 then (t.elemAt origin (b / rb) (2 * c)).map (·.1)
  else let es := t.es2 / 2
    (t.elemAt origin (b / rb) (c / es)).map fun p => p.1 + c % es
/-- The range of memory of a row of a box, where some of it lies in the tensor. -/
def Tlr.rowRange (t : Tlr) (origin : List Int) (r : Nat) : Option (Nat × Nat) :=
  let lo := max 0 (origin.getD 0 0)
  let hi := min ((t.dims.getD 0 1 : Nat) : Int) (origin.getD 0 0 + (t.boxes.getD 0 1 : Nat))
  if lo < hi then (t.rowOff origin r).map fun o => (t.base + lo.toNat * t.es2 / 2 + o, ((hi - lo).toNat * t.es2 + 1) / 2) else none
/-- The ranges of memory that a TCPY of a box reaches: its rows, and the scale words of their blocks where it converts (R97, R286,
R289). -/
def Tlr.boxRanges (t : Tlr) (origin : List Int) (cvt : Bool) : List (Nat × Nat) :=
  ((List.range t.rows).filterMap (t.rowRange origin)).flatMap fun p =>
    let first := (p.1 - t.base) / 64
    p :: (if cvt then [(t.scales + 4 * first, 4 * ((p.1 + p.2 - 1 - t.base) / 64 - first + 1))] else [])
def execTcpy (x : AsyncOp) (s : State) : Host.Outcome State Fault Refusal :=
  perform (.tcpy x) x.ctl (fun e => e.once fun e =>
    let out := x.spec.getLsbD 0
    let cvt := x.spec.getLsbD 1
    let sp := (e.get e.first x.a).toNat
    let slot := x.imm8b.toNat
    match (e.m.ctxOf e.asid).bind fun c => mget c.tlrs slot with
    | none => e.failAll Code.illegalOperand 0 0
    | some t =>
      if 128 < x.e.idx.toNat + t.rank + 1 then e.failAll Code.illegalOperand 0 0 else
      match e.late ((List.range t.rank).map fun i => x.e.key 0 (i + 1)) with
      | some y => y
      | none =>
      let origin : List Int := (List.range (t.rank + 1)).map fun i => (e.w.getI e.clk e.first x.e i).toInt
      let span := swzSpan t.swz
      if t.fmt = 5 ∧ origin.getD 0 0 % 128 ≠ 0 then e.failAll Code.align 0 0
      else if (cvt && (t.fmt != 5 || out)) || (span != 0 && sp % span != 0) then e.failAll Code.illegalOperand 0 0
      else if e.g.grant < sp + t.boxBytes cvt then e.failAll Code.perm 0 sp
      else match (t.boxRanges origin cvt).findSome? fun p => e.m.windowIn e.asid p.1 p.2 with
      | some a => e.failAll Code.perm 0 a
      | none =>
      if e.m.flushHeld e.core e.asid then .hold e.m
      else e.porterPush e.m x (.tcpy out cvt sp slot t origin) ((t.boxBytes cvt + 31) / 32) fun m =>
        (t.boxRanges origin cvt).foldl (fun m p =>
          if out then m.l1DropRange e.core e.asid p.1 p.2 else m.l1FlushRange e.core e.asid p.1 p.2) m) s

/-! ## Sectors (R287 to R291) -/

/-- Bytes of a command, and its sectors. -/
def PorterCmd.bytes (c : PorterCmd) : Nat :=
  match c.op with
  | .cpy _ _ _ _ n => n
  | .tcpy _ cvt _ _ t _ => t.boxBytes cvt
def PorterCmd.sectors (c : PorterCmd) : Nat := (c.bytes + 31) / 32
/-- Bytes of sector k. -/
def PorterCmd.len (c : PorterCmd) (k : Nat) : Nat := min 32 (c.bytes - 32 * k)
/-- The bytes of a converted element: its code decoded with its block's scale word (R289). -/
def Tlr.convert (x : Nat) (bs : List Byte) : List Byte :=
  let b := (bs.getD 0 0).toNat
  let code := if x % 2 = 0 then b % 16 else b / 16
  leBytes 2 (vbDecode code (BitVec.ofNat 32 (fieldAt bs 1 4)) bf16).bits
/-- Read what sector k of a command carries. -/
def Mach.porterRead (m : Mach) (core : Nat) (g : Group) (c : PorterCmd) (k : Nat) : Rd :=
  let who : Requester := .porter core c.id
  let n := c.len k
  match c.op with
  | .cpy true _ src _ _ => let (m, bs) := m.cmdRead g c.raced (src + 32 * k) n
    .ok m bs
  | .cpy false _ src _ _ =>
    let va := src + 32 * k
    m.sectorRun va n fun m a n => m.sideRead core c.id c.asid c.system a n fun m => m.engineOne core who c.asid c.system 0 false a n
  | .tcpy true cvt sp _ t _ =>
    let rb := t.rowBytes cvt
    (List.range (n / 16)).foldl (fun r i =>
      match r with
      | .ok m bs =>
        let b := 32 * k + 16 * i
        let (m, x) := m.cmdRead g c.raced (sp + swizzled t.swz rb (b / rb) (b % rb)) 16
        .ok m (bs ++ x)
      | r => r) (.ok m [])
  | .tcpy false false _ _ t origin =>
    m.engineBytes core who c.asid c.system 3 true ((List.range n).map fun i => t.byteAt origin (32 * k + i))
  | .tcpy false true _ _ t origin =>
    let rb := t.rowBytes true
    (List.range (n / 2)).foldl (fun r i =>
      match r with
      | .ok m bs =>
        let b := 32 * k + 2 * i
        (match t.elemAt origin (b / rb) (b % rb / 2) with
        | none => .ok m (bs ++ [0, 0])
        | some (va, x) =>
          let sw := t.scales + 4 * ((va - t.base) / 64)
          match m.engineBytes core who c.asid c.system 3 true (some va :: (List.range 4).map fun j => some (sw + j)) with
          | .ok m y => .ok m (bs ++ Tlr.convert x y)
          | r => r)
      | r => r) (.ok m [])
/-- Destination bytes of a copy that its source range overlaps are undefined (R287). -/
def Mach.overlapFree (m : Mach) (c : PorterCmd) (k : Nat) (bs : List Byte) : Mach × List Byte :=
  match c.op with
  | .cpy sk dk src dst n =>
    if sk != dk then (m, bs) else
    let hit (i : Nat) : Bool := decide (src ≤ dst + 32 * k + i ∧ dst + 32 * k + i < src + n)
    if !(List.range bs.length).any hit then (m, bs) else
    let (m, fs) := m.freeBytes bs.length
    (m, (List.range bs.length).map fun i => if hit i then fs.getD i 0 else bs.getD i 0)
  | _ => (m, bs)
/-- What writing a sector comes to. -/
inductive Wrote where
  /-- written: whether a live barrier word was met, and the flits that carry it to another device -/
  | ok (m : Mach) (clob : Bool) (sent : List (Nat × BitVec 12 × Nat))
  /-- a fault at an address: nothing of the sector is written -/
  | bad (m : Mach) (code va : Nat)
  | held
def Rd.wrote : Rd → Wrote
  | .ok m _ => .ok m false []
  | .bad m code va => .bad m code va
  | .grove m va => .bad m Code.genWrite va
  | .again _ => .held
/-- The parts of a copy's sector at its destination, each within a sector of memory. -/
def memParts (va : Nat) (bs : List Byte) : List (Nat × List Byte) :=
  let cut := min bs.length (32 - va % 32)
  if cut = bs.length then [(va, bs)] else [(va, bs.take cut), (va + cut, bs.drop cut)]
/-- Write a part that was checked. -/
def Mach.partWrite (m : Mach) (c : PorterCmd) (k : Nat) (p : Nat × List Byte) : Wrote :=
  match m.sideOf c.asid p.1 with
  | .here => (m.engineWrite c.asid c.system false c.gid (((List.range p.2.length).zip p.2).map fun q => (p.1 + q.1, q.2))).wrote
  | .own pa => (match m.ownerWrite pa p.2 with
    | .ok m _ => .ok (m.cmdWrote c.gid c.asid p.1 p.2.length) false []
    | r => r.wrote)
  | .other d _ =>
    if !m.link.room d 1 then .held else
    let port := m.link.portTo d
    let seq := ((m.link.ports[port]?).map (·.nextSeq)).getD 0
    .ok ((m.sendFlit d 1 p.2).cmdWrote c.gid c.asid p.1 p.2.length) false [(port, seq, k)]
/-- Write a sector of a copy to memory: every part is checked before one is written (R287, R290). What follows flits that another
device has not acknowledged takes the same way, or waits, so that the written sectors form a prefix (R290, R385).
(log 46, DEDUCED) -/
def Mach.memWrite (m : Mach) (c : PorterCmd) (k va : Nat) (bs : List Byte) : Wrote :=
  let parts := memParts va bs
  let bad := parts.foldl (fun (a : Mach × Option (Nat × Nat)) p =>
    if a.2.isSome then a else
    a.1.sideCheck c.asid c.system p.1 fun m => m.engineCheck c.asid c.system false [(p.1, 0)]) (m, none)
  match bad with
  | (m, some (code, a)) => .bad m code a
  | (m, none) =>
    let fits := parts.all fun p => match m.sideOf c.asid p.1 with
      | .here => c.unacked.isEmpty && !m.agentHeld c.asid p.1 p.2.length
      | .own _ => c.unacked.isEmpty
      | .other d _ => c.unacked.all (fun u => u.1 == m.link.portTo d) && m.link.room d parts.length
    if !fits then .held else
    parts.foldl (fun r p => match r with
      | .ok m _ sent => (match m.partWrite c k p with
        | .ok m b s => .ok m b (sent ++ s)
        | r => r)
      | r => r) (.ok m false [])
def Mach.porterWrite (m : Mach) (g : Group) (c : PorterCmd) (k : Nat) (bs : List Byte) : Wrote :=
  match c.op with
  | .cpy _ true _ dst _ =>
    let (m, bs) := if c.raced then m.freeBytes bs.length else (m, bs)
    let (ws, clob) := g.unclobbered (dst + 32 * k) bs
    .ok (m.spadPut g ws) clob []
  | .cpy _ false _ dst _ => m.memWrite c k (dst + 32 * k) bs
  | .tcpy false cvt sp _ t _ =>
    let rb := t.rowBytes cvt
    let (m, bs) := if c.raced then m.freeBytes bs.length else (m, bs)
    let parts := (List.range (bs.length / 16)).map fun i =>
      let b := 32 * k + 16 * i
      g.unclobbered (sp + swizzled t.swz rb (b / rb) (b % rb)) ((bs.drop (16 * i)).take 16)
    .ok (m.spadPut g (parts.flatMap (·.1))) (parts.any (·.2)) []
  | .tcpy true _ _ _ t origin =>
    (m.engineWrite c.asid c.system true c.gid (((List.range bs.length).zip bs).filterMap fun p =>
      (t.byteAt origin (32 * k + p.1)).map fun va => (va, p.2))).wrote

/-! ## Events -/

/-- Put a request back. -/
def Mach.setPorter (m : Mach) (core : Nat) (c : PorterCmd) : Mach :=
  m.updCore core fun k => { k with porterQ := k.porterQ.map fun d => if d.id == c.id then c else d }
/-- The request has begun. -/
def PorterCmd.begun (c : PorterCmd) : Bool := c.next != 0 || c.wait.isSome || c.stop.isSome
/-- Every sector is written, or a fault has stopped the command. -/
def PorterCmd.over' (c : PorterCmd) : Bool := c.stop.isSome || decide (c.sectors ≤ c.next)
/-- Requests start in issue order; a gated one blocks no other (R280, R291). -/
def startable (q : List PorterCmd) (n : Nat) : Bool := (q.take n).all fun d => d.begun || d.gate.isSome
/-- Sector k of a request is done: under CMODE 1 its count leaves the barrier word, but for the last one's, which waits for the
status token (R290). -/
def Mach.sectorDone (m : Mach) (core id k : Nat) : Mach :=
  match (m.core core).porterQ.find? fun c => c.id == id with
  | none => m
  | some c =>
    let m := m.count core c.asid 0x000D 1
    match c.compl with
    | .bar off _ =>
      if c.sectors ≤ k + 1 then m else
      (match m.tbStep c.gid off 0 0 1 with
      | some m => m
      | none => m.setPorter core { c with barFail := true })
    | _ => m
/-- A sector is written, or on its way to another device, whose acknowledge ends it (R385). -/
def Mach.sectorSent (m : Mach) (core : Nat) (c : PorterCmd) (k : Nat) (clob : Bool) (sent : List (Nat × BitVec 12 × Nat)) : Mach :=
  let c := { c with next := k + 1, wait := none, clob := if clob then c.clob.or (some k) else c.clob, unacked := c.unacked ++ sent }
  let m := (m.fetched core c.id).setPorter core c
  if sent.isEmpty then m.sectorDone core c.id k else m
/-- A fault stops a request at its first unwritten sector (R290): what is still on its way to another device is written first. -/
def Mach.porterStop (m : Mach) (core : Nat) (c : PorterCmd) (code va : Nat) : Ev :=
  if c.unacked.isEmpty then
    .ok ((m.fetched core c.id).setPorter core { c with stop := some (code, c.next, va), wait := none })
  else .no
/-- PORTER_SECTOR_WRITE (R290). (log 42, DESIGN CHOICE) -/
def Mach.porterSector (m : Mach) (core n : Nat) : Ev :=
  let q := (m.core core).porterQ
  match q[n]? with
  | none => .no
  | some c =>
    if c.gate.isSome || c.over' || !startable q n || m.asking c.wait then .no else
    match m.group c.gid with
    | none => .no
    | some g =>
      let who : Requester := .porter core c.id
      let k := c.next
      -- PBYTES counts units of 64 bytes (R324, R371): the first sector of a unit pays for it
      let pays := k % 2 = 0
      if pays && !m.canPay g.task.allot.toNat 3 then .no else
      Ev.billed (n := g.task.allot.toNat) (m₀ := m) <| match m.refusedTo who with
      | some (code, va) => (m.answered who).porterStop core c code va
      | none =>
        match m.porterRead core g c k with
        | .again m' => if m'.link.reads.length = m.link.reads.length then .no else .ok m'
        | .bad m code va => (m.answered who).porterStop core c code va
        | .grove m va =>
          let (m, r) := m.askGrove who c.asid va (match c.op with | .tcpy _ _ _ _ _ _ => 3 | _ => 0) g.task.tpri g.task.flvl.toNat
          .ok (m.setPorter core { c with wait := some r })
        | .ok m bs =>
          let (m, bs) := (m.answered who).overlapFree c k bs
          match m.porterWrite g c k bs with
          | .held => .no
          | .bad m code va => m.porterStop core c code va
          | .ok m clob sent => .ok ((if pays then m.pay g.task.allot.toNat 3 else m).sectorSent core c k clob sent)
/-- PORTER_SECTOR_WRITE (R290): one sector of a request is one step. (log 18, DESIGN CHOICE) -/
def execPorterSectorWrite (core n : Nat) (s : State) : Host.Outcome State Fault Refusal :=
  event (fun m => m.porterSector core n) s
/-- The status of a request that has ended: a stopping fault, then a clobber, then a count or gate that failed (R280, R290, R335).
(log 35, DEDUCED) -/
def PorterCmd.status (c : PorterCmd) : Word :=
  match c.stop with
  | some (code, k, _) => statusOf code k
  | none =>
    match c.clob with
    | some k => statusOf Code.barrierClobber k
    | none => if c.barFail || c.lost then statusOf Code.barrierCount 0 else 0
/-- The stamp of a Porter command (R281). -/
def PorterCmd.stampOf (c : PorterCmd) : Stamp :=
  match c.op with
  | .tcpy false _ _ _ _ _ => .copyIn
  | _ => .out
/-- PORTER_COMMAND_COMPLETION (R279, R281, R290): the waybill, the token, and then what is left of the sector count. -/
def Mach.porterEnd (m : Mach) (core n : Nat) : Ev :=
  match (m.core core).porterQ[n]? with
  | none => .no
  | some c =>
    -- every sector has taken effect, at another device too (R385)
    if !c.over' || !c.unacked.isEmpty then .no else
    let left := c.sectors - min c.next (c.sectors - 1)
    -- a count that would leave its range is reported through the status, so it is tried before the token
    let c := match c.compl with
      | .bar off _ => if (m.tbStep c.gid off 0 0 left).isNone then { c with barFail := true } else c
      | _ => c
    let status : Word := c.status
    let m := m.stampIf core c.asid c.wb c.stampOf c.issued c.name (status != 0)
    let m := m.updCore core fun k => { k with porterQ := k.porterQ.filter fun d => d.id != c.id }
    let m := match c.compl.tok with
      | some w => m.putToken c.gid c.wave w status
      | none => m
    let m := match c.compl with
      | .bar off _ => (m.tbStep c.gid off 0 0 left).getD m
      | _ => m
    .ok (m.endWave c.gid c.wave)
def execPorterCommandCompletion (core n : Nat) (s : State) : Host.Outcome State Fault Refusal :=
  event (fun m => m.porterEnd core n) s

end Sys2Proof.Machine
end

