-- ==== Sys2Proof/Machine/Links.lean ====
section
/-! DEFINITION. Swegohel Link ports and flits (R383, R384), remote ranges at the owning device (R385), and the collective
engine (R106, R387). -/

namespace Sys2Proof.Machine

/-! ## Flits (R384) -/

/-- A copy with a flit that is not acknowledged on a port stops with LINK at its first unwritten sector (R290, R384). -/
def PorterCmd.cutOff (port : Nat) (c : PorterCmd) : PorterCmd :=
  match c.unacked.find? fun u => u.1 == port with
  | some (_, _, k) =>
    let dst := match c.op with | .cpy _ _ _ dst _ => dst | _ => 0
    { c with stop := c.stop.or (some (Code.link, k, dst + 32 * k)), next := k, unacked := [] }
  | none => c
/-- A port goes down (R384): it takes no new traffic, and every outstanding copy on it stops with LINK. A read that waits for
it finds no data. (log 46, DEDUCED) -/
def Mach.portDown (m : Mach) (port : Nat) : Mach :=
  let k := m.link
  let lost (r : RemoteRead) : Bool := r.data.isNone && (k.portTo r.device == port || k.portFrom r.device == port)
  { m with
    cores := m.cores.map fun p => (p.1, { p.2 with porterQ := p.2.porterQ.map (PorterCmd.cutOff port) })
    link := { k with
      ports := lset k.ports port fun p => { p with down := true, replay := [], replays := 0 }
      reads := k.reads.map fun r => if lost r then { r with data := some [] } else r } }
/-- A flit passes FEC and CRC. -/
def flitOk (c : FlitCheck) : Bool := decide (c.byteErrors ≤ 10) && c.crcOk
/-- The part of the buffer that an acknowledge of `seq` frees, and the rest. (log 46, DEDUCED) -/
def acked (replay : List Flit) (seq : BitVec 12) : List Flit × List Flit :=
  match replay.findIdx? fun f => f.seq == seq with
  | some i => (replay.take (i + 1), replay.drop (i + 1))
  | none => ([], replay)
/-- A port after a good flit: the flit expected next is taken, one seen before is not; an acknowledge frees the buffer up to
its number. (log 46, DEDUCED) -/
def Port.take (p : Port) (f : Flit) : Port :=
  let p := { p with failed := 0, credits := p.credits + f.credits.toNat }
  if f.ty = 5 then { p with replay := (acked p.replay f.seq).2, replays := if (acked p.replay f.seq).1.isEmpty then p.replays else 0 }
  else if f.seq = p.expect then { p with expect := p.expect + 1 } else p
/-- A port acknowledges what it has taken so far, and returns a credit for a flit it has taken now. (log 46, DEDUCED) -/
def Port.acks (p : Port) (fresh : Bool) (d : Nat) : Port :=
  { p with sent := some ⟨5, p.expect - 1, BitVec.ofNat 2 d, 0, if fresh then 1 else 0, List.replicate 224 0⟩ }
/-- The sectors that the other device has acknowledged are written: a sector is done with the last flit of it (R290, R385). -/
def Mach.sectorsAcked (m : Mach) (port : Nat) (fs : List Flit) : Mach :=
  if fs.isEmpty then m else
  let mine (u : Nat × BitVec 12 × Nat) : Bool := u.1 == port && fs.any fun f => f.seq == u.2.1
  (m.cores.flatMap fun p => (p.2.porterQ.filter fun c => c.unacked.any mine).map fun c => (p.1, c)).foldl (fun m q =>
    let rest := q.2.unacked.filter fun u => !mine u
    let ks := ((q.2.unacked.filter mine).map (·.2.2)).eraseDups.filter fun k => !rest.any fun u => u.2.2 == k
    ks.foldl (fun m k => m.sectorDone q.1 q.2.id k) (m.setPorter q.1 { q.2 with unacked := rest })) m
/-- Read data at a port answer the first read that waits for its device there. (log 46, DEDUCED) -/
def Link.answer (k : Link) (port : Nat) (payload : List Byte) : Link :=
  match k.reads.findIdx? fun r => r.data.isNone && k.portFrom r.device == port with
  | some i =>
    if (k.reads[i]?).any fun r => r.core == 129 then { k with reads := k.reads.eraseIdx i }
    else { k with reads := lset k.reads i fun r => { r with data := some (payload.take r.n) } }
  | none => k
/-- What a flit that was taken brings: an acknowledge, read data, or a flit for another device, which goes on along the ring. -/
def Mach.flitTaken (m : Mach) (port : Nat) (freed : List Flit) (f : Flit) : Mach :=
  let d := f.dest.toNat
  if f.ty = 5 then m.sectorsAcked port freed
  else if f.ty != 0 && d != m.link.device then (if m.link.up d then m.sendFlit d f.ty.toNat f.payload else m)
  else if f.ty = 3 then { m with link := m.link.answer port f.payload } else m
/-- FLIT_RECEIVE: a bad flit is replayed; the ninth bad reception in a row, eight replays, takes the port down. A good one
is acknowledged; one for another device waits while the way on has no room. (log 46, DEDUCED) -/
def Mach.flitReceive (m : Mach) (port : Nat) (check : FlitCheck) (f : Flit) : Ev :=
  match m.link.ports[port]? with
  | none => .no
  | some p =>
    if !p.trained || p.down then .no else
    let d := f.dest.toNat
    let fresh := f.ty != 5 && f.seq == p.expect
    if flitOk check && fresh && f.ty != 0 && d != m.link.device && m.link.up d && !m.link.room d 1 then .no else
    let m := m.countDevice 0x0204 1
    let set (m : Mach) (q : Port) : Mach := { m with link := { m.link with ports := lset m.link.ports port fun _ => q } }
    if !flitOk check then
      if p.failed = 8 then .ok (m.portDown port) else .ok (set m { p with failed := p.failed + 1 })
    else
      let freed := if f.ty = 5 then (acked p.replay f.seq).1 else []
      let near := (m.link.device + (if port = 1 then 1 else m.link.count - 1)) % m.link.count
      let q := p.take f
      let m := if f.ty = 5 then set m q else (set m (q.acks fresh near)).countDevice 0x0204 1
      .ok (if fresh || f.ty = 5 then m.flitTaken port freed f else m)
def execFlitReceive (port : Nat) (check : FlitCheck) (flit : Flit) (s : State) : Host.Outcome State Fault Refusal :=
  event (fun m => m.flitReceive port check flit) s
/-- The other end has not taken the oldest flit in a port's buffer, which is sent again; the eighth failure in a row takes the port
down (R384). (log 46, DEDUCED) -/
def Mach.flitRefused (m : Mach) (port : Nat) : Mach :=
  match m.link.ports[port]? with
  | none => m
  | some p =>
    if !p.trained || p.down || p.replay.isEmpty then m
    else if p.replays = 7 then m.portDown port
    else { m with link := { m.link with ports := lset m.link.ports port fun p =>
      { p with replays := p.replays + 1, sent := p.replay.head? } } }.countDevice 0x0204 1

/-! ## Training (R383) -/

/-- A port after training, with the credits its neighbour grants. (log 46, DEDUCED) -/
def Port.ready (ok : Bool) : Port := ⟨ok, !ok, 0, 0, Config.linkCredits, [], 0, 0, none⟩
/-- LINK_TRAINING: both ports train and the device learns d and n, or it is left with n = 1. The device whose strap
RINGHEAD is set is number 0. What was outstanding on the ports ends as on ports that went down (R384). -/
def State.linkTraining (s : State) (ok0 ok1 : Bool) (d n : Nat) : Ev :=
  let both := ok0 && ok1
  if both && !(decide (2 ≤ n ∧ n ≤ 4 ∧ d < n) && (s.plat.host.ringHead == (d == 0))) then .no else
  let m := (s.mach.portDown 0).portDown 1
  .ok { m with link := { m.link with
    ports := [Port.ready ok0, Port.ready ok1]
    device := if both then d else 0, count := if both then n else 1 } }
def execLinkTraining (ok0 ok1 : Bool) (d n : Nat) (s : State) : Host.Outcome State Fault Refusal :=
  event (fun _ => s.linkTraining ok0 ok1 d n) s

/-! ## Remote writes and reads at the controller that owns them (R385) -/

/-- The range lies in this device's memory. -/
def inMemory (pa n : Nat) : Bool := decide (0 < n ∧ n ≤ 224 ∧ pa + n ≤ gddrTop)
/-- REMOTE_WRITE_ARRIVAL. -/
def execRemoteWriteArrival (pa : Nat) (bytes : List Byte) (s : State) : Host.Outcome State Fault Refusal :=
  event (fun m => if !inMemory pa bytes.length then .no else
    match m.ownerWrite pa bytes with
    | .ok m _ => .ok m
    | _ => .no) s
/-- REMOTE_READ_REQUEST: the data goes to the device that asks. -/
def Mach.remoteServe (m : Mach) (asker pa n : Nat) : Ev :=
  if asker = m.link.device || !inMemory pa n || !m.link.room asker 1 then .no else
  match m.ownerRead pa n 0 with
  | .ok m bs => .ok (m.sendFlit asker 3 bs)
  | .bad m _ _ => .ok (m.sendFlit asker 3 ((m.paRead pa n).2.1))
  | _ => .no
def execRemoteReadRequest (asker pa n : Nat) (s : State) : Host.Outcome State Fault Refusal :=
  event (fun m => m.remoteServe asker pa n) s

/-! ## The collective engine (R387) -/

/-- COLLECTIVE_DOORBELL: a store to the doorbell word of a mapped context. -/
def execCollectiveDoorbell (slot : Nat) (va : DWord) (s : State) : Host.Outcome State Fault Refusal :=
  event (fun m => match mget m.ctxs slot with
    | some c => if m.agentHeld c.asid va.toNat 64 then .no else .ok (m.doorbell slot va.toNat)
    | none => .no) s
/-- Read a run in user mode for the collective engine, remote ranges too. -/
def Mach.collRead (m : Mach) (q : Collective) : Rd :=
  m.sectorRun q.src (4 * q.count) fun m x n => m.sideRead 128 q.id q.asid false x n fun m => m.agentRead q.asid false 0 x n
/-- The first fault of a user-mode write of a run. -/
def Mach.collCheck (m : Mach) (asid : BitVec 16) (va n : Nat) : Mach × Option Nat :=
  ((List.range ((va + n + 31) / 32 - va / 32)).map (· + va / 32)).foldl (fun (a : Mach × Option Nat) s =>
    if a.2.isSome then a else
    let x := max va (32 * s)
    match a.1.sideCheck asid false x (fun m => match m.checkNow asid false .store 0 x 0 with
      | (m, .ok 4) => (m, some (Code.perm, x))
      | (m, .ok _) => (m, none)
      | (m, .bad _ code _) => (m, some (code, x))
      | (m, .walk _) => (m, some (Code.page, x))) with
    | (m, f) => (m, f.map (·.1))) (m, none)
/-- Write bytes within a sector that was checked; another device takes them in a flit. -/
def Mach.collPut (m : Mach) (asid : BitVec 16) (x : Nat) (bs : List Byte) : Rd :=
  match m.sideOf asid x with
  | .here => m.agentWrite asid false x bs
  | .own p => m.ownerWrite p bs
  | .other d _ => if m.link.room d 1 then .ok (m.sendFlit d 1 bs) [] else .again m
/-- Write a run from its n-th sector on, each sector as one write, as far as it goes: how many sectors are written. -/
def Mach.collWrite (m : Mach) (asid : BitVec 16) (va : Nat) (bs : List Byte) (n : Nat) : Mach × Nat :=
  let secs := (va + bs.length + 31) / 32 - va / 32
  (List.range (secs - n)).foldl (fun (a : Mach × Nat) i =>
    if a.2 ≠ n + i then a else
    let s := va / 32 + n + i
    let x := max va (32 * s)
    match a.1.collPut asid x ((bs.drop (x - va)).take (min (va + bs.length) (32 * s + 32) - x)) with
    | .ok m _ => (m, a.2 + 1)
    | _ => a) (m, n)
/-- One element over the devices in ring order (R106): FP32 sum, S32 sum, FP32 maximum. -/
def reduceOne (op : Nat) (vs : List Word) : Word :=
  match vs with
  | [] => 0
  | v :: rest => rest.foldl (fun r v =>
    if op = 0 then fadd32 r v else if op = 1 then r + v
    else BitVec.ofNat 32 (fMinMax fp32 true r.toNat v.toNat).bits) v
/-- The N64 at SIGNAL changes as one step, where it can be written. (log 24, DESIGN CHOICE) -/
def Mach.collSignal (m : Mach) (q : Collective) (f : Nat → Nat) : Mach :=
  match m.agentReadRun q.asid false 0 q.signal 8 with
  | .ok m old => (m.collWrite q.asid q.signal (leBytes 8 (f (leNat old))) 0).1
  | _ => m
/-- The request ends. -/
def Mach.collOver (m : Mach) (q : Collective) : Mach :=
  { m.fetched 128 q.id with link := { (m.fetched 128 q.id).link with requests := m.link.requests.filter fun r => r.id != q.id } }
/-- A failure (R387): the code is stored to SIGNAL, and what DST holds in this device is undefined. (log 24, DESIGN CHOICE) -/
def Mach.collFail (m : Mach) (q : Collective) (code : Nat) : Mach :=
  let n := 4 * min q.count (2 ^ 24)
  let m := match m.collCheck q.asid q.dst n with
    | (m, none) => (List.range ((q.dst + n + 31) / 32 - q.dst / 32)).foldl (fun (m : Mach) i =>
        let x := max q.dst (32 * (q.dst / 32 + i))
        match m.sideOf q.asid x with
        | .other _ _ => m
        | _ =>
          let (m, bs) := m.freeBytes (min (q.dst + n) (32 * (q.dst / 32 + i) + 32) - x)
          match m.collPut q.asid x bs with
          | .ok m _ => m
          | _ => m) m
    | (m, some _) => m
  (m.collOver q).collSignal q fun _ => 0xFFFFFFFFFFFF0000 + code
/-- A request as it goes on. -/
def Mach.setColl (m : Mach) (q : Collective) : Mach :=
  { m with link := { m.link with requests := m.link.requests.map fun r => if r.id = q.id then q else r } }
/-- This device's elements go to the other devices, in flits of 56, as far as the links take them: the flits sent so far. -/
def Mach.collSend (m : Mach) (q : Collective) (data : List Byte) : Mach × Nat :=
  let ds := (List.range q.ndev).filter (· != m.link.device)
  let dest (i : Nat) : Nat := ds.getD (i % ds.length) 0
  (List.range ((4 * q.count + 223) / 224 * ds.length - q.sent)).foldl (fun (a : Mach × Nat) i =>
    if a.2 ≠ q.sent + i || !a.1.link.room (dest a.2) 1 then a
    else (a.1.sendFlit (dest a.2) 4 ((data.drop (a.2 / ds.length * 224)).take 224), a.2 + 1)) (m, q.sent)
/-- The flits that carry this device's elements to the other devices. -/
def Collective.flits (q : Collective) : Nat := (4 * q.count + 223) / 224 * (q.ndev - 1)
/-- The reduced elements, in ring order. -/
def Collective.reduce (q : Collective) (device : Nat) (data : List Byte) (others : List (List Word)) : List Byte :=
  let mine := (List.range q.count).map fun i => BitVec.ofNat 32 (fieldAt data (4 * i) 4)
  let all := others.take device ++ [mine] ++ others.drop device
  (List.range q.count).flatMap fun i => leBytes 4 (reduceOne q.op (all.map fun v => v.getD i 0)).toNat
/-- A request with this device's data read: it sends them, reduces, writes, and signals; what a link or a held sector puts off is
for another step. (log 24, DESIGN CHOICE) -/
def Mach.collGo (m : Mach) (q : Collective) (data : List Byte) (others : List (List Word)) : Mach :=
  let (m, sent) := m.collSend q data
  let q := { q with data := some data, sent := sent }
  if sent < q.flits then m.setColl q else
  match m.collCheck q.asid q.dst (4 * q.count) with
  | (m, some code) => m.collFail q code
  | (m, none) =>
    let out := q.out.getD (q.reduce m.link.device data others)
    let (m, written) := m.collWrite q.asid q.dst out q.written
    if written < (q.dst + out.length + 31) / 32 - q.dst / 32 then m.setColl { q with out := some out, written := written }
    else (m.collOver q).collSignal q fun v => v + 1
/-- COLLECTIVE_COMPLETION: request n is matched by the other devices' requests with its TAG: their TAG, OP and elements, in ring
order without this device's. (log 24, DESIGN CHOICE) -/
def Mach.collEnd (m : Mach) (n : Nat) (others : List (Half × Byte × List Word)) : Ev :=
  match m.link.requests.find? fun q => q.id == n with
  | none => .no
  | some q =>
    if m.agentHeld q.asid q.signal 8 || others.any (fun o => o.1 != q.tag) || (!q.bad && decide (q.ndev ≤ m.link.device)) then .no
    else if q.bad || others.length + 1 != q.ndev || others.any (fun o => o.2.1.toNat != q.op || o.2.2.length != q.count)
    then .ok (m.collFail q Code.illegalOperand)
    else if !(List.range q.ndev).all (fun d => d == m.link.device || m.link.up d) then .ok (m.collFail q Code.link)
    else
      let vs := others.map (·.2.2)
      match q.data with
      | some data =>
        let m' := m.collGo q data vs
        -- nothing of it can go on
        if m'.link.requests == m.link.requests then .no else .ok m'
      | none =>
        match m.collRead q with
        | .ok m bs => .ok ((m.fetched 128 q.id).collGo q bs vs)
        | .bad m code _ => .ok (m.collFail q code)
        | .grove m a => .ok (m.askGrove .prefetch q.asid a 0 0 0).1
        | .again m' => if m'.link.reads.length = m.link.reads.length then .no else .ok m'
def execCollectiveCompletion (n : Nat) (others : List (Half × Byte × List Word)) (s : State) : Host.Outcome State Fault Refusal :=
  event (fun m => m.collEnd n others) s

end Sys2Proof.Machine
end

