-- ==== Sys2Proof/Machine/Switchboard.lean ====
section
/-! DEFINITION. The switchboard: context descriptors and MAP, UNMAP, SWITCH (R369, R370), restoring a save area (R361,
R362), its other registers and the allotment period (R324, R371), and the end of a context (R359). -/

namespace Sys2Proof.Machine

/-! ## Context descriptors, queue descriptors and Depot tables -/

/-- A context descriptor (R369). -/
def Ctx.ofDesc (slot desc serial : Nat) (bs : List Byte) : Ctx :=
  let f := fieldAt bs
  { slot := slot, serial := serial, desc := desc, asid := BitVec.ofNat 16 (f 0 2)
    nestmax := if f 2 1 % 4 = 0 then 2 else f 2 1 % 4
    allot := BitVec.ofNat 6 (f 3 1), ptroot := f 8 8, save := f 16 8, depot := f 24 8
    groves := f 32 8, groveCount := f 40 2, pinmax := f 44 4, frames := f 48 8, frameCount := f 56 4
    queues := f 64 8, queueCount := f 72 4
    tvec := 0, tlrs := [], accs := [], pins := [], faulted := false, wbRing := [] }
/-- The reserved bytes and bits are zero and the counts are in their ranges (R369, R370). (log 40, DESIGN CHOICE) -/
def ctxDescOk (bs : List Byte) : Bool :=
  let f := fieldAt bs
  f 2 1 / 4 == 0 && f 3 1 / 64 == 0 && f 4 4 == 0 && f 42 2 == 0 && f 60 4 == 0 && (bs.drop 76).all (· == 0)
    && decide (f 40 2 ≤ 1024) && decide (1 ≤ f 72 4 ∧ f 72 4 ≤ 32)
/-- A queue descriptor (R363): none when malformed. -/
def Queue.ofDesc (slot : Nat) (bs : List Byte) : Option Queue :=
  let f := fieldAt bs
  if f 0 8 % 64 = 0 ∧ 4 ≤ f 8 4 ∧ f 8 4 ≤ 20 ∧ f 12 4 = 0 ∧ f 16 8 % 8 = 0 ∧ f 24 8 % 8 = 0 ∧ f 32 8 % 8 = 0
      ∧ (bs.drop 40).all (· == 0) then
    some { slot := slot, ring := f 0 8, logN := f 8 4, widx := f 16 8, ridx := f 24 8, err := f 32 8, seen := 0, index := 0
           stopped := false, stage := .idle, entry := 0, status := 0, pw := [], pcc := [], run := 0, outstanding := 0
           again := false, wait := none, window := [] }
  else none
/-- A Depot descriptor (R254): none acts as QUOTA 0. -/
def Ring.ofDesc (bs : List Byte) : Option Ring :=
  let f := fieldAt bs
  if 12 ≤ f 8 4 ∧ f 8 4 ≤ 30 ∧ f 28 4 = 0 then
    some ⟨BitVec.ofNat 64 (f 0 8), f 8 4, f 12 4, f 16 4, f 20 4, f 24 4, []⟩
  else none
/-- The fill ring descriptors hold 8192 entries each (R254). -/
def ringsOk (rs : List (Option Ring)) : Bool :=
  ((rs.drop 32).take 384).all fun r => match r with
    | some r => decide (19 ≤ r.logSize)
    | none => false
/-- The bytes of a supervisor read, or none where a fault is met. -/
def Rd.good : Rd → Option (Mach × List Byte)
  | .ok m bs => some (m, bs)
  | _ => none
/-- The queues of a context: the array of descriptor addresses, and each descriptor (R369). -/
def Mach.readQueues (m : Mach) (c : Ctx) : Option (Mach × List Queue) :=
  (m.supRead c.asid c.queues (8 * c.queueCount)).good.bind fun r =>
    (List.range c.queueCount).foldl (fun (a : Option (Mach × List Queue)) i => a.bind fun a =>
      (a.1.supRead c.asid (fieldAt r.2 (8 * i) 8) 64).good.bind fun d =>
        (Queue.ofDesc c.slot d.2).map fun q => (d.1, a.2 ++ [q])) (some (r.1, []))
/-- The Depot table of a context (R253). -/
def Mach.readRings (m : Mach) (c : Ctx) : Option (Mach × List (Option Ring)) :=
  (m.supRead c.asid c.depot (32 * 800)).good.map fun r =>
    (r.1, (List.range 800).map fun i => Ring.ofDesc ((r.2.drop (32 * i)).take 32))
/-- The rings of a context take their descriptors; entries spilled before stay (R257), in a ring whose descriptor is
malformed too: it acts as QUOTA 0 (R254). -/
def Mach.setRings (m : Mach) (asid : BitVec 16) (rs : List (Option Ring)) (old : Map Ring) : Mach :=
  let lo := ringKey asid 0
  let new := ((List.range 800).zip rs).filterMap fun p =>
    (match p.2, mget old (lo + p.1) with
    | some r, some x => some { x with base := r.base, logSize := r.logSize, quota := r.quota }
    | some r, none => some { r with head := 0, tail := 0, used := 0 }
    | none, some x => some { x with quota := 0 }
    | none, none => none).map fun r => (lo + p.1, r)
  { m with rings := m.rings.filter (fun p => p.1 < lo) ++ new ++ m.rings.filter (fun p => lo + 800 ≤ p.1) }
/-- The reserves of level 3 are free on a core (R50). -/
def Mach.thirdFree (m : Mach) (core : Nat) : Bool :=
  decide (2 ≤ m.freeSlots core 3 ∧ 4 ≤ m.freeUnits core 3 ∧ 2 ≤ m.freeBars core)
    && (m.freeSpad core).contains (reserveUnit 3)

/-! ## Restoring a save area (R361, R362) -/

/-- What SAVE holds. -/
inductive Held where
  | nothing
  /-- refused with a status -/
  | refused (status : Nat)
  /-- a section fails its check -/
  | broken
  /-- an image, with the header's TVEC and fault record -/
  | image (s : Saved) (tvec : DWord) (record : List Byte)
/-- Read the save area at SAVE: version, sizes and sections are checked; `ok` says that the front-end image restores layout 4
(R374). A VERSION of 0 holds none; a body that names no image of the device, or one of another context, fails its check
(log 16, DESIGN CHOICE). (log 40, DESIGN CHOICE) -/
def Mach.readSave (m : Mach) (ok : Bool) (c : Ctx) : Held :=
  match (m.supRead c.asid c.save 128).good with
  | none => .nothing
  | some (m, h) =>
    let f := fieldAt h
    let n := f 4 4
    let total := f 8 8
    if f 0 2 = 0 then .nothing
    else if f 0 2 ≠ 4 ∨ ok = false then .refused 2
    else if n = 0 ∨ 2 ^ 16 < n then .refused 3
    else match (m.supRead c.asid (c.save + 128) (16 * n)).good with
      | none => .broken
      | some (m, d) =>
        let ent := (List.range n).map fun i => let e := fieldAt (d.drop (16 * i)); (e 0 2, e 4 4, e 8 4, e 12 4)
        let size := ent.foldl (fun a e => a + e.2.2.2) (128 + 16 * n)
        if total ≠ size ∨ (ent.filter (fun e => e.1 == 3)).length ≠ 1 ∨ ent.any (fun e => total < e.2.2.1 + e.2.2.2)
          then .refused 3
        else
          let bodies := ent.map fun e => (e, (m.supRead c.asid (c.save + e.2.2.1) e.2.2.2).good.map (·.2))
          if !bodies.all (fun p => match p.2 with
              | some bs => (Config.crc32 bs).toNat == p.1.2.1
              | none => false) then .broken
          else match bodies.find? fun p => p.1.1 == 3 with
            | some (_, some bs) =>
              (match m.saved.find? fun s => s.id == leNat bs && s.asid == c.asid with
              | some s => .image s (BitVec.ofNat 64 (f 16 8)) (h.drop 64)
              | none => .broken)
            | _ => .broken
/-- Every V and K register of a restored wave awaits refresh (R112). -/
def Wave.awaitRefresh (w : Wave) : Wave :=
  if w.ended then w else
  { w with refresh := (List.range 64).flatMap fun l =>
      ((List.range (w.base + w.ext)).map fun i => RKey.v l i) ++ (List.range 8).map fun i => RKey.k l i }
/-- The trap registers of a wave from a fault record (R359). -/
def Wave.setRecord (w : Wave) (r : List Byte) : Wave :=
  let f := fieldAt r
  { w with tcause := BitVec.ofNat 32 (f 0 4), tpc := BitVec.ofNat 64 (f 8 8), taddr := BitVec.ofNat 64 (f 16 8)
           tmask := BitVec.ofNat 64 (f 24 8) }
/-- Place the groups of one placement on the cores given, in turn. -/
def Mach.placeSet (spads : Map (List Host.Cell)) : List (Group × Nat) → Mach → Option Mach
  | [], m => some m
  | (g, n) :: rest, m =>
    match m.fitsAgain g n with
    | some gr => Mach.placeSet spads rest (m.reseat g n gr (mgetD spads g.gid []))
    | none => none
/-- The group has a command that is spilled to a ring of its core (R257). -/
def Saved.spills (s : Saved) (g : Group) : Bool :=
  s.rings.any fun p => p.2.items.any fun i => g.waves.any fun w => i.ofWave g.gid w.index
/-- Place a placement again: on its own cores, else a single group on the core with most room, and a convoy placement on
the lowest cores of a convoy that fit (R48, R362). A group with a spilled command goes back to its own core, whose ring
refills behind what was saved of its queues, so that the order is kept (R257). (log 40, DESIGN CHOICE) -/
def Mach.replace (m : Mach) (s : Saved) (gs : List Group) : Option Mach :=
  let spads := s.spads
  match Mach.placeSet spads (gs.map fun g => (g, g.core)) m with
  | some m => some m
  | none =>
    if gs.any s.spills then none else
    match gs with
    | [g] =>
      if g.task.parts = 1 then (m.coreAgain g g.core [coreNums]).bind fun p => Mach.placeSet spads [(g, p.1)] m
      else (List.range 32).findSome? fun k =>
        ((List.range 4).map (· + 4 * k)).findSome? fun n => Mach.placeSet spads [(g, n)] m
    | gs => (List.range 32).findSome? fun k =>
      let fit := ((List.range 4).map (· + 4 * k)).filter fun n => gs.all fun g => (m.fitsAgain g n).isSome
      if fit.length < gs.length then none else Mach.placeSet spads (gs.zip fit) m
/-- Groups by placement, in the order of their first group. -/
def placements (gs : List Group) : List (List Group) :=
  (gs.map (·.placement)).eraseDups.map fun p => gs.filter fun g => g.placement == p
/-- New places for the waystations of an image, in the same slice: old key to new key; none while waystations or entries of
a waiter pool are missing (R243). -/
def Mach.newWays (m : Mach) (ws : List (Nat × Waystation)) : Option (Map Nat) :=
  let waiters (slice : Nat) : Nat := (ws.filter fun p => p.1 / 64 == slice).foldl (fun n p => n + p.2.waiters.length) 0
  if ws.any fun p => decide (2048 < m.waitersOf (p.1 / 64) + waiters (p.1 / 64)) then none else
  ws.foldl (fun (a : Option (Map Nat)) p => a.bind fun t =>
    let slice := p.1 / 64
    let free (k : Nat) : Bool := (mget m.ways k).isNone && !t.any fun q => q.2 == k
    (if free p.1 then some p.1 else ((List.range 64).map (· + 64 * slice)).find? free).map fun k => mput t p.1 k) (some [])
/-- Put a waystation of an image back, its waiters in free entries of the slice's pool (R243). (log 83, DESIGN CHOICE) -/
def putWay (t : Map Waystation) (k : Nat) (w : Waystation) : Map Waystation :=
  w.waiters.foldl (fun (t : Map Waystation) p =>
    mput t k { w with waiters := ((mget t k).map (·.waiters)).getD [] ++ [(poolFree t (k / 64), p.2)] }) (mput t k { w with waiters := [] })
/-- A spilled entry names its waystation and queue anew. -/
def DepotItem.renamed (ways : Map Nat) (slot : Nat) : DepotItem → DepotItem
  | .spawn e => .spawn { e with queue := e.queue.map fun q => slot * 32 + q % 32 }
  | .fill e => .fill { e with ws := mgetD ways e.ws e.ws }
  | x => x
/-- A queue goes on with the saved stage of its packet; a queue at a packet boundary starts at RIDX (R365, R368). -/
def Queue.resume (q : Queue) (old : Option Queue) : Queue :=
  match old with
  | none => q
  | some o =>
    if o.stage = .idle then q else
    { q with seen := o.seen, index := o.index, stage := o.stage, entry := o.entry, status := o.status, pw := o.pw, pcc := o.pcc
             run := o.run, outstanding := o.outstanding, again := o.again }
/-- Start a context's queues (R370): each front end reads RIDX, unless a saved packet goes on. A RIDX that cannot be read
stops the queue. -/
def Mach.startQueues (m : Mach) (c : Ctx) (qs : List Queue) (old : List Queue) : Mach :=
  ((List.range qs.length).zip qs).foldl (fun (m : Mach) p =>
    let n := c.slot * 32 + p.1
    let q := p.2.resume old[p.1]?
    if q.stage ≠ .idle then m.setQueue n q else
    match m.feRead n c.asid 0 q.ridx 8 with
    | .ok m bs => m.setQueue n { q with index := leNat bs, seen := leNat bs }
    | _ => (m.setQueue n q).packetEnd n 5) m
/-- No hardware queue holds more than its depth (R250). -/
def Mach.queuesFit (m : Mach) : Bool := (List.range 800).all fun r => decide (m.queueLen r ≤ queueDepth r)
/-- Put an image's entries back before the rings refill (R257): engine commands go to the core of their group. -/
def Mach.requeue (m : Mach) (s : Saved) (ways : Map Nat) (slot : Nat) : Mach :=
  let m : Mach := { m with
    spawnQ := s.spawnQ.foldl (fun t p => mput t p.1 (mgetD t p.1 [] ++ p.2.map fun (e : SpawnEntry) =>
      { e with queue := e.queue.map fun q => slot * 32 + q % 32 })) m.spawnQ
    fillQ := s.fillQ.foldl (fun t p => mput t p.1 (mgetD t p.1 [] ++ p.2.map fun (e : FillEntry) =>
      { e with ws := mgetD ways e.ws e.ws })) m.fillQ
    banks := m.banks ++ s.banks }
  let coreOf (m : Mach) (gid d : Nat) : Nat := ((m.group gid).map (·.core)).getD d
  let m := s.mxQ.foldl (fun m p => p.2.foldl (fun m c => m.updCore (coreOf m c.gid p.1) fun k => { k with mxQ := k.mxQ ++ [c] }) m) m
  let m := s.porterQ.foldl (fun m p => p.2.foldl (fun m c =>
    m.updCore (coreOf m c.gid p.1) fun k => { k with porterQ := k.porterQ ++ [c] }) m) m
  let m : Mach := s.rayQ.foldl (fun m p => p.2.foldl (fun m c => m.updCore (coreOf m c.gid p.1) fun k => { k with rayQ := k.rayQ ++ [c] }) m) m
  -- a command's grove request follows it to its core
  let home (q : GroveReq) : GroveReq := match q.who with
    | .porter n id => { q with who := .porter (((m.cores.find? fun k => k.2.porterQ.any fun c => c.id == id).map (·.1)).getD n) id }
    | .ray n id l => { q with who := .ray (((m.cores.find? fun k => k.2.rayQ.any fun c => c.id == id).map (·.1)).getD n) id l }
    | _ => q
  { m with reqs := m.reqs.map fun q => if q.asid == s.asid then home q else q }
/-- Counters, halt blocks and waybills go back to their cores; a waybill follows the group it names. -/
def Mach.restoreCores (m : Mach) (s : Saved) : Mach :=
  let a := s.asid.toNat
  let m := s.counters.foldl (fun m p => m.updCore (p.1 / 8) fun k => { k with counters := mput k.counters (a * 8 + p.1 % 8) p.2 }) m
  let m := s.halts.foldl (fun (m : Mach) p => m.setHalt p.1 s.asid p.2) m
  s.waybills.foldl (fun m p =>
    let g := s.groups.find? fun g => g.launch == p.2.name.launch && g.task.tileX == p.2.name.tileX
      && g.task.tileY == p.2.name.tileY && g.task.tileZ == p.2.name.tileZ
    let n := ((g.bind fun g => m.group g.gid).map (·.core)).getD (p.1 / 128)
    m.updCore n fun k => { k with waybills := mput k.waybills (a * 128 + p.1 % 128) p.2 }) m
/-- A group of an image as it is placed again. -/
def Group.restored (g : Group) (s : Saved) (ways : Map Nat) (slot : Nat) (record : List Byte) : Group :=
  { g with
    fillWs := g.fillWs.map fun w => mgetD ways w w
    queue := g.queue.map fun q => slot * 32 + q % 32
    waves := g.waves.map fun w =>
      let w := w.awaitRefresh
      match s.fault with
      | some f => if f.gid = some (g.gid, w.index) then w.setRecord record else w
      | none => w }
/-- Restore an image into a mapped context (R362), or none while its groups, waystations or entries do not fit.
(log 40, DESIGN CHOICE) -/
def Mach.restore (m : Mach) (c : Ctx) (rs : List (Option Ring)) (qs : List Queue) (s : Saved) (tvec : DWord) (record : List Byte) :
    Option Mach :=
  let c := { c with tvec := tvec &&& 0xFFFFFFFFFFFF, tlrs := s.tlrs, pins := s.pins, wbRing := s.wbRing, accs := s.accs, serial := s.serial }
  let m := m.setCtx c
  (m.newWays s.ways).bind fun ways =>
    let gs := s.groups.map fun g => g.restored s ways c.slot record
    ((placements gs).foldl (fun (r : Option Mach) p => r.bind fun m => m.replace s p) (some m)).bind fun m =>
      let m : Mach := { m with
        ways := s.ways.foldl (fun t p => putWay t (mgetD ways p.1 p.1) p.2) m.ways
        reqs := m.reqs ++ s.reqs.map fun q => match q.stage with
          | .waiting w => { q with stage := .waiting (mgetD ways w w) }
          | _ => q }
      let m := m.requeue s ways c.slot
      if !m.queuesFit then none else
      let m := m.restoreCores s
      let old := s.rings.map fun p => (p.1, { p.2 with items := p.2.items.map (·.renamed ways c.slot) })
      some ((m.setRings c.asid rs old).startQueues c qs s.queues)

/-! ## MAP, UNMAP and SWITCH (R370) -/

/-- The command at hand ends with a status. -/
def Mach.boardEnd (m : Mach) (status : Nat) : Mach :=
  { m with board := { m.board with command := none, wants := [], status := status } }
/-- The command at hand waits, its restore for so many waystations and waiter entries (R243). -/
def Mach.boardWait (m : Mach) (cmd : BoardCmd) (wants : List (Nat × Nat × Nat)) : Mach :=
  { m with board := { m.board with command := some cmd, wants := wants } }
/-- A context fault met in restoring (R362): the context is mapped and halted, its image unchanged. -/
def Mach.brokenSave (m : Mach) (c : Ctx) : Mach :=
  let m := m.setCtx { c with faulted := true }
  let h := fieldAt (((m.supRead c.asid c.save 4).good.map (·.2)).getD []) 2 2
  let fr : FaultRec := ⟨0, 4, 0, 0, 0, ThreadName.none, none⟩
  let m := m.llcWriteRun c.asid (c.save + 2) (leBytes 2 (h ||| 1)) none
  m.llcWriteRun c.asid (c.save + 64) fr.bytes none
/-- A context without a save area starts empty. -/
def Mach.startFresh (m : Mach) (c : Ctx) (rs : List (Option Ring)) (qs : List Queue) : Mach :=
  ((m.setCtx c).setRings c.asid rs []).startQueues c qs []
/-- L1 gives up what the level-3 reserves take (R172). -/
def Mach.trimAll (m : Mach) : Mach := (m.cores.map (·.1)).foldl (fun m n => m.l1Trim n) m
/-- Waystations and waiter entries that an image needs, by slice (R243). -/
def Saved.wants (s : Saved) : List (Nat × Nat × Nat) :=
  ((s.ways.map fun p => p.1 / 64).eraseDups).map fun slice =>
    let here := s.ways.filter fun p => p.1 / 64 == slice
    (slice, here.length, here.foldl (fun n p => n + p.2.waiters.length) 0)
/-- How a MAP stands: done, or waiting, its restore for waystations and waiter entries. -/
inductive MapEnd where
  | done (m : Mach)
  | wait (wants : List (Nat × Nat × Nat))
/-- Map a context whose descriptors are good: its save area decides how. A restore takes what it needs ahead of new misses, and
waits for what is missing (R243). -/
def Mach.mapGood (m : Mach) (ok : Bool) (c : Ctx) (rs : List (Option Ring)) (qs : List Queue) : MapEnd :=
  match (m.setCtx c).readSave ok c with
  | .nothing => .done ((m.startFresh c rs qs).trimAll.boardEnd 0)
  | .refused k => .done (m.boardEnd k)
  | .broken => .done ((m.brokenSave c).trimAll.boardEnd 0)
  | .image s tvec record =>
    match m.restore c rs qs s tvec record with
    | some m => .done (m.trimAll.boardEnd 0)
    | none => .wait s.wants
/-- Queues the eight front ends can hold (R18, R370). -/
def boardQueues : Nat := 128
/-- The bytes of a context descriptor: none where a word is poisoned (R376). -/
def Mach.readDesc (m : Mach) (desc : Nat) : Mach × Option (List Byte) :=
  (List.range 16).foldl (fun (a : Mach × Option (List Byte)) i =>
    match a.2, a.1.physRead (desc + 8 * i) 8 with
    | some bs, (m, b, false) => (m, some (bs ++ b))
    | _, r => (r.1, none)) (m, some [])
/-- MAP: the checks in turn, then the context (R369, R370). A descriptor with an uncorrectable word is malformed.
(log 10, DESIGN CHOICE; log 40, DESIGN CHOICE) -/
def Mach.mapCtx (m : Mach) (ok : Bool) (slot desc : Nat) : MapEnd :=
  if (mget m.ctxs slot).isSome then .done (m.boardEnd 5) else
  match m.readDesc desc with
  | (m, none) => .done (m.boardEnd 1)
  | (m, some bs) =>
  let fail (k : Nat) : MapEnd := .done (m.boardEnd k)
  let c := Ctx.ofDesc slot desc m.nextId bs
  if !ctxDescOk bs || (m.ctxOf c.asid).isSome || decide (boardQueues < m.queues.length + c.queueCount) then fail 1 else
  match (m.setCtx c).readQueues c with
  | none => fail 1
  | some (m1, qs) =>
    match m1.readRings c with
    | none => fail 4
    | some (m2, rs) =>
      if !ringsOk rs then fail 4 else
      if c.nestmax = 3 && !m.levels.contains 3 && !coreNums.all m.thirdFree then .wait []
      else { m2 with ctxs := m.ctxs, nextId := m.nextId + 1 }.mapGood ok c rs qs
/-- UNMAP of a slot: none when it is empty. A context halted by a context fault is in its save area already (R359).
(log 40, DESIGN CHOICE) -/
def Mach.unmapCtx (m : Mach) (slot : Nat) : Option Mach :=
  (mget m.ctxs slot).map fun c =>
    let m := if c.faulted then m else m.haltContext c none
    { m with ctxs := mdel m.ctxs slot, queues := m.queues.filter fun p => p.2.slot != slot }
/-- A prologue of the slot has begun a run that it has not ended: neither a packet boundary nor a wait step (R368). -/
def Queue.running (q : Queue) (slot : Nat) : Bool :=
  q.slot == slot && !q.stopped && q.stage == .prologue && (q.run == 0 || q.wait.isSome)
/-- The front ends finish the runs in progress, as far as they go (R368); and whether one went on. -/
def Mach.finishRuns (m : Mach) (slot : Nat) : Mach × Bool :=
  m.queues.foldl (fun a p =>
    if !((mget a.1.queues p.1).any fun q => q.running slot) then a else
    match a.1.prologue p.1 with
    | .ok m => (m, true)
    | .no => a) (m, false)
/-- UNMAP of a mapped slot, or the halt of a SWITCH, once no run of a prologue is in progress: the machine after it, and whether it
has ended; none where nothing can go on. -/
def Mach.unmapGo (m : Mach) (slot : Nat) : Option (Mach × Bool) :=
  match m.finishRuns slot with
  | (m, went) =>
    if m.queues.any fun p => p.2.running slot then (if went then some (m, false) else none)
    else (m.unmapCtx slot).map fun m => (m, true)
/-- A MAP goes on: none where it waits as before. -/
def Mach.mapGo (m : Mach) (ok : Bool) (slot desc : Nat) (cmd : BoardCmd) : Option Mach :=
  match m.mapCtx ok slot desc with
  | .done m => some m
  | .wait w => if m.board.command = some cmd ∧ m.board.wants = w then none else some (m.boardWait cmd w)
/-- The command at hand goes on: none where it cannot. SWITCH is UNMAP, then MAP, as one command (R370). -/
def Mach.boardGo (m : Mach) (ok : Bool) : Option Mach :=
  match m.board.command with
  | none => none
  | some (.map slot desc) => m.mapGo ok slot desc (.map slot desc)
  | some (.unmap slot) =>
    if (mget m.ctxs slot).isNone then some (m.boardEnd 5) else
    (m.unmapGo slot).map fun p => if p.2 then p.1.boardEnd 0 else p.1
  | some (.swap slot desc true) => m.mapGo ok slot desc (.swap slot desc true)
  | some (.swap slot desc false) =>
    if (mget m.ctxs slot).isNone then some (m.boardEnd 5) else
    (m.unmapGo slot).map fun p => if p.2 then ((p.1.mapGo ok slot desc (.swap slot desc true)).getD p.1) else p.1
/-- DESC and SLOT hold what a command names. -/
def Board.begin (b : Board) (slot desc : Nat) (cmd : BoardCmd) : Board :=
  { b with slot := slot, desc := BitVec.ofNat 64 desc, command := some cmd, wants := [] }
/-- A store to COMMAND by an RV64 core starts a command; one by a core whose cluster OWNER does not name is ignored (R370). While
STATUS reads BUSY none is started. (log 10, DESIGN CHOICE) -/
def command (w : BoardStore) (desc : Nat) (cmd : BoardCmd) (s : State) : Host.Outcome State Fault Refusal :=
  event (fun m =>
    if 16 ≤ w.core ∨ 16 ≤ w.slot ∨ m.board.command.isSome then .no
    else if !Config.ownerNames m.board.owner (w.core / 4) then .ok m else
    let m : Mach := { m with board := m.board.begin w.slot desc cmd }
    .ok ((m.boardGo s.plat.sec.restores).getD m)) s
def execMap (slot : BoardStore) (desc : Nat) (s : State) : Host.Outcome State Fault Refusal :=
  command slot desc (.map slot.slot desc) s
def execUnmap (slot : BoardStore) (s : State) : Host.Outcome State Fault Refusal :=
  command slot s.mach.board.desc.toNat (.unmap slot.slot) s
/-- SWITCH: UNMAP, then MAP, as one command. -/
def execSwitchContext (slot : BoardStore) (desc : Nat) (s : State) : Host.Outcome State Fault Refusal :=
  command slot desc (.swap slot.slot desc false) s

/-! ## Registers, allotments and the end of a context -/

/-- A store to another switchboard register (R370): table words and PERIOD wait for the period boundary (R371).
(log 10, DESIGN CHOICE) -/
def Board.store (b : Board) (r : BoardReg) (v : Nat) : Board :=
  match r with
  | .desc => { b with desc := BitVec.ofNat 64 v }
  | .slot => { b with slot := v % 16 }
  | .owner => { b with owner := v % 2 }
  | .period => if 1 ≤ v ∧ v ≤ 1024 then { b with staged := mput b.staged 512 (BitVec.ofNat 32 v) } else b
  | .allotment e w => if e < 64 ∧ w < 6 then { b with staged := mput b.staged (e * 8 + w) (BitVec.ofNat 32 v) } else b
def execSwitchboardRegisterWrite (reg : BoardReg) (value : Nat) (s : State) : Host.Outcome State Fault Refusal :=
  event (fun m => .ok { m with board := m.board.store reg value }) s
/-- An allotment entry that was never written. (log 3, DESIGN CHOICE) -/
def Allotment.none : Allotment := ⟨List.replicate 5 0, false, false, 0, List.replicate 5 0⟩
/-- Write a word of an allotment entry (R324). -/
def Allotment.store (a : Allotment) (w : Nat) (v : Word) : Allotment :=
  if w < 5 then { a with budgets := a.budgets.set w v }
  else { a with valid := v.getLsbD 31, strict := v.getLsbD 30, prio := v.setWidth 8 }
/-- The period boundary (R324, R371): staged words and PERIOD take effect, and every entry's budgets reload.
(log 42, DESIGN CHOICE) -/
def Mach.periodTurn (m : Mach) : Mach :=
  let table := m.board.staged.foldl (fun (t : Map Allotment) p =>
    if p.1 = 512 then t else mput t (p.1 / 8) ((mgetD t (p.1 / 8) Allotment.none).store (p.1 % 8) p.2)) m.allot
  let period := ((mget m.board.staged 512).map (·.toNat)).getD m.board.period
  { m with
    allot := table.map fun p => (p.1, { p.2 with left := p.2.budgets })
    periodStart := m.timeNs
    board := { m.board with staged := [], period := period } }
def execAllotmentPeriodBoundary (s : State) : Host.Outcome State Fault Refusal :=
  event (fun m => if m.timeNs < m.periodStart + m.board.period * 1000 then .no else .ok m.periodTurn) s
/-- CONTEXT_END (R284, R359): a context that is halted in its save area goes: its pending waystations are aborted with
code 0xF1, its TLR table is freed. (log 61, DEDUCED) -/
def Mach.endContext (m : Mach) (asid : BitVec 16) : Ev :=
  let here := m.ctxOf asid
  let held := m.saved.any fun s => s.asid == asid
  let halted := match here with | some c => c.faulted | none => held
  if !halted then .no else
  let m := (m.ways.filter fun p => p.2.asid == asid).foldl (fun (m : Mach) p => m.abortFill p.1 0xF1) m
  .ok { m with
    ctxs := m.ctxs.filter fun p => p.2.asid != asid
    queues := m.queues.filter fun p => some p.2.slot != here.map (·.slot)
    saved := m.saved.filter fun s => s.asid != asid
    frames := m.frames.filter fun p => p.1 / 2 ^ 48 != asid.toNat
    consigns := m.consigns.filter fun d => d.asid != asid }
def execContextEnd (asid : BitVec 16) (s : State) : Host.Outcome State Fault Refusal := event (fun m => m.endContext asid) s

end Sys2Proof.Machine
end

