-- ==== Sys2Proof/Machine/LiveUpdate.lean ====
section
/-! DEFINITION. Live update of the front-end firmware: draining contexts, the update and its watchdog (R374), and the switchboard
command at hand (R370). -/

namespace Sys2Proof.Machine

/-! ## Draining (R374 step 3) -/

/-- A queue stands at a packet boundary or a wait step (R368). (log 47, DEDUCED) -/
def Queue.quiet (q : Queue) : Bool :=
  match q.stage with
  | .launched => false
  | .prologue => !q.running q.slot
  | _ => true
/-- The newest save area of an unmapped context holds pre-empted groups. -/
def Mach.undrained (m : Mach) (s : Saved) : Bool :=
  (m.ctxOf s.asid).isNone && !s.groups.isEmpty && (m.saved.find? fun t => t.asid == s.asid).map (·.id) == some s.id
/-- The slots of contexts that have been mapped for a drain. -/
def Mach.drainSlots (m : Mach) (tried : List (BitVec 16)) : List Nat := (m.ctxs.filter fun p => tried.contains p.2.asid).map (·.1)
/-- A context mapped for a drain has no group left, and its queues stand at packet boundaries. -/
def Mach.drained (m : Mach) (slot : Nat) : Bool :=
  (m.queues.all fun p => p.2.slot != slot || p.2.stopped || p.2.stage == .idle)
    && ((mget m.ctxs slot).all fun c => !m.groups.any fun g => g.2.asid == c.asid)
/-- What the front-end firmware does next in a drain: it unmaps a context that is drained, or maps one that is not, once.
(log 47, DEDUCED) -/
def State.drainStep (s : State) : Option State :=
  let m := s.mach
  match s.plat.sec.drain with
  | none => none
  | some (t, tried) =>
    match (m.drainSlots tried).find? m.drained with
    | some slot => (m.unmapGo slot).map fun p => { s with mach := p.1 }
    | none =>
      if m.board.command.isSome then none else
      match m.saved.find? (fun x => m.undrained x && !tried.contains x.asid), (List.range 16).find? fun i => (mget m.ctxs i).isNone with
      | some x, some slot =>
        let m : Mach := { m with board := m.board.begin slot x.desc (.map slot x.desc) }
        some ({ s with mach := (m.boardGo s.plat.sec.restores).getD m }.withSec { s.plat.sec with drain := some (t, x.asid :: tried) })
      | _, _ => none
/-- The switchboard command at hand goes on, or a drain does: none where neither can. -/
def State.boardStep (s : State) : Option State :=
  match s.mach.boardGo s.plat.sec.restores with
  | some m => some { s with mach := m }
  | none => s.drainStep
/-- A drain begins no packet, and leaves the wait steps of contexts that were mapped before it as they are (R374 step 2). -/
def State.drainHolds (s : State) (i : Instr) : Bool :=
  match s.plat.sec.drain with
  | none => false
  | some (_, tried) =>
    let other (n : Nat) : Bool := !((mget s.mach.queues n).any fun q => (s.mach.drainSlots tried).contains q.slot)
    (match i with
    | .packetNop _ | .launch _ | .write _ | .signal _ | .wait _ | .writeSignal _ | .packetPfence _ | .groveInv _ => true
    | .heldLaunchResume n | .prologueRun n | .waitSatisfied n => other n
    | _ => false)

/-! ## The update and its watchdog (R374) -/

/-- A drain has taken too long: the contexts mapped for it are unmapped again, and the update stays pending. -/
def State.drainFails (s : State) (tried : List (BitVec 16)) : State :=
  let m := (s.mach.drainSlots tried).foldl (fun (m : Mach) slot => ((m.finishRuns slot).1.unmapCtx slot).getD m) s.mach
  let mine := match m.board.command with
    | some (.map _ desc) => m.saved.any fun x => x.desc == desc && tried.contains x.asid
    | _ => false
  { s with mach := if mine then m.boardEnd m.board.status else m }.withSec { s.plat.sec with pending := true, drain := none }
/-- The new image runs, and the watchdog starts, where it passes its check and accepts what the running image hands over; else the
update is refused (R374 steps 4 and 5). (log 47, DEDUCED) -/
def State.replaceImage (s : State) (old : Nat) (image : List Byte) : State :=
  let x : Sec := { s.plat.sec with pending := false, drain := none }
  if !((x.flash[1 - old]?).any (·.valid)) || !x.accepts image || fwHandover image != fwHandover (x.slotBytes old) then s.withSec x
  else s.withSec { x with runFront := some (1 - old), update := some (old, s.mach.timeNs) }
/-- LIVE_UPDATE of the front-end firmware, whose image the idle slot holds already (R374 step 1), once the queues are quiet (step 2).
Where the new image cannot restore the save areas of contexts that still hold pre-empted groups, those are drained first (step 3),
for at most 20 ms. (log 47, DEDUCED) -/
def State.liveUpdate (s : State) (image : List Byte) : Option State :=
  let x := s.plat.sec
  match x.runFront with
  | none => none
  | some old =>
    if decide (1 < old) || x.update.isSome || fwWhole (x.slotBytes (1 - old)) != fwWhole image then none else
    let left := fwLayouts image / 16 % 2 == 0 && s.mach.saved.any s.mach.undrained
    let quiet := s.mach.queues.all fun p => p.2.quiet
    match x.drain with
    | none =>
      if !quiet then none
      else if left then some (s.withSec { x with pending := false, drain := some (s.mach.timeNs, []) })
      else some (s.replaceImage old image)
    | some (t, tried) =>
      if left || !(s.mach.drainSlots tried).isEmpty then
        (if s.mach.timeNs < t + 20000000 then none else some (s.drainFails tried))
      else if quiet then some (s.replaceImage old image) else none
def execLiveUpdate (image : List Byte) (s : State) : Host.Outcome State Fault Refusal := platform (fun s => s.liveUpdate image) s
/-- The image that a drain at hand is for. -/
def Sec.newImage (x : Sec) : List Byte := fwWhole (x.slotBytes (1 - x.runFront.getD 0))
/-- The first heartbeat of the new image ends the update (R374 step 5). -/
def State.heartbeat (s : State) : State := s.withSec { s.plat.sec with update := none }
/-- WATCHDOG_EXPIRY: no heartbeat within 50 ms, so the old slot runs again; the queues go on from the state handed over.
(log 47, DEDUCED) -/
def State.watchdog (s : State) : Option State :=
  match s.plat.sec.update with
  | none => none
  | some (old, t) =>
    if s.mach.timeNs < t + 50000000 then none
    else some (s.withSec { s.plat.sec with runFront := some old, update := none })
def execWatchdogExpiry (s : State) : Host.Outcome State Fault Refusal := platform State.watchdog s

end Sys2Proof.Machine
end

