-- ==== Sys2Proof/Machine/Matrix.lean ====
section
/-! DEFINITION. Row 0xD, the matrix engine (R278 to R281, R294 to R301), and the events that release and execute its
commands. -/

namespace Sys2Proof.Machine

/-! ## Issue (R295) -/

/-- Rows and columns of the accumulator region of a command. -/
def MxCmd.region (c : MxCmd) : Nat × Nat :=
  match c.op with
  | .mul acc => if c.k = 0 ∧ acc then (0, 0) else (c.m, c.n)
  | .rd _ | .lda _ | .zero => (c.m, c.n)
  | _ => (0, 0)
/-- The region stays within the accumulators. -/
def MxCmd.regionOk (c : MxCmd) : Bool :=
  let (m, n) := c.region
  m == 0 || n == 0 || decide (c.e + 32 * (m - 1) + n - 1 ≤ 65535)
/-- The descriptor's fields: pitch, N, K; the ones a row does not name must be zero. -/
def descOk (b : Nat) (pitch n k : Bool) : Bool :=
  b / 2 ^ 28 == 0 && (pitch || b % 2 ^ 16 == 0) && (n || b / 2 ^ 16 % 64 == 0) && (k || b / 2 ^ 22 % 64 == 0)
    && decide (b / 2 ^ 16 % 64 ≤ 32 ∧ b / 2 ^ 22 % 64 ≤ 32)
/-- A command of an operand set, before its gate and token. -/
def Env.mxCmd (e : Env) (x : AsyncOp) (op : MxOp) (hasA hasE : Bool) (b : Nat) : MxCmd :=
  { id := e.m.nextId, gid := e.iss.gid, wave := e.iss.wave, op := op
    a := if hasA then (e.get e.first x.a).toNat else 0
    pitch := b % 2 ^ 16, n := b / 2 ^ 16 % 64, k := b / 2 ^ 22 % 64
    e := if hasE then (e.get e.first x.e).toNat else 0, m := x.imm8b.toNat, swz := x.spec.toNat / 4 % 4
    gate := none, tok := none, wb := if x.wbe then some x.wbslot.toNat else none
    name := e.g.nameOf e.iss.wave e.first, issued := e.clk, next := 0, waited := false, lost := false, raced := false }
/-- Push a command: TOKEN_REUSE, QUOTA, and then the queue. -/
def Env.mxPush (e : Env) (c : MxCmd) : Eff :=
  if (match c.tok with | some t => e.w.toks.contains t | none => false) then e.failAll Code.tokenReuse (c.tok.getD 0) 0
  else if !e.m.quotaOk e.asid (416 + e.core) 1 then e.failAll Code.quota 4 0
  else
    let m := match c.tok with
      | some t => e.upd e.m fun w => w.takeToken t
      | none => e.m
    let c := { c with raced := e.w.unfenced c.reads }
    .done ({ m with nextId := m.nextId + 1 }.push e.asid (416 + e.core) (.mx c)) e.lanes
/-- The checks of an L-format command in the order of R295, and its push. -/
def Env.mxIssue (e : Env) (x : AsyncOp) (op : MxOp) (hasA hasE pitch n k : Bool) : Eff :=
  let b := (e.getSrc32 e.first x.b).toNat
  let c := e.mxCmd x op hasA hasE b
  let span := swzSpan c.swz
  if !descOk b pitch n k || c.pitch % 16 != 0 || (span != 0 && (c.pitch % span != 0 || c.a % span != 0)) || !c.regionOk
  then e.failAll Code.illegalOperand 0 0
  else if c.a % 16 ≠ 0 then e.failAll Code.align 0 c.a
  else match (c.reads ++ c.writes).find? fun r => decide (e.g.grant < r.1 + r.2) with
    | some r => e.failAll Code.perm 0 r.1
    | none =>
      match e.gateOf x with
      | none => e.failAll Code.illegalOperand 0 0
      | some gate =>
        e.mxPush { c with gate := gate, tok := if x.spec.getLsbD 0 then some x.compl.idx.toNat else none }
def execMxlds (x : AsyncOp) (s : State) : Host.Outcome State Fault Refusal :=
  perform (.mxlds x) x.ctl (fun e => e.once fun e => e.mxIssue x (.lds (x.spec.getLsbD 1)) true false true false false) s
def execMxmul (x : AsyncOp) (s : State) : Host.Outcome State Fault Refusal :=
  perform (.mxmul x) x.ctl (fun e => e.once fun e => e.mxIssue x (.mul (x.spec.getLsbD 1)) true true true true true) s
def execMxrd (x : AsyncOp) (s : State) : Host.Outcome State Fault Refusal :=
  perform (.mxrd x) x.ctl (fun e => e.once fun e => e.mxIssue x (.rd (x.spec.getLsbD 1)) true true true true false) s
def execMxzero (x : AsyncOp) (s : State) : Host.Outcome State Fault Refusal :=
  perform (.mxzero x) x.ctl (fun e => e.once fun e => e.mxIssue x .zero false true false true false) s
def execMxlda (x : AsyncOp) (s : State) : Host.Outcome State Fault Refusal :=
  perform (.mxlda x) x.ctl (fun e => e.once fun e => e.mxIssue x (.lda (x.spec.getLsbD 1)) true true true true false) s
/-- A command without operands. -/
def Env.mxBare (e : Env) (op : MxOp) (tok : Option Nat) : MxCmd :=
  { id := e.m.nextId, gid := e.iss.gid, wave := e.iss.wave, op := op, a := 0, pitch := 0, n := 0, k := 0, e := 0, m := 0
    swz := 0, gate := none, tok := tok, wb := none, name := e.g.nameOf e.iss.wave e.first, issued := e.clk, next := 0
    waited := false, lost := false, raced := false }
def execMxswp (x : PlainOp) (s : State) : Host.Outcome State Fault Refusal :=
  perform (.mxswp x) x.ctl (fun e => e.once fun e => e.mxPush (e.mxBare .swp none)) s
/-- MXTOK (R300). -/
def execMxtok (x : MxtokOp) (s : State) : Host.Outcome State Fault Refusal :=
  perform (.mxtok x) x.ctl (fun e => e.once fun e => e.mxPush (e.mxBare .tok (some x.d.idx.toNat))) s
/-- OPFENCE (R299): the wave's scratchpad writes have taken effect when it issues. -/
def execOpfence (x : PlainOp) (s : State) : Host.Outcome State Fault Refusal :=
  perform (.opfence x) x.ctl (fun e => e.once fun e =>
    .done (e.upd e.m fun w => { w with stsSince := [] }) e.lanes) s

/-! ## Execution (R296 to R300) -/

/-- Bytes of row r of a command from scratchpad. -/
def Mach.mxRow (m : Mach) (g : Group) (c : MxCmd) (r : Nat) : Mach × List Byte :=
  (List.range ((c.rowBytes + 15) / 16)).foldl (fun (a : Mach × List Byte) j =>
    let (m, bs) := a.1.cmdRead g c.raced (c.place r (16 * j)) (min 16 (c.rowBytes - 16 * j))
    (m, a.2 ++ bs)) (m, [])
/-- MXLDS: row i into the shadow plane (R296). -/
def Mach.mxLoad (m : Mach) (core : Nat) (g : Group) (c : MxCmd) (tr : Bool) : Mach :=
  (List.range 32).foldl (fun (m : Mach) i =>
    let (m, bs) := m.mxRow g c i
    m.updCore core fun k => { k with shadow := (List.range 32).foldl (fun s j =>
      mput s (if tr then 32 * j + i else 32 * i + j) (BitVec.ofNat 16 (fieldAt bs (2 * j) 2))) k.shadow }) m
/-- Accumulator index of row m, column n. -/
def MxCmd.acc (c : MxCmd) (m n : Nat) : Nat := c.e + 32 * m + n
/-- MXMUL: one activation row (R297, R102). -/
def Mach.mxMulRow (m : Mach) (core : Nat) (g : Group) (c : MxCmd) (anew : Bool) (r : Nat) : Mach :=
  let (m, bs) := m.mxRow g c r
  m.updCore core fun k => { k with acc := (List.range c.n).foldl (fun acc n =>
    let old := if anew then 0 else (mgetD acc (c.acc r n) 0).toNat
    let ps := (List.range c.k).map fun j => (fieldAt bs (2 * j) 2, (mgetD k.active (32 * j + n) 0).toNat)
    mput acc (c.acc r n) (BitVec.ofNat 32 (if c.k = 0 then 0 else mxSum old ps))) k.acc }
/-- MXRD: one row out (R298): whether a live word was met, and its first sector. -/
def Mach.mxReadRow (m : Mach) (core : Nat) (g : Group) (c : MxCmd) (bf : Bool) (r : Nat) : Mach × Option Nat :=
  let acc := (m.core core).acc
  let bs := (List.range c.n).flatMap fun n =>
    let v := (mgetD acc (c.acc r n) 0).toNat
    if bf then leBytes 2 ((fp32.val v).round bf16 .rn).bits else leBytes 4 v
  let (m, bs) := if c.raced then m.freeBytes bs.length else (m, bs)
  (List.range ((bs.length + 15) / 16)).foldl (fun (a : Mach × Option Nat) j =>
    let off := c.place r (16 * j)
    let (ws, hit) := g.unclobbered off ((bs.drop (16 * j)).take 16)
    (a.1.spadPut g ws, if hit then some (match a.2 with
      | some k => min k ((off - c.a) / 32)
      | none => (off - c.a) / 32) else a.2)) (m, none)
/-- MXLDA: one row in. -/
def Mach.mxLoadAccRow (m : Mach) (core : Nat) (g : Group) (c : MxCmd) (bf : Bool) (r : Nat) : Mach :=
  let (m, bs) := m.mxRow g c r
  m.updCore core fun k => { k with acc := (List.range c.n).foldl (fun acc n =>
    mput acc (c.acc r n) (BitVec.ofNat 32 (if bf then fieldAt bs (2 * n) 2 * 2 ^ 16 else fieldAt bs (4 * n) 4))) k.acc }
/-- The effect of a command on planes, accumulators and scratchpad, and the sector of a suppressed write. -/
def Mach.mxRun (m : Mach) (core : Nat) (g : Group) (c : MxCmd) : Mach × Option Nat :=
  match c.op with
  | .lds tr => (m.mxLoad core g c tr, none)
  | .swp => (m.updCore core fun k => { k with active := k.shadow, shadow := k.active }, none)
  | .mul acc =>
    if c.n = 0 ∨ (c.k = 0 ∧ acc) then (m, none)
    else ((List.range c.m).foldl (fun m r => m.mxMulRow core g c (!acc) r) m, none)
  | .rd bf => (List.range c.m).foldl (fun (a : Mach × Option Nat) r =>
      let (m, hit) := a.1.mxReadRow core g c bf r
      (m, match a.2, hit with
        | some x, some y => some (min x y)
        | some x, none => some x
        | none, y => y)) (m, none)
  | .zero => (m.updCore core fun k => { k with acc := (List.range c.m).foldl (fun acc r =>
      (List.range c.n).foldl (fun acc n => mput acc (c.acc r n) 0) acc) k.acc }, none)
  | .lda bf => ((List.range c.m).foldl (fun m r => m.mxLoadAccRow core g c bf r) m, none)
  | .tok => (m, none)
/-- MATRIX_COMMAND_EXECUTE (R294, R300): the head command, whole. A clobbered word comes before a lost gate in its status
(log 35, DEDUCED); a command without a gate stamps WAIT as it starts (log 89, DESIGN CHOICE). -/
def Mach.mxExecute (m : Mach) (core : Nat) : Ev :=
  match (m.core core).mxQ with
  | [] => .no
  | c :: rest =>
    if c.gate.isSome then .no else
    match m.group c.gid with
    | none => .no
    | some g =>
      let m := if c.waited then m else m.stampIf core g.asid c.wb .wait c.issued c.name false
      let (m, hit) := m.mxRun core g c
      let m := m.updCore core fun k => { k with mxQ := rest }
      let own : Word := match hit with
        | some k => statusOf Code.barrierClobber k
        | none => if c.lost then statusOf Code.barrierCount 0 else 0
      let m := m.count core g.asid 0x000B 1
      let m := match c.op with | .mul _ => m.count core g.asid 0x000C c.m | _ => m
      let m := m.stampIf core g.asid c.wb .comp c.issued c.name (own != 0)
      let (m, status) : Mach × Word := match c.op with
        | .tok => (m.updGroup c.gid fun g => { g with mxStatus := 0 }, g.mxStatus)
        | _ => (m.updGroup c.gid fun g => { g with mxStatus := if g.mxStatus == 0 then own else g.mxStatus }, own)
      let m := match c.tok with
        | some t => m.putToken c.gid c.wave t status
        | none => m
      .ok (m.endWave c.gid c.wave)
/-- MATRIX_COMMAND_EXECUTE (R295): a command is one step. (log 18, DESIGN CHOICE) -/
def execMatrixCommandExecute (core : Nat) (s : State) : Host.Outcome State Fault Refusal :=
  event (fun m => m.mxExecute core) s
/-- GATED_COMMAND_RELEASE (R280, R281): the gate of the Porter request at an index, or of the matrix head, is open. -/
def Mach.gateRelease (m : Mach) (matrix : Bool) (core n : Nat) : Ev :=
  if matrix then
    match (m.core core).mxQ with
    | c :: rest =>
      (match c.gate, m.group c.gid with
      | some q, some g =>
        if !m.gateOpen c.gid (some q) then .no else
        let m := m.stampIf core g.asid c.wb .wait c.issued c.name false
        .ok (m.updCore core fun k => { k with mxQ := { c with gate := none, lost := q.gone, waited := true } :: rest })
      | _, _ => .no)
    | [] => .no
  else
    match (m.core core).porterQ[n]? with
    | some c =>
      (match c.gate with
      | some q => if m.gateOpen c.gid (some q) then .ok (m.setPorter core { c with gate := none, lost := q.gone }) else .no
      | none => .no)
    | none => .no
def execGatedCommandRelease (matrix : Bool) (core n : Nat) (s : State) : Host.Outcome State Fault Refusal :=
  event (fun m => m.gateRelease matrix core n) s

end Sys2Proof.Machine
end

