-- ==== Sys2Proof/Machine/Power.lean ====
section
/-! DEFINITION. Resets (R380, R390, R395), power states and gating (R396), and the arithmetic clock (R397). -/

namespace Sys2Proof.Machine

/-! ## Resets (R395) -/

/-- The machine proper after a cold reset: everything reset, memory contents and error logs lost. Fuses stay, and free
values are not taken twice (log 4, DESIGN CHOICE). (log 2, DESIGN CHOICE; log 11, DESIGN CHOICE; log 44, DEDUCED) -/
def Mach.cold (m : Mach) : Mach :=
  { Mach.reset with fresh := m.fresh, rel := { Rel.reset with hard := m.rel.hard } }
/-- After a warm reset (R380): stacked memory and the logs are retained, every channel trains; what a save area or frame
store in memory stands for stays with it (log 16, DESIGN CHOICE). (log 11, DESIGN CHOICE; log 44, DEDUCED) -/
def Mach.warm (m : Mach) : Mach :=
  { Mach.reset with
    fresh := m.fresh, mem := m.mem, frames := m.frames, saved := m.saved
    nextGid := m.nextGid, nextLaunch := m.nextLaunch, nextSerial := m.nextSerial, nextId := m.nextId
    rel := { Rel.reset with
      arrayLogs := m.rel.arrayLogs, busLogs := m.rel.busLogs, gddrLog := m.rel.gddrLog, hard := m.rel.hard, flips := m.rel.flips, bad := m.rel.bad } }
/-- The host side after a cold reset: straps are sampled, windows and the board's settings are reset; host memory, fuses and
lists stay. -/
def HostSide.cold (h : HostSide) : HostSide :=
  { HostSide.reset with
    hostMode := h.hostMode, progen := h.progen, progenLatched := h.progen, ringHead := h.ringHead, memory := h.memory
    fuseVolt := h.fuseVolt, fuseAmp := h.fuseAmp, i2c := h.i2c }
/-- SR_TIME starts over: what is left of the time to the next erase stays (R393). -/
def Sec.restarted (x : Sec) (now : Nat) : Sec := { x with eraseReady := x.eraseReady - now }
def State.cold (s : State) : State :=
  { s with
    mach := s.mach.cold
    plat := { sec := (s.plat.sec.restarted s.mach.timeNs).boot, host := s.plat.host.cold, outputs := List.replicate 4 Output.reset,
              power := .d0 } }.locked
/-- COLD_RESET: power-on, or the exit from D3cold. -/
def execColdReset (s : State) : Host.Outcome State Fault Refusal := platform (fun s => some s.cold) s
/-- A warm reset keeps THERMTRIP and what the host and the board hold. -/
def State.warm (s : State) : State :=
  { s with
    mach := s.mach.warm
    plat := { s.plat with
      sec := (s.plat.sec.restarted s.mach.timeNs).boot
      host := { s.plat.host with rate := 0, rateUs := 0, msix := [] }
      power := .d0 } }.locked
/-- WARM_RESET: FLR, a Tchiavo command or the watchdog; a device without power cannot take one. -/
def execWarmReset (s : State) : Host.Outcome State Fault Refusal :=
  platform (fun s => if s.plat.power == .d3cold then none else some s.warm) s

/-! ## Device power (R396) -/

/-- D3HOT: every Farom and RV64 clock stops. -/
def execD3hot (s : State) : Host.Outcome State Fault Refusal :=
  platform (fun s => if s.plat.power == .d0 then some { s with plat := { s.plat with power := .d3hot } } else none) s
/-- D3HOT_EXIT: the clocks start again. -/
def execD3hotExit (s : State) : Host.Outcome State Fault Refusal :=
  platform (fun s => if s.plat.power == .d3hot then some { s with plat := { s.plat with power := .d0 } } else none) s
/-- D3COLD removes power: what only power holds is lost. (log 44, DEDUCED) -/
def execD3cold (s : State) : Host.Outcome State Fault Refusal :=
  platform (fun s => some { s with
    mach := s.mach.cold, plat := { s.plat with sec := s.plat.sec.restarted s.mach.timeNs, power := .d3cold } }) s

/-! ## Gating and the clock (R396, R397) -/

/-- CLOCK_GATE: 1 µs, mhz clks, without an issuing wave. (log 9, DESIGN CHOICE) -/
def execClockGate (core : Nat) (s : State) : Host.Outcome State Fault Refusal :=
  event (fun m =>
    let k := m.core core
    if core < 128 ∧ k.power = .on ∧ k.lastIssue + m.mhz ≤ m.clk then .ok (m.setCore core { k with power := .clockGated }) else .no) s
/-- POWER_GATE: 100 µs without a resident group. (log 9, DESIGN CHOICE) -/
def execPowerGate (core : Nat) (s : State) : Host.Outcome State Fault Refusal :=
  event (fun m =>
    let k := m.core core
    if core < 128 ∧ k.power ≠ .powerGated ∧ m.resident core = [] ∧ k.lastResident + 100 * m.mhz ≤ m.clk
    then .ok (m.setCore core { k with power := .powerGated }) else .no) s
/-- CLOCK_FREQUENCY_CHANGE: steps of 100 MHz from 2300 down to 800. -/
def execClockFrequencyChange (mhz : Nat) (s : State) : Host.Outcome State Fault Refusal :=
  event (fun m => if 800 ≤ mhz ∧ mhz ≤ 2300 ∧ mhz % 100 = 0 then .ok { m with mhz := mhz } else .no) s

end Sys2Proof.Machine
end

