-- ==== Sys2Proof/Machine/Rays.lean ====
section
/-! DEFINITION. The ray engine's geometry, exact: boxes (R303, R306), triangles (R305), beams and cones (R310, R311). -/

namespace Sys2Proof.Machine

/-! ## Exact numbers -/

/-- A finite FP32 value in units of 2^-149. -/
def fx (x : Word) : Int := (f32 x).over (-149)
/-- The unit as a number. -/
def fxUnit : Int := 2 ^ 149
/-- The value is finite. -/
def finite (x : Word) : Bool :=
  match f32 x with
  | .fin _ _ _ => true
  | _ => false
/-- A number that orders FP32 patterns other than NaN as their values, both zeros alike. -/
def fkey (x : Word) : Int := if x.toNat < 2 ^ 31 then x.toNat else -((x.toNat - 2 ^ 31 : Nat) : Int)
/-- Round n / d, d positive. -/
def rndQ (f : FFmt) (rm : Rm) (n : Int) (d : Nat) : Word := BitVec.ofNat 32 (roundRat f rm (decide (n < 0)) n.natAbs d).bits
/-- Round n / d for a nonzero d of either sign. -/
def rndDiv (f : FFmt) (rm : Rm) (n d : Int) : Word := if d < 0 then rndQ f rm (-n) d.natAbs else rndQ f rm n d.natAbs
def dot3 (a b : List Int) : Int := ((List.range 3).map fun i => a.getD i 0 * b.getD i 0).foldl (· + ·) 0
def sub3 (a b : List Int) : List Int := (List.range 3).map fun i => a.getD i 0 - b.getD i 0
def cross3 (a b : List Int) : List Int :=
  let x (i : Nat) := a.getD i 0
  let y (i : Nat) := b.getD i 0
  [x 1 * y 2 - x 2 * y 1, x 2 * y 0 - x 0 * y 2, x 0 * y 1 - x 1 * y 0]
/-- Three FP32 words at an offset. -/
def vec3 (bs : List Byte) (off : Nat) : List Word := (List.range 3).map fun i => BitVec.ofNat 32 (fieldAt bs (off + 4 * i) 4)

/-! ## Records (R302 to R304) -/

/-- A node: its box, child codes and references; none where it is malformed. -/
structure Node where
  box : Box
  q : List (List Nat)
  refs : List Word
def Node.ofBytes (bs : List Byte) : Option Node :=
  let box : Box := ⟨vec3 bs 0, vec3 bs 12⟩
  let refs : List Word := (List.range 4).map fun c => BitVec.ofNat 32 (fieldAt bs (48 + 4 * c) 4)
  if !(box.lo ++ box.hi).all finite || refs.any (fun r => r.toNat / 2 ^ 30 == 3) then none
  else some ⟨box, (List.range 4).map fun c => (List.range 6).map fun i => (bs.getD (24 + 6 * c + i) 0).toNat, refs⟩
/-- The box of a child (R303). -/
def Node.child (n : Node) (c : Nat) : Box :=
  let q := n.q.getD c []
  let ext (a : Nat) : Word := rndQ fp32 .ru (fx (n.box.hi.getD a 0) - fx (n.box.lo.getD a 0)) (255 * 2 ^ 149)
  let at' (rm : Rm) (a k : Nat) : Word :=
    BitVec.ofNat 32 (fFma fp32 rm (roundRat fp32 .rn false (q.getD k 0) 1).bits (ext a).toNat (n.box.lo.getD a 0).toNat).bits
  ⟨(List.range 3).map fun a => at' .rd a a, (List.range 3).map fun a => at' .ru a (3 + a)⟩
/-- σ of an axis direction (R306): the comparison is numeric. -/
def sigma (d : Word) : Int := if fkey d < 0 then -1 else 1
/-- Nonempty children in ascending key, lower slots first among equals (R306). -/
def Node.kids (n : Node) (axis : List Word) : List (Word × Box) :=
  let key (c : Nat) : Int := let q := n.q.getD c []
    ((List.range 3).map fun a => sigma (axis.getD a 0) * ((q.getD a 0 + q.getD (3 + a) 0 : Nat) : Int)).foldl (· + ·) 0
  let cs := (List.range 4).filter fun c => (n.refs.getD c 0).toNat / 2 ^ 30 != 0
  (sortOn (fun c => (key c + 2000).toNat) cs).map fun c => (n.refs.getD c 0, n.child c)
/-- A leaf's header: its box, PRIMBASE and COUNT; none where it is malformed. -/
def leafHeader (bs : List Byte) : Option (Box × Nat × Nat) :=
  let w := fieldAt bs 28 4
  if w / 16 ≠ 0 ∨ w % 16 = 0 ∨ 8 < w % 16 then none
  else some (⟨vec3 bs 0, vec3 bs 12⟩, fieldAt bs 24 4, w % 16)

/-! ## One ray (R305, R306) -/

/-- A quotient (c − o) / d rounded, where c may be infinite and d may be. -/
def boxQuot (rm : Rm) (c o d : Word) : Word :=
  match f32 c, f32 d with
  | .inf s, .fin t _ _ => BitVec.ofNat 32 (fp32.infBits + fp32.sign (s != t))
  | .fin _ _ _, .fin _ _ _ => rndDiv fp32 rm (fx c - fx o) (fx d)
  | _, _ => 0
/-- Smaller and larger of two patterns by value. -/
def fmin2 (a b : Word) : Word := if fkey b < fkey a then b else a
def fmax2 (a b : Word) : Word := if fkey a < fkey b then b else a
/-- A box is missed by every ray (R303). -/
def Box.hollow (b : Box) : Bool := (List.range 3).any fun a => decide (fkey (b.hi.getD a 0) < fkey (b.lo.getD a 0))
/-- A corner of the box is not a number. (log 81, DESIGN CHOICE) -/
def Box.vague (b : Box) : Bool := (b.lo ++ b.hi).any fun v => (f32 v).isNan
/-- What is known of a box: an axis with a corner that is not a number bounds nothing. (log 81, DESIGN CHOICE) -/
def Box.known (b : Box) : Box :=
  if !b.vague then b else
  let nan (a : Nat) : Bool := (f32 (b.lo.getD a 0)).isNan || (f32 (b.hi.getD a 0)).isNan
  ⟨(List.range 3).map fun a => if nan a then 0xFF800000 else b.lo.getD a 0,
    (List.range 3).map fun a => if nan a then 0x7F800000 else b.hi.getD a 0⟩
/-- One ray against a box up to a bound (R306). -/
def Box.hitBy (b : Box) (o d : List Word) (tmin bound : Word) : Bool :=
  if b.hollow then false else
  let axes := (List.range 3).map fun a =>
    let lo := b.lo.getD a 0
    let hi := b.hi.getD a 0
    let oa := o.getD a 0
    let da := d.getD a 0
    if fx da = 0 then (if fkey lo ≤ fkey oa ∧ fkey oa ≤ fkey hi then some none else none)
    else some (some (fmin2 (boxQuot .rd lo oa da) (boxQuot .rd hi oa da), fmax2 (boxQuot .ru lo oa da) (boxQuot .ru hi oa da)))
  if axes.any (·.isNone) then false else
  let es := axes.filterMap fun x => x.getD none
  decide (fkey (es.foldl (fun m e => fmax2 m e.1) tmin) ≤ fkey (es.foldl (fun m e => fmin2 m e.2) bound))
/-- A candidate: tc, primitive id, u in [15:0] and v in [31:16], back face. -/
abbrev Cand := Word × Word × Word × Bool
/-- One triangle decided exactly (R305). -/
def triangle (vs : List (List Word)) (prim : Word) (o d : List Word) (tmin tmax : Word) (cullB cullF : Bool) : Option Cand :=
  if !(vs.all fun v => v.all finite) then none else
  let p (l : List Word) : List Int := l.map fx
  let v0 := p (vs.getD 0 [])
  let e1 := sub3 (p (vs.getD 1 [])) v0
  let e2 := sub3 (p (vs.getD 2 [])) v0
  let dd := p d
  let n := dot3 (cross3 e1 e2) dd
  if n = 0 then none else
  -- with T = o − V0: u, v and t over the determinant −n
  let tt := sub3 (p o) v0
  let pv := cross3 dd e2
  let qv := cross3 tt e1
  let det := -n
  let s : Int := if det < 0 then -1 else 1
  let un := s * dot3 tt pv
  let vn := s * dot3 dd qv
  let tn := s * dot3 e2 qv
  let den := det.natAbs
  if un < 0 ∨ vn < 0 ∨ (den : Int) < un + vn then none else
  let tc := rndQ fp32 .rn tn den
  let back := decide (0 < n)
  if fkey tc < fkey tmin ∨ fkey tmax < fkey tc then none
  else if (back && cullB) || (!back && cullF) then none
  else some (tc, prim, BitVec.ofNat 32 ((roundRat bf16 .rn false un.natAbs den).bits + (roundRat bf16 .rn false vn.natAbs den).bits * 2 ^ 16), back)
/-- Candidates are ordered by (tc, primitive id). -/
def Cand.better (a b : Cand) : Bool := decide (fkey a.1 < fkey b.1) || (fkey a.1 == fkey b.1 && decide (a.2.1.toNat < b.2.1.toNat))
/-- The better of a candidate and the best so far. -/
def bestOf (b : Option Cand) (c : Option Cand) : Option Cand :=
  match b, c with
  | some x, some y => if y.better x then some y else some x
  | none, y => y
  | x, none => x
/-- Triangle k of a leaf's bytes from TRI0 on. -/
def triAt (bs : List Byte) (k : Nat) : List (List Word) := (List.range 3).map fun v => vec3 bs (36 * k + 12 * v)

/-! ## Beams (R309 to R311) -/

/-- Read a beam record; `bad` where R316 ends the query at once, the cone's directions apart. -/
def BeamRec.ofBytes (bs : List Byte) : BeamRec :=
  let w := fieldAt bs 12 4
  let r := fieldAt bs 112 4
  let word (k : Nat) : Word := BitVec.ofNat 32 (fieldAt bs k 4)
  let b : BeamRec :=
    { apex := vec3 bs 0, kind := w % 4, nowait := w / 16 % 2 == 1, cullf := w / 8 % 2 == 1, cullb := w / 4 % 2 == 1
      w := w / 2 ^ 16 % 256 + 1, h := w / 2 ^ 24 + 1
      corners := [vec3 bs 16, vec3 bs 28, vec3 bs 40, vec3 bs 52], axis := vec3 bs 64, tanh := word 76
      tmin := word 80, tmax := word 84, root := fieldAt bs 88 8, result := fieldAt bs 96 8, cont := BitVec.ofNat 64 (fieldAt bs 104 8)
      rect := ⟨r % 256, r / 2 ^ 8 % 256, r / 2 ^ 16 % 256, r / 2 ^ 24⟩, start := word 116, arg := BitVec.ofNat 64 (fieldAt bs 120 8)
      bad := false }
  let zero (x : Word) : Bool := (f32 x).isZero
  { b with bad := w / 32 % 2 ^ 11 != 0 || decide (1 < b.kind) || !(b.apex ++ b.corners.flatten ++ b.axis).all finite
      || !finite b.tmin || !finite b.tmax || decide (fkey b.tmin < 0) || decide (fkey b.tmax < fkey b.tmin)
      || b.cont.toNat % 8 != 0 || b.root % 64 != 0 || b.result % 8 != 0
      || !decide (b.rect.x0 ≤ b.rect.x1 ∧ b.rect.x1 < b.w ∧ b.rect.y0 ≤ b.rect.y1 ∧ b.rect.y1 < b.h)
      || (b.kind == 0 && !(b.axis.all zero && zero b.tanh))
      || (b.kind == 1 && (b.axis.all zero || !finite b.tanh || decide (fkey b.tanh ≤ 0))) }
/-- Steps of R310: r of a grid extent, and s or t of an index. -/
def recipOf (n : Nat) : Nat := (roundRat fp32 .rn false 1 (2 * n)).bits
def gridAt (n i : Nat) : Nat := (fMul fp32 .rn (roundRat fp32 .rn false (2 * i + 1) 1).bits (recipOf n)).bits
/-- Component a of corner c. -/
def BeamRec.corner (b : BeamRec) (c a : Nat) : Nat := ((b.corners.getD c []).getD a 0).toNat
/-- Direction of ray (i, j) (R310). -/
def BeamRec.dir (b : BeamRec) (i j : Nat) : List Word :=
  let s := gridAt b.w i
  let t := gridAt b.h j
  (List.range 3).map fun a =>
    let top := (fFma fp32 .rn (fSub fp32 .rn (b.corner 1 a) (b.corner 0 a)).bits s (b.corner 0 a)).bits
    let bot := (fFma fp32 .rn (fSub fp32 .rn (b.corner 3 a) (b.corner 2 a)).bits s (b.corner 2 a)).bits
    BitVec.ofNat 32 (fFma fp32 .rn (fSub fp32 .rn bot top).bits t top).bits
/-- The axis of a beam's keys (R313). -/
def BeamRec.keyAxis (b : BeamRec) : List Word :=
  if b.kind = 1 then b.axis else
  (List.range 3).map fun a =>
    BitVec.ofNat 32 (fAdd fp32 .rn (fAdd fp32 .rn (fAdd fp32 .rn (b.corner 0 a) (b.corner 1 a)).bits (b.corner 2 a)).bits (b.corner 3 a)).bits
/-- Least exact value rounded RD and greatest rounded RU of a list; the whole line where one is not a number. -/
def spanOf (vs : List FV) : Nat × Nat :=
  let inf := fp32.infBits
  if vs.any (·.isNan) || vs.isEmpty then (inf + 2 ^ 31, inf) else
  let le (a b : FV) : Bool := match a.cmp b with | some d => decide (d ≤ 0) | none => false
  let lo := vs.foldl (fun m v => if le v m then v else m) (.inf false)
  let hi := vs.foldl (fun m v => if le m v then v else m) (.inf true)
  ((lo.round fp32 .rd).bits, (hi.round fp32 .ru).bits)
/-- Exact p × q + u. -/
def fmaV (p q u : Nat) : FV := match (fp32.val p).mul (fp32.val q) with
  | (_, true) => .nan
  | (v, false) => match exactSum .rn [v, fp32.val u] with
    | (_, true) => .nan
    | (s, false) => s
/-- The interval of each direction component over a rectangle (R311 step 1). -/
def BeamRec.enclose (b : BeamRec) (r : Rect) : List (Word × Word) :=
  let ss := [gridAt b.w r.x0, gridAt b.w r.x1]
  let ts := [gridAt b.h r.y0, gridAt b.h r.y1]
  (List.range 3).map fun a =>
    let top := spanOf (ss.map fun s => fmaV (fSub fp32 .rn (b.corner 1 a) (b.corner 0 a)).bits s (b.corner 0 a))
    let bot := spanOf (ss.map fun s => fmaV (fSub fp32 .rn (b.corner 3 a) (b.corner 2 a)).bits s (b.corner 2 a))
    let neg (x : Nat) : FV := (fp32.val x).neg
    let sum (x : Nat) (y : FV) : FV := match exactSum .rn [fp32.val x, y] with
      | (_, true) => .nan
      | (v, false) => v
    let d := spanOf [sum bot.1 (neg top.2), sum bot.2 (neg top.1)]
    let e := spanOf ([d.1, d.2].flatMap fun p => ts.flatMap fun t => [top.1, top.2].map fun u => fmaV p t u)
    (BitVec.ofNat 32 e.1, BitVec.ofNat 32 e.2)
/-- Classes of R311. -/
inductive BoxClass where
  | miss | hit | mixed
  deriving DecidableEq, Repr
/-- What a value may be: its least and greatest. The two are equal where R306 and R311 state it. (log 81, DESIGN CHOICE) -/
abbrev Span := Word × Word
def Span.min2 (a b : Span) : Span := (fmin2 a.1 b.1, fmin2 a.2 b.2)
def Span.max2 (a b : Span) : Span := (fmax2 a.1 b.1, fmax2 a.2 b.2)
def posInf : Word := BitVec.ofNat 32 fp32.infBits
def negInf : Word := posInf ||| 0x80000000
/-- A quotient of the box test: not stated for a corner that is not a number, nor for an infinity over an infinity. -/
def quotSpan (rm : Rm) (c o d : Word) : Span :=
  if (f32 c).isNan || (!finite c && !finite d) then (negInf, posInf) else (boxQuot rm c o d, boxQuot rm c o d)
/-- Outer and inner entry and exit of an axis; the inner pair may be empty, and `sure` says that it is stated whether it is. -/
structure AxisPairs where
  outer : Span × Span
  inner : Option (Span × Span)
  sure : Bool
def axisPairs (lo hi o dl dh : Word) : AxisPairs :=
  let all (x : Word) : Span := (x, x)
  if 0 < fkey dl ∨ fkey dh < 0 then
    let entry (rm : Rm) (d : Word) := (quotSpan rm lo o d).min2 (quotSpan rm hi o d)
    let exit (rm : Rm) (d : Word) := (quotSpan rm lo o d).max2 (quotSpan rm hi o d)
    ⟨((entry .rd dl).min2 (entry .rd dh), (exit .ru dl).max2 (exit .ru dh)),
      some ((entry .ru dl).max2 (entry .ru dh), (exit .rd dl).min2 (exit .rd dh)), true⟩
  else
    let nan (x : Word) : Bool := (f32 x).isNan
    ⟨(all negInf, all posInf),
      if (nan lo ∨ fkey lo ≤ fkey o) ∧ (nan hi ∨ fkey o ≤ fkey hi) then
        let a := if 0 < fkey dh then quotSpan .rd hi o dh else all posInf
        let b := if fkey dl < 0 then quotSpan .rd lo o dl else all posInf
        some (all negInf, a.min2 b)
      else none, !nan lo && !nan hi⟩

/-! ## Cones, exactly (R311) -/

/-- p lies in the cone: p · A ≥ 0 and (p · A)² (S² + T²) ≥ S² |p|² |A|², with TANH = T / S. -/
def inCone (axis : List Int) (t : Int) (p : List Int) : Bool :=
  let pa := dot3 p axis
  decide (0 ≤ pa ∧ 0 ≤ pa * pa * (fxUnit * fxUnit + t * t) - fxUnit * fxUnit * dot3 p p * dot3 axis axis)
/-- The segment, half-line or line in which coordinate j of p runs from lo to hi, no end where it is infinite, meets the
cone: an end lies in it, all points far enough towards an infinite end do, or the quadratic's vertex between them does. -/
def edgeMeets (axis : List Int) (t : Int) (p : List Int) (j : Nat) (lo hi : Option Int) : Bool :=
  let at' (x : Int) : List Int := p.set j x
  if (lo.toList ++ hi.toList).any fun x => inCone axis t (at' x) then true else
  let aj := axis.getD j 0
  let b := dot3 (at' 0) axis
  let m := dot3 (at' 0) (at' 0)
  let c1 := fxUnit * fxUnit + t * t
  let c2 := fxUnit * fxUnit * dot3 axis axis
  let al := c1 * aj * aj - c2
  let be := 2 * c1 * aj * b
  let ga := c1 * b * b - c2 * m
  let far (s : Int) : Bool := decide (0 < s * aj ∧ (0 < al ∨ (al = 0 ∧ (0 < s * be ∨ (be = 0 ∧ 0 ≤ ga)))))
  if (lo.isNone && far (-1)) || (hi.isNone && far 1) then true else
  -- the vertex −be / (2 al), for al < 0, between the ends, on the cone's side, with the quadratic not negative there
  decide (al < 0 ∧ 0 ≤ aj * be + b * (-2 * al) ∧ 0 ≤ be * be - 4 * al * ga)
    && lo.all (fun x => decide (x * (-2 * al) < be)) && hi.all (fun x => decide (be < x * (-2 * al)))
/-- A direction of the cone that meets the plane in which coordinate k is c, c not 0, if one does: the axis, or with the
axis turned away from the plane a direction between the axis and the plane's side. With a = −σA_k, D = |A|² − A_k² and σ
the sign of c, directions A + q (σ e_k |A|² − σ A_k A) lie in the cone for q² ≤ T² / (S² D) and meet the plane for q > a / D. -/
def coneToward (axis : List Int) (t : Int) (k : Nat) (c : Int) : Option (List Int) :=
  let ak := axis.getD k 0
  if 0 < c * ak then some axis else
  let s : Int := if c < 0 then -1 else 1
  let aa := dot3 axis axis
  let d := aa - ak * ak
  let a := -(s * ak)
  let n := t * t * d - fxUnit * fxUnit * a * a
  if n ≤ 0 then none else
  let ss := fxUnit * fxUnit * (2 * a + d)
  let big := d * ss
  let q := a * ss + min n big
  some ((List.range 3).map fun i => big * axis.getD i 0 + q * ((if i = k then s * aa else 0) - s * ak * axis.getD i 0))
/-- A box given by its ends relative to the apex, none where infinite, meets the cone: it holds the apex, or an edge meets
the cone, or the cone's section with the plane of a face lies inside the face, which one direction of the cone shows. -/
def coneMeets (axis : List Int) (t : Int) (lo hi : List (Option Int)) : Bool :=
  let l (i : Nat) := lo.getD i none
  let h (i : Nat) := hi.getD i none
  let within (i : Nat) (n d : Int) : Bool := (l i).all (fun x => decide (x * d ≤ n)) && (h i).all fun x => decide (n ≤ x * d)
  if (List.range 3).all fun i => within i 0 1 then true else
  let ends (i : Nat) : List Int := (l i).toList ++ (h i).toList
  let edges := (List.range 3).any fun j =>
    let y := (j + 1) % 3
    let z := (j + 2) % 3
    (ends y).any fun cy => (ends z).any fun cz => edgeMeets axis t (([0, 0, 0].set y cy).set z cz) j (l j) (h j)
  if edges then true else
  (List.range 3).any fun k => (ends k).any fun c =>
    c != 0 && (match coneToward axis t k c with
    | none => false
    | some p =>
      let pk := p.getD k 0
      (List.range 3).all fun i => i == k || within i (p.getD i 0 * c * (if pk < 0 then -1 else 1)) pk.natAbs)
/-- Every direction of the grid lies in the cone (R316). -/
def BeamRec.coneOk (b : BeamRec) : Bool :=
  b.kind != 1 || (List.range b.h).all fun j => (List.range b.w).all fun i =>
    let d := b.dir i j
    d.all finite && inCone (b.axis.map fx) (fx b.tanh) (d.map fx)
/-- Some point of the box lies in the cone. An end of the box may be infinite; an axis with no finite point leaves none. -/
def BeamRec.coneMeets (b : BeamRec) (x : Box) : Bool :=
  let pinf : Int := fp32.infBits
  if x.lo.any (fun v => fkey v == pinf) || x.hi.any (fun v => fkey v == -pinf) then false else
  let rel (v : List Word) : List (Option Int) := (List.range 3).map fun i =>
    let w := v.getD i 0
    if finite w then some (fx w - fx (b.apex.getD i 0)) else none
  Sys2Proof.Machine.coneMeets (b.axis.map fx) (fx b.tanh) (rel x.lo) (rel x.hi)
/-- The classes that a box may have against a rectangle, given the highest and lowest best tc of its rays: one, but where R306 and
R311 state no value that decides it. (R311; log 81, DESIGN CHOICE) -/
def BeamRec.classes (b : BeamRec) (r : Rect) (x : Box) (bmax bmin : Word) : List BoxClass :=
  if x.known.hollow then [.miss]
  else if b.kind == 1 && !b.coneMeets x.known then [.miss] else
  let ps := ((List.range 3).zip (b.enclose r)).map fun p =>
    axisPairs (x.lo.getD p.1 0) (x.hi.getD p.1 0) (b.apex.getD p.1 0) p.2.1 p.2.2
  let oe := ps.foldl (fun (m : Span) p => m.max2 p.outer.1) ((b.tmin, b.tmin) : Span)
  let ox := ps.foldl (fun (m : Span) p => m.min2 p.outer.2) ((bmax, bmax) : Span)
  let is := ps.filterMap (·.inner)
  let ie := is.foldl (fun (m : Span) p => m.max2 p.1) ((b.tmin, b.tmin) : Span)
  let ix := is.foldl (fun (m : Span) p => m.min2 p.2) ((bmin, bmin) : Span)
  let mayHit := ps.all (·.inner.isSome) && decide (fkey ie.1 ≤ fkey ix.2)
  let isHit := mayHit && ps.all (·.sure) && decide (fkey ie.2 ≤ fkey ix.1)
  if fkey ox.2 < fkey oe.1 then [.miss] else
  (if fkey ox.1 < fkey oe.2 ∨ (b.kind = 1 ∧ x.vague) then [.miss] else [])
    ++ (if mayHit then [.hit] else []) ++ (if isHit then [] else [.mixed])

/-! ## Rectangles (R312) -/

def Rect.rays (r : Rect) : Nat := (r.x1 - r.x0 + 1) * (r.y1 - r.y0 + 1)
/-- The RECT layout. -/
def Rect.word (r : Rect) : Nat := r.x0 + r.y0 * 2 ^ 8 + r.x1 * 2 ^ 16 + r.y1 * 2 ^ 24
/-- Halves of an axis, at the upper middle. -/
def halves (a b : Nat) : List (Nat × Nat) :=
  let w := b - a + 1
  if w < 2 then [(a, b)] else [(a, a + (w + 1) / 2 - 1), (a + (w + 1) / 2, b)]
/-- Quadrants in the order they are pushed: (1, 1), (0, 1), (1, 0), (0, 0). -/
def Rect.quads (r : Rect) : List Rect :=
  let xs := halves r.x0 r.x1
  let ys := halves r.y0 r.y1
  [(1, 1), (0, 1), (1, 0), (0, 0)].filterMap fun q => match xs[q.1]?, ys[q.2]? with
    | some x, some y => some ⟨x.1, y.1, x.2, y.2⟩
    | _, _ => none
/-- Pixels of a rectangle, row by row. -/
def Rect.pixels (r : Rect) : List (Nat × Nat) :=
  (List.range (r.y1 - r.y0 + 1)).flatMap fun j => (List.range (r.x1 - r.x0 + 1)).map fun i => (r.x0 + i, r.y0 + j)

end Sys2Proof.Machine
end

