-- ==== Sys2Proof/Machine/RayEngine.lean ====
section
/-! DEFINITION. The ray engine's queries: RAYQ and BEAMQ at issue (R307, R316), the traversal of a ray (R306, R308), the
descent of a beam with its splits and deferrals (R312 to R317), and the events that run them. -/

namespace Sys2Proof.Machine

/-! ## Reading the hierarchy (R302 to R304, R308) -/

/-- A record of the hierarchy. -/
inductive BvhRec where
  | node (n : Node)
  | leaf (box : Box) (prim count : Nat) (tris : List Byte)
def BvhRec.box : BvhRec → Box
  | .node n => n.box
  | .leaf b _ _ _ => b
/-- How a record read ends (R308). -/
inductive RecRead where
  | ok (m : Mach) (r : BvhRec)
  /-- a fault that ends the query -/
  | ends (m : Mach) (code : Nat)
  /-- the record is not to be had: a grove abort with its code, or a NOWAIT skip -/
  | missed (m : Mach) (code : Option Nat)
  | waits (m : Mach) (req : Nat)
  | held
/-- The fault codes of a grove that a query survives. -/
def groveFault (c : Nat) : Bool := c == Code.genAbort || c == Code.genDepth || c == Code.genOrder
/-- A code ends the query, or the record counts as missed. -/
def RecRead.failed (m : Mach) (c : Nat) : RecRead := if groveFault c then .missed m (some c) else .ends m c
/-- The end of a read other than its bytes: a missed grove line is asked for, as an LDPF would under NOWAIT. -/
def Rd.recRead (r : Rd) (who : Requester) (g : Group) (nowait : Bool) (k : Mach → List Byte → RecRead) : RecRead :=
  match r with
  | .ok m bs => k m bs
  | .bad m code _ => .failed (m.answered who) code
  | .grove m va =>
    if nowait then .missed (m.askGrove .prefetch g.asid va 2 g.task.tpri g.task.flvl.toNat).1 none
    else let (m, r) := m.askGrove who g.asid va 2 g.task.tpri g.task.flvl.toNat
      .waits m r
  | .again _ => .held
/-- Read the record of a reference: KIND 0b00 stands for ROOT's node. A leaf's triangles past COUNT are not read.
(log 37, DEDUCED) -/
def Mach.bvhRead (m : Mach) (core : Nat) (who : Requester) (g : Group) (nowait : Bool) (root : Nat) (ref : Word) : RecRead :=
  let kind := ref.toNat / 2 ^ 30
  let va := if kind = 0 then root else root + 64 * (ref.toNat % 2 ^ 30)
  match m.refusedTo who with
  | some (code, _) => .failed (m.answered who) code
  | none =>
    if kind = 3 then .ends m Code.illegalOperand
    else if kind = 2 then
      (m.engineRun core who g.asid g.system 2 true va 32).recRead who g nowait fun m head =>
        match leafHeader head with
        | none => .ends (m.answered who) Code.illegalOperand
        | some (box, prim, count) =>
          (m.engineRun core who g.asid g.system 2 true (va + 32) (36 * count)).recRead who g nowait fun m tris =>
            .ok (m.answered who) (.leaf box prim count tris)
    else (m.engineRun core who g.asid g.system 2 true va 64).recRead who g nowait fun m bs =>
      match Node.ofBytes bs with
      | none => .ends (m.answered who) Code.illegalOperand
      | some n => .ok (m.answered who) (.node n)

/-! ## One ray (R306 to R308) -/

/-- Flags of B (R307). -/
def RayState.cullB (r : RayState) : Bool := r.flags.getLsbD 0
def RayState.cullF (r : RayState) : Bool := r.flags.getLsbD 1
def RayState.any (r : RayState) : Bool := r.flags.getLsbD 2
def RayState.nowait (r : RayState) : Bool := r.flags.getLsbD 3
/-- A ray that R307 lets miss with ILLEGAL_OPERAND. -/
def RayState.invalid (r : RayState) : Bool :=
  r.flags.toNat / 16 != 0 || r.root % 64 != 0 || decide (2 ^ 48 ≤ r.root) || !(r.o ++ r.d ++ [r.tmin, r.tmax]).all finite
    || r.d.all (fun x => (f32 x).isZero) || decide (fkey r.tmax < fkey r.tmin)
/-- The first code a ray meets stays. -/
def RayState.noteCode (r : RayState) (c : Nat) : RayState := if r.code = 0 then { r with code := c } else r
/-- The triangles of a leaf in ascending order; ANY stops at the first candidate. (log 37, DEDUCED) -/
def RayState.leaf (r : RayState) (prim count : Nat) (tris : List Byte) : RayState :=
  let hit (k : Nat) : Option Cand :=
    triangle (triAt tris k) (BitVec.ofNat 32 (prim + k)) r.o r.d r.tmin r.tmax r.cullB r.cullF
  if r.any then
    match (List.range count).findSome? hit with
    | some c => { r with best := some c, stack := [], done := true }
    | none => r
  else { r with best := (List.range count).foldl (fun b k => bestOf b (hit k)) r.best }
/-- How a pop of a ray ends. -/
inductive RayStep where
  | go (m : Mach) (r : RayState)
  | waits (m : Mach) (req : Nat)
  | held
/-- One pop of a ray's stack. A child's box is tested when it is popped, up to the best candidate so far.
(log 37, DEDUCED) -/
def Mach.rayStep (m : Mach) (core : Nat) (who : Requester) (g : Group) (r : RayState) : RayStep :=
  match r.stack with
  | [] => .go m { r with done := true }
  | (ref, box) :: rest =>
    let bound : Word := match r.best with | some b => b.1 | none => r.tmax
    let r := { r with stack := rest }
    let missed := match box with | some b => !b.known.hitBy r.o r.d r.tmin bound | none => false
    -- a box with a corner that is not a number, which nothing else lets the ray miss: free (log 81, DESIGN CHOICE)
    let (m, missed) := if !missed && box.any (·.vague) then (let (v, m) := m.free; (m, v.getLsbD 0)) else (m, missed)
    if missed then .go m r else
    match m.bvhRead core who g r.nowait r.root ref with
    | .ok m (.node n) => .go m { r with stack := n.kids r.d |>.map (fun p => (p.1, some p.2)) |>.append rest }
    | .ok m (.leaf _ prim count tris) => .go m (r.leaf prim count tris)
    | .ends m code => .go m { r.noteCode code with stack := [], done := true }
    | .missed m (some code) => .go m (r.noteCode code)
    | .missed m none => .go m { r with skip := true }
    | .waits m q => .waits m q
    | .held => .held
/-- D to D+3 of a ray (R307). -/
def RayState.result (r : RayState) : List Word :=
  let low : Nat := (if r.skip then 4 else 0) + r.code % 256 * 256
  match r.best with
  | some b => [b.1, b.2.1, b.2.2.1, BitVec.ofNat 32 (1 + (if b.2.2.2 then 2 else 0) + low)]
  | none => [0x7F800000, 0xFFFFFFFF, 0, BitVec.ofNat 32 low]
/-- How far a run of a query came: all is done, it waits, or it can go on. -/
inductive Ran (α : Type) where
  | done (m : Mach) (x : α)
  | paused (m : Mach) (x : α) (wait : Option Nat)
  | held
/-- Run the rays of a query for so many pops (log 18, DESIGN CHOICE). -/
def Mach.raysRun (core id : Nat) (g : Group) : Nat → Mach → List RayState → Ran (List RayState)
  | 0, m, rs => .paused m rs none
  | n + 1, m, rs =>
    match rs.findIdx? fun r => !r.done with
    | none => .done m rs
    | some i =>
      match rs[i]? with
      | none => .done m rs
      | some r =>
        match m.rayStep core (.ray core id r.lane) g r with
        | .go m r => Mach.raysRun core id g n m (rs.set i r)
        | .waits m q => .paused m rs (some q)
        | .held => .held

/-! ## Beams (R312 to R317) -/

/-- Highest and lowest current best tc of a rectangle's rays, TMAX where a ray has none (R311). (log 37, DEDUCED) -/
def BeamState.bounds (b : BeamState) (q : BeamRec) (r : Rect) : Word × Word :=
  let t (p : Nat × Nat) : Word := mgetD b.best (q.w * p.2 + p.1) q.tmax
  match r.pixels with
  | [] => (q.tmax, q.tmax)
  | p :: ps => ps.foldl (fun a p => (fmax2 a.1 (t p), fmin2 a.2 (t p))) (t p, t p)
/-- An item of the stack. -/
abbrev BeamItem := Rect × Word × Option Box
/-- How writes to the deferred list end. -/
inductive Deferred where
  | ok (m : Mach) (b : BeamState)
  /-- a write fails with a fault code -/
  | bad (m : Mach) (b : BeamState) (code : Nat)
  /-- a write meets a locked sector and waits (R214) -/
  | held
/-- Write items to the deferred list (R314). -/
def Mach.deferItems (m : Mach) (g : Group) (q : BeamRec) (b : BeamState) (xs : List BeamItem) : Deferred :=
  xs.foldl (fun r x =>
    match r with
    | .ok m b =>
      if b.overflow then r
      else if 4096 ≤ b.deferred then .ok m { b with overflow := true }
      else
        let va := q.result + 8 * q.w * q.h + 8 * b.deferred
        let bs := leBytes 4 x.1.word ++ leBytes 4 x.2.1.toNat
        (match m.engineWrite g.asid g.system false g.gid (((List.range 8).zip bs).map fun p => (va + p.1, p.2)) with
        | .ok m _ => .ok m { b with deferred := b.deferred + 1 }
        | .bad m code _ => .bad m b code
        | .grove m _ => .bad m b Code.genWrite
        | .again _ => .held)
    | r => r) (.ok m b)
/-- Merge a key at the home slice: an unsigned 64-bit minimum, as one step (R315). -/
def Mach.mergeKey (m : Mach) (g : Group) (va key : Nat) : Rd :=
  if m.locked g.asid va none then .again m else
  match m.checkNow g.asid g.system .store 0 va 8 with
  | (m, .ok 0) =>
    (match m.llcRead g.asid va 8 with
    | .ok m bs =>
      let m := m.cmdWrote g.gid g.asid va 8
      .ok (if key < leNat bs then m.llcWrite g.asid va (((List.range 8).zip (leBytes 8 key)).map fun p => (va % 32 + p.1, p.2)) none
        else m) []
    | r => r)
  | (m, .ok _) => .bad m Code.bankopRange va
  | (m, .bad _ code a) => .bad m code a
  | (m, .walk a) => .bad m Code.page a
/-- The task record of a split (R313). -/
def splitTask (g : Group) (q : BeamRec) (b : BeamState) (x : BeamItem) : TaskRec :=
  { g.task with
    entry := q.cont, arg := q.arg, tileX := BitVec.ofNat 32 x.1.word, tileY := x.2.1, tileZ := BitVec.ofNat 32 b.emitted
    split := true, fill := false, flvl := 0, convoy := 0, succ := 0, link := BitVec.ofNat 64 b.frame }
/-- Emit a split record (R313): the frame's COUNT, then the spawn queue of the convoy. -/
def Mach.emitSplit (m : Mach) (core : Nat) (g : Group) (q : BeamRec) (b : BeamState) (x : BeamItem) : Mach :=
  let e : SpawnEntry :=
    { asid := g.asid, task := splitTask g q b x, sig := b.sig, launch := g.launch, grid := none, queue := none
      serial := m.nextSerial, system := g.system }
  let m := m.updFrame g.asid b.frame fun f => { f with count := f.count + 1 }
  ({ m with nextSerial := m.nextSerial + 1 }.push g.asid (core / 4) (.spawn e)).count core g.asid 0x000F 1
/-- How a pop of a beam ends. -/
inductive BeamStep where
  | go (m : Mach) (b : BeamState)
  /-- the query ends, with the code of an ending fault -/
  | fin (m : Mach) (b : BeamState) (code : Option Nat)
  | waits (m : Mach) (req : Nat)
  | held
/-- Defer items and go on, unless the list is full or cannot be written. -/
def Mach.deferGo (m : Mach) (g : Group) (q : BeamRec) (b : BeamState) (xs : List BeamItem) : BeamStep :=
  match m.deferItems g q b xs with
  | .ok m b => if b.overflow then .fin m b none else .go m b
  | .bad m b code => .fin m b (some code)
  | .held => .held
/-- Defer the popped item and the whole stack, and end with a code (R314, R317). -/
def Mach.deferEnd (m : Mach) (g : Group) (q : BeamRec) (b : BeamState) (x : BeamItem) (code : Option Nat) : BeamStep :=
  match m.deferItems g q b (x :: b.stack) with
  | .ok m b => .fin m { b with stack := [] } code
  | .bad m b f => .fin m { b with stack := [] } (code.or (some f))
  | .held => .held
/-- Push items in order, the first pushed lowest; one that meets a full stack is deferred (R312, R314). -/
def Mach.pushItems (m : Mach) (g : Group) (q : BeamRec) (b : BeamState) (xs : List BeamItem) : BeamStep :=
  xs.foldl (fun r x => match r with
    | .go m b =>
      if b.stack.length < 256 then .go m { b with stack := x :: b.stack }
      else m.deferGo g q { b with limited := true } [x]
    | r => r) (.go m b)
/-- Apply R305 to the triangles of a leaf for every ray of a rectangle, and merge every candidate into its key (R315). -/
def Mach.beamLeaf (m : Mach) (g : Group) (q : BeamRec) (b : BeamState) (x : BeamItem) (prim count : Nat) (tris : List Byte) :
    BeamStep :=
  (x.1.pixels.flatMap fun p => (List.range count).map fun k => (p, k)).foldl (fun r pk => match r with
    | .go m b =>
      let (p, k) := pk
      (match triangle (triAt tris k) (BitVec.ofNat 32 (prim + k)) q.apex (q.dir p.1 p.2) q.tmin q.tmax q.cullb q.cullf with
      | none => r
      | some c =>
        let i := q.w * p.2 + p.1
        match m.mergeKey g (q.result + 8 * i) (c.1.toNat * 2 ^ 32 + c.2.1.toNat) with
        | .ok m _ =>
          let best := match mget b.best i with
            | some t => fmin2 t c.1
            | none => c.1
          .go m { b with best := mput b.best i best }
        | .bad m code _ => m.deferEnd g q b x (some code)
        | .grove m _ => m.deferEnd g q b x (some Code.genWrite)
        | .again _ => .held)
    | r => r) (.go m b)
/-- What a record that cannot be read does to a beam (R317). -/
def RecRead.beam (r : RecRead) (g : Group) (q : BeamRec) (b : BeamState) (x : BeamItem) (k : Mach → BvhRec → BeamStep) : BeamStep :=
  match r with
  | .ok m y => k m y
  | .ends m code => m.deferEnd g q b x (some code)
  | .missed m (some code) => m.deferGo g q { b with groveCode := b.groveCode.or (some code) } [x]
  | .missed m none => m.deferGo g q b [x]
  | .waits m r => .waits m r
  | .held => .held
/-- The class of a box: any of those that the spec leaves open. (log 81, DESIGN CHOICE) -/
def Mach.freeClass (m : Mach) : List BoxClass → Mach × BoxClass
  | [c] => (m, c)
  | cs =>
    let (v, m) := m.free
    (m, cs.getD (v.toNat % cs.length) .mixed)
/-- One pop of a beam's stack (R312). The record of the starting item is read for its box. (log 37, DEDUCED) -/
def Mach.beamStep (m : Mach) (core : Nat) (who : Requester) (g : Group) (q : BeamRec) (b : BeamState) : BeamStep :=
  match b.stack with
  | [] => .fin m b none
  | x :: rest =>
    let b := { b with stack := rest }
    let read (m : Mach) : RecRead := m.bvhRead core who g q.nowait q.root x.2.1
    let act (m : Mach) (box : Box) (known : Option BvhRec) : BeamStep :=
      let (bmax, bmin) := b.bounds q x.1
      let (m, cls) := m.freeClass (q.classes x.1 box bmax bmin)
      match cls with
      | .miss => .go m b
      | .mixed =>
        if 16 < x.1.rays then m.pushItems g q b (x.1.quads.map fun r => (r, x.2.1, some box))
        else if 4096 ≤ b.emitted then m.deferEnd g q { b with limited := true } x none
        else if !m.quotaOk g.asid (core / 4) 1 || decide (2 ^ 32 ≤ m.countOf g.asid b.frame + 1) then
          m.deferGo g q { b with limited := true } [x]
        else .go (m.emitSplit core g q b x) { b with emitted := b.emitted + 1 }
      | .hit =>
        let use (m : Mach) (r : BvhRec) : BeamStep := match r with
          | .node n => m.pushItems g q b ((n.kids q.keyAxis).reverse.map fun p => (x.1, p.1, some p.2))
          | .leaf _ prim count tris => m.beamLeaf g q b x prim count tris
        match known with
        | some r => use m r
        | none => (read m).beam g q b x use
    match x.2.2 with
    | some box => act m box none
    | none => (read m).beam g q b x fun m r => act m r.box (some r)
/-- Run a beam for so many pops (log 18, DESIGN CHOICE), or until a ring has failed, which halts its context (R257): what is left of
it, and the code of an ending fault. -/
def Mach.beamRun (core : Nat) (who : Requester) (g : Group) (q : BeamRec) : Nat → Mach → BeamState → Ran (BeamState × Option Nat)
  | 0, m, b => .paused m (b, none) none
  | n + 1, m, b =>
    match m.beamStep core who g q b with
    | .go m b => if m.ringFaults.isEmpty then Mach.beamRun core who g q n m b else .paused m (b, none) none
    | .fin m b code => .done m (b, code)
    | .waits m r => .paused m (b, none) (some r)
    | .held => .held
/-- The token of a beam that has ended, by the precedence of R314. (log 35, DEDUCED) -/
def BeamState.status (b : BeamState) (code : Option Nat) : Word :=
  if b.overflow then statusOf Code.spawnLimit 0xFFFFFF else
  match code.or b.groveCode with
  | some c => statusOf c b.deferred
  | none =>
    if b.gate.isSome then statusOf Code.barrierCount b.deferred
    else if b.limited then statusOf Code.spawnLimit b.deferred
    else statusOf 0 b.deferred
/-- Results of a raced query are undefined: free keys in its rectangle and a free token (R316, log 4, DESIGN CHOICE).
(log 52, DESIGN CHOICE) -/
def Mach.beamFree (m : Mach) (g : Group) (q : BeamRec) : Mach × Word :=
  let m := if q.bad then m else q.rect.pixels.foldl (fun m p =>
    let va := q.result + 8 * (q.w * p.2 + p.1)
    let (m, bs) := m.freeBytes 8
    match m.engineWrite g.asid g.system false g.gid (((List.range 8).zip bs).map fun p => (va + p.1, p.2)) with
    | .ok m _ => m
    | _ => m) m
  let (v, m) := m.free
  (m, v.setWidth 32)

/-! ## Events -/

/-- The first query of a core that can run: queries start in issue order, a gated one when its gate is open, and one
that waits for a grove line holds only itself (R251, R280, R308). -/
def Mach.rayHead (m : Mach) (core : Nat) : Option RayCmd :=
  let q := (m.core core).rayQ
  let started := q.takeWhile (·.begun)
  (started.find? fun c => !m.asking c.wait).or ((q.drop started.length).head?.filter fun c => match c.op with
    | .beam b => m.gateOpen c.gid b.gate
    | .rays _ _ => true)
/-- Put a query back. -/
def Mach.setRay (m : Mach) (core : Nat) (c : RayCmd) : Mach :=
  m.updCore core fun k => { k with rayQ := k.rayQ.map fun d => if d.id == c.id then c else d }
/-- A query leaves its queue. -/
def Mach.dropRay (m : Mach) (core id : Nat) : Mach :=
  m.updCore core fun k => { k with rayQ := k.rayQ.filter fun d => d.id != id }
/-- Pops of one event (log 18, DESIGN CHOICE). -/
def rayFuel : Nat := 4096
/-- Registers of a ray. -/
def rayKeys (dst : Nat) (r : RayState) : List RKey := (List.range 4).map fun i => .v r.lane (dst + i)
/-- RAY_QUERY_EXECUTE (R306 to R308): run the query; when every ray has ended, D to D+3 are written. -/
def Mach.rayQuery (m : Mach) (core : Nat) : Ev :=
  match m.rayHead core with
  | none => .no
  | some c =>
    match c.op, m.group c.gid with
    | .rays dst rs, some g =>
      Ev.billed (n := g.task.allot.toNat) (m₀ := m) (match Mach.raysRun core c.id { g with system := c.system } rayFuel m rs with
      | .done m rs =>
        let ws := rs.flatMap fun r => (rayKeys dst r).zip r.result
        .ok (((m.dropRay core c.id).updWave c.gid c.wave fun w => w.arrives m.clk ws (ws.map (·.1))).endWave c.gid c.wave)
      | .paused m rs q => .ok (m.setRay core { c with op := .rays dst rs, wait := q, begun := true })
      | .held => .no)
    | _, _ => .no
def execRayQueryExecute (core : Nat) (s : State) : Host.Outcome State Fault Refusal :=
  event (fun m => m.rayQuery core) s
/-- A beam query ends: its token is written. -/
def Mach.beamEnd (m : Mach) (core : Nat) (c : RayCmd) (tok : Nat) (status : Word) : Mach :=
  ((m.dropRay core c.id).putToken c.gid c.wave tok status).endWave c.gid c.wave
/-- BEAM_QUERY_EXECUTE (R312 to R317): the record is read when the query starts; a record that R316 turns away ends it
with nothing done. -/
def Mach.beamQuery (m : Mach) (core : Nat) : Ev :=
  match m.rayHead core with
  | none => .no
  | some c =>
    match c.op, m.group c.gid with
    | .beam b, some g =>
      let g := { g with system := c.system }
      let q := b.beam.getD (BeamRec.ofBytes (m.spadRead g b.off 128))
      if b.raced then
        let (m, v) := m.beamFree g q
        .ok (m.beamEnd core c b.tok v)
      else if b.beam.isNone && (q.bad || !q.coneOk) then .ok (m.beamEnd core c b.tok (statusOf Code.illegalOperand 0))
      else
        let b := if b.beam.isSome then b else
          { b with beam := some q, stack := [(q.rect, q.start, none)], gate := b.gate.filter (·.gone) }
        Ev.billed (n := g.task.allot.toNat) (m₀ := m) (match Mach.beamRun core (.ray core c.id 64) g q rayFuel m b with
        | .done m (b, code) => .ok (m.beamEnd core c b.tok (b.status code))
        | .paused m (b, _) r => .ok (m.setRay core { c with op := .beam b, wait := r, begun := true })
        | .held => .no)
    | _, _ => .no
def execBeamQueryExecute (core : Nat) (s : State) : Host.Outcome State Fault Refusal :=
  event (fun m => m.beamQuery core) s

/-! ## Issue -/

/-- The ray of a lane (R307). -/
def Env.ray (e : Env) (x : AsyncOp) (l : Nat) : RayState :=
  let a (i : Nat) : Word := e.w.getI e.clk l x.a i
  let r : RayState :=
    { lane := l, o := [a 0, a 1, a 2], d := [a 3, a 4, a 5], tmin := a 6, tmax := a 7, flags := e.getSrc32 l x.b
      root := (e.getPair l x.e).toNat, stack := [(0, none)], best := none, skip := false, code := 0, done := false }
  if r.invalid then { r with stack := [], code := Code.illegalOperand, done := true } else r
/-- RAYQ (R307): one queue entry for the threads and helpers that perform; their D is pending until it ends. -/
def execRayq (x : AsyncOp) (s : State) : Host.Outcome State Fault Refusal :=
  perform (.rayq x) x.ctl (fun e => e.once fun e =>
    if !e.m.quotaOk e.asid (672 + e.core) 1 then e.failAll Code.quota 6 0 else
    let rs := e.all.map fun l => e.ray x l
    let keys := rs.flatMap (rayKeys x.d.idx.toNat)
    let m := e.upd e.m fun w => { w with pend := w.pend ++ keys, cmdPend := w.cmdPend ++ keys }
    let c : RayCmd := ⟨m.nextId, e.iss.gid, e.iss.wave, .rays x.d.idx.toNat rs, none, false, e.system⟩
    .done ({ m with nextId := m.nextId + 1 }.push e.asid (672 + e.core) (.ray c)) e.lanes) s
/-- BEAMQ (R316): the checks in the order of the rule, the release of R186, and the push. The core's own copies of the
result buffer are written back and dropped (R291, R315). -/
def execBeamq (x : AsyncOp) (s : State) : Host.Outcome State Fault Refusal :=
  perform (.beamq x) x.ctl (fun e => e.once fun e =>
    let off := (e.get e.first x.a).toNat
    let tok := x.compl.idx.toNat
    if off % 128 ≠ 0 then e.failAll Code.align 0 off
    else if e.g.grant < off + 128 then e.failAll Code.perm 0 off
    else if e.g.task.flvl ≠ 0 then e.failAll Code.illegalOperand 0 0
    else match e.gateOf x with
    | none => e.failAll Code.illegalOperand 0 0
    | some gate =>
      if e.tokBusy x.compl then e.failAll Code.tokenReuse tok 0
      else if !e.m.quotaOk e.asid (672 + e.core) 1 then e.failAll Code.quota 6 0
      else if !e.m.quotaOk e.asid (e.core / 4) 1 then e.failAll Code.quota 0 0
      else if e.m.flushHeld e.core e.asid then .hold e.m
      else
        let q := BeamRec.ofBytes (e.m.spadRead e.g off 128)
        let m := (e.m.release e.core e.asid).l1DropRange e.core e.asid q.result (8 * q.w * q.h)
        let b : BeamState :=
          { off := off, beam := none, stack := [], emitted := 0, deferred := 0, overflow := false, limited := false
            groveCode := none, best := [], gate := gate, tok := tok, frame := e.g.frames.getD e.w.depth 0
            sig := ((m.group e.iss.gid).map (·.sig)).getD 0, raced := e.w.unfenced [(off, 128)] }
        let c : RayCmd := ⟨m.nextId, e.iss.gid, e.iss.wave, .beam b, none, false, e.system⟩
        .done ((e.upd { m with nextId := m.nextId + 1 } fun w => w.takeToken tok).push e.asid (672 + e.core) (.ray c)) e.lanes) s

end Sys2Proof.Machine
end

