-- ==== Sys2Proof/Machine/Reliability.lean ====
section
/-! DEFINITION. Stacked memory and GDDR 7 reliability as steps of their own (R375 to R381). -/

namespace Sys2Proof.Machine

/-! ## The array code (R376, R377) -/

/-- The corrected word reaches its bank: good check bits are stored. -/
def Mach.correct (m : Mach) (word : Nat) (v : DWord) : Mach :=
  if m.rel.dead word then m else
  { m with
    mem := ((List.range 8).zip (leBytes 8 v.toNat)).foldl (fun mem p => cellPut mem (8 * word + p.1) p.2) m.mem
    rel := { m.rel with flips := mdel m.rel.flips word } }
/-- DRAM_WORD_READ: a die reads a word, whoever asked. -/
def execDramWordRead (word : Nat) (s : State) : Host.Outcome State Fault Refusal :=
  event (fun m => if m.rel.stalls word || decide (dramTop ≤ 8 * word) then .no else .ok (m.readWord word).1) s
/-- CORRECTIVE_WRITE: the n-th corrected word on its way is written back; a newer write has removed it from the list. -/
def execCorrectiveWrite (n : Nat) (s : State) : Host.Outcome State Fault Refusal :=
  event (fun m => match m.rel.corrective[n]? with
    | none => .no
    | some (word, v) =>
      if m.rel.stalls word then .no else
      .ok ({ m with rel := { m.rel with corrective := m.rel.corrective.eraseIdx n } }.correct word v)) s
/-- PATROL_SCRUB: the scrubber reads a word, and writes a corrected one back in the same step. -/
def Mach.scrub (m : Mach) (word : Nat) : Mach :=
  let m := (m.readWord word).1
  match m.rel.corrective.find? fun p => p.1 == word with
  | none => m
  | some (_, v) =>
    { m with rel := { m.rel with corrective := m.rel.corrective.filter fun p => p.1 != word } }.correct word v
def execPatrolScrub (word : Nat) (s : State) : Host.Outcome State Fault Refusal :=
  event (fun m => if m.rel.stalls word || decide (dramTop ≤ 8 * word) then .no else .ok (m.scrub word)) s

/-! ## The vertical bus (R378, R379) -/

/-- The wire lies in a failing parity group: data wires 0 to 255, parity wire g at 256 + g. -/
def wireIn (groups : Byte) (w : BitVec 9) : Bool :=
  if w.toNat < 256 then groups.getLsbD (w.toNat / 32) else decide (w.toNat < 264) && groups.getLsbD (w.toNat - 256)
/-- The lowest free soft-repair entry takes a wire: none when no spare is free. -/
def takeSpare (soft : List (BitVec 10)) (w : BitVec 9) : Option (List (BitVec 10)) :=
  match soft.findIdx? fun e => !e.getLsbD 9 with
  | some i => some (soft.set i (BitVec.ofNat 10 (512 + w.toNat)))
  | none => none
/-- Wires in turn: the entries, and the wires for which a spare was free. -/
def takeSpares (soft : List (BitVec 10)) (ws : List (BitVec 9)) : List (BitVec 10) × List (BitVec 9) :=
  ws.foldl (fun a w => match takeSpare a.1 w with
    | some s => (s, a.2 ++ [w])
    | none => a) (soft, [])
/-- Log entries on a channel; one with FATAL or SWAP raises the error interrupt. -/
def Rel.logBus (r : Rel) (channel : Nat) (es : List DWord) : Rel :=
  { r with
    busLogs := lset r.busLogs channel fun l => es.foldl (fun l e => l.add 32 e) l
    errorIrqs := r.errorIrqs + (es.filter fun e => e.getLsbD 62 || e.getLsbD 45).length }
/-- Retries of a failed transfer, each logged and counted. (log 45, DEDUCED) -/
def Mach.busRetries (m : Mach) (channel : Nat) (groups : Byte) (toDies : Bool) (n : Nat) : Mach :=
  { m with rel := m.rel.logBus channel ((List.range n).map fun i => busEntry false groups (i + 1) channel toDies none false) }.countDevice
    0x0202 n
/-- A channel becomes DEGRADED, with an entry that says so. -/
def Rel.degrade (r : Rel) (channel : Nat) (groups : Byte) (toDies : Bool) : Rel :=
  { r with status := lset r.status channel fun _ => .degraded }.logBus channel [busEntry true groups 3 channel toDies none false]
/-- VERTICAL_BUS_PARITY_FAILURE: a transfer whose first `failedRetries` retries failed too. After three, the wires that
training finds take spares, and the transfer is tried once more with the outcome `lastOk`. (log 45, DEDUCED) -/
def Mach.parityFailure (m : Mach) (channel : Nat) (groups : Byte) (toDies : Bool) (failedRetries : Nat) (wires : List (BitVec 9))
    (lastOk : Bool) : Ev :=
  if m.rel.status[channel]? ≠ some .ok ∨ groups = 0 ∨ 3 < failedRetries ∨ !wires.all (wireIn groups) then .no else
  let m := m.busRetries channel groups toDies (min 3 (failedRetries + 1))
  if failedRetries < 3 then .ok m else
  let (soft, taken) := takeSpares (m.rel.soft.getD channel []) wires
  let r := { m.rel with soft := lset m.rel.soft channel fun _ => soft }.logBus channel
    (taken.map fun w => busEntry false groups 3 channel toDies (some w) false)
  .ok { m with rel := if lastOk && taken.length == wires.length then r else r.degrade channel groups toDies }
def execVerticalBusParityFailure (channel : Nat) (groups : Byte) (toDies : Bool) (failedRetries : Nat) (wires : List (BitVec 9))
    (lastOk : Bool) (s : State) : Host.Outcome State Fault Refusal :=
  event (fun m => m.parityFailure channel groups toDies failedRetries wires lastOk) s

/-! ## Retraining (R380) -/

/-- CHANNEL_TRAINING_COMPLETE: the valid fuses take the lowest entries, then each failing wire the next free spare. -/
def Rel.trained (r : Rel) (channel : Nat) (failing : List (BitVec 9)) : Rel :=
  let fused := (r.hard.getD channel []).filter fun e => e.getLsbD 9
  let soft := fused ++ List.replicate (8 - fused.length) 0
  let (soft, taken) := takeSpares soft failing
  let st : ChanStatus := if taken.length = failing.length then .ok else .degraded
  { r with soft := lset r.soft channel fun _ => soft, status := lset r.status channel fun _ => st }
def execChannelTrainingComplete (channel : Nat) (failing : List (BitVec 9)) (s : State) : Host.Outcome State Fault Refusal :=
  event (fun m => if m.rel.status[channel]? = some .training then .ok { m with rel := m.rel.trained channel failing } else .no) s

/-! ## GDDR 7 (R381) -/

/-- GDDR_CRC_MISMATCH: as for the bus, with a retraining of the device's link in place of spares. (log 45, DEDUCED) -/
def Mach.gddrMismatch (m : Mach) (device : Nat) (toDies : Bool) (failedRetries : Nat) (retrainOk lastOk : Bool) : Ev :=
  if 16 ≤ device ∨ device ∈ m.rel.gddrDegraded ∨ 3 < failedRetries then .no else
  let log (r : Rel) (e : DWord) : Rel :=
    { r with gddrLog := r.gddrLog.add 64 e, errorIrqs := r.errorIrqs + (if e.getLsbD 62 then 1 else 0) }
  let r := (List.range (min 3 (failedRetries + 1))).foldl (fun r i => log r (busEntry false 0 (i + 1) device toDies none true)) m.rel
  if failedRetries < 3 then .ok { m with rel := r }
  else if retrainOk && lastOk then .ok { m with rel := log r (busEntry false 0 3 device toDies none true) }
  else .ok { m with rel := log { r with gddrDegraded := r.gddrDegraded ++ [device] } (busEntry true 0 3 device toDies none true) }
def execGddrCrcMismatch (device : Nat) (toDies : Bool) (failedRetries : Nat) (retrainOk lastOk : Bool) (s : State) :
    Host.Outcome State Fault Refusal :=
  event (fun m => m.gddrMismatch device toDies failedRetries retrainOk lastOk) s

/-- A line of GDDR 7 fails to decompress: its words are poisoned until they are written, and the reads that meet them are logged
(R381). (log 45, DEDUCED) -/
def Mach.decompressFails (m : Mach) (line : Nat) : Mach :=
  if 64 * line < dramTop ∨ gddrTop < 64 * line + 64 then m
  else { m with rel := { m.rel with bad := ((List.range 8).map (8 * line + ·)) ++ m.rel.bad.filter fun w => w / 8 != line } }

/-! ## The logs (R375) -/

/-- ERROR_LOG_CLEAR: the log is empty and its overflow count 0. -/
def Rel.clear (r : Rel) : LogSel → Rel
  | .array die => { r with arrayLogs := lset r.arrayLogs die fun _ => ErrLog.empty }
  | .bus channel => { r with busLogs := lset r.busLogs channel fun _ => ErrLog.empty }
  | .gddr => { r with gddrLog := ErrLog.empty }
def execErrorLogClear (log : LogSel) (s : State) : Host.Outcome State Fault Refusal :=
  event (fun m => .ok { m with rel := m.rel.clear log }) s

end Sys2Proof.Machine
end

