-- ==== Sys2Proof/Machine/Sampler.lean ====
section
/-! DEFINITION. The sampler (R224 to R230): descriptors, coordinates, filtering, and SMP, SMPL, SMPG, GTH4, TLD and
IST. -/

namespace Sys2Proof.Machine

/-! ## Descriptors (R225, R226) -/

/-- An image descriptor. -/
structure Img where
  base : Nat
  w : Nat
  h : Nat
  /-- number of levels -/
  levels : Nat
  fmt : Nat
  /-- 0 2D, 1 2D array, 2 3D -/
  dim : Nat
  d : Nat
  deriving DecidableEq, Repr
/-- Read an image descriptor (R225): none for a reserved field or code. A BASE off its 256 bytes is used as it stands (log 95, DESIGN
CHOICE). -/
def Img.ofBytes (bs : List Byte) : Option Img :=
  let e := fieldAt bs 8 4
  let c := fieldAt bs 12 4
  let i : Img := ⟨fieldAt bs 0 8, e % 2 ^ 16 + 1, e / 2 ^ 16 + 1, c / 2 ^ 24 % 16 + 1, c / 2 ^ 20 % 16, c / 2 ^ 18 % 4, c % 2 ^ 16 + 1⟩
  if c / 2 ^ 28 ≠ 0 ∨ c / 2 ^ 16 % 4 ≠ 0 ∨ fieldAt bs 16 16 ≠ 0 ∨ 6 < i.fmt ∨ i.dim = 3 then none else some i
/-- A sampler descriptor. -/
structure Smp where
  border : Bool
  aw : Nat
  av : Nat
  au : Nat
  mip : Nat
  min : Bool
  mag : Bool
  bias : Nat
  lodMin : Nat
  lodMax : Nat
  deriving DecidableEq, Repr
def Smp.ofBytes (bs : List Byte) : Option Smp :=
  let c := fieldAt bs 0 4
  if c / 2 ^ 11 ≠ 0 ∨ c / 4 % 4 = 3 then none else
  some ⟨c / 2 ^ 10 % 2 == 1, c / 2 ^ 8 % 4, c / 2 ^ 6 % 4, c / 2 ^ 4 % 4, c / 4 % 4, c / 2 % 2 == 1, c % 2 == 1,
    fieldAt bs 4 4, fieldAt bs 8 4, fieldAt bs 12 4⟩
/-- Bytes of a texel. -/
def Img.tb (i : Img) : Nat :=
  match i.fmt with
  | 1 => 1 | 3 => 8 | 5 => 16 | 6 => 8 | _ => 4
/-- Extents of a level, and its layers or depth. -/
def Img.wl (i : Img) (l : Nat) : Nat := max 1 (i.w / 2 ^ l)
def Img.hl (i : Img) (l : Nat) : Nat := max 1 (i.h / 2 ^ l)
/-- A DM1 of a 2D image counts for nothing (R225; log 96, DESIGN CHOICE). -/
def Img.dl (i : Img) (l : Nat) : Nat :=
  match i.dim with
  | 0 => 1 | 1 => i.d | _ => max 1 (i.d / 2 ^ l)
def Img.pitch (i : Img) (l : Nat) : Nat := (i.wl l * i.tb + 255) / 256 * 256
def Img.slice (i : Img) (l : Nat) : Nat := i.pitch l * i.hl l
def Img.off (i : Img) (l : Nat) : Nat := (List.range l).foldl (fun a k => a + i.slice k * i.dl k) 0
/-- Address of a texel. -/
def Img.texel (i : Img) (l x y z : Nat) : Nat :=
  (i.base + i.off l + z * i.slice l + y * i.pitch l + x * i.tb) % 2 ^ 64

/-! ## Texels (R227) -/

/-- The FP32 pattern of 1. -/
def one32 : Nat := 0x3F800000
/-- FP32 pattern of a UNORM byte. -/
def unorm (v : Nat) : Nat := (roundRat fp32 .rn false v 255).bits
/-- The four FP32 components of a texel. -/
def Img.comps (i : Img) (bs : List Byte) : List Nat :=
  let b (k : Nat) : Nat := (bs.getD k 0).toNat
  let h (f : FFmt) (k : Nat) : Nat := ((f.val (fieldAt bs (2 * k) 2)).round fp32 .rn).bits
  let w (k : Nat) : Nat := fieldAt bs (4 * k) 4
  match i.fmt with
  | 0 => [unorm (b 0), unorm (b 1), unorm (b 2), unorm (b 3)]
  | 1 => [unorm (b 0), 0, 0, one32]
  | 2 => [h fp16 0, h fp16 1, 0, one32]
  | 3 => [h fp16 0, h fp16 1, h fp16 2, h fp16 3]
  | 4 => [w 0, 0, 0, one32]
  | 5 => [w 0, w 1, w 2, w 3]
  | _ => [h bf16 0, h bf16 1, h bf16 2, h bf16 3]
/-- A component stored as UNORM: NaN gives 0 (R229). -/
def toUnorm (x : Nat) : Nat :=
  match fp32.val x with
  | .nan => 0
  | .inf s => if s then 0 else 255
  | .fin s m e => if s then 0 else min 255 (roundMag .rn false (m * 255) e).1
/-- The bytes of a texel that holds four FP32 components (R229). -/
def Img.store (i : Img) (c : List Nat) : List Byte :=
  let x (k : Nat) : Nat := c.getD k 0
  let h (f : FFmt) (k : Nat) : List Byte := leBytes 2 ((fp32.val (x k)).round f .rn).bits
  let w (k : Nat) : List Byte := leBytes 4 ((fp32.val (x k)).round fp32 .rn).bits
  match i.fmt with
  | 0 => (List.range 4).flatMap fun k => leBytes 1 (toUnorm (x k))
  | 1 => leBytes 1 (toUnorm (x 0))
  | 2 => h fp16 0 ++ h fp16 1
  | 3 => (List.range 4).flatMap (h fp16)
  | 4 => w 0
  | 5 => (List.range 4).flatMap w
  | _ => (List.range 4).flatMap (h bf16)

/-- An integer coordinate on an axis of size n; none is the border. -/
def resolve (mode n : Nat) (i : Int) : Option Nat :=
  match mode with
  | 0 => some (i % n).toNat
  | 1 => some (min i.toNat (n - 1))
  | 2 => let m := (i % (2 * n : Nat)).toNat
    some (if m < n then m else 2 * n - 1 - m)
  | _ => if 0 ≤ i ∧ i < n then some i.toNat else none

/-! ## Filtering (R228) -/

/-- Floor of a finite value, and its fraction rounded to 8 bits; a fraction of 1 raises the floor. -/
def FV.floor8 : FV → Option (Int × Nat)
  | .fin s m e =>
    let (n, d) := ratOf m e
    let a : Int := if s then -(n : Int) else n
    let r := (a % d).toNat * 256
    let f := if roundUp .rn false (r / d) (r % d) d then r / d + 1 else r / d
    some (if f = 256 then (a / d + 1, 0) else (a / d, f))
  | _ => none
/-- Floor of a finite value. -/
def FV.floor : FV → Option Int
  | .fin s m e => let (n, d) := ratOf m e
    some ((if s then -(n : Int) else n) / (d : Int))
  | _ => none
/-- FP32 pattern of a natural number. -/
def natF (n : Nat) : Nat := (roundRat fp32 .rn false n 1).bits
/-- The position of a linear filter on an axis: i0 and f. -/
def linearAt (u n : Nat) : Option (Int × Nat) :=
  (fp32.val (fSub fp32 .rn (fMul fp32 .rn u (natF n)).bits 0x3F000000).bits).floor8
/-- The texels an axis contributes: coordinate and weight out of 256. -/
def axisTaps (linear : Bool) (u n : Nat) : Option (List (Int × Nat)) :=
  if linear then (linearAt u n).map fun p => [(p.1, 256 - p.2), (p.1 + 1, p.2)].filter fun t => t.2 != 0
  else (fp32.val (fMul fp32 .rn u (natF n)).bits).floor.map fun i => [(i, 256)]
/-- An array layer (R227). -/
def layerOf (w n : Nat) : Option Nat :=
  match fp32.val w with
  | .fin s m e => let k := (roundMag .rn s m e).1
    some (if s then 0 else min k (n - 1))
  | _ => none
/-- Where a contributing texel lies. -/
inductive Texel where
  | at' (va : Nat)
  | border
  deriving DecidableEq, Repr
/-- A contributing texel with its weight, out of 2^32. -/
structure Tap where
  w : Nat
  t : Texel
  deriving DecidableEq, Repr
/-- A texel at resolved coordinates. -/
def Img.tap (i : Img) (s : Smp) (l : Nat) (w : Nat) (x y z : Int) : Tap :=
  match resolve s.au (i.wl l) x, resolve s.av (i.hl l) y,
      (if i.dim = 2 then resolve s.aw (i.dl l) z else some z.toNat) with
  | some x, some y, some z => ⟨w, .at' (i.texel l x y z)⟩
  | _, _, _ => ⟨w, .border⟩
/-- The taps of one level; the weights of the axes and of the level multiply. None where a coordinate has no value
the spec states. -/
def Img.levelTaps (i : Img) (s : Smp) (linear : Bool) (l wl : Nat) (c : List Nat) : Option (List Tap) :=
  let zs : Option (List (Int × Nat)) := match i.dim with
    | 0 => some [(0, 256)]
    | 1 => (layerOf (c.getD 2 0) (i.dl l)).map fun k => [((k : Int), 256)]
    | _ => axisTaps linear (c.getD 2 0) (i.dl l)
  match axisTaps linear (c.getD 0 0) (i.wl l), axisTaps linear (c.getD 1 0) (i.hl l), zs with
  | some xs, some ys, some zs => some (zs.flatMap fun z => ys.flatMap fun y => xs.map fun x =>
      i.tap s l (wl * x.2 * y.2 * z.2) x.1 y.1 z.1)
  | _, _, _ => none
/-- λ after BIAS and the clamps (R228); LEVELS counts the levels here (log 63, DEDUCED). None where the spec states no value: a NaN, or
bounds that are out of order. (log 17, DESIGN CHOICE) -/
def lodOf (i : Img) (s : Smp) (log2rho : Nat) : Option Nat :=
  let x := (fAdd fp32 .rn log2rho s.bias).bits
  match (fp32.val s.lodMin).cmp (fp32.val s.lodMax), (fp32.val x).isNan with
  | some d, false =>
    if 0 < d then none else
    let x := (fMinMax fp32 false (fMinMax fp32 true x s.lodMin).bits s.lodMax).bits
    some (fMinMax fp32 false (fMinMax fp32 true x 0).bits (natF i.levels)).bits
  | _, _ => none
/-- Level floor(λ + 0.5), no higher than the last. -/
def nearLevel (i : Img) (lam : Nat) : Nat :=
  match exactSum .rn [fp32.val lam, .fin false 1 (-1)] with
  | (v, _) => min ((v.floor).getD 0).toNat (i.levels - 1)
/-- The level GTH4 reads, from the λ in F (R229): none where the spec states no level. (log 63, DEDUCED) -/
def gatherLevel (i : Img) (lam : Nat) : Option Nat :=
  ((exactSum .rn [fp32.val lam, .fin false 1 (-1)]).1.floor).bind fun k =>
    if k < 0 then none else some (min k.toNat (i.levels - 1))
/-- Levels read, with weights out of 256. -/
def levelsOf (i : Img) (s : Smp) (lam : Nat) : List (Nat × Nat) :=
  match s.mip with
  | 0 => [(0, 256)]
  | 1 => [(nearLevel i lam, 256)]
  | _ => match (fp32.val lam).floor8 with
    | some (l, f) => [(min l.toNat (i.levels - 1), 256 - f), (min (l.toNat + 1) (i.levels - 1), f)].filter fun p => p.2 != 0
    | none => []
/-- The taps of a filtered sample. -/
def Img.taps (i : Img) (s : Smp) (log2rho : Option Nat) (c : List Nat) : Option (List Tap) :=
  match log2rho.bind (lodOf i s) with
  | none => none
  | some lam =>
    let linear := if (fp32.val lam).isZero then s.mag else s.min
    (levelsOf i s lam).foldr (fun p acc => match acc, i.levelTaps s linear p.1 p.2 c with
      | some a, some b => some (b ++ a)
      | _, _ => none) (some [])
/-- Euclidean length of a derivative scaled to level 0. -/
def derivLen (i : Img) (du dv : Nat) : Nat :=
  let a := (fMul fp32 .rn du (natF i.w)).bits
  let b := (fMul fp32 .rn dv (natF i.h)).bits
  (fSpec 2 .rn (BitVec.ofNat 32 (fAdd fp32 .rn (fMul fp32 .rn a a).bits (fMul fp32 .rn b b).bits).bits)).bits
/-- log2 of the larger of the two lengths; none when a length is a NaN. -/
def log2Rho (i : Img) (d : List Nat) : Option Nat :=
  let x := derivLen i (d.getD 0 0) (d.getD 1 0)
  let y := derivLen i (d.getD 2 0) (d.getD 3 0)
  if (fp32.val x).isNan || (fp32.val y).isNan then none
  else some (fSpec 4 .rn (BitVec.ofNat 32 (fMinMax fp32 true x y).bits)).bits
/-- The filtered result: each component one rounded exact sum over the taps. -/
def Img.blend (i : Img) (s : Smp) (taps : List Tap) (bytes : Nat → List Byte) : List Nat :=
  let cs := taps.map fun t => (t.w, match t.t with
    | .at' va => i.comps (bytes va)
    | .border => List.replicate 4 (if s.border then one32 else 0))
  (List.range 4).map fun k =>
    (fAddV fp32 .rn (cs.map fun c => ((FV.fin false c.1 (-32)).mul (fp32.val (c.2.getD k 0))).1)).bits

/-! ## Reading descriptors and texels (R230) -/

/-- What the reads of an entry find: bytes by lane and address, nothing for a lane whose fault is suppressed. -/
inductive TexRes where
  | ok (m : Mach) (vals : List (Nat × Option (List (Nat × List Byte)))) (bad : List (Nat × Nat))
  | eff (x : Eff)
/-- Read addresses of lanes through the sampler path: checks over all of them, then the reads, each by the class of its page. -/
def Env.texBytes (e : Env) (m : Mach) (n : Nat) (wants : List (Nat × List Nat)) : TexRes :=
  let chk (va : Nat) : Chk := m.check e.core e.asid e.system .load 2 va n
  let cls (va : Nat) : Nat := match chk va with
    | .ok k => k
    | _ => 0
  match e.judge e.hushed (wants.flatMap fun p => p.2.map fun va => (p.1, chk va)) with
  | .walk va => .eff (e.waits m (.walk va))
  | .trap ls code addr => .eff (e.loadTrap m ls code 0 addr)
  | .ok _ failing =>
    let r := wants.foldl (fun (r : TexRes × List Acs) p =>
      match r.1 with
      | .eff _ => r
      | .ok m vals bad =>
        if e.isDenied p.1 then r else
        if (failing.lookup p.1).isSome then (.ok m (vals ++ [(p.1, none)]) bad, r.2) else
        let one : TexRes × List Acs := p.2.foldl (fun (r : TexRes × List Acs) va =>
          match r.1 with
          | .ok m ((l, some bs) :: vs) bad =>
            (match e.pathRead m p.1 2 va n (cls va) with
            | .ok m b => (.ok m ((l, some (bs ++ [(va, b)])) :: vs) bad, r.2)
            | .poison m a => if e.hushed p.1 then (.ok (e.suppress1 m p.1) ((l, none) :: vs) bad, r.2)
              else (.ok m ((l, some (bs ++ [(va, [])])) :: vs) (bad ++ [(p.1, a)]), r.2)
            | .miss m _ => (.ok m ((l, some bs) :: vs) bad, r.2 ++ [(p.1, va)])
            | .held m => (.eff (.hold m), r.2)
            | .fault m code info a => if e.hushed p.1 then (.ok (e.suppress1 m p.1) ((l, none) :: vs) bad, r.2)
              else (.eff (e.loadTrap m [p.1] code info (BitVec.ofNat 64 a)), r.2))
          | _ => r) (.ok m [(p.1, some [])] bad, r.2)
        match one.1 with
        | .ok m vs bad => (.ok m (vals ++ vs) bad, one.2)
        | .eff _ => one) (TexRes.ok (e.suppress (m.usedWalks e.core e.asid) failing) [] [], [])
    match r.1 with
    | .ok m _ _ =>
      if !r.2.isEmpty then .eff (e.parkOn m 2 r.2) else
      (match e.denial m id with
      | some x => .eff x
      | none => r.1)
    | _ => r.1
/-- The first bytes that some lane read. -/
def texFirst (vals : List (Nat × Option (List (Nat × List Byte)))) : Option (List Byte) :=
  vals.findSome? fun v => match v.2 with
    | some (b :: _) => some b.2
    | _ => none
/-- Results of D that arrive later. -/
def Env.texDone (e : Env) (x : AsyncOp) (m : Mach) (vals : List (Nat × List Nat)) (bad : List (Nat × Nat)) : Eff :=
  .done (e.later m (vals.reverse.flatMap fun v => wordWrites x.d v.1 (v.2.map (BitVec.ofNat 32))) [] bad) e.lanes
/-- Zeros for lanes. -/
def zeros4 (ls : List Nat) : List (Nat × List Nat) := ls.map fun l => (l, [0, 0, 0, 0])
/-- Read the descriptors, and go on with them. Where every lane's fault is suppressed the results are 0. -/
def Env.withDesc (e : Env) (x : AsyncOp) (ls : List Nat) (useE store : Bool)
    (k : Mach → Img → Smp → Eff) : Eff :=
  if ls.isEmpty then .done e.m e.lanes else
  let none0 (m : Mach) (bad : List (Nat × Nat)) : Eff :=
    if store then .done m e.lanes else e.texDone x m (zeros4 ls) bad
  let iva := (e.getSrc (ls.headD 0) x.b 2).toNat
  match e.texBytes e.m 32 (ls.map fun l => (l, [iva])) with
  | .eff y => y
  | .ok m vals bad =>
    if !bad.isEmpty then
      -- an uncorrectable descriptor: the results carry the poison to LOAD_RETURN; a store has none, and runs again at once (R354)
      (if store then e.loadTrap m (bad.map (·.1)) Code.dataUncorrectable 0 (BitVec.ofNat 64 iva) else none0 m bad)
    else match texFirst vals with
    | none => none0 m []
    | some ib =>
      let illegal : Eff := .trap m e.named Code.illegalOperand 0 0
      match Img.ofBytes ib with
      | none => illegal
      | some img =>
        if img.dim ≠ 0 ∧ e.w.base + e.w.ext < x.a.idx.toNat + 3 then illegal else
        match (if img.dim = 0 then none else e.late (ls.map fun l => x.a.key l 2)) with
        | some y => y
        | none =>
        if !useE then k m img ⟨false, 0, 0, 0, 0, false, false, 0, 0, 0⟩
        else
          let sva := (e.getPair (ls.headD 0) x.e).toNat
          match e.texBytes m 16 (ls.map fun l => (l, [sva])) with
          | .eff y => y
          | .ok m vals bad =>
            if !bad.isEmpty then none0 m bad
            else match texFirst vals with
            | none => none0 m []
            | some sb =>
              match Smp.ofBytes sb with
              | none => .trap m e.named Code.illegalOperand 0 0
              | some smp => k m img smp
/-- Coordinates in A of a lane. -/
def Env.coords (e : Env) (x : AsyncOp) (l : Nat) : List Nat := (List.range 3).map fun i => (e.w.getI e.clk l x.a i).toNat
/-- Addresses of the taps of a plan. -/
def tapVas (taps : List Tap) : List Nat :=
  (taps.filterMap fun t => match t.t with | .at' va => some va | .border => none).eraseDups
/-- Sample by a plan of each lane, combined by `mix`; a lane without a plan takes free values (log 17, DESIGN CHOICE). -/
def Env.planned (e : Env) (x : AsyncOp) (m : Mach) (img : Img) (ls : List Nat) (plan : Nat → Option (List Tap))
    (mix : List Tap → (Nat → List Byte) → List Nat) : Eff :=
  let ps := ls.map fun l => (l, plan l)
  match e.texBytes m img.tb (ps.map fun p => (p.1, tapVas (p.2.getD []))) with
  | .eff y => y
  | .ok m vals bad =>
    let r := ps.foldl (fun (a : Mach × List (Nat × List Nat)) p =>
      match p.2, (vals.lookup p.1).getD none with
      | some taps, some bs => (a.1, a.2 ++ [(p.1, mix taps fun va => (bs.lookup va).getD [])])
      | some _, none => (a.1, a.2 ++ [(p.1, [0, 0, 0, 0])])
      | none, _ =>
        let (v0, m) := a.1.free
        let (v1, m) := m.free
        (m, a.2 ++ [(p.1, [v0.toNat % 2 ^ 32, v0.toNat / 2 ^ 32, v1.toNat % 2 ^ 32, v1.toNat / 2 ^ 32])])) (m, [])
    e.texDone x r.1 r.2 bad
/-- A filtered sample with a log2 of ρ for each lane. -/
def Env.filtered (e : Env) (x : AsyncOp) (rho : Img → Nat → Option Nat) : Eff :=
  e.withDesc x (e.ordered e.all) true false fun m img smp =>
    e.planned x m img (e.ordered e.all) (fun l => img.taps smp (rho img l) (e.coords x l)) fun taps bytes => img.blend smp taps bytes

/-! ## The instructions (R229) -/

/-- SMP: λ from the quad's differences (R164, fine mode). -/
def execSmp (x : AsyncOp) (s : State) : Host.Outcome State Fault Refusal :=
  perform (.smp x) x.ctl (fun e =>
    let at' (l p i : Nat) : Nat := (e.w.getI e.clk (e.quadAt l p) x.a i).toNat
    let dx (l i : Nat) : Nat := (fSub fp32 .rn (at' l (l % 4 ||| 1) i) (at' l (l % 4 &&& 2) i)).bits
    let dy (l i : Nat) : Nat := (fSub fp32 .rn (at' l (l % 4 ||| 2) i) (at' l (l % 4 &&& 1) i)).bits
    e.filtered x fun img l => log2Rho img [dx l 0, dx l 1, dy l 0, dy l 1]) s
def execSmpl (x : AsyncOp) (s : State) : Host.Outcome State Fault Refusal :=
  perform (.smpl x) x.ctl (fun e => e.filtered x fun _ l => some (e.get l x.f).toNat) s
def execSmpg (x : AsyncOp) (s : State) : Host.Outcome State Fault Refusal :=
  perform (.smpg x) x.ctl (fun e =>
    e.filtered x fun img l => log2Rho img ((List.range 4).map fun i => (e.w.getI e.clk l x.f i).toNat)) s
/-- GTH4: the four bilinear texels of a level (log 63, DEDUCED); the spec states none for a 3D image (log 17, DESIGN CHOICE). -/
def execGth4 (x : AsyncOp) (s : State) : Host.Outcome State Fault Refusal :=
  perform (.gth4 x) x.ctl (fun e => e.withDesc x (e.ordered e.all) true false fun m img smp =>
    let plan (l : Nat) : Option (List Tap) :=
      match gatherLevel img (e.get l x.f).toNat with
      | none => none
      | some lv =>
        let c := e.coords x l
        let z : Option Nat := match img.dim with
          | 0 => some 0
          | 1 => layerOf (c.getD 2 0) (img.dl lv)
          | _ => none
        match linearAt (c.getD 0 0) (img.wl lv), linearAt (c.getD 1 0) (img.hl lv), z with
        | some (i, _), some (j, _), some z =>
          some ([(i, j), (i + 1, j), (i, j + 1), (i + 1, j + 1)].map fun p => img.tap smp lv 0 p.1 p.2 z)
        | _, _, _ => none
    e.planned x m img (e.ordered e.all) plan fun taps bytes => taps.map fun t => match t.t with
      | .at' va => (img.comps (bytes va)).getD (x.imm8b.toNat % 4) 0
      | .border => if smp.border then one32 else 0) s
/-- The texel at integer coordinates of a lane, if it is in range. -/
def Env.texelOf (e : Env) (x : AsyncOp) (img : Img) (l : Nat) : Option Nat :=
  let c := e.coords x l
  let lv := (e.get l x.f).toNat
  let z := if img.dim = 0 then 0 else c.getD 2 0
  if lv < img.levels ∧ c.getD 0 0 < img.wl lv ∧ c.getD 1 0 < img.hl lv ∧ z < img.dl lv
  then some (img.texel lv (c.getD 0 0) (c.getD 1 0) z) else none
def execTld (x : AsyncOp) (s : State) : Host.Outcome State Fault Refusal :=
  perform (.tld x) x.ctl (fun e => e.withDesc x (e.ordered e.all) false false fun m img _ =>
    e.planned x m img (e.ordered e.all) (fun l => some ((e.texelOf x img l).toList.map fun va => ⟨0, .at' va⟩)) fun taps bytes =>
      match tapVas taps with
      | va :: _ => img.comps (bytes va)
      | [] => [0, 0, 0, 0]) s
/-- IST writes as ST does (R230). -/
def execIst (x : AsyncOp) (s : State) : Host.Outcome State Fault Refusal :=
  perform (.ist x) x.ctl (fun e => e.withDesc x (e.ordered e.act) false true fun m img _ =>
    let rq := (e.ordered e.act).filterMap fun l => (e.texelOf x img l).map fun va => (l, va)
    match e.checkAll m .store 0 img.tb true rq with
    | .walk va => e.waits m (.walk va)
    | .trap ls code addr => e.accessTrap m ls code 0 addr
    | .ok cls failing =>
      let data (l : Nat) : List Byte := img.store ((List.range 4).map fun i => (e.w.getI e.clk l x.d i).toNat)
      if e.storeHeld cls rq img.tb data then .hold m else
      e.storeAll (e.suppress (m.usedWalks e.core e.asid) failing) cls rq data .norm) s

end Sys2Proof.Machine
end

