-- ==== Sys2Proof/Machine/Tables.lean ====
section
/-! DEFINITION. ATLBINV (R321), from a wave and from the switchboard. -/

namespace Sys2Proof.Machine

/-- Remove cached translations and grove entries (R321): those of a page, of an ASID, or all. -/
def Mach.atlbInv (m : Mach) (scope : InvScope) (asid : BitVec 16) (va : Nat) : Mach :=
  let hit (a : BitVec 16) (vpn size : Nat) : Bool := match scope with
    | .page => a == asid && covers vpn size va
    | .asid => a == asid
    | .all => true
  -- a walk that failed says nothing of the page's size, which may have changed since: an ASID's notes of them all go
  let noted (a : BitVec 16) : Bool := match scope with
    | .all => true
    | _ => a == asid
  -- the page lies in a grove by a cached translation or grove entry, or by the page table as it stands
  let inGrove := m.trans.any (fun p => p.2.any fun t => t.asid == asid && covers t.vpn t.size va && t.cls == 1)
    || m.groveCache.any (fun p => p.1 / 1024 == asid.toNat && (Grove.ofBytes p.2).has va)
    || (match (m.ctxOf asid).map fun c => (m.walkTable c.ptroot va).2 with
      | some (.leaf e _) => e / 2 ^ 9 % 8 == 1
      | _ => false)
  let gone (key : Nat) : Bool := match scope with
    | .page => inGrove && key / 1024 == asid.toNat
    | .asid => key / 1024 == asid.toNat
    | .all => true
  { m with
    trans := (m.trans.map fun p => (p.1, p.2.filter fun t => !hit t.asid t.vpn t.size)).filter fun p => !p.2.isEmpty
    groveCache := mkeep m.groveCache fun k => !gone k
    cores := m.cores.map fun p => (p.1, { p.2 with
      tlb := p.2.tlb.filter fun t => !hit t.asid t.vpn t.size
      walks := p.2.walks.filter fun f => !noted f.asid }) }
def execAtlbinv (x : AtlbinvOp) (s : State) : Host.Outcome State Fault Refusal :=
  perform (.atlbinv x) x.ctl (fun e => e.once fun e =>
    let asid : BitVec 16 := if x.scope == .all then 0 else (e.get e.first x.b).setWidth 16
    let va := if x.scope == .page then (e.getPair e.first x.a).toNat else 0
    .done (e.m.atlbInv x.scope asid va) e.lanes) s
/-- The same from an RV64 core (R321). -/
def execAtlbinvSwitchboard (scope : InvScope) (asid : BitVec 16) (va : DWord) (s : State) : Host.Outcome State Fault Refusal :=
  event (fun m => .ok (m.atlbInv scope asid va.toNat)) s

end Sys2Proof.Machine
end

