-- ==== Sys2Proof/Machine/Tasks.lean ====
section
/-! DEFINITION. Row 0x1, tasks: SPAWN, SPAWNR, FRAME and AWAIT (R38 to R43, R272 to R276). -/

namespace Sys2Proof.Machine

/-! ## Spawning -/

/-- A record a thread pushes, with its grid for SPAWNR. -/
structure Spawning where
  lane : Nat
  off : Nat
  task : TaskRec
  /-- extents of SPAWNR -/
  grid : Option (Nat × Nat × Nat)
/-- Groups a push stands for (R41). -/
def Spawning.groups (p : Spawning) : Nat :=
  match p.grid with
  | some (x, y, z) => x * y * z
  | none => p.task.parts
/-- The first failing check of R272 or R273: the threads that fail, the code, INFO and the address. -/
def Env.spawnCheck (e : Env) (m : Mach) (ps : List Spawning) (badC : Nat → Bool) : Option (List Nat × Nat × Nat × Nat) :=
  let ring := e.core / 4
  let h := e.g.frames.getD e.w.depth 0
  let pick (f : Spawning → Bool) (code : Nat) : Option (List Nat × Nat × Nat × Nat) :=
    match ps.filter f with
    | [] => none
    | p :: r => some ((p :: r).map (·.lane), code, 0, if code = Code.align ∨ code = Code.perm then p.off else 0)
  let total := ps.foldl (fun n p => n + p.groups) 0
  (pick (fun p => p.off % 64 != 0) Code.align)
    |>.or (pick (fun p => decide (e.g.grant < p.off + 64)) Code.perm)
    |>.or (pick (fun p => !p.task.ok || badC p.lane || (match p.grid with
        | some (x, _, _) => x % p.task.parts != 0
        | none => false)) Code.illegalOperand)
    |>.or (if 2 ^ 32 ≤ m.countOf e.asid h + total then some (ps.map (·.lane), Code.spawnLimit, 0, 0) else none)
    |>.or (if !m.quotaOk e.asid ring ps.length then some (ps.map (·.lane), Code.quota, 0, 0) else none)
/-- Push the records of an entry, in the order of their list (R272): release, COUNT, then the spawn queue of the convoy. -/
def Env.spawnAll (e : Env) (m : Mach) (ps : List Spawning) (badC : Nat → Bool) : Eff :=
  if ps.isEmpty then .done m e.lanes else
  match e.spawnCheck m ps badC with
  | some (ls, code, info, addr) => .trap m ls code info (BitVec.ofNat 64 addr)
  | none =>
    if m.flushHeld e.core e.asid then .hold m else
    let m := m.release e.core e.asid
    let sig := ((m.group e.iss.gid).map (·.sig)).getD 0
    let h := e.g.frames.getD e.w.depth 0
    let m := m.updFrame e.asid h fun f => { f with count := f.count + ps.foldl (fun n p => n + p.groups) 0 }
    let m := ps.foldl (fun (m : Mach) p =>
      let launch : Word := if p.grid.isSome then BitVec.ofNat 32 m.nextLaunch else e.g.launch
      let entry : SpawnEntry :=
        { asid := e.asid, task := { p.task with link := BitVec.ofNat 64 h }, sig := sig, launch := launch
          grid := p.grid.map fun q => (q.1, q.2.1, q.2.2, 0), queue := none, serial := m.nextSerial, system := e.system }
      let m := { m with nextSerial := m.nextSerial + 1, nextLaunch := if p.grid.isSome then m.nextLaunch + 1 else m.nextLaunch }
      m.push e.asid (e.core / 4) (.spawn entry)) m
    .done m e.lanes
/-- The records at the scratchpad offsets in A, read in ascending threads (R199, R204). -/
def Env.records (e : Env) (a : Opnd) (grid : Nat → Option (Nat × Nat × Nat)) : Mach × List Spawning :=
  (e.ordered e.act).foldl (fun r l =>
    let off := (e.get l a).toNat
    let (m, bs) := r.1.threadRead e.g off 64
    (m, r.2 ++ [⟨l, off, TaskRec.ofBytes bs, grid l⟩])) (e.m, [])
def execSpawn (x : OneOp) (s : State) : Host.Outcome State Fault Refusal :=
  perform (.spawn x) x.ctl (fun e =>
    let r := e.records x.a fun _ => none
    e.spawnAll r.1 r.2 fun _ => false) s
/-- SPAWNR (R273): extents from B and C; C[31:16] must be zero. -/
def execSpawnr (x : AbcOp) (s : State) : Host.Outcome State Fault Refusal :=
  perform (.spawnr x) x.ctl (fun e =>
    let grid (l : Nat) : Nat × Nat × Nat :=
      let b := (e.getSrc32 l x.b).toNat
      (b % 2 ^ 16 + 1, b / 2 ^ 16 + 1, (e.get l x.c).toNat % 2 ^ 16 + 1)
    let r := e.records x.a fun l => some (grid l)
    e.spawnAll r.1 r.2 fun l => decide (2 ^ 16 ≤ (e.get l x.c).toNat)) s

/-! ## Frames and AWAIT -/

/-- The depth that a FRAME re-executed after a rollback restores, when every thread of the entry has one to restore (R275).
(log 74, DEDUCED) -/
def Env.replay (e : Env) : Option Nat :=
  if e.act.all fun l => !(e.w.lane l).framesReplay.isEmpty then (e.w.lane e.first).framesReplay.head? else none
/-- The wave stands at a depth; its threads count the FRAME in their regions. -/
def Env.deepen (e : Env) (m : Mach) (d : Nat) : Mach :=
  e.upd m fun w => { w.updLanes e.act fun t => { t with framesDone := t.framesDone ++ [d] } with depth := d }
/-- FRAME (R274): every live thread of the wave must perform it. A FRAME replayed after a rollback opens nothing
(R275). (log 74, DEDUCED) -/
def execFrame (x : PlainOp) (s : State) : Host.Outcome State Fault Refusal :=
  perform (.frame x) x.ctl (fun e =>
    match (if e.act.isEmpty then none else e.replay) with
    | some d => .done (e.upd (e.deepen e.m d) fun w => w.updLanes e.act fun t => { t with framesReplay := t.framesReplay.tail }) e.lanes
    | none =>
      let d := e.w.depth + 1
      if e.act != e.w.live then .trap e.m e.named Code.illegalOperand 0 0
      else if 16 ≤ d then .trap e.m e.named Code.spawnLimit 0 0
      else if e.g.frames.getD d 0 ≠ 0 then .done (e.deepen e.m d) e.lanes
      else match e.m.openFrame e.asid (e.g.frames.getD e.w.depth 0) 0 false with
        | some (m, h) => .done (e.deepen (e.updG m fun g => { g with frames := framesSet g.frames d h }) d) e.lanes
        | none => .trap e.m e.named Code.spawnLimit 0 0) s
/-- AWAIT (R276): after the wave's tokens are written its threads park; a rendezvous they complete goes on at once
when the frame's COUNT is zero. -/
def execAwait (x : PlainOp) (s : State) : Host.Outcome State Fault Refusal :=
  perform (.await x) x.ctl (fun e => e.once fun e =>
    if e.g.waves.any fun w => w.depth != e.w.depth && w.live.any (fun l => (w.lane l).wait == .await)
    then .trap e.m e.named Code.illegalOperand 0 0
    else
      let m := e.upd e.m fun w => w.updLanes e.act fun t => { t with wait := .await, pc := e.next }
      let m := (e.countPark m).rendezvous e.iss.gid
      .done m (e.lanes.filter fun l => !e.act.contains l)) s

end Sys2Proof.Machine
end

