-- ==== Sys2Proof/Machine/Dispatch.lean ====
section
/-! DEFINITION. The meaning of each instruction: one arm for each constructor, each a call of one meaning. -/

namespace Sys2Proof.Machine

def exec (i : Instr) (s : State) : Host.Outcome State Fault Refusal :=
  match i with
  | .nop x => Sys2Proof.Machine.execNop x s
  | .bra x => Sys2Proof.Machine.execBra x s
  | .brx x => Sys2Proof.Machine.execBrx x s
  | .call x => Sys2Proof.Machine.execCall x s
  | .ret x => Sys2Proof.Machine.execRet x s
  | .switch x => Sys2Proof.Machine.execSwitch x s
  | .exit x => Sys2Proof.Machine.execExit x s
  | .trap x => Sys2Proof.Machine.execTrap x s
  | .brk x => Sys2Proof.Machine.execBrk x s
  | .yield x => Sys2Proof.Machine.execYield x s
  | .eret x => Sys2Proof.Machine.execEret x s
  | .isync x => Sys2Proof.Machine.execIsync x s
  | .tokw x => Sys2Proof.Machine.execTokw x s
  | .spawn x => Sys2Proof.Machine.execSpawn x s
  | .spawnr x => Sys2Proof.Machine.execSpawnr x s
  | .await x => Sys2Proof.Machine.execAwait x s
  | .frame x => Sys2Proof.Machine.execFrame x s
  | .bara x => Sys2Proof.Machine.execBara x s
  | .barw x => Sys2Proof.Machine.execBarw x s
  | .baraw x => Sys2Proof.Machine.execBaraw x s
  | .tbinit x => Sys2Proof.Machine.execTbinit x s
  | .tbarr x => Sys2Proof.Machine.execTbarr x s
  | .tbexp x => Sys2Proof.Machine.execTbexp x s
  | .tbwait x => Sys2Proof.Machine.execTbwait x s
  | .tbrel x => Sys2Proof.Machine.execTbrel x s
  | .iadd x => Sys2Proof.Machine.execIadd x s
  | .isub x => Sys2Proof.Machine.execIsub x s
  | .imul x => Sys2Proof.Machine.execImul x s
  | .imulh x => Sys2Proof.Machine.execImulh x s
  | .imad x => Sys2Proof.Machine.execImad x s
  | .iaddc x => Sys2Proof.Machine.execIaddc x s
  | .isubb x => Sys2Proof.Machine.execIsubb x s
  | .ineg x => Sys2Proof.Machine.execIneg x s
  | .iabs x => Sys2Proof.Machine.execIabs x s
  | .imin x => Sys2Proof.Machine.execImin x s
  | .imax x => Sys2Proof.Machine.execImax x s
  | .icmp x => Sys2Proof.Machine.execIcmp x s
  | .lea x => Sys2Proof.Machine.execLea x s
  | .idot4 x => Sys2Proof.Machine.execIdot4 x s
  | .and x => Sys2Proof.Machine.execAnd x s
  | .or x => Sys2Proof.Machine.execOr x s
  | .xor x => Sys2Proof.Machine.execXor x s
  | .andn x => Sys2Proof.Machine.execAndn x s
  | .not x => Sys2Proof.Machine.execNot x s
  | .shl x => Sys2Proof.Machine.execShl x s
  | .shr x => Sys2Proof.Machine.execShr x s
  | .sar x => Sys2Proof.Machine.execSar x s
  | .rol x => Sys2Proof.Machine.execRol x s
  | .bfe x => Sys2Proof.Machine.execBfe x s
  | .bfi x => Sys2Proof.Machine.execBfi x s
  | .popc x => Sys2Proof.Machine.execPopc x s
  | .clz x => Sys2Proof.Machine.execClz x s
  | .ctz x => Sys2Proof.Machine.execCtz x s
  | .brev x => Sys2Proof.Machine.execBrev x s
  | .prmt x => Sys2Proof.Machine.execPrmt x s
  | .mov x => Sys2Proof.Machine.execMov x s
  | .sel x => Sys2Proof.Machine.execSel x s
  | .movsr x => Sys2Proof.Machine.execMovsr x s
  | .movsw x => Sys2Proof.Machine.execMovsw x s
  | .ccrd x => Sys2Proof.Machine.execCcrd x s
  | .ccwr x => Sys2Proof.Machine.execCcwr x s
  | .cctst x => Sys2Proof.Machine.execCctst x s
  | .wldc x => Sys2Proof.Machine.execWldc x s
  | .xacq x => Sys2Proof.Machine.execXacq x s
  | .xrel x => Sys2Proof.Machine.execXrel x s
  | .fadd x => Sys2Proof.Machine.execFadd x s
  | .fsub x => Sys2Proof.Machine.execFsub x s
  | .fmul x => Sys2Proof.Machine.execFmul x s
  | .ffma x => Sys2Proof.Machine.execFfma x s
  | .fmin x => Sys2Proof.Machine.execFmin x s
  | .fmax x => Sys2Proof.Machine.execFmax x s
  | .fcmp x => Sys2Proof.Machine.execFcmp x s
  | .frnd x => Sys2Proof.Machine.execFrnd x s
  | .fspec x => Sys2Proof.Machine.execFspec x s
  | .fcls x => Sys2Proof.Machine.execFcls x s
  | .fscl x => Sys2Proof.Machine.execFscl x s
  | .hadd2 x => Sys2Proof.Machine.execHadd2 x s
  | .hmul2 x => Sys2Proof.Machine.execHmul2 x s
  | .hfma2 x => Sys2Proof.Machine.execHfma2 x s
  | .hmin2 x => Sys2Proof.Machine.execHmin2 x s
  | .hmax2 x => Sys2Proof.Machine.execHmax2 x s
  | .hcmp2 x => Sys2Proof.Machine.execHcmp2 x s
  | .hdot2 x => Sys2Proof.Machine.execHdot2 x s
  | .cvt x => Sys2Proof.Machine.execCvt x s
  | .pack2 x => Sys2Proof.Machine.execPack2 x s
  | .qntb x => Sys2Proof.Machine.execQntb x s
  | .dqnt x => Sys2Proof.Machine.execDqnt x s
  | .sclw x => Sys2Proof.Machine.execSclw x s
  | .shfl x => Sys2Proof.Machine.execShfl x s
  | .qexch x => Sys2Proof.Machine.execQexch x s
  | .qder x => Sys2Proof.Machine.execQder x s
  | .vote x => Sys2Proof.Machine.execVote x s
  | .matchv x => Sys2Proof.Machine.execMatchv x s
  | .redux x => Sys2Proof.Machine.execRedux x s
  | .scan x => Sys2Proof.Machine.execScan x s
  | .elect x => Sys2Proof.Machine.execElect x s
  | .lanew x => Sys2Proof.Machine.execLanew x s
  | .ld x => Sys2Proof.Machine.execLd x s
  | .st x => Sys2Proof.Machine.execSt x s
  | .ldpf x => Sys2Proof.Machine.execLdpf x s
  | .atom x => Sys2Proof.Machine.execAtom x s
  | .red x => Sys2Proof.Machine.execRed x s
  | .txbeg x => Sys2Proof.Machine.execTxbeg x s
  | .txend x => Sys2Proof.Machine.execTxend x s
  | .txabt x => Sys2Proof.Machine.execTxabt x s
  | .pfence x => Sys2Proof.Machine.execPfence x s
  | .afence x => Sys2Proof.Machine.execAfence x s
  | .cwb x => Sys2Proof.Machine.execCwb x s
  | .cinv x => Sys2Proof.Machine.execCinv x s
  | .icinv x => Sys2Proof.Machine.execIcinv x s
  | .lds x => Sys2Proof.Machine.execLds x s
  | .sts x => Sys2Proof.Machine.execSts x s
  | .atoms x => Sys2Proof.Machine.execAtoms x s
  | .ldc x => Sys2Proof.Machine.execLdc x s
  | .ldv x => Sys2Proof.Machine.execLdv x s
  | .stv x => Sys2Proof.Machine.execStv x s
  | .mred x => Sys2Proof.Machine.execMred x s
  | .mcas x => Sys2Proof.Machine.execMcas x s
  | .msac x => Sys2Proof.Machine.execMsac x s
  | .gathm x => Sys2Proof.Machine.execGathm x s
  | .scatm x => Sys2Proof.Machine.execScatm x s
  | .cpy x => Sys2Proof.Machine.execCpy x s
  | .tcpy x => Sys2Proof.Machine.execTcpy x s
  | .tlrreg x => Sys2Proof.Machine.execTlrreg x s
  | .tlrdel x => Sys2Proof.Machine.execTlrdel x s
  | .mxlds x => Sys2Proof.Machine.execMxlds x s
  | .mxswp x => Sys2Proof.Machine.execMxswp x s
  | .mxmul x => Sys2Proof.Machine.execMxmul x s
  | .mxrd x => Sys2Proof.Machine.execMxrd x s
  | .mxzero x => Sys2Proof.Machine.execMxzero x s
  | .mxlda x => Sys2Proof.Machine.execMxlda x s
  | .opfence x => Sys2Proof.Machine.execOpfence x s
  | .mxtok x => Sys2Proof.Machine.execMxtok x s
  | .rayq x => Sys2Proof.Machine.execRayq x s
  | .beamq x => Sys2Proof.Machine.execBeamq x s
  | .smp x => Sys2Proof.Machine.execSmp x s
  | .smpl x => Sys2Proof.Machine.execSmpl x s
  | .smpg x => Sys2Proof.Machine.execSmpg x s
  | .gth4 x => Sys2Proof.Machine.execGth4 x s
  | .tld x => Sys2Proof.Machine.execTld x s
  | .ist x => Sys2Proof.Machine.execIst x s
  | .fst x => Sys2Proof.Machine.execFst x s
  | .fillc x => Sys2Proof.Machine.execFillc x s
  | .fillx x => Sys2Proof.Machine.execFillx x s
  | .grvinv x => Sys2Proof.Machine.execGrvinv x s
  | .atlbinv x => Sys2Proof.Machine.execAtlbinv x s
  | .trapDelivery gid wave => Sys2Proof.Machine.execTrapDelivery gid wave s
  | .forcedIssue gid wave => Sys2Proof.Machine.execForcedIssue gid wave s
  | .registerDrowsy gid wave => Sys2Proof.Machine.execRegisterDrowsy gid wave s
  | .xacqGrant core laneset => Sys2Proof.Machine.execXacqGrant core laneset s
  | .xacqTimeout core laneset n => Sys2Proof.Machine.execXacqTimeout core laneset n s
  | .backgroundRefresh gid wave => Sys2Proof.Machine.execBackgroundRefresh gid wave s
  | .loadReturn gid wave => Sys2Proof.Machine.execLoadReturn gid wave s
  | .attributeTlbFill core asid va => Sys2Proof.Machine.execAttributeTlbFill core asid va s
  | .llcMiss asid va => Sys2Proof.Machine.execLlcMiss asid va s
  | .groveMiss n => Sys2Proof.Machine.execGroveMiss n s
  | .victimStoreProbeResult n => Sys2Proof.Machine.execVictimStoreProbeResult n s
  | .waystationRetry n => Sys2Proof.Machine.execWaystationRetry n s
  | .granulePublished ws => Sys2Proof.Machine.execGranulePublished ws s
  | .exclusiveConsignmentGrant asid => Sys2Proof.Machine.execExclusiveConsignmentGrant asid s
  | .hubPlacement convoy => Sys2Proof.Machine.execHubPlacement convoy s
  | .fillTaskPlacement core level => Sys2Proof.Machine.execFillTaskPlacement core level s
  | .depotRefill asid ring => Sys2Proof.Machine.execDepotRefill asid ring s
  | .taskCompletion gid => Sys2Proof.Machine.execTaskCompletion gid s
  | .continuationResume gid => Sys2Proof.Machine.execContinuationResume gid s
  | .gatedCommandRelease matrix core n => Sys2Proof.Machine.execGatedCommandRelease matrix core n s
  | .porterSectorWrite core n => Sys2Proof.Machine.execPorterSectorWrite core n s
  | .porterCommandCompletion core n => Sys2Proof.Machine.execPorterCommandCompletion core n s
  | .matrixCommandExecute core => Sys2Proof.Machine.execMatrixCommandExecute core s
  | .bankCommandCompletion n => Sys2Proof.Machine.execBankCommandCompletion n s
  | .rayQueryExecute core => Sys2Proof.Machine.execRayQueryExecute core s
  | .beamQueryExecute core => Sys2Proof.Machine.execBeamQueryExecute core s
  | .counterWrap unit n => Sys2Proof.Machine.execCounterWrap unit n s
  | .map slot desc => Sys2Proof.Machine.execMap slot desc s
  | .unmap slot => Sys2Proof.Machine.execUnmap slot s
  | .switchContext slot desc => Sys2Proof.Machine.execSwitchContext slot desc s
  | .switchboardRegisterWrite reg value => Sys2Proof.Machine.execSwitchboardRegisterWrite reg value s
  | .atlbinvSwitchboard scope asid va => Sys2Proof.Machine.execAtlbinvSwitchboard scope asid va s
  | .writeIndexObserved q => Sys2Proof.Machine.execWriteIndexObserved q s
  | .packetNop q => Sys2Proof.Machine.execPacketNop q s
  | .launch q => Sys2Proof.Machine.execLaunch q s
  | .heldLaunchResume q => Sys2Proof.Machine.execHeldLaunchResume q s
  | .prologueRun q => Sys2Proof.Machine.execPrologueRun q s
  | .write q => Sys2Proof.Machine.execWrite q s
  | .signal q => Sys2Proof.Machine.execSignal q s
  | .wait q => Sys2Proof.Machine.execWait q s
  | .waitSatisfied q => Sys2Proof.Machine.execWaitSatisfied q s
  | .writeSignal q => Sys2Proof.Machine.execWriteSignal q s
  | .packetPfence q => Sys2Proof.Machine.execPacketPfence q s
  | .groveInv q => Sys2Proof.Machine.execGroveInv q s
  | .debugHalt asid core byGid => Sys2Proof.Machine.execDebugHalt asid core byGid s
  | .debugResume asid core => Sys2Proof.Machine.execDebugResume asid core s
  | .debugArmBrk asid core => Sys2Proof.Machine.execDebugArmBrk asid core s
  | .debugDisarmBrk asid core => Sys2Proof.Machine.execDebugDisarmBrk asid core s
  | .debugThreadWrite asid core value => Sys2Proof.Machine.execDebugThreadWrite asid core value s
  | .debugRegisterWrite asid core off value byWave => Sys2Proof.Machine.execDebugRegisterWrite asid core off value byWave s
  | .counterCtlWrite unit n value => Sys2Proof.Machine.execCounterCtlWrite unit n value s
  | .debugWindowWrite asid off value => Sys2Proof.Machine.execDebugWindowWrite asid off value s
  | .allotmentPeriodBoundary => Sys2Proof.Machine.execAllotmentPeriodBoundary s
  | .dramWordRead word => Sys2Proof.Machine.execDramWordRead word s
  | .correctiveWrite n => Sys2Proof.Machine.execCorrectiveWrite n s
  | .patrolScrub word => Sys2Proof.Machine.execPatrolScrub word s
  | .verticalBusParityFailure channel groups toDies failedRetries wires lastOk => Sys2Proof.Machine.execVerticalBusParityFailure channel groups toDies failedRetries wires lastOk s
  | .channelTrainingComplete channel failing => Sys2Proof.Machine.execChannelTrainingComplete channel failing s
  | .gddrCrcMismatch device toDies failedRetries retrainOk lastOk => Sys2Proof.Machine.execGddrCrcMismatch device toDies failedRetries retrainOk lastOk s
  | .flitReceive port check flit => Sys2Proof.Machine.execFlitReceive port check flit s
  | .remoteWriteArrival pa bytes => Sys2Proof.Machine.execRemoteWriteArrival pa bytes s
  | .collectiveDoorbell slot va => Sys2Proof.Machine.execCollectiveDoorbell slot va s
  | .collectiveCompletion n others => Sys2Proof.Machine.execCollectiveCompletion n others s
  | .bar2Access act => Sys2Proof.Machine.execBar2Access act s
  | .hostMemoryWrite addr bytes => Sys2Proof.Machine.execHostMemoryWrite addr bytes s
  | .windowRevocation n => Sys2Proof.Machine.execWindowRevocation n s
  | .thermalTrip => Sys2Proof.Machine.execThermalTrip s
  | .flashWrite slot act => Sys2Proof.Machine.execFlashWrite slot act s
  | .scanoutUnderflow out pixel => Sys2Proof.Machine.execScanoutUnderflow out pixel s
  | .coldReset => Sys2Proof.Machine.execColdReset s
  | .warmReset => Sys2Proof.Machine.execWarmReset s
  | .recoveryMailboxImage image => Sys2Proof.Machine.execRecoveryMailboxImage image s
  | .progkey slot act => Sys2Proof.Machine.execProgkey slot act s
  | .liveUpdate image => Sys2Proof.Machine.execLiveUpdate image s
  | .watchdogExpiry => Sys2Proof.Machine.execWatchdogExpiry s
  | .d3hot => Sys2Proof.Machine.execD3hot s
  | .d3cold => Sys2Proof.Machine.execD3cold s
  | .clockGate core => Sys2Proof.Machine.execClockGate core s
  | .powerGate core => Sys2Proof.Machine.execPowerGate core s
  | .clockFrequencyChange mhz => Sys2Proof.Machine.execClockFrequencyChange mhz s
  | .getVersion req => Sys2Proof.Machine.execGetVersion req s
  | .getCapabilities req => Sys2Proof.Machine.execGetCapabilities req s
  | .negotiateAlgorithms req => Sys2Proof.Machine.execNegotiateAlgorithms req s
  | .getDigests req => Sys2Proof.Machine.execGetDigests req s
  | .getCertificate req => Sys2Proof.Machine.execGetCertificate req s
  | .challenge req => Sys2Proof.Machine.execChallenge req s
  | .getMeasurements req => Sys2Proof.Machine.execGetMeasurements req s
  | .linkTraining ok0 ok1 d n => Sys2Proof.Machine.execLinkTraining ok0 ok1 d n s
  | .remoteReadRequest asker pa n => Sys2Proof.Machine.execRemoteReadRequest asker pa n s
  | .downstreamDeviceWrite act => Sys2Proof.Machine.execDownstreamDeviceWrite act s
  | .rv64ClientAccess core asid act => Sys2Proof.Machine.execRv64ClientAccess core asid act s
  | .d3hotExit => Sys2Proof.Machine.execD3hotExit s
  | .contextEnd asid => Sys2Proof.Machine.execContextEnd asid s
  | .errorLogClear log => Sys2Proof.Machine.execErrorLogClear log s
  | .displayTimingWrite out t => Sys2Proof.Machine.execDisplayTimingWrite out t s
  | .voltageCurrentRequest milliVolt milliAmp => Sys2Proof.Machine.execVoltageCurrentRequest milliVolt milliAmp s
  | .i2cGpioWrite w => Sys2Proof.Machine.execI2cGpioWrite w s

end Sys2Proof.Machine
end

