-- ==== Sys2Proof/Machine/Agenda.lean ====
section
/-! DEFINITION. With an empty agenda, which agent moves next (log 1, DESIGN CHOICE): the first event that can happen, in a fixed order of
kinds and then of numbers. Events that come from outside the device (the host, the OS, debuggers, other devices, failures)
happen only when the agenda names them. -/

namespace Sys2Proof.Machine

/-- Events of waves: traps, returning loads, page walks. -/
def Mach.waveEvents (m : Mach) : List Instr :=
  m.groups.flatMap fun p => p.2.waves.flatMap fun w =>
    (if w.traps.isEmpty then [] else [Instr.trapDelivery p.1 w.index])
      ++ (if w.loads.isEmpty then [] else [Instr.loadReturn p.1 w.index])
      ++ (w.live.filterMap fun l => match (w.lane l).wait with
        | .walk va => some (Instr.attributeTlbFill p.2.core p.2.asid (BitVec.ofNat 64 va))
        | _ => none).eraseDups
/-- Events of the miss path (R235 to R246). -/
def Mach.missEvents (m : Mach) : List Instr :=
  (m.reqs.filterMap fun q => match q.stage with
    | .missed => some (.groveMiss q.id)
    | .held => some (.groveMiss q.id)
    | .probing => some (.victimStoreProbeResult q.id)
    | .refused _ => some (.waystationRetry q.id)
    | .waiting _ => none)
  ++ (m.ways.filterMap fun p => if p.2.state == .commit then some (.granulePublished p.1) else none)
  ++ (m.prefetch.map fun p => .llcMiss p.1 (BitVec.ofNat 64 p.2.1))
/-- Events of shared resources: exclusive consignments, extended blocks, rings, placements. -/
def Mach.placeEvents (m : Mach) : List Instr :=
  ((m.exclQ.map (·.asid)).eraseDups.map fun a => .exclusiveConsignmentGrant a)
  ++ (m.xacqQ.flatMap fun p => .xacqGrant (p.1 / 8) (p.1 % 8)
      :: (List.range p.2.length).map fun n => .xacqTimeout (p.1 / 8) (p.1 % 8) n)
  ++ (m.rings.filterMap fun p => if p.2.items.isEmpty then none else some (.depotRefill (BitVec.ofNat 16 (p.1 / 800)) (p.1 % 800)))
  ++ (m.spawnQ.filterMap fun p => if p.2.isEmpty then none else some (.hubPlacement p.1))
  ++ (m.fillQ.filterMap fun p => if p.2.isEmpty then none else some (.fillTaskPlacement (p.1 / 3) (p.1 % 3 + 1)))
/-- Events of the engines of a core. -/
def Core.engineEvents (n : Nat) (k : Core) : List Instr :=
  ((List.range k.porterQ.length).flatMap fun i =>
    [.gatedCommandRelease false n i, .porterSectorWrite n i, .porterCommandCompletion n i])
  ++ (if k.mxQ.isEmpty then [] else [.gatedCommandRelease true n 0, .matrixCommandExecute n])
  ++ (if k.rayQ.isEmpty then [] else [.rayQueryExecute n, .beamQueryExecute n])
/-- Events of groups: completion and continuation, refresh and drowsiness. -/
def Mach.groupEvents (m : Mach) : List Instr :=
  m.groups.flatMap fun p =>
    [Instr.taskCompletion p.1] ++ (if p.2.parked then [.continuationResume p.1] else [])
      ++ p.2.waves.flatMap fun w =>
        (if w.refresh.isEmpty then [] else [Instr.backgroundRefresh p.1 w.index])
          ++ (if w.ext = 0 then [] else [.registerDrowsy p.1 w.index])
/-- Counters that have wrapped. -/
def Mach.wrapEvents (m : Mach) : List Instr :=
  (m.cores.flatMap fun p => p.2.counters.filterMap fun c =>
    if c.2.wrapped.isSome then some (.counterWrap (.core p.1 (BitVec.ofNat 16 (c.1 / 8))) (c.1 % 8)) else none)
  ++ (m.slices.filterMap fun c => if c.2.wrapped.isSome then some (.counterWrap (.slice (c.1 / 16)) (c.1 % 16)) else none)
  ++ (m.device.filterMap fun c => if c.2.wrapped.isSome then some (.counterWrap .device c.1) else none)
/-- Events of a front end, by where its queue stands. -/
def Queue.events (n : Nat) (q : Queue) : List Instr :=
  match q.stage with
  | .idle =>
    if q.index < q.seen then
      [.packetNop n, .launch n, .write n, .signal n, .wait n, .writeSignal n, .packetPfence n, .groveInv n, .writeIndexObserved n]
    else [.writeIndexObserved n]
  | .prologue => [.prologueRun n]
  | .held _ _ _ _ _ _ => [.heldLaunchResume n]
  | .waiting => [.waitSatisfied n]
  | .launched => []
/-- Events the device may take by itself, in their order. (log 1, DESIGN CHOICE) -/
def Mach.events (m : Mach) : List Instr :=
  m.waveEvents ++ m.missEvents ++ m.placeEvents ++ m.cores.flatMap (fun p => Core.engineEvents p.1 p.2)
    ++ m.banks.map (fun b => .bankCommandCompletion b.id) ++ m.groupEvents ++ m.wrapEvents
    ++ m.cores.flatMap (fun p => [.clockGate p.1, .powerGate p.1]) ++ m.queues.flatMap (fun p => Queue.events p.1 p.2)
    ++ m.groups.flatMap (fun p => p.2.waves.map fun w => .forcedIssue p.1 w.index)
    ++ (if m.rel.corrective.isEmpty then [] else [.correctiveWrite 0])
    ++ [.allotmentPeriodBoundary]
/-- Events that need neither a Farom nor an RV64 clock: resets, power, the thermal trip, the host's revocations and the displays
(R393 to R396). (log 59, DESIGN CHOICE) -/
def offClock : Instr → Bool
  | .coldReset | .warmReset | .d3hot | .d3hotExit | .d3cold | .thermalTrip | .windowRevocation _ | .scanoutUnderflow _ _ => true
  | _ => false
/-- An event has to wait: the clocks stand still, the power is off, or a drain holds it. -/
def State.stalls (s : State) (i : Instr) : Bool :=
  (!s.clocked && !offClock i) || (s.plat.power == .d3cold && i != .coldReset) || s.drainHolds i
/-- A step that has touched a word of a channel in training stalls: it has no effect yet (R380). (log 44, DEDUCED) -/
def State.keep (s : State) : Host.Outcome State Fault Refusal → Host.Outcome State Fault Refusal
  | .next t => .next (if t.mach.rel.touched then s.miss else t)
  | r => r
/-- The first of some events that can happen, carried out. -/
def State.firstOf (s : State) : List Instr → Option (Host.Outcome State Fault Refusal)
  | [] => none
  | i :: rest =>
    if s.stalls i then s.firstOf rest else
    match s.keep (exec i s) with
    | .next t => if t.missed then s.firstOf rest else some (.next t)
    | r => some r
/-- The live update that a drain is for, while there is one. -/
def State.events (s : State) : List Instr := if s.plat.sec.drain.isSome then [.liveUpdate s.plat.sec.newImage] else []
/-- The next event of an agent other than an issuing wave, when one can act. (log 1, DESIGN CHOICE) -/
def State.nextEvent (s : State) : Option (Host.Outcome State Fault Refusal) :=
  match s.boardStep.filter fun t => !t.mach.rel.touched with
  | some t => some (.next t)
  | none => s.firstOf (s.events ++ s.mach.events)

end Sys2Proof.Machine
end

