-- ==== Sys2Proof/Machine/Step.lean ====
section
/-! DEFINITION. One step of the device: the turn at the head of the agenda, or with an empty agenda the first enabled
event, the wave that has waited longest, or the passing of a clk (log 1, DESIGN CHOICE). -/

namespace Sys2Proof.Machine

/-- Issue a wave and run the instruction it fetches. -/
def State.issueTurn (s : State) (gid wave : Nat) : Host.Outcome State Fault Refusal :=
  match s.mach.issueWave gid wave with
  | .run m i => exec i { s with mach := m }
  | .stay m => .next { s with mach := m }
/-- One clk passes, if the clocks run; host-memory writes admitted in it land (R394). -/
def State.tick (s : State) : State :=
  let s := s.landWrites
  if s.clocked then { s with mach := s.mach.tick } else s
/-- A change that needs the clocks. -/
def State.onClock (s : State) (f : State → State) : Host.Outcome State Fault Refusal := if s.clocked then .next (f s) else .next s
/-- A change of the machine proper. -/
def State.onMach (s : State) (f : Mach → Mach) : State := { s with mach := f s.mach }
/-- Carry out a turn. -/
def State.turn (s : State) : Turn → Host.Outcome State Fault Refusal
  | .issue gid wave => if s.clocked then s.issueTurn gid wave else .next s
  | .event i => if s.stalls i then .next s else exec i s
  | .tick => .next s.tick
  | .evictL1 core line => s.onClock (·.onMach (·.evictL1 core line))
  | .evictLlc sector => s.onClock (·.onMach (·.evictLlc sector))
  | .parity gid wave key shadow => .next (s.onMach (·.strike gid wave key shadow))
  | .flip word bit => .next (s.onMach (·.flip word bit))
  | .decompress line => .next (s.onMach (·.decompressFails line))
  | .refused port => s.onClock (·.onMach (·.flitRefused port))
  | .heartbeat => s.onClock State.heartbeat
  | .hostWindow n base size valid => .next (if s.plat.power == .d3cold then s else s.hostWindow n base size valid)
  | .bar2 base size asid => s.onClock (·.bar2Set base size asid)
  | .outputSet out mode allot => s.onClock (·.outputSet out mode allot)
  | .scanout out pa n => s.onClock (·.scanout out pa n)
  | .osImage image => s.onClock fun s => s.withSec { s.plat.sec with osImage := image }
  | .board => s.onClock fun s => s.boardStep.getD s
/-- What comes before a step's turn, while the clocks run: contexts whose Depot ring failed halt at the boundary (R257, R359), and
write-backs that a lock held go on (R214). Either waits for a channel in training. (log 1, DESIGN CHOICE; log 44, DEDUCED) -/
def State.ready (s : State) : State :=
  let s := { s with missed := false, mach := s.mach.untouched }
  if !s.clocked then s else
  let m := s.mach.boundary.flushWaiting
  if m.rel.touched then s else { s with mach := m }
/-- One step. (log 1, DESIGN CHOICE; log 59, DESIGN CHOICE) -/
def step (s : State) : Host.Outcome State Fault Refusal :=
  let s := s.ready
  match s.agenda with
  | t :: rest => { s with agenda := rest }.keep ({ s with agenda := rest }.turn t)
  | [] =>
    if !s.clocked then .next s.tick else
    match s.nextEvent with
    | some r => r
    | none =>
      match s.mach.pickWave with
      | some (gid, wave, m) =>
        (match s.keep ({ s with mach := m }.issueTurn gid wave) with
        | .next t => .next (if t.missed then s.tick else t)
        | r => r)
      | none => .next s.tick

/-! ## Placing one instruction (log 5, DESIGN CHOICE) -/

/-- Where withFetchWord lays its page tables and its code page; VA and PA of the code page are equal. -/
def probeRoot : Nat := 0x10000
def probeCode : Nat := 0x14000
def probeAsid : BitVec 16 := 0xFFFF
/-- The context of the probe: one code page, a frame store of 16 frames. (log 5, DESIGN CHOICE) -/
def probeCtx : Ctx :=
  { slot := 15, desc := 0, asid := probeAsid, nestmax := 2, allot := 0, ptroot := probeRoot, save := 0, depot := 0
    groves := 0, groveCount := 0, pinmax := 0, frames := 2 ^ 47, frameCount := 16, queues := 0, queueCount := 0
    serial := 0, tvec := 0, tlrs := [], accs := [], pins := [], faulted := false, wbRing := [] }
/-- The record of the probe: one thread, 128 registers, 7 more barrier slots. (log 5, DESIGN CHOICE) -/
def probeTask : TaskRec :=
  { entry := BitVec.ofNat 64 probeCode, arg := 0, tileX := 0, tileY := 0, tileZ := 0, q2x2 := false, gx := 0, gy := 0
    gz := 0, succ := 0, convoy := 0, spad := 32, xpre := 0, base := 3, bars := 7, split := false, fill := false
    wcount := 0, allot := 0, flvl := 0, tpri := 0, ctab := 0, link := 0, bad := false }
/-- Write a list of bytes into physical memory. -/
def putBytes (mem : List Host.Cell) (pa : Nat) (bs : List Byte) : List Host.Cell :=
  ((List.range bs.length).zip bs).foldl (fun mem p => cellPut mem (pa + p.1) p.2) mem
/-- Page tables that map the code page, and the instruction's bytes. (log 5, DESIGN CHOICE) -/
def probeMem (mem : List Host.Cell) (w : Nat) : List Host.Cell :=
  let mem := putBytes mem probeRoot (leBytes 8 (0x11000 + 1))
  let mem := putBytes mem 0x11000 (leBytes 8 (0x12000 + 1))
  let mem := putBytes mem 0x12000 (leBytes 8 (0x13000 + 1))
  let mem := putBytes mem (0x13000 + 8 * 0x14) (leBytes 8 (probeCode + 0x69))
  putBytes mem probeCode (leBytes 16 w)
/-- The state in which the next step fetches and runs the instruction: a context is mapped, its group is placed on
core 127, the stack is trained, and the agenda gives the wave the next turn (log 5, DESIGN CHOICE). -/
def State.withFetchWord (s : State) (nbits w : Nat) : State :=
  let m := s.mach
  let gid := m.nextGid
  let g : Group :=
    { gid := gid, asid := probeAsid, core := 127, launch := 0, task := probeTask, place := 0, placement := 0, position := 0
      units := [0], slots := { BarSlot.free with kind := .named 0 } :: List.replicate 7 BarSlot.free
      frames := [2 ^ 47], sig := 0, parked := false, fillWs := none, decided := false, reserve := 0, system := false
      mxStatus := 0, waves := [Wave.born probeTask 0 0 0 m.clk], queue := none, ctabDead := [] }
  let k := m.core 127
  let tlb : TlbEntry := ⟨probeAsid, probeCode / 4096, 0, 0, 0x1F, 0, true, true, false, true⟩
  let k := { k with
    tlb := tlb :: k.tlb.filter fun e => e.asid != probeAsid
    icache := mkeep k.icache fun key => key / 2 ^ 43 != probeAsid.toNat
    loops := mdel k.loops 0, halts := mdel k.halts probeAsid.toNat, accOwner := some probeAsid }
  let m := { m with
    mem := probeMem m.mem (w % 2 ^ nbits)
    llc := mkeep m.llc fun key => key / 2 ^ 43 != probeAsid.toNat
    trans := m.trans.map (fun (p : Nat × List TransEntry) => (p.1, p.2.filter fun t => t.asid != probeAsid))
    remap := m.remap.filter fun (e : RemapEntry) => e.asid != probeAsid && !(probeRoot / 64 ≤ e.line && e.line < 0x15000 / 64)
    rel := { m.rel with status := List.replicate 32 .ok, flips := [], gddrDegraded := [] }
    ctxs := mput m.ctxs 15 probeCtx
    frames := mput m.frames (frameKey probeAsid (2 ^ 47)) ⟨0, true, false, false, true, none, 0, 0, 0, 0⟩
    groups := mput m.groups gid g
    nextGid := gid + 1 }
  { s with
    agenda := .issue gid 0 :: s.agenda
    mach := m.setCore 127 k
    plat := { s.plat with power := .d0, host := { s.plat.host with thermtrip := false } } }

end Sys2Proof.Machine
end

