-- ==== Sys2Proof/Safety.lean ====
section
/-! DEFINITION. What a safe run is, and the terms that statements about instructions use: when an instruction's body
runs, and what is seen of its wave afterwards. -/

namespace Sys2Proof

/-- The device goes on from a state: its step answers a next state. -/
def GoesOn (s : Machine.State) : Prop := ∃ t, Machine.step s = .next t
/-- A run of n steps that stops nowhere. -/
def SafeRun (n : Nat) (s : Machine.State) : Prop := ∃ t, core.run n s = .next t

namespace Machine

/-- The surroundings an instruction's body acts in: threads whose open consignment forbids the instruction have left it, and
their aborts stand in the wave (R211). -/
def Env.inside (e : Env) (i : Instr) : Env :=
  if txForbidden i then { e.outsideTx with w := e.wIn (e.m.forbid e.iss.gid e.iss.wave (e.consigned e.act)) } else e
/-- When an instruction with control fields `c` runs to its body: it is the instruction of the issuing entry, it passes
every check and wait of R86, R88, R111 and R112, and no register it reads is in error (R118). The answer is what its body
acts in: threads whose open consignment forbids the instruction have left it (R211). -/
def State.runs (s : State) (i : Instr) (c : Ctl) : Option Env :=
  match Env.of c s.mach with
  | none => none
  | some e =>
    if (e.blocked i c).isSome then none
    else if ((e.begin c).parity ((e.begin c).readsOf i)).isSome then none
    else some (if txForbidden i then (e.begin c).outsideTx else e.begin c)
/-- Keys that name a register: indices within their files (R107). -/
def RKey.ok : RKey → Prop
  | .v _ i => i < 256
  | .k _ i => i < 8
  | .x _ i => i < 2
  | .w _ => True
  | .c _ n => n < 4
/-- The issuing wave in a later state. -/
def Env.now (e : Env) (t : State) : Wave := e.wIn t.mach
/-- From clk T on, every fixed-latency result of the wave and of an instruction issued now is readable (R87). -/
def Env.settled (e : Env) (T : Nat) : Prop := e.clk + 8 ≤ T ∧ ∀ f ∈ e.w.inflight, f.ready ≤ T
/-- The lanes in which a register instruction performs: every active thread and every helper that executes it (R34), or for a
uniform one those when the guard holds in its lead thread (R32). -/
def Env.performers (e : Env) (i : Instr) (c : Ctl) : List Nat :=
  if isUniform (uses i) && !e.w.guard e.clk c e.lead then [] else e.all
/-- The lane whose result a thread sees: the lead's for a uniform instruction, the lowest performing thread's for a W
destination beside per-thread sources, else its own (R32, R72). -/
def Env.giver (e : Env) (i : Instr) (d : Opnd) (l : Nat) : Nat :=
  if isUniform (uses i) then e.lead else if d.cls = .w then e.g.task.lowest e.w.index e.all else l
/-- Word j of a result. -/
def part (x : DWord) (j : Nat) : Word := (x >>> (32 * j)).setWidth 32
/-- After the step, n registers from D on hold a result in every performing thread. -/
def Env.gives (e : Env) (t : State) (i : Instr) (c : Ctl) (d : Opnd) (n : Nat) (val : Nat → DWord) : Prop :=
  ∀ T, e.settled T → ∀ l ∈ e.performers i c, ∀ j < n, (e.now t).reg T (d.key l j) = part (val (e.giver i d l)) j
/-- After the step, X0 of every performing thread holds the result's low word, and X1 the X0 before (R108). -/
def Env.latches (e : Env) (t : State) (i : Instr) (c : Ctl) (val : Nat → DWord) : Prop :=
  ∀ T, e.settled T → ∀ l ∈ e.performers i c, l < e.w.lanes.length →
    (e.now t).reg T (.x l 0) = part (val (if isUniform (uses i) then e.lead else l)) 0
      ∧ (e.now t).reg T (.x l 1) = e.w.cur (.x l 0)
/-- After the step, the condition code a flag field names holds the flags in every performing thread (R126, R141). -/
def Env.flags (e : Env) (t : State) (i : Instr) (c : Ctl) (flag : Option (BitVec 2)) (cc : Nat → BitVec 5) : Prop :=
  ∀ k, flag = some k → ∀ T, e.settled T → ∀ l ∈ e.performers i c, l < e.w.lanes.length →
    (e.now t).ccAt T l k.toNat = cc (if isUniform (uses i) then e.lead else l)
/-- Every thread of the entry has advanced past the instruction, and only they have moved. -/
def Env.passes (e : Env) (t : State) : Prop :=
  (∀ l ∈ e.lanes, ((e.now t).lane l).pc = e.next) ∧ ∀ l, l ∉ e.lanes → ((e.now t).lane l).pc = (e.w.lane l).pc
/-- Registers a register instruction writes: its destination, and the latches and flags of the performing lanes. -/
def Env.written (e : Env) (dst : Option (Opnd × Nat)) (flag : Option (BitVec 2)) (k : RKey) : Prop :=
  (∃ d n, dst = some (d, n) ∧ ∃ l j, (l ∈ e.all ∨ d.cls = .w) ∧ j < n ∧ k = d.key l j)
    ∨ (dst.isSome ∧ ∃ l ∈ e.all, k = .x l 0 ∨ k = .x l 1)
    ∨ ∃ f, flag = some f ∧ ∃ l ∈ e.all, k = .c l f.toNat
/-- After the step, SR_FPX of every performing thread has the exceptions raised ORed in, and other lanes keep theirs (R96). -/
def Env.raises (e : Env) (t : State) (i : Instr) (c : Ctl) (fpx : Nat → BitVec 5) : Prop :=
  (∀ l ∈ e.performers i c, l < e.w.lanes.length → ((e.now t).lane l).fpx = (e.w.lane l).fpx ||| fpx (if isUniform (uses i) then e.lead else l))
    ∧ ∀ l, l ∉ e.all → ((e.now t).lane l).fpx = (e.w.lane l).fpx
/-- The special registers of wave scope, the threads and what each of them has besides its registers are as before
(R117). -/
def Env.steady (e : Env) (t : State) : Prop :=
  ((e.now t).ctl = e.w.ctl ∧ (e.now t).dbg = e.w.dbg ∧ (e.now t).tcause = e.w.tcause ∧ (e.now t).tpc = e.w.tpc
      ∧ (e.now t).taddr = e.w.taddr ∧ (e.now t).tmask = e.w.tmask)
    ∧ ∀ l, ((e.now t).lane l).st = (e.w.lane l).st ∧ ((e.now t).lane l).prio = (e.w.lane l).prio
        ∧ ((e.now t).lane l).wait = (e.w.lane l).wait ∧ ((e.now t).lane l).txcause = (e.w.lane l).txcause
        ∧ ((e.now t).lane l).arrival = (e.w.lane l).arrival ∧ ((e.now t).lane l).handler = (e.w.lane l).handler
/-- Registers outside a list of keys keep their values. -/
def Env.keeps (e : Env) (t : State) (ks : RKey → Prop) : Prop :=
  ∀ k : RKey, k.ok → ¬ ks k → (e.now t).cur k = e.w.cur k
/-- What an instruction that works on registers alone leaves as it was: memory and every store below the registers, every
other wave and group, the platform, and of its core all but counters, idle clocks and loop buffers left (R265). Consignments keep everything but the
mark of the region their TXBEG stands in. -/
def Env.quiet (e : Env) (s t : State) : Prop :=
  t.plat = s.plat ∧ t.agenda = s.agenda
    ∧ { t.mach with groups := s.mach.groups, cores := s.mach.cores, issue := s.mach.issue, consigns := s.mach.consigns } = s.mach
    ∧ t.mach.consigns.map (fun c => { c with fresh := false }) = s.mach.consigns.map (fun c => { c with fresh := false })
    ∧ (∀ gid wave, (gid, wave) ≠ (e.iss.gid, e.iss.wave) → t.mach.wave gid wave = s.mach.wave gid wave)
    ∧ (∀ n, { t.mach.core n with counters := [], lastIssue := 0, power := .on, loops := [] }
        = { s.mach.core n with counters := [], lastIssue := 0, power := .on, loops := [] })
    ∧ ∀ n, ∀ b ∈ (t.mach.core n).loops, b ∈ (s.mach.core n).loops

/-- What a register instruction leaves, in all: every store but its wave, the threads past it, the exceptions, the
destination, the latches, the flags, and every other register. -/
def Env.registers (e : Env) (s t : State) (i : Instr) (c : Ctl) (dst : Option (Opnd × Nat)) (flag : Option (BitVec 2))
    (val : Nat → Res) : Prop :=
  (e.quiet s t ∧ e.passes t ∧ e.steady t ∧ e.raises t i c fun l => (val l).fpx)
    ∧ (∀ d n, dst = some (d, n) → e.gives t i c d n (fun l => (val l).r) ∧ e.latches t i c fun l => (val l).r)
    ∧ e.flags t i c flag (fun l => (val l).cc)
    ∧ e.keeps t (e.written dst flag)
/-- Wherever a register instruction runs it completes, and `val` says what each lane's result is. -/
def Completes (i : Instr) (c : Ctl) (dst : Option (Opnd × Nat)) (flag : Option (BitVec 2)) (val : Env → Nat → Res) : Prop :=
  ∀ s e, s.runs i c = some e → ∃ t, exec i s = .next t ∧ e.registers s t i c dst flag (val e)
/-- An allotment has budget left for LLC requests, vertical beats and GDDR 7 beats, or borrows slack (R324, R371). -/
def Mach.solvent (m : Mach) (n : Nat) : Bool := (List.range 3).all (m.canPay n)
/-- Machine m after what it has asked for since m₀ has been charged to an allotment (R371). -/
def Mach.billed (m₀ m : Mach) (n : Nat) : Mach := (m₀.bill m n).getD m
/-- Whatever the entry asks for below its registers, its task's allotment has budget for. -/
def Env.solvent (e : Env) : Bool := e.m.solvent e.g.task.allot.toNat
/-- The surroundings of an instruction that asks for what it needs: it is the instruction of the issuing entry and passes
every check and wait of R86, R88, R111, R112 and R118. Nothing of it has performed. -/
def State.asks (s : State) (i : Instr) (c : Ctl) : Option Env :=
  match Env.of c s.mach with
  | none => none
  | some e =>
    if (e.blocked i c).isSome then none
    else if ((e.begin c).parity ((e.begin c).readsOf i)).isSome then none
    else some (e.begin c)
/-- The surroundings of an instruction that begins: besides, it runs under an allotment that has budget (R371). -/
def State.begins (s : State) (i : Instr) (c : Ctl) : Option Env := (s.asks i c).filter Env.solvent
/-- The state after an instruction that has left machine m and moves the threads `adv` on: consignments that forbid it
abort, and its allotment is charged (R71, R86, R211, R371). -/
def State.ended (s : State) (e : Env) (i : Instr) (c : Ctl) (m : Mach) (adv : List Nat) : State :=
  let m := if txForbidden i then m.forbid e.iss.gid e.iss.wave (e.consigned e.act) else m
  { s with mach := e.finish i c (e.m.billed m e.g.task.allot.toNat) adv }
/-- The platform, the agenda and every wave but the issuing one are as before. -/
def Env.elsewhere (e : Env) (s t : State) : Prop :=
  t.plat = s.plat ∧ t.agenda = s.agenda
    ∧ ∀ gid wave, (gid, wave) ≠ (e.iss.gid, e.iss.wave) → t.mach.wave gid wave = s.mach.wave gid wave
/-- Active threads stand at a target with its priority, the others of the entry past the instruction with the priority
of a fall-through, and no other thread has moved. -/
def Env.moved (e : Env) (t : State) (dest : Nat → DWord × Byte) (fall : Option Byte) : Prop :=
  (∀ l ∈ e.act, ((e.now t).lane l).pc = (dest l).1 ∧ ((e.now t).lane l).prio = (dest l).2)
    ∧ (∀ l ∈ e.lanes, l ∉ e.act → ((e.now t).lane l).pc = e.next ∧ ((e.now t).lane l).prio = fall.getD (e.w.lane l).prio)
    ∧ ∀ l, l ∉ e.lanes → ((e.now t).lane l).pc = (e.w.lane l).pc ∧ ((e.now t).lane l).prio = (e.w.lane l).prio
/-- No register is written. -/
def Env.idle (e : Env) (t : State) : Prop := e.keeps t fun _ => False
/-- A trap of threads of the issuing wave with its PC, code, INFO and address (R352). -/
def Env.trapOf (e : Env) (pc : DWord) (ls : List Nat) (code info : Nat) (addr : DWord) : PendTrap :=
  ⟨pc, e.iss.prio, maskOf ls, code, info, addr, false⟩
/-- What R126 and R129 give from an exact value and the flags C and V. -/
def intRule (x : IntOp) (v : Int) (c o : Bool) : Res :=
  let r := wrap x.ty.w (if x.sat then clamp x.ty v else v)
  ⟨r, mkCc false (r.getLsbD (x.ty.w - 1)) (uv x.ty.w r == 0) c o, 0⟩
/-- What R130 and R126 give from a result of w bits and the flag C. -/
def bitRule (w : Nat) (r : DWord) (c : Bool) : Res := ⟨r, mkCc false (r.getLsbD (w - 1)) (uv w r == 0) c false, 0⟩
/-- What R140 and R141 give from a rounded FP32 value: SAT, the flags of its comparison with +0, the exceptions. -/
def fltRule (x : FltOp) (r : Rounded) : Res :=
  let r := r.sat fp32 x.sat
  ⟨BitVec.ofNat 64 r.bits, cmpCc (fp32.val r.bits) (.fin false 0 0), r.fl⟩
/-- A pair of halves, each after SAT (R149). -/
def halfRule (x : HalfOp) (r : Nat → Rounded) : Res :=
  let y (j : Nat) := (r j).sat (halfFmt x.fp16) x.sat
  ⟨BitVec.ofNat 64 ((y 0).bits + (y 1).bits * 2 ^ 16), 0, (y 0).fl ||| (y 1).fl⟩
/-- The entry is held and tried again at the next clk. -/
def Env.held (e : Env) (s : State) (i : Instr) : Prop :=
  ∃ t, exec i s = .next t ∧ e.elsewhere s t ∧ e.idle t ∧ t.mach.mem = s.mach.mem
    ∧ ∀ l ∈ e.lanes, ((e.now t).lane l).pc = e.iss.pc ∧ ((e.now t).lane l).ready = e.clk + 1
/-- Threads trap at the instruction, from machine m (R352): at once where no load of the wave is outstanding, and else the
entry is held until every earlier load has returned. -/
def Env.trapsIn (e : Env) (m : Mach) (s : State) (i : Instr) (ls : List Nat) (code info : Nat) (addr : DWord) : Prop :=
  (e.w.loads = [] → exec i s =
      .next { s with mach := { (e.spent m).deliver e.iss.gid e.iss.wave (e.trapOf e.iss.pc ls code info addr) with issue := none } })
    ∧ (e.w.loads ≠ [] → e.held s i)
/-- Threads trap at the instruction and nothing of it has performed. -/
def Env.traps (e : Env) (s : State) (i : Instr) (ls : List Nat) (code info : Nat) (addr : DWord) : Prop :=
  e.trapsIn e.m s i ls code info addr
/-- An access raises a fault: threads trap at the instruction with an address, and neither memory nor a register of the
wave has changed before the trap is taken. With a load of the wave outstanding the entry is held until it returns (R352). -/
def Env.refuses (e : Env) (s : State) (i : Instr) (ls : List Nat) (code : Nat) (addr : DWord) : Prop :=
  (e.w.loads = [] → ∃ m : Mach,
      exec i s = .next { s with mach := { m.deliver e.iss.gid e.iss.wave (e.trapOf e.iss.pc ls code 0 addr) with issue := none } }
        ∧ m.mem = s.mach.mem ∧ (∀ k, (e.wIn m).cur k = e.w.cur k) ∧ ∀ l, ((e.wIn m).lane l).pc = (e.w.lane l).pc)
    ∧ (e.w.loads ≠ [] → e.held s i)
/-- A load meets an uncorrectable word for the first time: its wave stands at its region starts, its outstanding loads gone, and
the load is noted, to be run again (R120, R354). -/
def Env.rollsBack (e : Env) (s : State) (i : Instr) : Prop :=
  ∃ t, exec i s = .next t ∧ e.elsewhere s t ∧ t.mach.mem = s.mach.mem ∧ (e.now t).loads = []
    ∧ (∀ l < 64, (e.w.lane l).st = .live → (e.w.lane l).newRegion = false →
      ((e.now t).lane l).pc = (e.w.lane l).snap.pc ∧ ((e.now t).lane l).prio = (e.w.lane l).snap.prio)
    ∧ ∀ l ∈ e.lanes, l < e.w.lanes.length → ((e.now t).lane l).rerun = some (e.iss.pc, (e.w.lane l).loadNo)
/-- The threads of the entry stay at the instruction and wait for an event. -/
def Env.waitsFor (e : Env) (s : State) (i : Instr) (x : Wait) : Prop :=
  ∃ t, exec i s = .next t ∧ e.elsewhere s t ∧ e.idle t ∧ t.mach.mem = s.mach.mem
    ∧ ∀ l ∈ e.lanes, ((e.now t).lane l).pc = e.iss.pc ∧ ((e.now t).lane l).wait = x
/-- Results that arrive later (R88, R204): the load that holds them, and the registers pending until it returns. -/
def Env.pends (e : Env) (t : State) (writes : List (RKey × Word)) (flags : List (Nat × Nat × BitVec 5)) : Prop :=
  (e.now t).loads = e.w.loads ++ [{
      pc := e.iss.pc, prio := e.iss.prio, mask := maskOf e.lanes, writes := writes, flags := flags, poison := none
      nums := e.lanes.map fun l => (l, (e.w.lane l).loadNo) }]
    ∧ (e.now t).pend = e.w.pend ++ writes.map (·.1) ++ flags.map fun f => .c f.1 f.2.1
/-- A token becomes pending (R279). -/
def Env.takes (e : Env) (t : State) (tok : Nat) (regs : List RKey) : Prop :=
  (e.now t).toks = e.w.toks ++ [tok] ∧ (e.now t).pend = e.w.pend ++ [.w tok] ++ regs ∧ (e.now t).cmdPend = e.w.cmdPend ++ regs
/-- What a load gives by reader, as register writes: the lowest reader's prevail in a W destination. -/
def loadWrites (x : MemOp) (rs : List Nat) (bytes : Nat → List Byte) : List (RKey × Word) :=
  rs.reverse.flatMap fun l => wordWrites x.d l (wordsOf x.size x.sgn (bytes l))
/-- A physical scratchpad byte: core and place. -/
def SpadAcs.place (p : SpadAcs) (j : Nat) : Option (Nat × Nat) := p.g.map fun g => (g.core, g.spadPhys (p.off + j))
/-- A byte of a core's scratchpad. -/
def State.spad (s : State) (c : Nat × Nat) : Byte := cellGet (s.mach.core c.1).spad c.2
/-- The packet at hand (R250, R363, R364): the front end of queue n takes it from its window, or reads packet INDEX of the
ring of its context. The context's allotment has budget. -/
def State.packet (s : State) (n : Nat) : Option (Mach × Queue × Ctx × Packet) :=
  match mget s.mach.queues n with
  | none => none
  | some q =>
    match s.mach.queueCtx q with
    | none => none
    | some c =>
      if q.stopped || q.stage != .idle || s.mach.asking q.wait || decide (q.seen ≤ q.index) || s.mach.endHeld (some n)
          || !s.mach.solvent c.allot.toNat then none else
      match s.mach.packetBytes n c.asid q with
      | .ok m bs => some (m, q, c, ⟨bs⟩)
      | _ => none
/-- The limits that the Hedgerow and the boot ROM enforce in hardware (R388, R389, R393), and the shapes of the tables they
keep. -/
structure State.Limits (s : State) : Prop where
  rail : s.plat.host.milliVolt ≤ 1050 ∧ s.plat.host.milliVolt ≤ s.plat.host.fuseVolt ∧ s.plat.host.milliAmp ≤ s.plat.host.fuseAmp
  rate : s.plat.host.rate ≤ 8000
  memory : Memory.wf s.plat.host.memory = true
  lists : s.plat.host.i2cAllowed.length ≤ 32 ∧ s.plat.host.gpioAllowed.length ≤ 32
  outputs : ∀ o ∈ s.plat.outputs, 25000 ≤ o.timing.pixelClockKHz ∧ o.timing.pixelClockKHz ≤ 2700000
    ∧ 23000 ≤ o.timing.refreshMilliHz ∧ o.timing.refreshMilliHz ≤ 500000
  sizes : s.plat.outputs.length = 4 ∧ s.plat.host.windows.length = 16 ∧ s.plat.sec.keys.length = 5 ∧ s.plat.sec.measure.length = 8
    ∧ s.plat.sec.flash.length = 4

end Machine
end Sys2Proof
end

