-- ==== Sys2Proof/Certificates/Slice0/Obligations.lean ====
section
/-! DEFINITION. The statements for the provers. -/

open Sys2Proof Sys2Proof.Machine

/-! ## Register instructions -/

/-- R34, R125, R126, R127, R129: in every performing lane, helpers among them, the destination of an instruction of row 0x2
takes the clamped or wrapped exact value of its line, and c(CCD) the flags; nothing but the destination, the latches, the
flags and the PC changes.

R129: the low words of an addition through IADD and the high words through IADDC with its carry make the 64-bit sum.
The model's choices here: log 30 (DEDUCED): a W destination beside K or X sources takes the value of the lowest performing
thread, helpers counted; log 33 (DEDUCED). -/
def Obligations.IntegerInstructions : Prop :=
  (
    ∀ x : IntOp,
      let t := x.ty
      let w := t.w
      let d := some (x.d, t.regs)
      let a (e : Env) (l : Nat) : DWord := e.getN l x.a t.regs
      let b (e : Env) (l : Nat) : DWord := e.getSrc l x.b t.regs
      let c (e : Env) (l : Nat) : DWord := e.getN l x.c t.regs
      let cn (e : Env) (l : Nat) : Nat := if ccC (e.w.ccAt e.clk l (x.sub.toNat % 4)) then 1 else 0
      Completes (.iadd x) x.ctl d x.flag (fun e l =>
          intRule x (tv t (a e l) + tv t (b e l)) (decide (2 ^ w ≤ uv w (a e l) + uv w (b e l)))
            (outs w (sv w (a e l) + sv w (b e l))))
        ∧ Completes (.isub x) x.ctl d x.flag (fun e l =>
          intRule x (tv t (a e l) - tv t (b e l)) (decide (uv w (b e l) ≤ uv w (a e l))) (outs w (sv w (a e l) - sv w (b e l))))
        ∧ Completes (.iaddc x) x.ctl d x.flag (fun e l =>
          intRule x (tv t (a e l) + tv t (b e l) + cn e l) (decide (2 ^ w ≤ uv w (a e l) + uv w (b e l) + cn e l))
            (outs w (sv w (a e l) + sv w (b e l) + cn e l)))
        ∧ Completes (.isubb x) x.ctl d x.flag (fun e l =>
          intRule x (tv t (a e l) - tv t (b e l) - (1 - cn e l : Nat)) (decide (uv w (b e l) + (1 - cn e l) ≤ uv w (a e l)))
            (outs w (sv w (a e l) - sv w (b e l) - (1 - cn e l : Nat))))
        ∧ Completes (.ineg x) x.ctl d x.flag (fun e l => intRule x (-tv t (a e l)) (uv w (a e l) == 0) (outs w (-sv w (a e l))))
        ∧ Completes (.iabs x) x.ctl d x.flag (fun e l =>
          intRule x (tv t (a e l)).natAbs false (t.signed && sv w (a e l) == -(2 : Int) ^ (w - 1)))
        ∧ Completes (.imul x) x.ctl d x.flag (fun e l =>
          intRule x (tv t (a e l) * tv t (b e l)) false (outt t (tv t (a e l) * tv t (b e l))))
        ∧ Completes (.imulh x) x.ctl d x.flag (fun e l =>
          intRule x (tv t (a e l) * tv t (b e l) / (2 : Int) ^ w) false false)
        ∧ Completes (.imad x) x.ctl d x.flag (fun e l =>
          intRule x (tv t (a e l) * tv t (b e l) + tv t (c e l)) false (outt t (tv t (a e l) * tv t (b e l) + tv t (c e l))))
        ∧ Completes (.imin x) x.ctl d x.flag (fun e l => intRule x (min (tv t (a e l)) (tv t (b e l))) false false)
        ∧ Completes (.imax x) x.ctl d x.flag (fun e l => intRule x (max (tv t (a e l)) (tv t (b e l))) false false)
        ∧ Completes (.icmp x) x.ctl none x.flag (fun e l =>
          intRule { x with sat := false } (tv t (a e l) - tv t (b e l)) (decide (uv w (b e l) ≤ uv w (a e l)))
            (outs w (sv w (a e l) - sv w (b e l))))
        ∧ Completes (.lea x) x.ctl d x.flag (fun e l =>
          let i : Word := e.getSrc32 l x.b
          let y : DWord := (if t.signed then i.signExtend 64 else i.setWidth 64) <<< (x.sub.toNat % 4)
          intRule x ((a e l).toNat + y.toNat : Nat) (decide (2 ^ 64 ≤ (a e l).toNat + y.toNat)) (outs 64 (sv 64 (a e l) + sv 64 y)))
        ∧ Completes (.idot4 x) x.ctl d x.flag (fun e l =>
          let p (y : DWord) (j : Nat) (s : Bool) : Int :=
            if s then ((y >>> (8 * j)).setWidth 8).toInt else ((y >>> (8 * j)).setWidth 8).toNat
          let q (j : Nat) : Int := p (a e l) j (x.sub.getLsbD 0) * p (b e l) j (x.sub.getLsbD 1)
          let v := tv t (c e l) + q 0 + q 1 + q 2 + q 3
          intRule x v false (outt t v)))
    ∧ (
    ∀ a b : DWord,
      let lo := iAdd .n32 (a.setWidth 32 |>.setWidth 64) (b.setWidth 32 |>.setWidth 64) 0
      let hi := iAdd .n32 (a >>> 32) (b >>> 32) (if lo.c then 1 else 0)
      (hi.bits .n32 false) <<< 32 ||| lo.bits .n32 false = a + b)

/-- R34, R126, R130 to R132: the instructions of row 0x3, in every performing lane, helpers among them.

R130 to R132: bit i of what the shifts, the field operations, the reversal and the byte permutation give.
The model's choices here: log 30 (DEDUCED): a W destination beside K or X sources takes the value of the lowest performing
thread, helpers counted; log 33 (DEDUCED). -/
def Obligations.LogicInstructions : Prop :=
  (
    ∀ x : IntOp,
      let w := x.ty.w
      let d := some (x.d, x.ty.regs)
      let d1 := some (x.d, 1)
      let a (e : Env) (l : Nat) : DWord := e.getN l x.a x.ty.regs
      let b (e : Env) (l : Nat) : DWord := e.getSrc l x.b x.ty.regs
      let c (e : Env) (l : Nat) : DWord := e.getN l x.c x.ty.regs
      let n (e : Env) (l : Nat) : Nat := (e.getSrc32 l x.b).toNat
      Completes (.and x) x.ctl d x.flag (fun e l => bitRule w (a e l &&& b e l) false)
        ∧ Completes (.or x) x.ctl d x.flag (fun e l => bitRule w (a e l ||| b e l) false)
        ∧ Completes (.xor x) x.ctl d x.flag (fun e l => bitRule w (a e l ^^^ b e l) false)
        ∧ Completes (.andn x) x.ctl d x.flag (fun e l => bitRule w (a e l &&& ~~~b e l) false)
        ∧ Completes (.not x) x.ctl d x.flag (fun e l => bitRule w (~~~a e l) false)
        ∧ Completes (.shl x) x.ctl d x.flag (fun e l => bitRule w (shlOp w (n e l) (a e l)).1 (shlOp w (n e l) (a e l)).2)
        ∧ Completes (.shr x) x.ctl d x.flag (fun e l => bitRule w (shrOp w (n e l) (a e l)).1 (shrOp w (n e l) (a e l)).2)
        ∧ Completes (.sar x) x.ctl d x.flag (fun e l => bitRule w (sarOp w (n e l) (a e l)).1 (sarOp w (n e l) (a e l)).2)
        ∧ Completes (.rol x) x.ctl d x.flag (fun e l => bitRule w (rolOp w (n e l) (a e l)).1 (rolOp w (n e l) (a e l)).2)
        ∧ Completes (.bfe x) x.ctl d x.flag (fun e l => bitRule w (bfeOp w x.ty.signed (a e l) (e.getSrc32 l x.b)) false)
        ∧ Completes (.bfi x) x.ctl d x.flag (fun e l => bitRule w (bfiOp w (a e l) (c e l) (e.getSrc32 l x.b)) false)
        ∧ Completes (.popc x) x.ctl d1 x.flag (fun e l =>
          bitRule 32 (BitVec.ofNat 64 ((List.range w).filter fun i => (a e l).getLsbD i).length) false)
        ∧ Completes (.clz x) x.ctl d1 x.flag (fun e l =>
          bitRule 32 (BitVec.ofNat 64 (((List.range w).find? fun i => (a e l).getLsbD (w - 1 - i)).getD w)) false)
        ∧ Completes (.ctz x) x.ctl d1 x.flag (fun e l =>
          bitRule 32 (BitVec.ofNat 64 (((List.range w).find? fun i => (a e l).getLsbD i).getD w)) false)
        ∧ Completes (.brev x) x.ctl d x.flag (fun e l => bitRule w (brevOp w (a e l)) false)
        ∧ Completes (.prmt x) x.ctl d x.flag (fun e l => bitRule w (prmtOp (e.get l x.a) (e.getSrc32 l x.b) (e.get l x.c)) false))
    ∧ (
    ∀ (w : Nat) (a c : DWord) (n : Nat), w = 32 ∨ w = 64 →
      (∀ i, i < 64 →
        (shlOp w n a).1.getLsbD i = (decide (i < w ∧ n ≤ i) && a.getLsbD (i - n))
          ∧ (shrOp w n a).1.getLsbD i = (decide (i + n < w) && a.getLsbD (i + n))
          ∧ (sarOp w n a).1.getLsbD i = (decide (i < w) && a.getLsbD (min (i + n) (w - 1)))
          ∧ (rolOp w n a).1.getLsbD i = (decide (i < w) && a.getLsbD ((i + w - n % w) % w))
          ∧ (brevOp w a).getLsbD i = (decide (i < w) && a.getLsbD (w - 1 - i)))
        ∧ (shlOp w n a).2 = (decide (0 < n ∧ n ≤ w) && a.getLsbD (w - n))
        ∧ (shrOp w n a).2 = (decide (0 < n ∧ n ≤ w) && a.getLsbD (n - 1))
        ∧ (sarOp w n a).2 = (decide (0 < n) && a.getLsbD (min (n - 1) (w - 1)))
        ∧ (rolOp w n a).2 = (decide (n % w ≠ 0) && (rolOp w n a).1.getLsbD 0)
        ∧ ∀ (ctl : Word) (i : Nat), i < w →
          let pos := ctl.toNat % 256
          let len := min (ctl.toNat / 256 % 256) w
          (bfiOp w a c ctl).getLsbD i = (if pos ≤ i ∧ i < pos + len then a.getLsbD (i - pos) else c.getLsbD i)
            ∧ (bfeOp w false a ctl).getLsbD i = (decide (i < len ∧ pos + i < w) && a.getLsbD (pos + i))
            ∧ (bfeOp w true a ctl).getLsbD i = (decide (0 < len) && a.getLsbD (min (pos + min i (len - 1)) (w - 1))))
    ∧ ∀ (a b c : Word) (j k : Nat), j < 4 → k < 8 →
      let s := c.toNat / 16 ^ j % 16
      (prmtOp a b c).getLsbD (8 * j + k) = (if s % 8 < 4 then a else b).getLsbD (8 * (s % 4) + if 8 ≤ s then 7 else k)

/-- R34, R133 to R135: moves, selections and condition codes of row 0x4, and MOVSR, which reads the special register its B field
names as the thread sees it, in every performing lane, helpers among them. A MOVSR of SR_CLK_LO or SR_TIME_LO captures the
high half for the thread's next MOVSR, and any other MOVSR drops what was captured.
The model's choices here: log 30 (DEDUCED): a W destination beside K or X sources takes the value of the lowest performing
thread, helpers counted; log 33 (DEDUCED). -/
def Obligations.MoveInstructions : Prop :=
  (∀ x : IntOp,
    let w := x.ty.w
    let n := x.ty.regs
    let holds (e : Env) (l : Nat) : Bool := (condOfCode (x.sub.toNat % 16)).holds (e.w.ccAt e.clk l x.ctl.gcc.toNat)
    (∀ o, x.b = .reg o → Completes (.mov x) x.ctl (some (x.d, n)) x.flag fun e l => bitRule w (e.getN l x.a n) false)
      ∧ (∀ k v, x.b = .imm k v → Completes (.mov x) x.ctl (some (x.d, n)) x.flag fun e l => bitRule w (e.getSrc l x.b n) false)
      ∧ Completes (.sel x) x.ctl (some (x.d, n)) x.flag (fun e l =>
        bitRule w (if holds e l then e.getN l x.a n else e.getSrc l x.b n) false)
      ∧ Completes (.cctst x) x.ctl (some (x.d, 1)) x.flag (fun e l => bitRule 32 (if holds e l then 1 else 0) false)
      ∧ Completes (.ccrd x) x.ctl (some (x.d, 1)) none (fun e l =>
        ⟨(e.w.ccAt e.clk l (x.sub.toNat % 4)).setWidth 64, 0, 0⟩)
      ∧ Completes (.ccwr x) x.ctl none x.flag (fun e l => ⟨0, (e.get l x.a).setWidth 5, 0⟩)
      ∧ Completes (.movsr x) x.ctl (some (x.d, 1)) none (fun e l => ⟨(e.special (srNum x.b) l).setWidth 64, 0, 0⟩))
    ∧ ∀ (x : IntOp) (s : State) (e : Env), s.runs (.movsr x) x.ctl = some e →
      let k := srNum x.b
      let readers := if isUniform (uses (.movsr x)) then (if e.w.guard e.clk x.ctl e.lead then [e.lead] else []) else e.all
      ∃ t, exec (.movsr x) s = .next t ∧ ∀ l, l < e.w.lanes.length →
        (l ∈ readers → ((e.now t).lane l).clkHi = (if k = 0x10 then some (BitVec.ofNat 32 (e.m.clkOf e.core / 2 ^ 32)) else none)
            ∧ ((e.now t).lane l).timeHi = (if k = 0x12 then some (BitVec.ofNat 32 (e.m.timeNs / 2 ^ 32)) else none))
          ∧ (l ∉ readers → ((e.now t).lane l).clkHi = (e.w.lane l).clkHi ∧ ((e.now t).lane l).timeHi = (e.w.lane l).timeHi)

/-- R22, R116, R117: what each special register of a thread, its wave, its group and its core reads, SR_TID by the thread's
coordinates among them, and that a number the table does not list reads 0. -/
def Obligations.SpecialRegisters : Prop :=
  ∀ (e : Env) (l : Nat),
    let t := e.w.lane l
    let r := e.g.task
    let gx := r.gx.toNat + 1
    let gy := r.gy.toNat + 1
    let tid (x y z : Nat) : Word := BitVec.ofNat 32 (x % 2 ^ 10 + y % 2 ^ 10 * 2 ^ 10 + z % 2 ^ 10 * 2 ^ 20)
    let i := 64 * e.w.index + l
    let q := 16 * e.w.index + l / 4
    (r.q2x2 = false ∨ gx * gy * (r.gz.toNat + 1) ≤ i → e.special 0x00 l = tid (i % gx) (i / gx % gy) (i / (gx * gy)))
      ∧ (r.q2x2 = true → gx % 2 = 0 → gy % 2 = 0 → i < gx * gy * (r.gz.toNat + 1) → e.special 0x00 l =
        tid (2 * (q % (gx / 2)) + l % 2) (2 * (q / (gx / 2) % (gy / 2)) + l / 2 % 2) (q / (gx / 2 * (gy / 2))))
      ∧ e.special 0x01 l = BitVec.ofNat 32 l ∧ e.special 0x02 l = BitVec.ofNat 32 (l / 4)
      ∧ e.special 0x03 l = BitVec.ofNat 32 e.w.index
      ∧ e.special 0x04 l = r.tileX ∧ e.special 0x05 l = r.tileY ∧ e.special 0x06 l = r.tileZ
      ∧ e.special 0x07 l = BitVec.ofNat 32 r.shape
      ∧ e.special 0x09 l ++ e.special 0x08 l = r.arg
      ∧ e.special 0x0A l = BitVec.ofNat 32 e.core ∧ e.special 0x0B l = BitVec.ofNat 32 (e.core / 4)
      ∧ e.special 0x0C l = e.g.launch ∧ e.special 0x0D l = e.iss.prio.setWidth 32
      ∧ e.special 0x0E l = r.flvl.setWidth 32 ∧ e.special 0x0F l = (if e.w.helper l then 1 else 0)
      ∧ (t.clkHi = none → e.special 0x11 l ++ e.special 0x10 l = BitVec.ofNat 64 (e.m.clkOf e.core))
      ∧ (t.timeHi = none → e.special 0x13 l ++ e.special 0x12 l = BitVec.ofNat 64 e.m.timeNs)
      ∧ (∀ h, t.clkHi = some h → e.special 0x11 l = h) ∧ (∀ h, t.timeHi = some h → e.special 0x13 l = h)
      ∧ e.special 0x15 l ++ e.special 0x14 l = BitVec.ofNat 64 (e.g.frames.getD e.w.depth 0)
      ∧ e.special 0x18 l = t.fpx.setWidth 32 ∧ e.special 0x19 l = e.w.ctl ∧ e.special 0x1A l = e.w.dbg.setWidth 32
      ∧ e.special 0x20 l = e.w.tcause ∧ e.special 0x22 l ++ e.special 0x21 l = e.w.tpc
      ∧ e.special 0x24 l ++ e.special 0x23 l = e.w.taddr ∧ e.special 0x26 l ++ e.special 0x25 l = e.w.tmask
      ∧ e.special 0x28 l ++ e.special 0x27 l = e.m.tvec e.asid ∧ e.special 0x29 l = t.txcause
      ∧ (∀ k, k < 8 → e.special (0x30 + k) l = (e.m.counter (.core e.core e.asid) k).value.setWidth 32)
      ∧ ∀ n, n ∈ [0x16, 0x17, 0x1B, 0x1C, 0x1D, 0x1E, 0x1F, 0x2A, 0x2B, 0x2C, 0x2D, 0x2E, 0x2F] ∨ 0x38 ≤ n → e.special n l = 0

/-- R34, R140, R141, R143 to R148: the instructions of row 0x5 on prepared operands, in every performing lane, helpers among
them; all but FCMP and FCLS give an FP32 value that SAT, the flags and the exceptions follow by R140 and R141.
The model's choices here: log 30 (DEDUCED): a W destination beside K or X sources takes the value of the lowest performing
thread, helpers counted; log 33 (DEDUCED); log 90 (DEDUCED): the exceptions of a uniform instruction enter SR_FPX of every
performing thread. -/
def Obligations.FloatInstructions : Prop :=
  ∀ x : FltOp,
    let d := some (x.d, 1)
    let a (e : Env) (l : Nat) : Nat := fp32.prep x.absA x.negA (e.get l x.a).toNat
    let b (e : Env) (l : Nat) : Nat := fp32.prep x.absB x.negB (e.getSrc32 l x.b).toNat
    let c (e : Env) (l : Nat) : Nat := fp32.prep x.absC x.negC (e.get l x.c).toNat
    Completes (.fadd x) x.ctl d x.flag (fun e l => fltRule x (fAdd fp32 x.rm (a e l) (b e l)))
      ∧ Completes (.fsub x) x.ctl d x.flag (fun e l => fltRule x (fSub fp32 x.rm (a e l) (b e l)))
      ∧ Completes (.fmul x) x.ctl d x.flag (fun e l => fltRule x (fMul fp32 x.rm (a e l) (b e l)))
      ∧ Completes (.ffma x) x.ctl d x.flag (fun e l => fltRule x (fFma fp32 x.rm (a e l) (b e l) (c e l)))
      ∧ Completes (.fmin x) x.ctl d x.flag (fun e l => fltRule x (fMinMax fp32 false (a e l) (b e l)))
      ∧ Completes (.fmax x) x.ctl d x.flag (fun e l => fltRule x (fMinMax fp32 true (a e l) (b e l)))
      ∧ Completes (.frnd x) x.ctl d x.flag (fun e l => fltRule x (fRnd fp32 x.rm (a e l)))
      ∧ (∀ k v, x.b = .imm k v → Completes (.fspec x) x.ctl d x.flag fun e l =>
        fltRule x (fSpec v.toNat x.rm (BitVec.ofNat 32 (a e l))))
      ∧ Completes (.fscl x) x.ctl d x.flag (fun e l => fltRule x (fScl fp32 x.rm (a e l) (e.getSrc32 l x.b).toInt))
      ∧ Completes (.fcmp x) x.ctl none x.flag (fun e l => ⟨0, cmpCc (fp32.val (a e l)) (fp32.val (b e l)), 0⟩)
      ∧ Completes (.fcls x) x.ctl d none (fun e l => ⟨BitVec.ofNat 64 (fCls fp32 (a e l)), 0, 0⟩)

/-- R34, R149 to R151: the instructions of row 0x6 on pairs of FP16 or BF16 elements, in every performing lane, helpers among
them.
The model's choices here: log 30 (DEDUCED): a W destination beside K or X sources takes the value of the lowest performing
thread, helpers counted; log 33 (DEDUCED); log 54 (DEDUCED); log 90 (DEDUCED): the exceptions of a uniform instruction enter
SR_FPX of every performing thread. -/
def Obligations.HalfInstructions : Prop :=
  ∀ x : HalfOp,
    let f := halfFmt x.fp16
    let d := some (x.d, 1)
    let a (e : Env) (l j : Nat) : Nat := f.prep x.absA x.negA (halfAt (e.get l x.a) j)
    let b (e : Env) (l j : Nat) : Nat := e.hB x l j
    let c (e : Env) (l j : Nat) : Nat := f.prep x.absC x.negC (halfAt (e.get l x.c) j)
    Completes (.hadd2 x) x.ctl d none (fun e l => halfRule x fun j => fAdd f x.rm (a e l j) (b e l j))
      ∧ Completes (.hmul2 x) x.ctl d none (fun e l => halfRule x fun j => fMul f x.rm (a e l j) (b e l j))
      ∧ Completes (.hfma2 x) x.ctl d none (fun e l => halfRule x fun j => fFma f x.rm (a e l j) (b e l j) (c e l j))
      ∧ Completes (.hmin2 x) x.ctl d none (fun e l => halfRule x fun j => fMinMax f false (a e l j) (b e l j))
      ∧ Completes (.hmax2 x) x.ctl d none (fun e l => halfRule x fun j => fMinMax f true (a e l j) (b e l j))
      ∧ Completes (.hcmp2 x) x.ctl d x.flag (fun e l =>
        let k (j : Nat) : BitVec 5 := cmpCc (f.val (a e l j)) (f.val (b e l j))
        ⟨BitVec.ofNat 64 ((k 0).toNat + (k 1).toNat * 2 ^ 16), k 0, 0⟩)
      ∧ Completes (.hdot2 x) x.ctl d none (fun e l =>
        let p (j : Nat) : FV × FV := (f.val (a e l j), f.val (b e l j))
        let r := (fDot fp32 x.rm [p 0, p 1] (fp32.val (fp32.prep x.absC x.negC (e.get l x.c).toNat))).sat fp32 x.sat
        ⟨BitVec.ofNat 64 r.bits, 0, r.fl⟩)

/-- R91: patterns up to the largest finite one and the values they have; in every format but E4M3 the pattern after it is
the infinity.

R95: a nonzero rational ±n / d between the value of a pattern p and the next value, as if exponents had no bound, rounds to
one of the two: in RN and RNA to the nearer one, a tie to the even fraction or away from zero, in RZ toward zero, in RU and
RD toward +∞ and −∞. What then exceeds the largest finite pattern gives what the table of overflows says, for either sign,
and the largest finite value where a conversion saturates. NX says that the value is not ±n / d. Sums and products are
rounded once from their exact value, and an exact zero sum of opposite signs is −0 in RD alone.

R93, R95, R143, R144, R147: what infinities, zeros and NaNs give. -/
def Obligations.FloatRounding : Prop :=
  -- a format, its fraction bits, its bias, its largest finite pattern, what overflow to ±∞ gives, its sign bit
  let formats : List (FFmt × Nat × Int × Nat × (Bool → Nat) × Nat) := [
    (fp32, 23, 127, 0x7F7FFFFF, fun s => if s then 0xFF800000 else 0x7F800000, 2 ^ 31),
    (fp16, 10, 15, 0x7BFF, fun s => if s then 0xFC00 else 0x7C00, 2 ^ 15),
    (bf16, 7, 127, 0x7F7F, fun s => if s then 0xFF80 else 0x7F80, 2 ^ 15),
    (e4m3, 3, 7, 0x7E, fun _ => 0x7F, 2 ^ 7),
    (e5m2, 2, 15, 0x7B, fun s => if s then 0xFC else 0x7C, 2 ^ 7)]
  (
    ∀ (f : FFmt) (mb : Nat) (bias : Int) (top : Nat) (past : Bool → Nat) (sgn p : Nat), (f, mb, bias, top, past, sgn) ∈ formats →
      -- the value of a pattern p is m × 2^e
      let m := if p < 2 ^ mb then p else p % 2 ^ mb + 2 ^ mb
      let e : Int := max 1 ((p / 2 ^ mb : Nat) : Int) - bias - mb
      (p ≤ top → f.val p = .fin false m e ∧ f.val (p + sgn) = .fin true m e)
        ∧ (f ≠ e4m3 → p = top + 1 → f.val p = .inf false ∧ f.val (p + sgn) = .inf true)
        ∧ (f = e4m3 → p = top + 1 → f.val p = .nan ∧ f.val (p + sgn) = .nan)
        ∧ ∀ (rm : Rm) (s : Bool) (n d : Nat), 0 < n → 0 < d → p ≤ top →
          let lo := ratOf m e
          let mid := ratOf (2 * m + 1) (e - 1)
          let hi := ratOf (m + 1) e
          let exact : Prop := n * lo.2 = lo.1 * d
          let up : Prop := match rm with
            | .rn => mid.1 * d < n * mid.2 ∨ (n * mid.2 = mid.1 * d ∧ m % 2 = 1)
            | .rna => mid.1 * d ≤ n * mid.2
            | .rz => False
            | .ru => s = false ∧ ¬ exact
            | .rd => s = true ∧ ¬ exact
          let toInf : Prop := rm = .rn ∨ rm = .rna ∨ (rm = .ru ∧ s = false) ∨ (rm = .rd ∧ s = true)
          let neg := if s then sgn else 0
          let r := roundRat f rm s n d
          let overflows : Prop := (toInf → r.bits = past s) ∧ (¬ toInf → r.bits = top + neg) ∧ r.fl = flOF ||| flNX
          (lo.1 * d ≤ n * lo.2 → n * hi.2 < hi.1 * d →
            (¬ up → r.bits = p + neg ∧ (r.fl &&& flNX = 0 ↔ exact) ∧ r.fl &&& flOF = 0)
              ∧ (up → p < top → r.bits = p + 1 + neg ∧ r.fl &&& flNX ≠ 0 ∧ r.fl &&& flOF = 0)
              ∧ (up → p = top → overflows))
            ∧ (p = top → hi.1 * d ≤ n * hi.2 → overflows))
    ∧ (
    ∀ (f : FFmt) (rm : Rm) (a b c : Nat) (s t u : Bool) (m n k : Nat) (x y z : Int), f ∈ [fp32, fp16, bf16] →
      f.val a = .fin s m x → f.val b = .fin t n y → f.val c = .fin u k z →
      let at' (v : Bool) (j : Nat) (w o : Int) : Int := (if v then -1 else 1) * (j * 2 ^ (w - o).toNat : Nat)
      -- an exact sum over 2^o of two addends with signs v and w
      let rounds (r : Rounded) (sum o : Int) (v w : Bool) : Prop :=
        (sum ≠ 0 → r = roundRat f rm (decide (sum < 0)) (ratOf sum.natAbs o).1 (ratOf sum.natAbs o).2)
          ∧ (sum = 0 → r = ⟨f.sign (if v = w then v else rm == .rd), 0⟩)
      rounds (fAdd f rm a b) (at' s m x (min x y) + at' t n y (min x y)) (min x y) s t
        ∧ rounds (fSub f rm a b) (at' s m x (min x y) - at' t n y (min x y)) (min x y) s (!t)
        ∧ (m * n ≠ 0 → fMul f rm a b = roundRat f rm (s != t) (ratOf (m * n) (x + y)).1 (ratOf (m * n) (x + y)).2)
        ∧ (m * n = 0 → fMul f rm a b = ⟨f.sign (s != t), 0⟩)
        ∧ rounds (fFma f rm a b c) (at' (s != t) (m * n) (x + y) (min (x + y) z) + at' u k z (min (x + y) z)) (min (x + y) z) (s != t) u)
    ∧ (
    ∀ (src dst : FFmt) (mb : Nat) (bias : Int) (top : Nat) (past : Bool → Nat) (sgn x m : Nat) (rm : Rm) (s : Bool) (e : Int),
      (dst, mb, bias, top, past, sgn) ∈ formats → src.val x = .fin s m e → (roundRat dst rm s (ratOf m e).1 (ratOf m e).2).fl &&& flOF ≠ 0 →
      cvtFF src dst rm true x = ⟨top + (if s then sgn else 0), flOF ||| flNX⟩)
    ∧ (
    ∀ (rm : Rm) (s : Bool) (x : Nat),
      let nan := fp32.nan
      let inf (s : Bool) : Nat := fp32.infBits + fp32.sign s
      let zero (s : Bool) : Nat := fp32.sign s
      fAdd fp32 rm (inf s) (inf !s) = ⟨nan, flIV⟩ ∧ fSub fp32 rm (inf s) (inf s) = ⟨nan, flIV⟩
        ∧ fMul fp32 rm (zero s) (inf false) = ⟨nan, flIV⟩ ∧ fFma fp32 rm (zero s) (inf true) x = ⟨nan, flIV⟩
        ∧ (fp32.val x = .nan → fAdd fp32 rm x (zero s) = ⟨nan, 0⟩ ∧ fMul fp32 rm x (inf s) = ⟨nan, 0⟩)
        ∧ fAdd fp32 rm (zero s) (zero !s) = ⟨zero (rm == .rd), 0⟩ ∧ fAdd fp32 rm (zero s) (zero s) = ⟨zero s, 0⟩
        ∧ fMinMax fp32 false (zero false) (zero true) = ⟨zero true, 0⟩ ∧ fMinMax fp32 true (zero true) (zero false) = ⟨zero false, 0⟩
        ∧ (fp32.val x = .nan → fMinMax fp32 s x (zero s) = ⟨zero s, 0⟩ ∧ fMinMax fp32 s (zero s) x = ⟨zero s, 0⟩)
        ∧ ∃ k, k < 9 ∧ fCls fp32 x = 2 ^ k)

/-- R34, R152 to R157: conversions, packing, VB4 decoding and scale words, in every performing lane, helpers among them.

R90, R153: what `cvt` gives between floating formats, from an integer, to an integer and between integers.

R98 to R100, R156: a code decodes to its TYPE's value times the scale, rounded once; a NaN block gives NaN, a zero block +0.

R157: a scale word made from an FP32 value has its exponent and its fraction rounded to 22 bits, or names a NaN or zero block.
The model's choices here: log 30 (DEDUCED): a W destination beside K or X sources takes the value of the lowest performing
thread, helpers counted; log 33 (DEDUCED); log 90 (DEDUCED): the exceptions of a uniform instruction enter SR_FPX of every
performing thread; log 91 (DEDUCED): PACK2 takes an immediate B in e4m3 alone. -/
def Obligations.ConvertInstructions : Prop :=
  (∀ x : CvtOp, Completes (.cvt x) x.ctl (some (x.d, if x.dst.bits = 64 then 2 else 1)) none fun e l =>
      let a := (e.getN l x.a (if x.src.bits = 64 then 2 else 1)).toNat / 2 ^ (x.el.toNat * x.src.bits) % 2 ^ x.src.bits
      ⟨(cvt x.src x.dst x.rm x.sat a).1, 0, (cvt x.src x.dst x.rm x.sat a).2⟩)
    ∧ (∀ x : HalfOp, Completes (.pack2 x) x.ctl (some (x.d, 1)) none fun e l =>
      halfRule x fun j => cvtFF fp32 (halfFmt x.fp16) x.rm false
        (if j = 0 then fp32.prep x.absA x.negA (e.get l x.a).toNat else fp32.prep false x.negB (e.getSrc32 l x.b).toNat))
    ∧ (∀ x : DqntOp, Completes (.dqnt x) x.ctl (some (x.d, 1)) none fun e l =>
      let v (k : Nat) : Rounded := vbDecode ((e.get l x.a).toNat / 2 ^ (4 * k) % 16) (e.get l x.b) (dqntFmt x.dfmt)
      let n := x.n.toNat
      if x.dfmt = .fp32 then ⟨BitVec.ofNat 64 (v n).bits, 0, (v n).fl⟩
      else ⟨BitVec.ofNat 64 ((v n).bits + (v (n + 1)).bits * 2 ^ 16), 0, (v n).fl ||| (v (n + 1)).fl⟩)
    ∧ (∀ x : SclwOp, x.val = true → Completes (.sclw x) x.ctl (some (x.d, 1)) none fun e l =>
      let w := e.get l x.a
      ⟨if w >>> 24 = 0xFF then 0x7FC00000 else if w >>> 2 = 0 then 0 else ((w >>> 1) &&& 0x7FFFFFFE).setWidth 64, 0, 0⟩)
    ∧ (∀ x : SclwOp, x.val = false → Completes (.sclw x) x.ctl (some (x.d, 1)) none fun e l =>
      let r := sclwMake x.ty x.rm (e.get l x.a)
      ⟨BitVec.ofNat 64 r.bits, 0, r.fl⟩)
    ∧ (
    ∀ (src dst : Fmt) (rm : Rm) (sat : Bool) (x : Nat), x < 2 ^ src.bits →
      -- of a floating destination: canonical NaN, infinity, largest finite value, sign bit
      let lim : Nat × Nat × Nat × Nat := match dst with
        | .fp16 => (0x7E00, 0x7C00, 0x7BFF, 2 ^ 15)
        | .bf16 => (0x7FC0, 0x7F80, 0x7F7F, 2 ^ 15)
        | .e4m3 => (0x7F, 0x7F, 0x7E, 2 ^ 7)
        | .e5m2 => (0x7E, 0x7C, 0x7B, 2 ^ 7)
        | _ => (0x7FC00000, 0x7F800000, 0x7F7FFFFF, 2 ^ 31)
      let neg (s : Bool) : Nat := if s then lim.2.2.2 else 0
      -- a finite value rounded to a floating destination
      let rounded (s : Bool) (n d : Nat) : DWord × BitVec 5 :=
        let r := roundRat dst.flt rm s n d
        (BitVec.ofNat 64 (if sat = true ∧ r.fl &&& flOF ≠ 0 then lim.2.2.1 + neg s else r.bits), r.fl)
      -- of an integer destination: the bounds, and a value held in its register
      let lo : Int := if dst.signed then -2 ^ (dst.bits - 1) else 0
      let hi : Int := if dst.signed then 2 ^ (dst.bits - 1) - 1 else 2 ^ dst.bits - 1
      let held (v : Int) : DWord := BitVec.ofNat 64 (v % 2 ^ (if dst.bits = 64 then 64 else 32)).toNat
      let int : Int := if src.signed = true ∧ 2 ^ (src.bits - 1) ≤ x then (x : Int) - 2 ^ src.bits else x
      (src.isInt = false → dst.isInt = false →
          (src.flt.val x = .nan → cvt src dst rm sat x = (BitVec.ofNat 64 lim.1, 0))
            ∧ (∀ s, src.flt.val x = .inf s → cvt src dst rm sat x =
              if sat then (BitVec.ofNat 64 (lim.2.2.1 + neg s), 0)
              else if dst = .e4m3 then (0x7F, flIV) else (BitVec.ofNat 64 (lim.2.1 + neg s), 0))
            ∧ ∀ s m e, src.flt.val x = .fin s m e → cvt src dst rm sat x = rounded s (ratOf m e).1 (ratOf m e).2)
        ∧ (src.isInt = true → dst.isInt = false → cvt src dst rm sat x = rounded (decide (int < 0)) int.natAbs 1)
        ∧ (src.isInt = false → dst.isInt = true →
          (src.flt.val x = .nan → cvt src dst rm sat x = (0, flIV))
            ∧ (∀ s, src.flt.val x = .inf s → cvt src dst rm sat x = (held (if s then lo else hi), flIV))
            ∧ ∀ s m e, src.flt.val x = .fin s m e →
              let n := (ratOf m e).1
              let d := (ratOf m e).2
              let q := n / d
              let rem := n % d
              let up : Prop := match rm with
                | .rn => d < 2 * rem ∨ (2 * rem = d ∧ q % 2 = 1)
                | .rna => d ≤ 2 * rem
                | .rz => False
                | .ru => s = false ∧ rem ≠ 0
                | .rd => s = true ∧ rem ≠ 0
              ∀ k : Nat, (up → k = q + 1) → (¬ up → k = q) →
                let v : Int := if s then -k else k
                cvt src dst rm sat x = if v < lo then (held lo, flIV) else if hi < v then (held hi, flIV)
                  else (held v, if rem = 0 then 0 else flNX))
        ∧ (src.isInt = true → dst.isInt = true →
          let low := int % 2 ^ dst.bits
          cvt src dst rm sat x = (held (if sat then max lo (min hi int)
            else if dst.signed = true ∧ 2 ^ (dst.bits - 1) ≤ low then low - 2 ^ dst.bits else low), 0)))
    ∧ (
    ∀ (c : Nat) (w : Word) (f : FFmt), c < 16 → f ∈ [fp32, fp16, bf16] →
      -- eight times the magnitude of the code's value
      let mag : Nat := (match w.toNat % 4 with
        | 0 => [0, 8, 16, 24, 32, 40, 48, 56, 64, 56, 48, 40, 32, 24, 16, 8]
        | 1 => [0, 4, 8, 12, 16, 24, 32, 48, 0, 4, 8, 12, 16, 24, 32, 48]
        | 2 => [0, 1, 2, 4, 8, 16, 32, 64, 0, 1, 2, 4, 8, 16, 32, 64]
        | _ => [0, 8, 16, 24, 32, 48, 64, 96, 0, 8, 16, 24, 32, 48, 64, 96]).getD c 0
      let exp : Nat := w.toNat / 2 ^ 24
      let mant : Nat := w.toNat / 4 % 2 ^ 22
      let m := 2 * mant + if exp = 0 then 0 else 2 ^ 23
      let r := roundRat f .rn (decide (8 ≤ c)) (ratOf (mag * m) (max 1 (exp : Int) - 153)).1 (ratOf (mag * m) (max 1 (exp : Int) - 153)).2
      (exp = 0xFF → vbDecode c w f = ⟨f.nan, 0⟩)
        ∧ (exp = 0 → mant = 0 → vbDecode c w f = ⟨0, 0⟩)
        ∧ (exp ≠ 0xFF → ¬ (exp = 0 ∧ mant = 0) → vbDecode c w f = ⟨r.bits, r.fl &&& (flOF ||| flNX)⟩))
    ∧ ∀ (t : VbType) (rm : Rm) (a : Word),
      let ty : Nat := match t with | .uint => 0 | .e2m1 => 1 | .p2 => 2 | .hyb => 3
      let nanBlock : Nat := 0xFF000000 + ty
      let p := a.toNat % 2 ^ 31
      let h := p / 2
      let up : Prop := p % 2 = 1 ∧ ((rm = .rn ∧ h % 2 = 1) ∨ rm = .rna ∨ rm = .ru)
      (0x7F800000 < p → sclwMake t rm a = ⟨nanBlock, flIV⟩)
        ∧ (p = 0x7F800000 → sclwMake t rm a = ⟨nanBlock, 0⟩)
        ∧ (p = 0 → sclwMake t rm a = ⟨ty, 0⟩)
        ∧ (0 < p → p < 0x7F800000 → a.getLsbD 31 = true → sclwMake t rm a = ⟨nanBlock, flIV⟩)
        ∧ (0 < p → p < 0x7F800000 → a.getLsbD 31 = false → ∀ q, (up → q = h + 1) → (¬ up → q = h) →
          sclwMake t rm a = if q < 0xFF * 2 ^ 22 then ⟨4 * q + ty, if p % 2 = 1 then flNX else 0⟩
            else ⟨0xFEFFFFFC + ty, flOF ||| flNX⟩)

/-- R34, R155, R101: QNTB quantises the 128 values of its entry, with a floor for the scale read in the lowest lane that holds an
active thread. Where a scale exists each performing slot, helpers among them, takes its two codes and the scale word; where no
scale is large enough the model gives free values.

R99, R101: a quantised block has a code for each value, none of them 8, and each is as near x / S as any other code.
The model's choices here: log 23 (DESIGN CHOICE): free values where no scale is large enough; log 77 (DESIGN CHOICE): an m of
−0 is no negative value and raises no IV; log 86 (DESIGN CHOICE): a helper's C gives no m. -/
def Obligations.QuantiseInstruction : Prop :=
  (
    ∀ (x : QntbOp) (s : State) (e : Env), s.runs (.qntb x) x.ctl = some e →
      let zero : FV := .fin false 0 0
      let xs := (List.range 64).flatMap fun k =>
        if k ∈ e.all then [f32 (e.get k x.a), f32 (e.get k x.b)] else [zero, zero]
      let c := f32 (e.get (e.act.headD 0) x.c)
      let bad : Bool := match c with | .nan => true | .inf _ => true | .fin g n _ => g && n != 0
      let q := vbQuantise xs x.ty x.p2 (if bad then zero else c)
      ∃ t, exec (.qntb x) s = .next t ∧ e.passes t ∧ e.steady t ∧ t.plat = s.plat ∧ t.agenda = s.agenda ∧ t.mach.mem = s.mach.mem
        ∧ (∀ l ∈ e.all, l < e.w.lanes.length → ((e.now t).lane l).fpx = (e.w.lane l).fpx ||| (if bad then flIV else 0))
        ∧ e.keeps t (fun k => ∃ l ∈ e.all, k = x.d.key l 0 ∨ k = x.d.key l 1 ∨ k = .x l 0 ∨ k = .x l 1)
        ∧ ∀ T, e.settled T → ∀ l ∈ e.all,
          (∀ word codes, q = .block word codes →
            let r : Word := (BitVec.ofNat 8 (codes.getD (2 * l) 0 + codes.getD (2 * l + 1) 0 * 16)).setWidth 32
            (e.now t).reg T (x.d.key l 0) = r ∧ (e.now t).reg T (x.d.key l 1) = word
              ∧ (l < e.w.lanes.length → (e.now t).reg T (.x l 0) = r ∧ (e.now t).reg T (.x l 1) = e.w.cur (.x l 0)))
            ∧ (q = .none → (e.now t).reg T (x.d.key l 0) = ((Config.freeValue (s.mach.fresh + l)).setWidth 8).setWidth 32
              ∧ (e.now t).reg T (x.d.key l 1) = (Config.freeValue (s.mach.fresh + 64)).setWidth 32))
    ∧ (
    (∀ (xs : List FV) (t : VbType) (p2 : Bool) (m : FV) (w : Word) (cs : List Nat), vbQuantise xs t p2 m = .block w cs →
        cs.length = xs.length ∧ (∀ c ∈ cs, c < 16 ∧ c ≠ 8) ∧ w.toNat % 4 = t.tag)
      ∧ ∀ (t : VbType) (s : Bool) (n d sn sd c : Nat), 0 < d → 0 < sn → 0 < sd → c < 16 → c ≠ 8 →
        let v (k : Nat) : Int := if (t.val8 k).1 then -((t.val8 k).2 : Int) else (t.val8 k).2
        let y : Int := if s then -(8 * n * sd : Int) else 8 * n * sd
        (y - v (vbCode t s n d sn sd) * (sn * d)).natAbs ≤ (y - v c * (sn * d)).natAbs)

/-- R34, R158 to R168: the cross-lane instructions on sources (`e.all`, helpers among them) and members (`e.act`).

R103, R104, R168: a floating REDUX combines the slots of its segment by the tree of R103, a floating SCAN adds member after
member. Integer sums are exact modulo 2^w, min and max are the least and the greatest member by type, and, or and xor work bit
by bit. Without a member the result is the identity of the operation.

R169: LANEW writes the D of the slot each source names, the highest source of a slot prevailing, and each source's latches
take that slot's D as it was.
The model's choices here: log 30 (DEDUCED): a W destination takes the value of the lowest performing thread, helpers counted;
log 33 (DEDUCED), log 51 (DEDUCED): LANEW reads that D as an operand, before a producer in flight is ready the value before
it; log 53 (DEDUCED), log 90 (DEDUCED). -/
def Obligations.CrossLaneInstructions : Prop :=
  (
    let seg (g : Seg) (e : Env) (l : Nat) : List Nat := e.act.filter fun k => k - k % g.size == l - l % g.size
    let mask (ls : List Nat) : DWord := maskOf ls
    (∀ x : ShflOp,
        let n := if x.w64 then 2 else 1
        Completes (.shfl x) x.ctl (some (x.d, n)) x.flag fun e l =>
          let p := l % x.seg.size
          let b := (e.getSrc32 l x.b).toNat
          let (j, ok) : Nat × Bool := match x.mode with
            | .idx => (b, decide (b < x.seg.size))
            | .up => (p - b, decide (b ≤ p))
            | .down => (p + b, decide (p + b < x.seg.size))
            | .xor => (p ^^^ b, decide (p ^^^ b < x.seg.size))
          let k := l - p + j
          if ok && e.all.contains k then ⟨e.getN k x.a n, zCc true, 0⟩ else ⟨e.getN l x.c n, zCc false, 0⟩)
      ∧ (∀ x : QexchOp,
        let n := if x.w64 then 2 else 1
        Completes (.qexch x) x.ctl (some (x.d, n)) none fun e l =>
          let q := l % 4
          let p := match x.mode with
            | .h => q ^^^ 1 | .v => q ^^^ 2 | .d => q ^^^ 3 | .b0 => 0 | .b1 => 1 | .b2 => 2 | .b3 => 3
          ⟨e.getN (if l - q + p ∈ e.all then l - q + p else l) x.a n, 0, 0⟩)
      ∧ (∀ x : QderOp, Completes (.qder x) x.ctl (some (x.d, 1)) none fun e l =>
        let q := l % 4
        let a (p : Nat) : Nat := (e.get (if l - q + p ∈ e.all then l - q + p else l) x.a).toNat
        let r := fSub fp32 .rn (a (if x.coarse then (if x.yAxis then 2 else 1) else if x.yAxis then q ||| 2 else q ||| 1))
          (a (if x.coarse then 0 else if x.yAxis then q &&& 1 else q &&& 2))
        ⟨BitVec.ofNat 64 r.bits, 0, r.fl⟩)
      ∧ (∀ x : VoteOp,
        let p (e : Env) (k : Nat) : Bool := e.get k x.a != 0
        (x.mode = .all → Completes (.vote x) x.ctl none x.flag fun e l => ⟨0, zCc ((seg x.seg e l).all (p e)), 0⟩)
          ∧ (x.mode = .any → Completes (.vote x) x.ctl none x.flag fun e l => ⟨0, zCc ((seg x.seg e l).any (p e)), 0⟩)
          ∧ (x.mode = .ballot → Completes (.vote x) x.ctl (some (x.d, 2)) x.flag fun e l =>
            let m := mask ((seg x.seg e l).filter (p e))
            ⟨m, zCc (m == 0), 0⟩))
      ∧ (∀ x : MatchOp, Completes (.matchv x) x.ctl (some (x.d, 2)) x.flag fun e l =>
        let n := if x.w64 then 2 else 1
        let same := (seg x.seg e l).filter fun k => e.getN k x.a n == e.getN l x.a n
        ⟨mask same, zCc (e.act.contains l && same.head? == some l), 0⟩)
      ∧ (∀ x : ElectOp, Completes (.elect x) x.ctl (x.d.map fun d => (d, 1)) (some x.ccd) fun e l =>
        let k := (seg x.seg e l).headD 0
        ⟨BitVec.ofNat 64 k, zCc (k == l && e.act.contains l), 0⟩)
      ∧ (∀ x : ReduxOp, Completes (.redux x) x.ctl (some (x.d, x.ty.regs)) none fun e l =>
        ⟨BitVec.ofNat 64 (e.reduce x l).bits, 0, (e.reduce x l).fl⟩)
      ∧ ∀ x : ReduxOp, Completes (.scan x) x.ctl (some (x.d, x.ty.regs)) none fun e l =>
        let ms := seg x.seg e l
        ⟨BitVec.ofNat 64 (e.running x (ms.filter fun k => if x.excl then k < l else k ≤ l)).bits, 0, (e.running x ms).fl⟩)
    ∧ (
    ∀ (e : Env) (x : ReduxOp) (l : Nat), l < 64 → e.act.Nodup → (∀ k ∈ e.act, k < 64) →
      let w := x.ty.w
      let v (k : Nat) : DWord := e.getN k x.a x.ty.regs
      let ms := e.act.filter fun k => k - k % x.seg.size == l - l % x.seg.size
      -- the combined value r of members ks, whatever their order
      let combined (r : Nat) (ks : List Nat) : Prop :=
        (x.op = .add → r % 2 ^ w = (ks.map fun k => (v k).toNat % 2 ^ w).sum % 2 ^ w)
          ∧ (x.op = .min → (∃ k ∈ ks, tv x.ty (BitVec.ofNat 64 r) = tv x.ty (v k)) ∧ ∀ k ∈ ks, tv x.ty (BitVec.ofNat 64 r) ≤ tv x.ty (v k))
          ∧ (x.op = .max → (∃ k ∈ ks, tv x.ty (BitVec.ofNat 64 r) = tv x.ty (v k)) ∧ ∀ k ∈ ks, tv x.ty (v k) ≤ tv x.ty (BitVec.ofNat 64 r))
          ∧ ∀ i, i < w → (x.op = .and → r.testBit i = ks.all fun k => (v k).getLsbD i)
            ∧ (x.op = .or → r.testBit i = ks.any fun k => (v k).getLsbD i)
            ∧ (x.op = .xor → r.testBit i = ((ks.filter fun k => (v k).getLsbD i).length % 2 == 1))
      let identity : Nat :=
        if x.flt then (match x.op with | .min => 0x7F800000 | .max => 0xFF800000 | _ => 0)
        else match x.op with
          | .min => if x.ty.signed then 2 ^ (w - 1) - 1 else 2 ^ w - 1
          | .max => if x.ty.signed then 2 ^ (w - 1) else 0
          | .and => 2 ^ w - 1
          | _ => 0
      -- two FP32 values combined, and the exceptions raised so far
      let two (a b : Rounded) : Rounded :=
        let r := match x.op with
          | .min => fMinMax fp32 false a.bits b.bits
          | .max => fMinMax fp32 true a.bits b.bits
          | _ => fAdd fp32 x.rm a.bits b.bits
        ⟨r.bits, a.fl ||| b.fl ||| r.fl⟩
      let one (k : Nat) : Rounded := ⟨(v k).toNat, 0⟩
      -- one line of the loop of R103
      let step (a : Nat → Option Rounded) (span i : Nat) : Option Rounded :=
        if i % (2 * span) = 0 then (match a i, a (i + span) with
          | some p, some q => some (two p q)
          | none, q => q
          | p, none => p) else a i
      let slots (i : Nat) : Option Rounded :=
        if i < x.seg.size ∧ l - l % x.seg.size + i ∈ e.act then some (one (l - l % x.seg.size + i)) else none
      (ms = [] → e.reduce x l = ⟨identity, 0⟩)
        ∧ e.running x [] = ⟨identity, 0⟩
        ∧ (x.flt = false → (ms ≠ [] → combined (e.reduce x l).bits ms) ∧ ∀ ks, ks ≠ [] → combined (e.running x ks).bits ks)
        ∧ (x.flt = true → ms ≠ [] → some (e.reduce x l) = ([1, 2, 4, 8, 16, 32].foldl step slots) 0)
        ∧ (x.flt = true → ∀ k, e.running x [k] = one k)
        ∧ (x.flt = true → ∀ ks k, ks ≠ [] → e.running x (ks ++ [k]) = two (e.running x ks) (one k)))
    ∧ ∀ (x : LanewOp) (s : State) (e : Env), s.runs (.lanew x) x.ctl = some e →
    let dst (l : Nat) : Nat := (e.getSrc32 l x.b).toNat % 64
    let holds (k : Nat) : Bool := (e.w.lane k).st == .live || e.w.helper k
    ∃ t, exec (.lanew x) s = .next t ∧ e.quiet s t ∧ e.passes t ∧ e.steady t
      ∧ e.keeps t (fun k => (∃ l ∈ e.all, holds (dst l) ∧ k = x.d.key (dst l) 0) ∨ ∃ l ∈ e.all, k = .x l 0 ∨ k = .x l 1)
      ∧ ∀ T, e.settled T →
        (∀ l ∈ e.all, holds (dst l) → (∀ j ∈ e.all, dst j = dst l → j ≤ l) → (e.now t).reg T (x.d.key (dst l) 0) = e.get l x.a)
          ∧ ∀ l ∈ e.all, l < e.w.lanes.length → (e.now t).reg T (.x l 0) = (if holds (dst l) then e.get (dst l) x.d else 0)
            ∧ (e.now t).reg T (.x l 1) = e.w.cur (.x l 0)

/-- R115: when a guard is true in a thread, by the kind bit K and the flags S, Z, C and V of its condition code.

R25, R28, R34: the threads of an entry stand at its PC with its priority and wait for nothing; the active ones are those whose
guard is true, and the helpers that perform with them stand in their quads with the guard true in their own condition code. -/
def Obligations.GuardConditions : Prop :=
  (∀ (w : Wave) (clk l : Nat) (g : Ctl),
    let cc := w.ccAt clk l g.gcc.toNat
    let s : Prop := cc.getLsbD 3 = true
    let z : Prop := cc.getLsbD 2 = true
    let c : Prop := cc.getLsbD 1 = true
    let v : Prop := cc.getLsbD 0 = true
    -- a row of the table: the columns of integer kind and of float kind
    let row : Prop × Prop := match g.cond with
      | .al => (True, True)
      | .eq => (z, z ∧ ¬ v)
      | .ne => (¬ z, ¬ z ∨ v)
      | .lt => (¬ (s ↔ v), s ∧ ¬ v)
      | .ge => (s ↔ v, (c ∨ z) ∧ ¬ v)
      | .gt => (¬ z ∧ (s ↔ v), c ∧ ¬ v)
      | .le => (z ∨ ¬ (s ↔ v), (s ∨ z) ∧ ¬ v)
      | .lo => (¬ c, s ∨ v)
      | .hs => (c, c ∨ z ∨ v)
      | .hi => (c ∧ ¬ z, c ∨ v)
      | .ls => (¬ c ∨ z, s ∨ z ∨ v)
      | .mi => (s, s)
      | .pl => (¬ s, ¬ s)
      | .vs => (v, v)
      | .vc => (¬ v, ¬ v)
      | .od => (¬ s ∧ ¬ z, ¬ v)
    w.guard clk g l = true ↔ if cc.getLsbD 4 = true then row.2 else row.1)
    ∧ ([Cond.al, .eq, .ne, .lt, .ge, .gt, .le, .lo, .hs, .hi, .ls, .mi, .pl, .vs, .vc, .od].map Cond.code = List.range 16)
    ∧ ∀ (m : Mach) (g : Ctl) (e : Env) (l : Nat), Env.of g m = some e →
      let t := e.w.lane l
      (l ∈ e.lanes ↔ l < 64 ∧ t.st = .live ∧ t.pc = e.iss.pc ∧ t.prio = e.iss.prio ∧ t.wait = .none
          ∧ (e.w.inHandler = true → t.handler = true))
        ∧ (l ∈ e.act ↔ l ∈ e.lanes ∧ e.w.guard m.clk g l = true)
        ∧ (l ∈ e.hlp ↔ l < 64 ∧ t.st ≠ .live ∧ (∃ k, k / 4 = l / 4 ∧ (e.w.lane k).st = .live) ∧ (∃ k ∈ e.act, k / 4 = l / 4)
          ∧ e.w.guard m.clk g l = true)

/-! ## Branches, waits and thread ends -/

/-- R79, R259 to R264: branches move the active threads to their targets with the priorities given, the others fall
through, and CALL leaves its return link in D. Nothing else of the machine changes but the loop buffer of a short
backward BRA.

R82, R264: SWITCH sends each thread of the entry by the table entry of the first key that equals its A, and by entry 8
where none does or its guard is false. The table is read from the laneset's loop buffer where that holds it, and else
through the fetch path.
The model's choices here: log 32 (DEDUCED). -/
def Obligations.Branches : Prop :=
  (
    (∀ (x : BraOp) (s : State) (e : Env), s.begins (.bra x) x.ctl = some e →
        ∃ t, exec (.bra x) s = .next t ∧ e.moved t (fun _ => (e.iss.pc + (x.disp.signExtend 64 <<< 2), x.tprio)) x.fprio
          ∧ e.elsewhere s t ∧ e.idle t ∧ (x.disp.getLsbD 23 = false → e.quiet s t))
      ∧ (∀ (x : BrxOp) (s : State) (e : Env), s.begins (.brx x) x.ctl = some e →
        ∃ t, exec (.brx x) s = .next t
          ∧ e.moved t (fun l => (e.getPair l x.a, (e.getSrc32 l x.b).setWidth 8)) none ∧ e.quiet s t ∧ e.idle t)
      ∧ (∀ (x : CallOp) (s : State) (e : Env), s.begins (.call x) x.ctl = some e →
        let link : DWord := (e.next &&& 0xFFFFFFFFFFFF) ||| ((x.fprio.getD e.iss.prio).setWidth 64 <<< 56)
        ∃ t, exec (.call x) s = .next t ∧ e.moved t (fun _ => (e.iss.pc + (x.disp.signExtend 64 <<< 2), x.tprio)) x.fprio
          ∧ e.quiet s t ∧ e.keeps t (fun k => ∃ l ∈ e.all, k = x.d.key l 0 ∨ k = x.d.key l 1)
          ∧ ∀ l ∈ e.all, (e.now t).cur (x.d.key l 0) = part link 0 ∧ (e.now t).cur (x.d.key l 1) = part link 1)
      ∧ (∀ (x : OneOp) (s : State) (e : Env), s.begins (.ret x) x.ctl = some e →
        ∃ t, exec (.ret x) s = .next t
          ∧ e.moved t (fun l => (e.getPair l x.a &&& 0xFFFFFFFFFFFF, (e.getPair l x.a >>> 56).setWidth 8)) none
          ∧ e.quiet s t ∧ e.idle t))
    ∧ (
    ∀ (x : SwitchOp) (s : State) (e : Env), s.begins (.switch x) x.ctl = some e →
      let key (k : Nat) : Word := ((x.keys >>> (8 * k)).setWidth 8).signExtend 32
      let entry (l : Nat) : Nat :=
        if l ∈ e.act then ((List.range x.n.toNat).find? fun k => key k == e.get l x.a).getD 8 else 8
      let goes (t : State) (l : Nat) (w : Word) : Prop :=
        ((e.now t).lane l).pc = e.iss.pc + ((((w.setWidth 24 : BitVec 24).signExtend 64) <<< 2))
          ∧ ((e.now t).lane l).prio = (w >>> 24).setWidth 8
      (∀ table : Nat → List Byte,
          (∀ k, k < 9 → table k = (e.m.core e.core).loopBytes e.w.laneset e.asid (e.iss.pc.toNat + 16 + 4 * k) ∧ 4 ≤ (table k).length) →
          ∃ t, exec (.switch x) s = .next t ∧ e.quiet s t ∧ e.idle t
            ∧ ∀ l ∈ e.lanes, goes t l (BitVec.ofNat 32 (leNat ((table (entry l)).take 4))))
        ∧ ∀ (k : Nat) (m : Mach) (w : Word), (∀ l ∈ e.lanes, entry l = k) → e.tableAt e.m k = .ok m w →
          ∃ t, exec (.switch x) s = .next t ∧ e.elsewhere s t ∧ e.idle t ∧ ∀ l ∈ e.lanes, goes t l w)

/-- R258, R266 to R268, R27, R71, R218: NOP only advances, YIELD and YLD = 1 let another entry go first, ISYNC waits for the
write-backs of its core that a lock holds and empties the loop buffer of the laneset, EXIT ends the active threads.

R271, R279: TOKW goes on when no token it waits for is pending and says in Z whether every status was 0; until then it
is held, and nothing but the clk of its next try changes.
The model's choices here: log 60 (DEDUCED): a held entry is tried again at the next clk; log 69 (DEDUCED): YIELD and YLD hand
over from the fall-through address, whatever the guard; log 97 (DEDUCED): TOKW.all waits for the tokens pending at its first
issue. -/
def Obligations.PlainControl : Prop :=
  (
    ∀ (x : PlainOp) (s : State) (e : Env),
      (s.begins (.nop x) x.ctl = some e → ∃ t, exec (.nop x) s = .next t ∧ e.quiet s t ∧ e.passes t ∧ e.steady t ∧ e.idle t
          ∧ (e.now t).yieldFrom = if x.ctl.yld then some (e.next, e.iss.prio) else none)
        ∧ (s.begins (.yield x) x.ctl = some e →
          ∃ t, exec (.yield x) s = .next t ∧ e.quiet s t ∧ e.passes t ∧ e.steady t ∧ e.idle t
            ∧ (e.now t).yieldFrom = some (e.next, e.iss.prio))
        ∧ (s.begins (.isync x) x.ctl = some e →
          let waits := s.mach.wbWait.any fun q => q.1 == e.core && q.2.1 == e.asid
          (e.act ≠ [] → waits = true → e.held s (.isync x))
            ∧ (e.act = [] ∨ waits = false →
              ∃ t, exec (.isync x) s = .next t ∧ e.elsewhere s t ∧ e.passes t ∧ e.steady t ∧ e.idle t ∧ t.mach.mem = s.mach.mem
                ∧ (e.act ≠ [] → mget (t.mach.core e.core).loops e.w.laneset = none)))
        ∧ (s.begins (.exit x) x.ctl = some e →
          ∃ t, exec (.exit x) s = .next t ∧ t.plat = s.plat ∧ t.agenda = s.agenda
            ∧ (∀ l ∈ e.act, ((e.now t).lane l).st = .exited)
            ∧ (∀ l ∈ e.lanes, l ∉ e.act → ((e.now t).lane l).pc = e.next)
            ∧ ∀ c ∈ t.mach.consigns, ¬ (c.gid = e.iss.gid ∧ c.wave = e.iss.wave ∧ c.lane ∈ e.act)))
    ∧ (
    ∀ (x : TokwOp) (s : State) (e : Env), s.begins (.tokw x) x.ctl = some e →
      let ts := e.waited x
      (ts.any e.w.toks.contains = false →
        ∃ t, exec (.tokw x) s = .next t ∧ e.quiet s t ∧ e.passes t ∧ e.steady t
          ∧ e.keeps t (fun k => ∃ f, x.flag = some f ∧ ∃ l ∈ e.all, k = .c l f.toNat)
          ∧ ∀ f, x.flag = some f → ∀ l ∈ e.act,
            (e.now t).cur (.c l f.toNat) = (zCc (ts.all fun k => (e.w.reg e.clk (.w k)).setWidth 8 == (0 : Byte))).setWidth 32)
        ∧ (ts.any e.w.toks.contains = true → e.all ≠ [] →
          ∃ t, exec (.tokw x) s = .next t ∧ e.elsewhere s t ∧ e.idle t ∧ t.mach.mem = s.mach.mem
            ∧ ∀ l ∈ e.lanes, ((e.now t).lane l).pc = e.iss.pc ∧ ((e.now t).lane l).ready = e.clk + 1))

/-! ## Traps -/

/-- R86, R88, R89, R351, R352, R355, R356: before any Farom instruction performs, the mode check and then the operand check
decide, a handler running in user mode; each raises its code in every active thread at the instruction's own PC, and the
instruction performs nothing. Then the scoreboard holds the entry while a register or condition code it names is pending; an
external effect, IDM and ERET wait for the entry's loads, and TOKW and AWAIT for their tokens. Where nothing holds it and
SR_CTL[0] is 1, a source whose fixed-latency result is not readable yet raises SCOREBOARD with its register field as INFO.
The model's choices here: log 25 (DEDUCED), log 60 (DEDUCED), log 67 (DEDUCED). -/
def Obligations.ChecksTrap : Prop :=
  ∀ (i : Instr) (r : Raw) (s : State) (e : Env), i.raw = some r → Env.of (ctlOf r) s.mach = some e →
    let names := if e.act = [] then e.lanes else e.act
    let traps (code : Nat) : Prop := e.traps s i names code 0 0
    let c := ctlOf r
    let system : Prop := e.g.system = true ∧ e.w.inHandler = false
    let modeOk : Prop := privileged i = false ∨ system
    let operandsOk : Prop := usesOk (uses i) (e.w.base + e.w.ext) = true
    (privileged i = true → ¬ system → traps Code.priv)
      ∧ (modeOk → ¬ operandsOk → traps Code.illegalOperand)
      ∧ (modeOk → operandsOk →
        (∃ u ∈ uses i, (u.src = true ∨ u.dst = true) ∧ ∃ l ∈ e.whole, ∃ k ∈ u.keys l, k ∈ e.w.pend)
            ∨ (∃ k ∈ tokKeys (uses i), k ∈ e.w.pend ∧ ∀ n, k = .w n → n ∉ e.w.toks)
            ∨ (∃ k ∈ e.ccKeys i c, k ∈ e.w.pend)
            ∨ (∃ n, flagDst i = some n ∧ ∃ l ∈ e.whole, .c l n.toNat ∈ e.w.pend)
            ∨ ((external i = true ∨ c.idm = true ∨ ∃ x, i = .eret x) ∧ ∃ o ∈ e.w.loads, ∃ l ∈ e.lanes, o.mask.getLsbD l = true)
            ∨ (∃ x l, i = .await x ∧ e.w.toks ≠ [] ∧ l ∈ e.act)
            ∨ (∃ x, i = .tokw x ∧ e.all ≠ [] ∧ e.tokensNoted x = true ∧ (e.waited x).any e.w.toks.contains = true) →
          e.held s i)
      ∧ (modeOk → operandsOk → e.scoreHolds i c = false →
        (e.w.drowsy = true → ∀ u ∈ uses i, u.src = true → u.inExt e.w.base = false) →
        e.refreshed (e.ownReads i) (e.remoteReads i) = none → e.w.ctl.getLsbD 0 = true →
        ∀ k, (e.sources i ++ e.ccKeys i c).find? (e.w.unready e.clk) = some k →
          e.traps s i names Code.scoreboard k.field 0)

/-- R323, R352, R353, R356: a trap that finds a vector writes SR_TCAUSE, SR_TPC, SR_TADDR and SR_TMASK, puts the threads
named at the handler's address with priority 0xFF in handler mode, and changes no register and no other thread.
The model's choices here: log 56 (DEDUCED). -/
def Obligations.TrapEntry : Prop :=
  ∀ (m m' : Mach) (gid wave pc : Nat) (g : Group) (w : Wave) (t : PendTrap),
    m.group gid = some g → g.wave wave = some w → w.inHandler = false →
    m.readVector g (vectorAddr (m.tvec g.asid) t.code) = .ok m' pc → m'.group gid = some g →
    ∃ v, (m.deliver gid wave t).wave gid wave = some v
      ∧ v.tcause = (0 : BitVec 8) ++ t.prio ++ BitVec.ofNat 8 t.info ++ BitVec.ofNat 8 t.code
      ∧ v.tpc = t.pc &&& 0xFFFFFFFFFFFF ∧ v.taddr = t.addr &&& 0xFFFFFFFFFFFF ∧ v.tmask = t.mask ∧ v.inHandler = true
      ∧ v.ctl = w.ctl ∧ v.dbg = w.dbg ∧ v.depth = w.depth
      ∧ (∀ l, l < w.lanes.length → t.mask.getLsbD l = true → (v.lane l).pc = BitVec.ofNat 64 pc ∧ (v.lane l).prio = 0xFF
        ∧ (v.lane l).handler = true ∧ (v.lane l).newRegion = true ∧ (v.lane l).wait = .none ∧ (v.lane l).st = (w.lane l).st)
      ∧ (∀ l, t.mask.getLsbD l = false → v.lane l = w.lane l)
      ∧ ∀ k, v.cur k = w.cur k

/-- R358, R359: a trap in handler mode, PERF_OVF apart, is a context fault with ORIGIN 1, and so is, with its own ORIGIN, a
trap whose vector cannot be read: the context's groups leave every core and its image carries the fault record. A PERF_OVF
in handler mode is held, and a trap whose vector must be waited for stays to be delivered.
The model's choices here: log 27 (DEDUCED). -/
def Obligations.NestedTrap : Prop :=
  ∀ (m : Mach) (gid wave : Nat) (g : Group) (w : Wave) (t : PendTrap) (c : Ctx),
    m.group gid = some g → g.wave wave = some w → m.ctxOf g.asid = some c →
    let faults (origin : Nat) : Prop :=
      (∀ p ∈ (m.deliver gid wave t).groups, p.2.asid ≠ g.asid)
        ∧ ∃ v ∈ (m.deliver gid wave t).saved, v.asid = g.asid ∧ v.faulted = true
          ∧ v.fault = some ⟨tcauseOf t, origin, t.pc &&& 0xFFFFFFFFFFFF, t.addr &&& 0xFFFFFFFFFFFF, t.mask,
            g.nameOf wave (g.task.lowest wave (lanesOf t.mask)), some (gid, wave)⟩
    (w.inHandler = true → t.code ≠ Code.perfOvf → faults 1)
      ∧ (w.inHandler = true → t.code = Code.perfOvf →
        m.deliver gid wave t = m.updWave gid wave fun w => { w with perfHeld := w.perfHeld ++ [t.info] })
      ∧ ∀ m', w.inHandler = false →
        (∀ origin, m.readVector g (vectorAddr c.tvec t.code) = .fault m' origin → m'.ctxOf g.asid = some c → m'.group gid = some g →
            faults origin)
          ∧ ∀ asked, m.readVector g (vectorAddr c.tvec t.code) = .later m' asked →
            m.deliver gid wave t = m'.updWave gid wave fun w => { w with traps := w.traps ++ [t] }

/-- R269, R349: TRAP n raises SWTRAP with INFO n and SR_TPC at the next instruction, in the active threads, the others of the
entry having passed it; BRK does the same with its own code, or halts the core where the debug window arms it. Without an
active thread both only advance.

R270, R357: ERET in handler mode ends the handler of the whole wave: live handler threads that SR_TMASK names stand at
SR_TPC with the priority of SR_TCAUSE, the others of the handler have exited; outside a handler it raises
ILLEGAL_INSTRUCTION.
The model's choices here: log 28 (DEDUCED). -/
def Obligations.TrapInstructions : Prop :=
  (
    ∀ (x : ImmOp) (s : State) (e : Env),
      let traps (i : Instr) (code : Nat) : State :=
        let m := e.finish i x.ctl e.m (e.lanes.filter fun l => !e.act.contains l)
        { s with mach := { m.deliver e.iss.gid e.iss.wave (e.trapOf e.next e.act code x.n.toNat 0) with issue := none } }
      (s.begins (.trap x) x.ctl = some e →
          (e.act ≠ [] → (e.w.loads = [] → exec (.trap x) s = .next (traps (.trap x) Code.swtrap)) ∧ (e.w.loads ≠ [] → e.held s (.trap x)))
            ∧ (e.act = [] → ∃ t, exec (.trap x) s = .next t ∧ e.quiet s t ∧ e.passes t ∧ e.steady t ∧ e.idle t))
        ∧ (s.begins (.brk x) x.ctl = some e →
          (e.act ≠ [] → (e.m.halt e.core e.asid).armed = false →
              (e.w.loads = [] → exec (.brk x) s = .next (traps (.brk x) Code.brk)) ∧ (e.w.loads ≠ [] → e.held s (.brk x)))
            ∧ (e.act ≠ [] → (e.m.halt e.core e.asid).armed = true →
              ∃ t, exec (.brk x) s = .next t ∧ t.plat = s.plat ∧ t.agenda = s.agenda ∧ e.passes t ∧ e.idle t
                ∧ (t.mach.halt e.core e.asid).halted = true)
            ∧ (e.act = [] → ∃ t, exec (.brk x) s = .next t ∧ e.quiet s t ∧ e.passes t ∧ e.steady t ∧ e.idle t)))
    ∧ (
    ∀ (x : PlainOp) (s : State) (e : Env), s.begins (.eret x) x.ctl = some e → e.act ≠ [] →
      (e.w.inHandler = true →
        ∃ t, exec (.eret x) s = .next t ∧ t.plat = s.plat ∧ t.agenda = s.agenda ∧ (e.now t).inHandler = false
          ∧ (∀ l, l < 64 → l < e.w.lanes.length → (e.w.lane l).handler = true →
            ((e.now t).lane l).handler = false
              ∧ (e.w.tmask.getLsbD l = true → (e.w.lane l).st = .live → ((e.now t).lane l).pc = e.w.tpc
                ∧ ((e.now t).lane l).prio = BitVec.ofNat 8 (e.w.tcause.toNat / 65536) ∧ ((e.now t).lane l).newRegion = true)
              ∧ (e.w.tmask.getLsbD l = false → ((e.now t).lane l).st = .exited))
          ∧ ∀ l, (e.w.lane l).handler = false → ((e.now t).lane l).pc = (e.w.lane l).pc)
        ∧ (e.w.inHandler = false → e.traps s (.eret x) e.act Code.illegalInstruction 0 0))

/-! ## Tasks and barriers -/

/-- R272, R273: SPAWN and SPAWNR check the whole entry before anything is pushed; a failing check traps with nothing done.
Otherwise COUNT of the current frame rises by the groups the records stand for, one entry is pushed for each record, and
with room in the hardware queue a record alone stands there with the frame as its LINK. A write-back that must wait for a
locked sector holds the entry.

R38, R41, R272: the checks of SPAWN in their order. -/
def Obligations.SpawnInstructions : Prop :=
  (
    ∀ (i : Instr) (c : Ctl) (s : State) (e0 : Env), s.begins i c = some e0 →
      let e := e0.inside i
      let h := e.g.frames.getD e.w.depth 0
      ∀ (m : Mach) (ps : List Spawning) (bad : Nat → Bool),
        ((∃ x : OneOp, i = .spawn x ∧ c = x.ctl ∧ (m, ps) = e.records x.a (fun _ => none) ∧ bad = fun _ => false)
          ∨ ∃ x : AbcOp, i = .spawnr x ∧ c = x.ctl ∧ bad = (fun l => decide (2 ^ 16 ≤ (e.get l x.c).toNat))
            ∧ (m, ps) = e.records x.a fun l =>
              some ((e.getSrc32 l x.b).toNat % 2 ^ 16 + 1, (e.getSrc32 l x.b).toNat / 2 ^ 16 + 1, (e.get l x.c).toNat % 2 ^ 16 + 1)) →
        (∀ ls code info addr, e.act ≠ [] → e.spawnCheck m ps bad = some (ls, code, info, addr) →
            e.trapsIn m s i ls code info (BitVec.ofNat 64 addr))
          ∧ (e.act ≠ [] → e.spawnCheck m ps bad = none → m.flushHeld e.core e.asid = true → e.held s i)
          ∧ (e.spawnCheck m ps bad = none → m.flushHeld e.core e.asid = false →
              ∃ t, exec i s = .next t
            ∧ t.plat = s.plat ∧ t.agenda = s.agenda ∧ e.passes t ∧ e.idle t
            ∧ t.mach.nextSerial = s.mach.nextSerial + ps.length
            ∧ (∀ f, ps ≠ [] → m.spills e.asid (e.core / 4) ps.length = 0 → (m.release e.core e.asid).frame e.asid h = some f →
              t.mach.frame e.asid h = some { f with count := f.count + (ps.map Spawning.groups).sum })
            ∧ ∀ p, ps = [p] → m.spills e.asid (e.core / 4) 1 = 0 →
              ∃ q, (mgetD t.mach.spawnQ (e.core / 4) []).getLast? = some q ∧ q.asid = e.asid
                ∧ q.task = { p.task with link := BitVec.ofNat 64 h } ∧ q.serial = s.mach.nextSerial
                ∧ q.grid = p.grid.map (fun g => (g.1, g.2.1, g.2.2, 0))))
    ∧ (
    ∀ (e : Env) (m : Mach) (p : Spawning),
      let h := e.g.frames.getD e.w.depth 0
      let check := e.spawnCheck m [p] fun _ => false
      (p.off % 64 ≠ 0 → check = some ([p.lane], Code.align, 0, p.off))
        ∧ (p.off % 64 = 0 → e.g.grant < p.off + 64 → check = some ([p.lane], Code.perm, 0, p.off))
        ∧ (p.off % 64 = 0 → p.off + 64 ≤ e.g.grant → p.task.ok = false → check = some ([p.lane], Code.illegalOperand, 0, 0))
        ∧ (p.off % 64 = 0 → p.off + 64 ≤ e.g.grant → p.task.ok = true → p.grid = none →
          (2 ^ 32 ≤ m.countOf e.asid h + p.task.parts → check = some ([p.lane], Code.spawnLimit, 0, 0))
            ∧ (m.countOf e.asid h + p.task.parts < 2 ^ 32 →
              check = if m.quotaOk e.asid (e.core / 4) 1 then none else some ([p.lane], Code.quota, 0, 0))))

/-- R43, R276: AWAIT parks its active threads past it; while a live thread of the group is elsewhere they wait; when they
complete the rendezvous the group goes on at once if COUNT is zero, its frame retired, and else becomes a continuation.

R274, R275: FRAME raises the wave's depth: it adopts the group's frame at the new depth, or opens one whose PARENT is the
frame below; replayed after a rollback it opens nothing and stands at its old depth; with a live thread elsewhere, beyond
depth 15 or with a full store it traps.
The model's choices here: log 31 (DESIGN CHOICE), log 74 (DEDUCED). -/
def Obligations.FrameAndAwait : Prop :=
  (
    ∀ (x : PlainOp) (s : State) (e : Env), s.begins (.await x) x.ctl = some e → e.act ≠ [] →
      (∀ v ∈ e.g.waves, v.depth = e.w.depth ∨ ∀ l ∈ v.live, (v.lane l).wait ≠ .await) →
      let m := e.upd e.m fun w => w.updLanes e.act fun t => { t with wait := .await, pc := e.next }
      ∀ g, m.group e.iss.gid = some g → g.parked = false →
        ∃ t, exec (.await x) s = .next t ∧ t.plat = s.plat ∧ t.agenda = s.agenda ∧ e.idle t
          ∧ (∀ l ∈ e.lanes, ((e.now t).lane l).pc = e.next)
          ∧ (g.meeting = none → e.elsewhere s t ∧ ∀ l ∈ e.act, ((e.now t).lane l).wait = .await)
          ∧ ∀ d, g.meeting = some d →
            (m.countOf e.asid (g.frames.getD d 0) ≠ 0 → (t.mach.group e.iss.gid).map (·.parked) = some true
              ∧ ∀ l ∈ e.act, ((e.now t).lane l).wait = .await)
            ∧ (m.countOf e.asid (g.frames.getD d 0) = 0 → ((t.mach.group e.iss.gid).map (·.parked) = some false
              ∧ (e.now t).depth = d - 1 ∧ ∀ l ∈ e.act, ((e.now t).lane l).wait = .none ∧ ((e.now t).lane l).newRegion = true)
              ∧ (0 < d → t.mach.frame e.asid (g.frames.getD d 0) = none)))
    ∧ (
    ∀ (x : PlainOp) (s : State) (e : Env), s.begins (.frame x) x.ctl = some e →
      let d := e.w.depth + 1
      let fails (code : Nat) : Prop := e.traps s (.frame x) e.named code 0 0
      let afresh : Prop := ∃ l ∈ e.act, (e.w.lane l).framesReplay = []
      let counted (t : State) : Prop := ∀ l ∈ e.act, ((e.now t).lane l).framesDone = (e.w.lane l).framesDone ++ [d]
      (afresh → e.act = e.w.live → d < 16 →
          (e.g.frames.getD d 0 ≠ 0 → ∃ t, exec (.frame x) s = .next t ∧ e.quiet s t ∧ e.passes t ∧ e.steady t ∧ e.idle t
            ∧ (e.now t).depth = d ∧ counted t)
          ∧ (∀ m h, e.g.frames.getD d 0 = 0 → e.m.openFrame e.asid (e.g.frames.getD e.w.depth 0) 0 false = some (m, h) →
            ∃ t, exec (.frame x) s = .next t ∧ e.elsewhere s t ∧ e.passes t ∧ e.steady t ∧ e.idle t ∧ (e.now t).depth = d ∧ counted t
              ∧ t.mach.frame e.asid h = some ⟨0, true, false, false, false, none, e.g.frames.getD e.w.depth 0, 0, 0, 0⟩
              ∧ (t.mach.group e.iss.gid).map (·.frames.getD d 0) = some h
              ∧ ∀ k, k ≠ d → (t.mach.group e.iss.gid).map (·.frames.getD k 0) = some (e.g.frames.getD k 0))
          ∧ (e.g.frames.getD d 0 = 0 → e.m.openFrame e.asid (e.g.frames.getD e.w.depth 0) 0 false = none → fails Code.spawnLimit))
        ∧ (∀ k, e.act ≠ [] → (∀ l ∈ e.act, (e.w.lane l).framesReplay ≠ []) → (e.w.lane e.first).framesReplay.head? = some k →
          ∃ t, exec (.frame x) s = .next t ∧ e.quiet s t ∧ e.passes t ∧ e.idle t ∧ (e.now t).depth = k
            ∧ ∀ l ∈ e.act, ((e.now t).lane l).framesReplay = (e.w.lane l).framesReplay.tail)
        ∧ (e.act = [] ∨ afresh → e.act ≠ e.w.live → fails Code.illegalOperand)
        ∧ (afresh → e.act = e.w.live → 16 ≤ d → fails Code.spawnLimit))

/-- R328, R330 to R332: BARA makes the arrivals of its entry or traps with none made; BARAW parks the threads whose phase is
still open; BARW waits for the phase of the arrival record or clears it.

R330: an arrival counts one and fixes EXPECTED when it is the first of its phase; when ARRIVED reaches EXPECTED the phase
completes: its waiters go on, PHASE rises and both counts return to 0.
The model's choices here: log 58 (DEDUCED). -/
def Obligations.NamedBarriers : Prop :=
  (
    (∀ (x : BarOp) (s : State) (e0 : Env), s.begins (.bara x) x.ctl = some e0 →
        let e := e0.inside (.bara x)
        (∀ g k, e.act ≠ [] → e.arrivals x = .ok g k →
            ∃ t, exec (.bara x) s = .next t ∧ t.plat = s.plat ∧ t.agenda = s.agenda ∧ e.passes t ∧ e.idle t
              ∧ (t.mach.group e.iss.gid).map (·.slots) = some g.slots
              ∧ ∀ v l, g.wave e.iss.wave = some v → ((e.now t).lane l).arrival = (v.lane l).arrival ∧ ((e.now t).lane l).wait = (v.lane l).wait)
          ∧ (∀ code, e.act ≠ [] → e.arrivals x = .bad code → e.traps s (.bara x) e.act code 0 0))
      ∧ (∀ (x : BarOp) (s : State) (e0 : Env), s.begins (.baraw x) x.ctl = some e0 →
        let e := e0.inside (.baraw x)
        ∀ g k, e.act ≠ [] → e.arrivals x = .ok g k →
          ∃ t, exec (.baraw x) s = .next t ∧ t.plat = s.plat ∧ t.agenda = s.agenda ∧ e.passes t ∧ e.idle t
            ∧ (t.mach.group e.iss.gid).map (·.slots) = some g.slots
            ∧ ∀ v l, g.wave e.iss.wave = some v → ((e.now t).lane l).arrival = (v.lane l).arrival
                ∧ (l ∈ e.act → (v.lane l).arrival = some (x.id, (g.slot k).phase) →
                  ((e.now t).lane l).wait = .bar x.id (g.slot k).phase false)
                ∧ (l ∉ e.act ∨ (v.lane l).arrival ≠ some (x.id, (g.slot k).phase) → ((e.now t).lane l).wait = (v.lane l).wait))
      ∧ ∀ (x : PlainOp) (s : State) (e : Env), s.begins (.barw x) x.ctl = some e →
        ∃ t, exec (.barw x) s = .next t ∧ e.quiet s t ∧ e.passes t ∧ e.idle t
          ∧ ∀ l ∈ e.act,
            (∀ id p k, (e.w.lane l).arrival = some (id, p) → e.g.barSlot id = some k → (e.g.slot k).phase = p →
                ((e.now t).lane l).wait = .bar id p true)
              ∧ (∀ id p, (e.w.lane l).arrival = some (id, p) → (∀ k, e.g.barSlot id = some k → (e.g.slot k).phase ≠ p) →
                ((e.now t).lane l).arrival = none ∧ ((e.now t).lane l).wait = (e.w.lane l).wait)
              ∧ ((e.w.lane l).arrival = none → ((e.now t).lane l).arrival = none ∧ ((e.now t).lane l).wait = (e.w.lane l).wait))
    ∧ (
    ∀ (g : Group) (id : BitVec 6) (k n wave lane : Nat) (w : Wave), id ≠ 0 → k < g.slots.length → g.wave wave = some w → lane < w.lanes.length →
      let b := g.slot k
      let exp := if b.expected = 0 then n else b.expected
      let g' := g.arrive1 id k n wave lane
      (b.arrived + 1 = exp → (g'.slot k).phase = b.phase + 1 ∧ (g'.slot k).arrived = 0 ∧ (g'.slot k).expected = 0
          ∧ ∀ v ∈ g'.waves, ∀ l ∈ v.live, ∀ c, (v.lane l).wait ≠ .bar id b.phase c)
        ∧ (b.arrived + 1 ≠ exp → (g'.slot k).phase = b.phase ∧ (g'.slot k).arrived = b.arrived + 1 ∧ (g'.slot k).expected = exp
          ∧ (g'.wave wave).map (fun v => (v.lane lane).arrival) = some (some (id, b.phase)))
        ∧ ∀ j, j ≠ k → g'.slot j = g.slot j)

/-- R334, R336: TBINIT checks alignment, grant, counts and a free slot, then binds the slot and writes the word; TBARR and
TBEXP take a step on a live word of the issuing group or, with CV, of a group of its convoy, or trap with BARRIER_COUNT or
ILLEGAL_OPERAND. An arrival from another core waits while a write-back of its core waits, and is a release.

R333 to R335: a step on a live word subtracts arrivals and adds or subtracts sectors; when both counts are zero the phase
completes: PHASE rises modulo 16, ARRIVE_PENDING reloads, and the waiters of the phase go on past their TBWAIT; a step
that would leave a count's range changes nothing.
The model's choices here: log 57 (DEDUCED). -/
def Obligations.BarrierWords : Prop :=
  (
    (∀ (x : AbcOp) (s : State) (e0 : Env), s.begins (.tbinit x) x.ctl = some e0 →
        let e := e0.inside (.tbinit x)
        let a := (e.get e.first x.a).toNat
        let b := (e.getSrc32 e.first x.b).toNat
        let c := (e.get e.first x.c).toNat
        let fails (code addr : Nat) : Prop := e.traps s (.tbinit x) e.act code 0 (BitVec.ofNat 64 addr)
        e.act ≠ [] →
          (a % 16 ≠ 0 → fails Code.align a)
            ∧ (a % 16 = 0 → e.g.grant < a + 16 → fails Code.perm a)
            ∧ (a % 16 = 0 → a + 16 ≤ e.g.grant → (b = 0 ∨ 65535 < b ∨ 15 < c) → fails Code.barrierCount a)
            ∧ (a % 16 = 0 → a + 16 ≤ e.g.grant → 0 < b → b ≤ 65535 → c ≤ 15 →
              ((e.g.binding a).isSome ∨ e.g.freeBar = none → fails Code.illegalOperand 0)
                ∧ ∀ k, e.g.binding a = none → e.g.freeBar = some k → k < e.g.slots.length →
                  ∃ t, exec (.tbinit x) s = .next t ∧ e.elsewhere s t ∧ e.passes t ∧ e.idle t
                    ∧ t.mach.tbWord e.g a = ⟨c, b, b, 0⟩
                    ∧ (t.mach.group e.iss.gid).map (fun g => g.slot k) = some { BarSlot.free with kind := .binding a, phase := c }))
      ∧ ∀ (x : TbOp) (i : Instr) (s : State) (e0 : Env) (arrive : Bool), i = (if arrive then .tbarr x else .tbexp x) →
        s.begins i x.ctl = some e0 →
        let e := e0.inside i
        let a := (e.get e.first x.a).toNat
        let n := (e.getSrc32 e.first x.b).toNat
        let fails (code addr : Nat) : Prop := e.traps s i e.act code 0 (BitVec.ofNat 64 addr)
        e.act ≠ [] →
          -- with CV the position in bits 25:24 names the group, and bits 31:26 are zero
          let word : Option (Group × Nat) :=
            if x.cv = false then some (e.g, a)
            else if a < 2 ^ 26 then (e.m.atPosition e.g (a / 2 ^ 24 % 4)).map fun g => (g, a % 2 ^ 24) else none
          ((∀ g off, word = some (g, off) → g.binding off = none) → fails Code.illegalOperand 0)
            ∧ ∀ g off k, word = some (g, off) → g.binding off = some k →
              let remote := arrive = true ∧ g.core ≠ e.core
              -- an arrival from another core is a release, which the word's monitor keeps
              let released : Mach := if remote then
                  (e.m.release e.core e.asid).updGroup g.gid fun h =>
                    h.updSlot k fun b => { b with sig := b.sig ||| e.g.sig, remote := true }
                else e.m
              let step := released.tbStep g.gid off (if arrive then n else 0) (if arrive then 0 else n) 0
              (remote → e.m.flushHeld e.core e.asid = true → e.held s i)
                ∧ (¬ remote ∨ e.m.flushHeld e.core e.asid = false →
                  (∀ m, 0 < n → step = some m → exec i s = .next (s.ended e0 i x.ctl m e.lanes))
                    ∧ (n = 0 ∨ step = none → fails Code.barrierCount off)))
    ∧ (
    ∀ (m : Mach) (gid off da up down k : Nat) (g : Group), m.group gid = some g → g.gid = gid → g.binding off = some k → g.units.Nodup →
      off + 16 ≤ g.grant → off % 16 = 0 →
      let w := m.tbWord g off
      let a := w.arrive - da
      let x := w.sectors + up - down
      ((w.arrive < da ∨ w.sectors + up < down ∨ 2 ^ 32 ≤ w.sectors + up - down) → m.tbStep gid off da up down = none)
        ∧ (da ≤ w.arrive → down ≤ w.sectors + up → x < 2 ^ 32 → ∃ m', m.tbStep gid off da up down = some m'
          ∧ (¬ (a = 0 ∧ x = 0) → m'.tbWord g off = { w with arrive := a, sectors := x } ∧ m'.groups = m.groups)
          ∧ (a = 0 ∧ x = 0 → m'.tbWord g off = { phase := (w.phase + 1) % 16, arrive := w.expect, expect := w.expect, sectors := 0 }
            ∧ ∃ g', m'.group gid = some g' ∧ (g'.slot k).phase = (g.slot k).phase + 1
              ∧ ∀ v ∈ g'.waves, ∀ l ∈ v.live, ∀ b, (v.lane l).wait ≠ .tbar k (g.slot k).phase b)))

/-- R337, R338: TBWAIT goes on when the phase is not the one it names and else parks its entry at its own PC until that phase
completes; TBREL frees the slot and leaves the word, and is held while a Porter command counts into it. Both trap with
ILLEGAL_OPERAND at a word that is not live, TBWAIT with BARRIER_COUNT at a phase number above 15.
The model's choices here: log 58 (DEDUCED). -/
def Obligations.BarrierWaits : Prop :=
  (∀ (x : AbOp) (s : State) (e0 : Env), s.begins (.tbwait x) x.ctl = some e0 →
      let e := e0.inside (.tbwait x)
      let a := (e.get e.first x.a).toNat
      let b := (e.getSrc32 e.first x.b).toNat
      let fails (code addr : Nat) : Prop := e.traps s (.tbwait x) e.act code 0 (BitVec.ofNat 64 addr)
      e.act ≠ [] → (e.g.binding a = none → fails Code.illegalOperand 0) ∧ ∀ k, e.g.binding a = some k →
        (15 < b → fails Code.barrierCount a)
        ∧ (b ≤ 15 → (e.m.tbWord e.g a).phase ≠ b → ∃ t, exec (.tbwait x) s = .next t ∧ t.plat = s.plat ∧ t.agenda = s.agenda
          ∧ e.passes t ∧ e.idle t ∧ ∀ p, t.mach.spadByte e.g p = s.mach.spadByte e.g p)
        ∧ (b ≤ 15 → (e.m.tbWord e.g a).phase = b → ∃ t, exec (.tbwait x) s = .next t ∧ e.elsewhere s t ∧ e.idle t
          ∧ (∀ l ∈ e.lanes, ((e.now t).lane l).pc = e.iss.pc
            ∧ ((e.now t).lane l).wait = .tbar k (e.g.slot k).phase (decide (l ∈ e.act)))
          ∧ ∀ p, t.mach.spadByte e.g p = s.mach.spadByte e.g p))
    ∧ ∀ (x : OneOp) (s : State) (e0 : Env), s.begins (.tbrel x) x.ctl = some e0 →
      let e := e0.inside (.tbrel x)
      let a := (e.get e.first x.a).toNat
      let counts (c : PorterCmd) : Prop := c.gid = e.iss.gid ∧ ∃ p, c.compl = .bar a p
      let counted : Prop := (∃ c ∈ (e.m.core e.core).porterQ, counts c) ∨ ∃ r ∈ e.m.rings, ∃ c, .porter c ∈ r.2.items ∧ counts c
      e.act ≠ [] → (e.g.binding a = none → e.traps s (.tbrel x) e.act Code.illegalOperand 0 0)
        ∧ ∀ k, e.g.binding a = some k → k < e.g.slots.length → (counted → e.held s (.tbrel x))
        ∧ (¬ counted → ∃ t, exec (.tbrel x) s = .next t ∧ t.plat = s.plat ∧ t.agenda = s.agenda ∧ e.passes t ∧ e.idle t
          ∧ (t.mach.group e.iss.gid).map (fun g => g.slot k) = some BarSlot.free
          ∧ (∀ p, t.mach.spadByte e.g p = s.mach.spadByte e.g p)
          ∧ ∀ l, (e.w.lane l).st = .live → l < 64 → (∀ p c, (e.w.lane l).wait ≠ .tbar k p c) →
            ((e.now t).lane l).wait = (e.w.lane l).wait)

/-- R96, R116, R117, R134, R136: MOVSW writes the register its B field names with reserved bits left out: SR_FPX of each active
thread from its own A, the others once from the A of the lowest active thread; a read-only register raises
ILLEGAL_OPERAND, a number the table does not list is ignored. A write of SR_PMCn comes before every event of its clk.
The model's choices here: log 72 (DEDUCED): SR_TXCAUSE is read-only, and the check stands whatever the guard. -/
def Obligations.SpecialWrites : Prop :=
  ∀ (x : IntOp) (s : State) (e0 : Env), s.begins (.movsw x) x.ctl = some e0 →
    let e := e0.inside (.movsw x)
    let n := srNum x.b
    let v := e.get e.first x.a
    let w := e.w
    let lo48 (y : DWord) : DWord := ((y >>> 32).setWidth 16 ++ v).setWidth 64
    let hi48 (y : DWord) : DWord := (v.setWidth 16 ++ y.setWidth 32).setWidth 64
    let done (t : State) : Prop := exec (.movsw x) s = .next t ∧ e.elsewhere s t ∧ e.passes t ∧ e.idle t ∧ t.mach.mem = s.mach.mem
    (srReadOnly n = true → e.traps s (.movsw x) e.named Code.illegalOperand 0 0)
      ∧ (srReadOnly n = false → e.act = [] → ∃ t, done t ∧ e.steady t)
      ∧ (srReadOnly n = false → e.act ≠ [] →
        (n = 0x18 → ∃ t, done t ∧ e.steady t ∧ (∀ l ∈ e.act, ((e.now t).lane l).fpx = (e.get l x.a).setWidth 5)
            ∧ ∀ l, l ∉ e.act → ((e.now t).lane l).fpx = (w.lane l).fpx)
          ∧ ((n = 0x19 ∨ n = 0x1A ∨ (0x20 ≤ n ∧ n ≤ 0x26)) → ∃ t, done t
            ∧ (∀ l, ((e.now t).lane l).fpx = (w.lane l).fpx)
            ∧ (e.now t).ctl = (if n = 0x19 then v &&& 1 else w.ctl)
            ∧ (e.now t).dbg = (if n = 0x1A then v.setWidth 2 else w.dbg)
            ∧ (e.now t).tcause = (if n = 0x20 then v else w.tcause)
            ∧ (n ≠ 0x21 → n ≠ 0x22 → (e.now t).tpc = w.tpc) ∧ (n ≠ 0x23 → n ≠ 0x24 → (e.now t).taddr = w.taddr)
            ∧ (n = 0x21 → (e.now t).tpc = lo48 w.tpc) ∧ (n = 0x22 → (e.now t).tpc = hi48 w.tpc)
            ∧ (n = 0x23 → (e.now t).taddr = lo48 w.taddr) ∧ (n = 0x24 → (e.now t).taddr = hi48 w.taddr)
            ∧ (e.now t).tmask = (if n = 0x25 then (w.tmask >>> 32).setWidth 32 ++ v
              else if n = 0x26 then v ++ w.tmask.setWidth 32 else w.tmask))
          ∧ (∀ c, e.m.ctxOf e.asid = some c → (n = 0x27 ∨ n = 0x28) → ∃ t, done t ∧ e.steady t
            ∧ mget t.mach.ctxs c.slot = some { c with tvec := if n = 0x27 then lo48 c.tvec else hi48 c.tvec })
          ∧ (∀ k, k < 8 → n = 0x30 + k →
            let ctl := (e.m.counter (.core e.core e.asid) k).ctl
            let counted := if ctl.getLsbD 16 then
                (if ctl.toNat % 65536 = 2 then 1 else if ctl.toNat % 65536 = 3 then e0.act.length
                else if ctl.toNat % 65536 = 14 then (e0.consigned e0.act).length else 0)
              else 0
            let earlier := if (e.m.counter (.core e.core e.asid) k).at_ = s.mach.clk then (e.m.counter (.core e.core e.asid) k).now else 0
            ∃ t, done t ∧ e.steady t
              ∧ (t.mach.counter (.core e.core e.asid) k).value = BitVec.ofNat 48 (v.toNat + earlier + counted))
          ∧ (n ∉ [0x18, 0x19, 0x1A, 0x20, 0x21, 0x22, 0x23, 0x24, 0x25, 0x26, 0x27, 0x28, 0x30, 0x31, 0x32, 0x33, 0x34, 0x35, 0x36, 0x37] →
            ∃ t, done t ∧ e.steady t))

/-- R109 to R111, R138: XACQ with no one before it in the FIFO and units free grants a block whose registers read 0; a try that
cannot be granted says so in Z, a blocking XACQ joins the FIFO and its threads wait; a second block is illegal; XREL gives
the block up.
The model's choices here: log 58 (DEDUCED). -/
def Obligations.ExtendedBlocks : Prop :=
  ∀ (x : IntOp) (s : State) (e0 : Env),
    (s.begins (.xacq x) x.ctl = some e0 →
      let e := e0.inside (.xacq x)
      let n := if x.sub.getLsbD 0 then 128 else 64
      let q := mgetD e.m.xacqQ (e.core * 8 + e.w.laneset) []
      let free : Prop := q = [] ∧ n / 32 ≤ e.m.freeUnits e.core e.w.laneset
      e.act ≠ [] →
        (e.w.ext ≠ 0 → e.traps s (.xacq x) e.act Code.illegalOperand 0 0)
          ∧ (e.w.ext = 0 → free → ∃ t, exec (.xacq x) s = .next t ∧ e.elsewhere s t ∧ e.passes t ∧ (e.now t).ext = n
            ∧ (∀ l i, e.w.base ≤ i → i < 256 → (e.now t).cur (.v l i) = 0)
            ∧ e.keeps t (fun k => (∃ l i, k = .v l i ∧ e.w.base ≤ i) ∨ ∃ f, x.flag = some f ∧ ∃ l ∈ e.all, k = .c l f.toNat)
            ∧ ∀ f, x.flag = some f → ∀ l ∈ e.act, (e.now t).cur (.c l f.toNat) = 4)
          ∧ (∀ f, e.w.ext = 0 → ¬ free → x.flag = some f → ∃ t, exec (.xacq x) s = .next t ∧ e.elsewhere s t ∧ e.passes t
            ∧ (e.now t).ext = 0 ∧ e.keeps t (fun k => ∃ l ∈ e.all, k = .c l f.toNat)
            ∧ ∀ l ∈ e.act, (e.now t).cur (.c l f.toNat) = 0)
          ∧ (e.w.ext = 0 → ¬ free → x.flag = none → ∃ t, exec (.xacq x) s = .next t ∧ e.elsewhere s t ∧ e.idle t
            ∧ (∀ l ∈ e.lanes, ((e.now t).lane l).wait = .xacq ∧ ((e.now t).lane l).pc = e.iss.pc)
            ∧ ((∀ r ∈ q, (r.gid, r.wave, r.pc, r.prio) ≠ (e.iss.gid, e.iss.wave, e.iss.pc, e.iss.prio)) →
              mgetD t.mach.xacqQ (e.core * 8 + e.w.laneset) [] =
                q ++ [⟨e.iss.gid, e.iss.wave, e.iss.pc, e.iss.prio, n, s.mach.timeNs, x.ctl, e.act⟩])))
      ∧ (s.begins (.xrel x) x.ctl = some e0 →
        let e := e0.inside (.xrel x)
        (e.act = [] ∨ e.w.ext = 0 → ∃ t, exec (.xrel x) s = .next t ∧ e.elsewhere s t ∧ e.passes t ∧ e.steady t ∧ e.idle t)
          ∧ (e.act ≠ [] → e.w.ext ≠ 0 → e.w.pend = [] → ∃ t, exec (.xrel x) s = .next t ∧ e.elsewhere s t ∧ e.passes t
            ∧ (e.now t).ext = 0 ∧ (∀ l i, e.w.base ≤ i → i < 256 → (e.now t).cur (.v l i) = 0)
            ∧ e.keeps t fun k => ∃ l i, k = .v l i ∧ e.w.base ≤ i))

/-! ## Scratchpad, loads and stores -/

/-- R32, R172, R201, R205, R206: LDS and LDV trap by their checks; else every performing lane's bytes, little-endian and
extended to their registers, are on their way and the registers pending; a helper, or a thread inside a consignment, whose
access fails reads 0.
The model's choices here: log 33 (DEDUCED), log 52 (DESIGN CHOICE). -/
def Obligations.ScratchpadLoads : Prop :=
  let rule (i : Instr) (x : MemOp) (at' : Env → Nat → SpadAcs) : Prop :=
    ∀ (s : State) (e : Env), s.begins i x.ctl = some e →
      let n := x.size.bytes
      let rs := e.readers i
      let a := at' e
      (∀ ls code addr, spadCheck e.hushed n false (rs.map a) = some (ls, code, addr) →
          e.refuses s i (if isUniform (uses i) then e.named else ls) code (BitVec.ofNat 64 addr))
        ∧ (spadCheck e.hushed n false (rs.map a) = none →
          ∃ t, exec i s = .next t ∧ e.elsewhere s t ∧ e.passes t ∧ e.idle t
            ∧ ((∀ l ∈ rs, ∀ g, (a l).g = some g → s.mach.inBuffer g ((a l).off, n) = false) →
              (s.mach.consigns = [] ∨ (∀ l ∈ rs, ((a l).good n).isSome) → e.quiet s t ∧ e.steady t)
              ∧ (rs ≠ [] → e.pends t (loadWrites x rs fun l => match (a l).g with
                | some g => if (a l).off % n = 0 ∧ (a l).off + n ≤ g.grant
                    then (List.range n).map (fun j => s.mach.spadByte g ((a l).off + j)) else List.replicate n 0
                | none => List.replicate n 0) [])))
  ∀ x : MemOp, rule (.lds x) x (fun e l => ⟨l, e.spadAddr x l, some e.g, e.spadAddr x l⟩)
    ∧ rule (.ldv x) x (fun e l =>
      let a := e.spadAddr x l
      ⟨l, a, if a < 2 ^ 26 then e.m.atPosition e.g (a / 2 ^ 24 % 4) else none, a % 2 ^ 24⟩)

/-- R172, R206: STS and STV trap by their checks; else the bytes of the highest active thread that writes a place stand there, all
other scratchpad bytes of the device are as before, and no other store changes. Where the access meets the buffer of a
command that has not completed the bytes are free values.

R172, R206, R339: an access of n bytes fails first with ALIGN where its offset is no multiple of n, then with PERM outside
its grant or at a position that holds no group, then, if it writes, with BARRIER_CLOBBER over a live barrier word; the first
failing thread gives the address.
The model's choices here: log 52 (DESIGN CHOICE). -/
def Obligations.ScratchpadStores : Prop :=
  (
    let rule (i : Instr) (x : MemOp) (at' : Env → Nat → SpadAcs) : Prop :=
      ∀ (s : State) (e0 : Env), s.begins i x.ctl = some e0 →
        let e := e0.inside i
        let n := x.size.bytes
        let a := at' e
        -- a thread whose consignment has aborted performs nothing
        let ls := e.act.filter fun l => !e.inTx l
        (∀ ls' code addr, spadCheck (fun _ => false) n true ((e.ordered ls).map a) = some (ls', code, addr) →
            e.refuses s i ls' code (BitVec.ofNat 64 addr))
          ∧ (spadCheck (fun _ => false) n true ((e.ordered ls).map a) = none →
            ∃ t, exec i s = .next t ∧ e.elsewhere s t ∧ e.passes t ∧ e.idle t ∧ t.mach.mem = s.mach.mem ∧ t.mach.llc = s.mach.llc
              ∧ ((∀ l ∈ ls, ∀ g, (a l).g = some g → s.mach.inBuffer g ((a l).off, n) = false) →
                (∀ c, (∀ l ∈ ls, ∀ j < n, (a l).place j ≠ some c) → t.spad c = s.spad c)
                ∧ ∀ l ∈ ls, ∀ j < n, ∀ c, (a l).place j = some c → (∀ k ∈ ls, k ≠ l → e.thread l ≤ e.thread k → ∀ q < n, (a k).place q ≠ some c) →
                  t.spad c = (e.bytesOf l x.c x.size).getD j 0))
    ∀ x : MemOp, rule (.sts x) x (fun e l => ⟨l, e.spadAddr x l, some e.g, e.spadAddr x l⟩)
      ∧ rule (.stv x) x (fun e l =>
        let a := e.spadAddr x l
        ⟨l, a, if a < 2 ^ 26 then e.m.atPosition e.g (a / 2 ^ 24 % 4) else none, a % 2 ^ 24⟩))
    ∧ (
    ∀ (n : Nat) (write : Bool) (rq : List SpadAcs) (p : SpadAcs) (ps : List SpadAcs),
      let out (p : SpadAcs) : Bool := decide (∀ g, p.g = some g → g.grant < p.off + n)
      let word (p : SpadAcs) (o : Nat) : Prop :=
        ∃ g, p.g = some g ∧ (∃ b ∈ g.slots, b.kind = .binding o) ∧ p.off < o + 16 ∧ o < p.off + n
      let check := spadCheck (fun _ => false) n write rq
      (rq.filter (fun p => decide (p.off % n ≠ 0)) = p :: ps → check = some ((p :: ps).map (·.lane), Code.align, p.sum))
        ∧ ((∀ q ∈ rq, q.off % n = 0) → rq.filter out = p :: ps → check = some ((p :: ps).map (·.lane), Code.perm, p.sum))
        ∧ ((∀ q ∈ rq, q.off % n = 0 ∧ out q = false) →
          (write = true → (∃ q ∈ rq, ∃ o, word q o) → ∃ q ∈ rq, ∃ o ls, word q o ∧ check = some (ls, Code.barrierClobber, o))
            ∧ ((write = false ∨ ∀ q ∈ rq, ∀ o, ¬ word q o) → check = none)))

/-- R105, R209, R210: ATOMS traps by its checks; else it performs in the lanes' thread order. Where the words are distinct each
thread's old value is on its way, with Z of a CAS, and the new value stands in its word; no other scratchpad byte
changes.

R208 to R210: what the operations of an atomic leave of an old value o, an operand c and a swap value d of w bits. -/
def Obligations.ScratchpadAtomics : Prop :=
  (
    ∀ (x : MemOp) (s : State) (e0 : Env), s.begins (.atoms x) x.ctl = some e0 →
      let e := e0.inside (.atoms x)
      let i : Instr := .atoms x
      let n := x.size.bytes
      let ls := e.actors i
      let a (l : Nat) : SpadAcs := ⟨l, e.spadAddr x l, some e.g, e.spadAddr x l⟩
      (∀ ls' code addr, spadCheck (fun _ => false) n true (ls.map a) = some (ls', code, addr) →
          e.refuses s i (if isUniform (uses i) then e.named else ls') code (BitVec.ofNat 64 addr))
        ∧ (spadCheck (fun _ => false) n true (ls.map a) = none →
          ∃ t, exec i s = .next t ∧ e.elsewhere s t ∧ e.passes t ∧ e.idle t ∧ t.mach.mem = s.mach.mem ∧ t.mach.llc = s.mach.llc
            ∧ ((∀ l ∈ ls, s.mach.inBuffer e.g (e.spadAddr x l, n) = false) →
              (∀ c, (∀ l ∈ ls, ∀ j < n, (a l).place j ≠ some c) → t.spad c = s.spad c)
              ∧ ((∀ l ∈ ls, ∀ k ∈ ls, l ≠ k → ∀ j < n, ∀ q < n, (a l).place j ≠ (a k).place q) → ls ≠ [] →
              let old (l : Nat) : DWord := BitVec.ofNat 64 (leNat ((List.range n).map fun j => s.mach.spadByte e.g (e.spadAddr x l + j)))
              let c (l : Nat) : DWord := e.getN l x.c x.size.regs
              let order := e.g.task.byThread e.w.index (fun l => l) ls
              (∀ l ∈ ls, ∀ j < n, ∀ p, (a l).place j = some p →
                t.spad p = (leBytes n (atomNew x.op x.sgn (8 * n) (old l) (c l) (e.getN l x.d x.size.regs)).toNat).getD j 0)
                ∧ e.pends t (order.reverse.flatMap fun l => wordWrites x.d l (wordsOf x.size false (leBytes n (old l).toNat)))
                  (match x.flag with
                  | some f => order.flatMap fun p =>
                    -- a uniform one gives every active thread the condition code of the word
                    (if isUniform (uses i) then e.act else [p]).map fun l => (l, f.toNat, zCc (old p == c p))
                  | none => [])))))
    ∧ (
    ∀ (w : Nat) (o c d : DWord), (w = 64 ∨ w = 32 ∧ o.toNat < 2 ^ 32 ∧ c.toNat < 2 ^ 32 ∧ d.toNat < 2 ^ 32) →
      let sv (x : DWord) : Int := if w = 64 then x.toInt else (x.setWidth 32).toInt
      let new (op : AOp) (sgn : Bool) : DWord := atomNew op sgn w o c d
      (new .add false).toNat = (o.toNat + c.toNat) % 2 ^ w
        ∧ (new .min false).toNat = min o.toNat c.toNat ∧ (new .max false).toNat = max o.toNat c.toNat
        ∧ sv (new .min true) = min (sv o) (sv c) ∧ sv (new .max true) = max (sv o) (sv c)
        ∧ new .and false = o &&& c ∧ new .or false = o ||| c ∧ new .xor false = o ^^^ c ∧ new .exch false = c
        ∧ new .cas false = (if o = c then d else o)
        ∧ (new .inc false).toNat = (if c.toNat ≤ o.toNat then 0 else o.toNat + 1)
        ∧ (new .dec false).toNat = (if o = 0 ∨ c.toNat < o.toNat then c.toNat else o.toNat - 1))

/-- R175, R200 to R205, R354: LD, LDC and WLDC perform their checks in order: a failing one traps, where a walk met an
uncorrectable word once the load has been run again; a page the attribute TLB does not hold is walked for while the threads
wait; then every lane's bytes are read through its path and are on their way, those of a thread whose fault is suppressed as
zeros.
The model's choices here: log 25 (DEDUCED), log 50 (DEDUCED). -/
def Obligations.Loads : Prop :=
  let rule (i : Instr) (c : Ctl) (path : Env → Nat) (n : Nat) (only64 : Bool) (va : Env → Nat → Nat)
      (one : Env → Mach → Nat → Nat → Nat → Got) (put : Nat → List Byte → List (RKey × Word)) : Prop :=
    ∀ (s : State) (e : Env), s.begins i c = some e →
      let rq := (e.readers i).map fun l => (l, va e l)
      let names (ls : List Nat) : List Nat := if isUniform (uses i) then e.named else ls
      (rq = [] → ∃ t, exec i s = .next t ∧ e.quiet s t ∧ e.passes t ∧ e.steady t ∧ e.idle t)
        ∧ (rq ≠ [] →
          (∀ a, e.checkAll e.m .load (path e) n only64 rq = .walk a → e.waitsFor s i (.walk a))
            ∧ (∀ ls code addr, e.checkAll e.m .load (path e) n only64 rq = .trap ls code addr →
              let again : Prop := ∃ l ∈ e.lanes, (e.w.lane l).rerun = some (e.iss.pc, (e.w.lane l).loadNo)
              (code ≠ Code.dataUncorrectable ∨ again → e.refuses s i (names ls) code addr)
                ∧ (code = Code.dataUncorrectable → ¬ again → e.rollsBack s i))
            ∧ ∀ cls bad, e.checkAll e.m .load (path e) n only64 rq = .ok cls bad →
              let found := e.loadAll (e.suppress (e.m.usedWalks e.core e.asid) bad) (path e) n cls rq names (one e)
              (∀ m vals wrong, found = .ok m vals wrong →
                exec i s = .next (s.ended e i c (e.later m (vals.reverse.flatMap fun v => put v.1 v.2) [] wrong) e.lanes))
              ∧ (∀ m ls code info addr, found = .eff (.trap m ls code info addr) → e.trapsIn m s i ls code info addr)
              ∧ ∀ m, found = .eff (.wait m) → ∃ t, exec i s = .next t ∧ t.mach.mem = m.mem
                ∧ ∀ l, { (e.now t).lane l with age := 0 } = { (e.wIn m).lane l with age := 0 })
  ∀ (x : MemOp) (y : IntOp),
    rule (.ld x) x.ctl (fun _ => 0) x.size.bytes (x.size != .b64) (fun e l => e.addr x l)
        (fun e m l va cls => e.load1 m l va x.size.bytes cls x.hint) (fun l bs => wordWrites x.d l (wordsOf x.size x.sgn bs))
      ∧ rule (.ldc x) x.ctl (fun _ => 1) x.size.bytes true (fun e l => e.addr x l)
        (fun e m l va cls => e.pathRead m l 1 va x.size.bytes cls) (fun l bs => wordWrites x.d l (wordsOf x.size x.sgn bs))
      ∧ rule (.wldc y) y.ctl (fun _ => 1) (4 * y.ty.regs) true
        (fun e l => ((e.getPair l y.a).toNat + 4 * y.ty.regs * (e.getSrc l y.b y.ty.regs).toNat) % 2 ^ 64)
        (fun e m l va cls => e.pathRead m l 1 va (4 * y.ty.regs) cls)
        (fun l bs => wordWrites y.d l (wordsOf (if y.ty.regs = 2 then .b64 else .b32) false bs))

/-- R178 to R183, R204: a load of the load-store path takes written bytes of L1 and its clean copy from there, and else valid
bytes of the line over the sector of the LLC, or over memory where the LLC holds none; with byp and a clean line it takes the
LLC's bytes; the constant path reads its own copy, or the LLC. No open frame lies at the address.

R179, R181, R182: what a store of the load-store path writes is what the core's next load reads. With norm, evf or a line
that holds written bytes it stays in L1; with byp or nalloc and a clean line the LLC's sector takes it.

R170, R179, R180: an eviction takes one line from L1, and its written bytes go to their sector of the LLC; one from the LLC
takes one line, and the bytes of a dirty ordinary sector go to memory. -/
def Obligations.MemoryPaths : Prop :=
  (
    ∀ (m : Mach) (core : Nat) (asid : BitVec 16) (va n : Nat) (hint : Hint),
      let line := (m.core core).l1Line asid va
      let off := va % 64
      let key := secKey asid va
      0 < n → va % 32 + n ≤ 32 → va < 2 ^ 48 → line.length = 64 →
        let past : Prop := l1Dirty line = false ∧ hint = .byp
        let room : Prop := (mget (m.core core).l1 (lineKey asid va)).isSome ∨ (m.core core).l1.length < m.l1Lines core
        m.frame asid (va / 128 * 128) = none →
        (∀ bs, l1Hit line off n = some bs → ¬ past →
            (hint ≠ .evf → m.l1Load core asid va n hint = .ok m bs)
            ∧ (hint = .evf → ∃ m', m.l1Load core asid va n hint = .ok m' bs ∧ m'.mem = m.mem ∧ m'.llc = m.llc
              ∧ lineKey asid va ∈ (m'.core core).l1First ∧ ∀ k, mget (m'.core core).l1 k = mget (m.core core).l1 k))
          ∧ (∀ sc, past ∨ l1Hit line off n = none → mget m.llc key = some sc → sc.bytes.length = 32 → past ∨ room →
            ∃ m' bs, m.l1Load core asid va n hint = .ok m' bs ∧ m'.mem = m.mem ∧ bs.length = n
              ∧ (∀ k, (mget m'.llc k).map (fun c => (c.bytes, c.dirty)) = (mget m.llc k).map fun c => (c.bytes, c.dirty))
              ∧ (∀ j < n, bs.getD j 0 = if ¬ past ∧ (line.getD (off + j) ⟨0, false, false⟩).valid
                then (line.getD (off + j) ⟨0, false, false⟩).val else sc.bytes.getD (va % 32 + j) 0)
              ∧ (hint = .norm ∨ hint = .evf → l1Hit ((m'.core core).l1Line asid va) off n = some bs))
          ∧ (∀ t, mget (m.core core).l1 (lineKey asid va) = none → mget m.llc key = none → room → (m.llcMates (key / 2)).length < 16 →
            m.cachedTrans asid va = some t → t.cls = 0 → t.pa (va / 32 * 32) < gddrTop →
            m.remap = [] → m.rel.allOk = true → m.rel.flips = [] → m.rel.bad = [] →
            ∃ m', m.l1Load core asid va n hint = .ok m' ((List.range n).map fun j => cellGet m.mem (t.pa (va / 32 * 32) + va % 32 + j))
              ∧ m'.mem = m.mem ∧ (mget m'.llc key).isSome)
          ∧ (∀ bs, mget (m.core core).const key = some bs → m.constRead core asid va n = .ok m ((bs.drop (va % 32)).take n))
          ∧ ∀ sc, mget (m.core core).const key = none → mget m.llc key = some sc →
            ∃ m', m.constRead core asid va n = .ok m' ((sc.bytes.drop (va % 32)).take n) ∧ m'.mem = m.mem ∧ m'.llc = m.llc
              ∧ mget (m'.core core).const key = some sc.bytes)
    ∧ (
    ∀ (m : Mach) (core : Nat) (asid : BitVec 16) (va : Nat) (bs : List Byte) (hint : Hint),
      let line := (m.core core).l1Line asid va
      let m' := m.l1Store core asid va bs hint
      bs ≠ [] → bs.length < 32 → va % 32 + bs.length ≤ 32 → va < 2 ^ 48 → line.length = 64 →
        ((mget (m.core core).l1 (lineKey asid va)).isSome ∨ (m.core core).l1.length < m.l1Lines core →
          l1Dirty line = true ∨ hint = .norm ∨ hint = .evf →
            (∀ h, h ≠ .evf → m'.l1Load core asid va bs.length h = .ok m' bs) ∧ m'.mem = m.mem ∧ m'.llc = m.llc
              ∧ (∃ m'', m'.l1Load core asid va bs.length .evf = .ok m'' bs)
              ∧ (∀ k, (k < va % 64 ∨ va % 64 + bs.length ≤ k) →
                ((m'.core core).l1Line asid va).getD k ⟨0, false, false⟩ = line.getD k ⟨0, false, false⟩)
              ∧ (∀ key, key ≠ lineKey asid va → mget (m'.core core).l1 key = mget (m.core core).l1 key)
              ∧ ∀ c, c ≠ core → m'.core c = m.core c)
          ∧ (∀ sc y, l1Dirty line = false → (hint = .byp ∨ hint = .nalloc) → m.consigns = [] → mget m.llc (secKey asid va) = some sc →
            sc.bytes.length = 32 → m.cachedTrans asid va = some y → y.pa va < gddrTop → m.frame asid (va / 128 * 128) = none →
            (∀ h, ∃ m'' out, m'.l1Load core asid va bs.length h = .ok m'' out ∧ out = bs) ∧ m'.mem = m.mem
              ∧ (∃ sd, mget m'.llc (secKey asid va) = some sd ∧ sd.dirty = true ∧ ∀ k, k < 32 →
                sd.bytes.getD k 0 = if va % 32 ≤ k ∧ k < va % 32 + bs.length then bs.getD (k - va % 32) 0 else sc.bytes.getD k 0)
              ∧ ∀ key, key ≠ secKey asid va → mget m'.llc key = mget m.llc key))
    ∧ ∀ (s : State) (core key : Nat), s.clocked = true →
      (∃ t, s.turn (.evictL1 core key) = .next t ∧ t.plat = s.plat ∧ t.agenda = s.agenda
          ∧ mget (t.mach.core core).l1 key = none
          ∧ (∀ k, k ≠ key → mget (t.mach.core core).l1 k = mget (s.mach.core core).l1 k)
          ∧ (l1Dirty ((mget (s.mach.core core).l1 key).getD []) = false → t.mach.llc = s.mach.llc ∧ t.mach.mem = s.mach.mem)
          ∧ ∀ line h sc y, h < 2 → mget (s.mach.core core).l1 key = some line → line.length = 64 →
            (∀ k < 32, (line.getD (32 * (1 - h) + k) ⟨0, false, false⟩).written = false) → l1Dirty line = true → key < 2 ^ 58 →
            s.mach.consigns = [] → s.mach.wbWait = [] → mget s.mach.llc (2 * key + h) = some sc → sc.bytes.length = 32 →
            s.mach.cachedTrans (BitVec.ofNat 16 (key / 2 ^ 42)) (key % 2 ^ 42 * 64 + 32 * h) = some y →
            y.pa (key % 2 ^ 42 * 64 + 32 * h) < gddrTop →
            s.mach.frame (BitVec.ofNat 16 (key / 2 ^ 42)) ((key % 2 ^ 42 * 64 + 32 * h) / 128 * 128) = none →
            ∃ sd, mget t.mach.llc (2 * key + h) = some sd ∧ sd.dirty = true ∧ ∀ k < 32,
              sd.bytes.getD k 0 = if (line.getD (32 * h + k) ⟨0, false, false⟩).written
                then (line.getD (32 * h + k) ⟨0, false, false⟩).val else sc.bytes.getD k 0)
        ∧ ∃ t, s.turn (.evictLlc key) = .next t ∧ t.plat = s.plat ∧ t.agenda = s.agenda
          ∧ mget t.mach.llc key = none
          ∧ (∀ k, k / 2 ≠ key / 2 → mget t.mach.llc k = mget s.mach.llc k)
          ∧ ∀ sc e, mget s.mach.llc key = some sc → sc.dirty = true → sc.generated = false → sc.bytes.length = 32 →
            mget s.mach.llc (2 * (key / 2) + (1 - key % 2)) = none →
            s.mach.remap = [e] → e.asid.toNat * 2 ^ 42 + e.vl = key / 2 → s.mach.rel.allOk = true → s.mach.rel.flips = [] →
            s.mach.rel.corrective = [] → s.mach.rel.bad = [] → ∀ a,
              cellGet t.mach.mem a = if 64 * e.line + 32 * (key % 2) ≤ a ∧ a < 64 * e.line + 32 * (key % 2) + 32
                then sc.bytes.getD (a - (64 * e.line + 32 * (key % 2))) 0 else cellGet s.mach.mem a

/-- R175, R179, R181, R182, R203 to R205: ST performs its checks in order, is held at a sector another consignment has locked
or behind an earlier command at its bank, and else performs in every active thread. On ordinary pages with norm or evf the
bytes of the highest thread that writes a byte stand in L1 as written bytes; where L1 has room for their lines no other byte
of any L1 changes, and neither do the LLC and memory. A store whose allotment is strict and has no budget left for what it
asks is held, its home slice counts the denial once a clk, and no L1, LLC, memory or budget changes (R371). A store to a
doorbell waits where the descriptor cannot be read yet.
The model's choices here: log 42 (DESIGN CHOICE). -/
def Obligations.Stores : Prop :=
  (∀ (x : MemOp) (s : State) (e : Env), s.begins (.st x) x.ctl = some e →
    let i : Instr := .st x
    let n := x.size.bytes
    let rq := (e.ordered e.act).map fun l => (l, e.addr x l)
    let checks := e.checkAll e.m .store 0 n (x.size != .b64) rq
    let byte (m : Mach) (c key k : Nat) : L1Byte := ((mget (m.core c).l1 key).getD l1Empty).getD k ⟨0, false, false⟩
    (e.act = [] → ∃ t, exec i s = .next t ∧ e.quiet s t ∧ e.passes t ∧ e.steady t ∧ e.idle t)
      ∧ (e.act ≠ [] →
        (∀ a, checks = .walk a → e.waitsFor s i (.walk a))
          ∧ (∀ ls code addr, checks = .trap ls code addr → e.refuses s i ls code addr)
          ∧ (∀ cls bad, checks = .ok cls bad → e.storeHeld cls rq n (fun l => e.bytesOf l x.c x.size) = true → e.held s i)
          ∧ (∀ cls bad m, checks = .ok cls bad → e.storeHeld cls rq n (fun l => e.bytesOf l x.c x.size) = false →
            e.storeAll (e.suppress (e.m.usedWalks e.core e.asid) bad) cls rq (fun l => e.bytesOf l x.c x.size) x.hint = .done m e.lanes →
            exec i s = .next (s.ended e i x.ctl m e.lanes))
          ∧ (∀ cls, checks = .ok cls [] → s.mach.consigns = [] → (∀ l ∈ e.act, cls.lookup l = some 0) →
            (x.hint = .norm ∨ x.hint = .evf) → (∀ l ∈ e.act, e.addr x l % n = 0 ∧ e.addr x l < 2 ^ 48) →
            (∀ c key line, mget (s.mach.core c).l1 key = some line → line.length = 64) →
            (s.mach.core e.core).l1.length + e.act.length ≤ s.mach.l1Lines e.core →
            ∃ t, exec i s = .next t ∧ e.elsewhere s t ∧ e.passes t ∧ e.idle t ∧ t.mach.mem = s.mach.mem ∧ t.mach.llc = s.mach.llc
              ∧ (∀ l ∈ e.act, ∀ j < n, (∀ k ∈ e.act, k ≠ l → e.thread l ≤ e.thread k → ∀ q < n, e.addr x k + q ≠ e.addr x l + j) →
                byte t.mach e.core (lineKey e.asid (e.addr x l)) ((e.addr x l + j) % 64) = ⟨(e.bytesOf l x.c x.size).getD j 0, true, true⟩)
              ∧ ∀ c key k, (∀ l ∈ e.act, ∀ j < n, ¬ (c = e.core ∧ key = lineKey e.asid (e.addr x l) ∧ k = (e.addr x l + j) % 64)) →
                byte t.mach c key k = byte s.mach c key k)))
    ∧ ∀ (x : MemOp) (s : State) (e : Env) (cls bad : List (Nat × Nat)) (m : Mach), s.asks (.st x) x.ctl = some e →
      let rq := (e.ordered e.act).map fun l => (l, e.addr x l)
      e.act ≠ [] → e.checkAll e.m .store 0 x.size.bytes (x.size != .b64) rq = .ok cls bad →
        e.storeHeld cls rq x.size.bytes (fun l => e.bytesOf l x.c x.size) = false →
        e.storeAll (e.suppress (e.m.usedWalks e.core e.asid) bad) cls rq (fun l => e.bytesOf l x.c x.size) x.hint = .done m e.lanes →
        e.m.bill m e.g.task.allot.toNat = none →
        e.held s (.st x)
          ∧ ∃ t, exec (.st x) s = .next t ∧ t.mach.llc = s.mach.llc ∧ t.mach.allot = s.mach.allot
            ∧ t.mach.slices = (if (s.mach.allotOf e.g.task.allot.toNat, m.used.slice) ∈ s.mach.denials then s.mach
              else s.mach.countSlice m.used.slice 0x0108 1).slices ∧ ∀ c, (t.mach.core c).l1 = (s.mach.core c).l1

/-- R105, R175, R208, R209, R353: ATOM and RED perform their checks in order, are held at a locked sector, trap at a word that
cannot be read, and else perform at the home slices in thread order. A single one on an ordinary sector leaves the new value there and touches no other byte;
ATOM's old value is on its way. -/
def Obligations.MemoryAtomics : Prop :=
  ∀ (x : MemOp) (ret : Bool) (s : State) (e0 : Env),
    let i : Instr := if ret then .atom x else .red x
    s.begins i x.ctl = some e0 →
    let e := e0.inside i
    let n := x.size.bytes
    let rq := (e.actors i).map fun l => (l, e.addr x l)
    let checks := e.checkAll e.m .atomic 0 n true rq
    let names (ls : List Nat) : List Nat := if isUniform (uses i) then e.named else ls
    let c (l : Nat) : DWord := e.getN l x.c x.size.regs
    let flags (olds : List (Nat × DWord)) : List (Nat × Nat × BitVec 5) :=
      match x.flag with
      | some k => olds.flatMap fun p => (if isUniform (uses i) then e.act else [p.1]).map fun l => (l, k.toNat, zCc (p.2 == c p.1))
      | none => []
    let writes (olds : List (Nat × DWord)) : List (RKey × Word) :=
      olds.reverse.flatMap fun p => wordWrites x.d p.1 (wordsOf x.size false (leBytes n p.2.toNat))
    (rq = [] → ∃ t, exec i s = .next t ∧ e.elsewhere s t ∧ e.passes t ∧ e.idle t ∧ t.mach.mem = s.mach.mem)
      ∧ (rq ≠ [] →
        (∀ a, checks = .walk a → e.waitsFor s i (.walk a))
          ∧ (∀ ls code addr, checks = .trap ls code addr → e.refuses s i (names ls) code addr)
          ∧ (∀ cls bad, checks = .ok cls bad → e.lockedAny (fun _ => false) rq = true → e.held s i)
          ∧ (∀ cls bad m q qs, checks = .ok cls bad → e.lockedAny (fun _ => false) rq = false →
            -- words that cannot be read: the first fault, in every thread that meets it
            e.atomReady (rq.foldl (fun m p => m.l1DropSector e.core e.asid p.2) (e.m.usedWalks e.core e.asid)) n cls rq = (m, q :: qs) →
            ∃ m', m'.mem = m.mem ∧ e.trapsIn m' s i (names (((q :: qs).filter fun p => p.2.1 == q.2.1).map (·.1))) q.2.1 0
              (BitVec.ofNat 64 q.2.2))
          ∧ (∀ cls bad m, checks = .ok cls bad → e.lockedAny (fun _ => false) rq = false →
            e.atomReady (rq.foldl (fun m p => m.l1DropSector e.core e.asid p.2) (e.m.usedWalks e.core e.asid)) n cls rq = (m, []) →
            let r := (e.g.task.byThread e.w.index (·.1) rq).foldl (fun r p =>
              e.atom1 x r p.1 p.2 ((cls.lookup p.1).getD 0) (c p.1) (e.getN p.1 x.d x.size.regs)) ⟨m, []⟩
            exec i s = .next (s.ended e0 i x.ctl (if ret then e.later r.m (writes r.olds) (flags r.olds) [] else r.m) e.lanes))
          ∧ ∀ l cls bad sc y, rq = [(l, e.addr x l)] → checks = .ok cls bad → s.mach.consigns = [] → cls.lookup l = some 0 →
            e.addr x l % n = 0 → (∀ core, mget (s.mach.core core).l1 (lineKey e.asid (e.addr x l)) = none) →
            mget s.mach.llc (secKey e.asid (e.addr x l)) = some sc → sc.bytes.length = 32 →
            s.mach.cachedTrans e.asid (e.addr x l) = some y → y.pa (e.addr x l) < gddrTop →
            s.mach.frame e.asid (e.addr x l / 128 * 128) = none →
            let va := e.addr x l
            let old : DWord := BitVec.ofNat 64 (leNat ((sc.bytes.drop (va % 32)).take n))
            let new := leBytes n (atomNew x.op x.sgn (8 * n) old (c l) (e.getN l x.d x.size.regs)).toNat
            ∃ t, exec i s = .next t ∧ e.elsewhere s t ∧ e.passes t ∧ e.idle t ∧ t.mach.mem = s.mach.mem
              ∧ (∃ sd, mget t.mach.llc (secKey e.asid va) = some sd ∧ sd.dirty = true ∧ ∀ k, k < 32 →
                sd.bytes.getD k 0 = if va % 32 ≤ k ∧ k < va % 32 + n then new.getD (k - va % 32) 0 else sc.bytes.getD k 0)
              ∧ (∀ key, key ≠ secKey e.asid va →
                (mget t.mach.llc key).map (fun c => (c.bytes, c.dirty)) = (mget s.mach.llc key).map fun c => (c.bytes, c.dirty))
              ∧ (ret = true → e.pends t (writes [(l, old)]) (flags [(l, old)])))

/-- R204, R354: LOAD_RETURN of a load that met no error writes its registers and flags, which are no longer pending; one that
met an uncorrectable word rolls the wave back to run it again, and the second time raises DATA_UNCORRECTABLE at the
load.

R27, R71, R110 to R112, R175, R352, R355: what a wave meets beside its instructions: a pending trap is taken once its earlier
loads have returned and its vector is read, an entry whose age reached 1024 is forced, a quiet extended block turns drowsy,
restored registers are refreshed, a queued XACQ is granted and completes with its STALL and YLD or times out after 1 ms, and
a walk ends the waits of its page.

R118 to R120: an instruction that finds a K or X register it reads in error in the main file alone issues again 8 clk later with
the register repaired. Where a register it reads is in error otherwise, the wave rolls back to its region starts, if the
register was written in its region and no thread of the entry has rolled back twice, and else REG_PARITY is raised at it.
The model's choices here: log 27 (DEDUCED), log 39 (DEDUCED), log 43 (DEDUCED), log 55 (DEDUCED), log 58 (DEDUCED),
log 67 (DEDUCED), log 73 (DEDUCED). -/
def Obligations.WaveEvents : Prop :=
  (
    ∀ (s : State) (gid wave : Nat) (w : Wave) (o : LoadOp) (rest : List LoadOp), s.mach.wave gid wave = some w → w.loads = o :: rest →
      let i : Instr := .loadReturn gid wave
      (o.poison = none → ∃ t v, exec i s = .next t ∧ t.mach.wave gid wave = some v ∧ v.loads = rest
          ∧ v.pend = w.pend.filter (fun k => !(o.writes.map (·.1) ++ o.flags.map fun f => RKey.c f.1 f.2.1).contains k)
          ∧ ((∀ p ∈ o.writes, p.1.ok) → (∀ f ∈ o.flags, f.2.1 < 4) →
            (∀ k, k.ok → k ∉ o.writes.map (·.1) ++ (o.flags.map fun f => RKey.c f.1 f.2.1) → v.cur k = w.cur k)
              ∧ ∀ p ∈ o.writes, (∀ l n, p.1 ≠ .x l n ∧ p.1 ≠ .c l n) → (∀ q ∈ o.writes, q.1 = p.1 → q = p) → v.cur p.1 = p.2)
          ∧ (∀ l, (v.lane l).pc = (w.lane l).pc ∧ (v.lane l).st = (w.lane l).st)
          ∧ t.plat = s.plat ∧ t.agenda = s.agenda
          ∧ ((∃ l ∈ w.live, (w.lane l).wait ≠ .await) → { t.mach with groups := s.mach.groups } = s.mach))
        ∧ ∀ mask va, o.poison = some (mask, va) →
          -- a thread has run this load of its region again
          let again : Prop := ∃ p ∈ o.nums, (w.lane p.1).rerun = some (o.pc, p.2)
          (¬ again → ∃ t v, exec i s = .next t ∧ t.mach.wave gid wave = some v ∧ v.loads = []
              ∧ t.mach.mem = s.mach.mem
              ∧ (∀ p ∈ o.nums, p.1 < w.lanes.length → (∀ q ∈ o.nums, q.1 = p.1 → q = p) → (v.lane p.1).rerun = some (o.pc, p.2))
              ∧ ∀ l, l < 64 → (w.lane l).st = .live → (w.lane l).newRegion = false → (v.lane l).pc = (w.lane l).snap.pc)
            ∧ (again → ∃ t v, exec i s = .next t ∧ t.mach.wave gid wave = some v ∧ v.loads = rest
              ∧ v.traps = w.traps ++ [⟨o.pc, o.prio, mask, Code.dataUncorrectable, 0, BitVec.ofNat 64 va, false⟩]
              ∧ (∀ k, v.cur k = w.cur k)
              ∧ ∀ l, (w.lane l).st = .live → if l ∈ o.nums.map (·.1) then (v.lane l).pc = o.pc ∧ (v.lane l).prio = o.prio
                else (v.lane l).pc = (w.lane l).pc ∧ (v.lane l).prio = (w.lane l).prio))
    ∧ (
    ∀ (s : State) (gid wave : Nat) (g : Group) (w : Wave), s.mach.group gid = some g → g.wave wave = some w →
      let same (t : State) : Prop := t.plat = s.plat ∧ t.agenda = s.agenda ∧ t.mach.mem = s.mach.mem ∧ t.mach.llc = s.mach.llc
      let allot := g.task.allot.toNat
      (∀ t, w.ended = false → g.parked = false → s.mach.haltedGroup g = false → w.loads = [] → w.deliverable g.task = some t →
            t.code ≠ Code.perfOvf → s.mach.solvent allot = true →
          let read := s.mach.vectorAt wave g (vectorAddr (s.mach.tvec g.asid) t.code)
          let goes (m : Mach) : Prop := exec (.trapDelivery gid wave) s = .next { s with mach := s.mach.billed m allot }
          (w.inHandler = true → goes ((s.mach.tookTrap gid wave t).deliver gid wave t))
            ∧ (∀ m pc, w.inHandler = false → read = .ok m pc →
              goes ((m.tookTrap gid wave t).deliverBy (fun m _ _ => .ok m pc) gid wave t))
            ∧ (∀ m origin, w.inHandler = false → read = .fault m origin →
              goes ((m.tookTrap gid wave t).deliverBy (fun m _ _ => .fault m origin) gid wave t))
            ∧ ∀ m, w.inHandler = false → read = .later m true → goes m)
        ∧ (∀ e, w.forced = none →
          firstEntry ((s.mach.eligible g w).filter fun e => w.live.any fun l => (w.lane l).entry == e && decide (1024 ≤ (w.lane l).age)) = some e →
          ∃ t, exec (.forcedIssue gid wave) s = .next t ∧ same t ∧ t.mach.wave gid wave = some { w with forced := some e })
        ∧ (w.ext ≠ 0 → w.drowsy = false → w.lastExt + 4096 ≤ s.mach.clk →
          ∃ t, exec (.registerDrowsy gid wave) s = .next t ∧ same t ∧ t.mach.wave gid wave = some { w with drowsy := true })
        ∧ (w.refresh ≠ [] → ∃ t, exec (.backgroundRefresh gid wave) s = .next t ∧ same t ∧ t.mach.wave gid wave = some { w with refresh := [] })
        ∧ (∀ core ls r rest, mgetD s.mach.xacqQ (core * 8 + ls) [] = r :: rest → r.gid = gid → r.wave = wave → r.here w ≠ [] → w.ext = 0 →
          r.regs / 32 ≤ s.mach.freeUnits core ls →
          ∃ t v, exec (.xacqGrant core ls) s = .next t ∧ same t ∧ mgetD t.mach.xacqQ (core * 8 + ls) [] = rest
            ∧ t.mach.wave gid wave = some v ∧ v.ext = r.regs ∧ (∀ l i, w.base ≤ i → i < 256 → v.cur (.v l i) = 0)
            ∧ (∀ k, k.ok → (∀ l i, k = .v l i → i < w.base) → v.cur k = w.cur k)
            ∧ v.yieldFrom = (if r.ctl.yld then some (r.pc + 8, r.prio) else w.yieldFrom)
            ∧ ∀ l ∈ r.entry w, (v.lane l).wait = .none ∧ (v.lane l).pc = r.pc + 8
              ∧ (v.lane l).ready = s.mach.clk + max 1 r.ctl.stall.toNat)
        ∧ (∀ core ls n r, (mgetD s.mach.xacqQ (core * 8 + ls) [])[n]? = some r → r.gid = gid → r.wave = wave → r.since + 1000000 ≤ s.mach.timeNs →
          ∃ t v, exec (.xacqTimeout core ls n) s = .next t ∧ same t
            ∧ mgetD t.mach.xacqQ (core * 8 + ls) [] = (mgetD s.mach.xacqQ (core * 8 + ls) []).erase r
            ∧ t.mach.wave gid wave = some v ∧ (∀ k, v.cur k = w.cur k)
            ∧ (∀ l ∈ r.entry w, ((w.lane l).wait = .xacq → (v.lane l).wait = .none) ∧ (v.lane l).pc = r.pc)
            ∧ v.traps = if r.here w = [] then w.traps
              else w.traps ++ [⟨r.pc, r.prio, maskOf (r.here w), Code.xacqTimeout, 0, 0, false⟩])
        ∧ ∀ (va : DWord) l a, l ∈ w.live → (w.lane l).wait = .walk a → a / 4096 = va.toNat / 4096 →
          ∃ t v, exec (.attributeTlbFill g.core g.asid va) s = .next t ∧ t.plat = s.plat ∧ t.agenda = s.agenda
            ∧ t.mach.wave gid wave = some v ∧ (v.lane l).wait = .none ∧ (v.lane l).pc = (w.lane l).pc ∧ (∀ k, v.cur k = w.cur k)
            ∧ (∀ m y, s.mach.translate g.asid va.toNat = (m, some y) →
              ∃ e, (t.mach.core g.core).tlb.head? = some e ∧ e.asid = y.asid ∧ e.vpn = y.vpn ∧ e.size = y.size ∧ e.cls.toNat = y.cls)
            ∧ ∀ m, s.mach.translate g.asid va.toNat = (m, none) →
              (t.mach.core g.core).walks.head? = some ⟨g.asid, va.toNat / 4096, m.pageCode g.asid va.toNat⟩)
    ∧ ∀ (i : Instr) (r : Raw) (s : State) (e0 : Env), i.raw = some r → Env.of (ctlOf r) s.mach = some e0 →
      e0.blocked i (ctlOf r) = none →
      let e := e0.begin (ctlOf r)
      let ks := e.readsOf i
      ((∃ k ∈ ks, k ∈ e.w.weak) → ∃ t, exec i s = .next t ∧ e.elsewhere s t ∧ e.idle t ∧ t.mach.mem = s.mach.mem
          ∧ (∀ l ∈ e.lanes, ((e.now t).lane l).pc = e.iss.pc ∧ ((e.now t).lane l).ready = e.clk + 8)
          ∧ ∀ k, k ∈ (e.now t).weak ↔ k ∈ e.w.weak ∧ k ∉ ks)
        ∧ ((∀ k ∈ ks, k ∉ e.w.weak) → ∀ k, ks.find? e.w.parity.contains = some k →
          (e.w.marked k = true → (∀ l ∈ e.lanes, (e.w.lane l).rollbacks < 2) →
            ∃ t, exec i s = .next t ∧ e.elsewhere s t ∧ t.mach.mem = s.mach.mem
              ∧ (e.now t).marks = [] ∧ (e.now t).wmarks = [] ∧ (e.now t).loads = []
              ∧ (∀ l < 64, l < e.w.lanes.length → ((e.w.lane l).st = .live ∨ e.w.helper l = true) → (e.w.lane l).newRegion = false →
                let a := (e.now t).lane l
                let b := e.w.lane l
                a.x0 = b.snap.x0 ∧ a.x1 = b.snap.x1 ∧ a.c0 = b.snap.c0 ∧ a.c1 = b.snap.c1 ∧ a.c2 = b.snap.c2 ∧ a.c3 = b.snap.c3
                  ∧ a.rollbacks = b.rollbacks + 1 ∧ (b.st = .live → a.pc = b.snap.pc ∧ a.prio = b.snap.prio))
              ∧ ∀ k, (∀ l n, k ≠ .x l n ∧ k ≠ .c l n) → (e.now t).cur k = e.w.cur k)
            ∧ (e.w.marked k = false ∨ (∃ l ∈ e.lanes, 2 ≤ (e.w.lane l).rollbacks) → e.traps s i e.named Code.regParity k.field 0))

/-- R207, R214 to R218: line operations and fences go on, a prefetch where no locked sector holds it, and ICINV once every earlier
write-back of its core has reached the LLC. CWB leaves its line without written bytes, CINV
without a copy, ICINV its fetched copies gone; PFENCE drops the context's lines from the caches its mask names and leaves no
written byte of the context in L1, AFENCE drops every L1 line of the context once none of its written bytes meets a locked
sector.
The model's choices here: log 79 (DEDUCED). -/
def Obligations.LineOperations : Prop :=
  (∀ (x : MemOp) (i : Instr) (s : State) (e0 : Env), i ∈ [.ldpf x, .cwb x, .cinv x, .icinv x] → s.begins i x.ctl = some e0 →
      let e := e0.inside i
      let key (l : Nat) : Nat := lineKey e.asid (e.addr x l)
      -- a prefetch of a line at a locked sector waits, and ICINV for every earlier write-back of the core
      let waits : Prop := (i = .ldpf x ∧ e.lockedAny (fun _ => false) (e.act.flatMap fun l =>
            [(l, e.addr x l / 64 * 64), (l, e.addr x l / 64 * 64 + 32)]) = true)
          ∨ (i = .icinv x ∧ e.act ≠ [] ∧ e.m.flushHeld e.core e.asid = true)
      (waits → e.held s i) ∧ (¬ waits → ∃ t, exec i s = .next t ∧ t.plat = s.plat ∧ t.agenda = s.agenda ∧ e.passes t ∧ e.idle t
        ∧ (e.act = [] ∨ s.mach.consigns = [] → e.elsewhere s t)
        ∧ ∀ l, e.act = [l] → e.m.check e.core e.asid e.g.system .load 0 (e.addr x l) 1 = .ok 0 →
          (i = .cwb x → ∀ line, mget (t.mach.core e.core).l1 (key l) = some line → l1Dirty line = false)
            ∧ (i = .cinv x → mget (t.mach.core e.core).l1 (key l) = none)
            ∧ (i = .icinv x → let k := secKey e.asid (e.addr x l / 64 * 64)
              mget (t.mach.core e.core).icache k = none ∧ mget (t.mach.core e.core).icache (k + 1) = none)
            ∧ (i = .ldpf x → x.hint = .byp →
              t.mach.prefetch = s.mach.prefetch ++ [(e.asid, e.addr x l / 64 * 64, e.g.task.allot.toNat)])))
    ∧ (∀ (x : ImmOp) (s : State) (e0 : Env), s.begins (.pfence x) x.ctl = some e0 →
      let e := e0.inside (.pfence x)
      let mine (k : Nat) : Prop := k / 2 ^ 43 = e.asid.toNat
      let clean (l1 : Map (List L1Byte)) : Prop := ∀ k line, k / 2 ^ 42 = e.asid.toNat → mget l1 k = some line → l1Dirty line = false
      ∃ t, exec (.pfence x) s = .next t ∧ t.plat = s.plat ∧ t.agenda = s.agenda ∧ e.passes t ∧ e.idle t
        ∧ (e.act ≠ [] → ∀ f bit, (f, bit) ∈ [(Core.const, 1), (Core.texel, 2), (Core.tile, 3), (Core.icache, 4)] → ∀ k,
          mget (f (t.mach.core e.core)) k = if x.n.getLsbD bit ∧ mine k then none else mget (f (s.mach.core e.core)) k)
        ∧ (e.act ≠ [] → x.n.toNat / 2 % 16 ≠ 0 → clean (t.mach.core e.core).l1)
        ∧ (e.act = [] ∨ x.n.toNat / 2 % 16 = 0 ∨ clean (s.mach.core e.core).l1 → e.elsewhere s t ∧ t.mach.mem = s.mach.mem
          ∧ t.mach.llc = s.mach.llc ∧ ∀ k, mget (t.mach.core e.core).l1 k = mget (s.mach.core e.core).l1 k))
    ∧ ∀ (x : PlainOp) (s : State) (e0 : Env), s.begins (.afence x) x.ctl = some e0 →
      let e := e0.inside (.afence x)
      (e.act = [] → ∃ t, exec (.afence x) s = .next t ∧ e.elsewhere s t ∧ e.passes t ∧ e.idle t)
        ∧ (e.act ≠ [] → e.m.flushHeld e.core e.asid = true → e.held s (.afence x))
        ∧ (e.act ≠ [] → e.m.flushHeld e.core e.asid = false → ∃ t, exec (.afence x) s = .next t ∧ t.plat = s.plat ∧ t.agenda = s.agenda
          ∧ e.passes t ∧ e.idle t ∧ (t.mach.core e.core).l1Keys e.asid = []
          ∧ ∀ k, k / 2 ^ 42 ≠ e.asid.toNat → mget (t.mach.core e.core).l1 k = mget (s.mach.core e.core).l1 k)

/-- R211 to R214: TXBEG opens a consignment in each active thread, an exclusive one after eight aborts in a row or, while
another is open, waits for it until EXCLUSIVE_CONSIGNMENT_GRANT; TXEND waits for earlier commands at a bank that a commit
writes (R188), and then ends it, says in Z whether it committed, and a commit puts the buffered bytes into the LLC at once;
TXABT aborts it with cause 6. -/
def Obligations.Consignments : Prop :=
  (∀ (x : PlainOp) (s : State) (e0 : Env), s.begins (.txbeg x) x.ctl = some e0 →
      let e := e0.inside (.txbeg x)
      let fresh (l : Nat) (excl : Bool) : Consign := ⟨e.iss.gid, e.iss.wave, l, e.asid, [], [], excl, false, true⟩
      ((∀ l ∈ e.act, (e.w.lane l).txAborts < 8) → ∃ t, exec (.txbeg x) s = .next t ∧ e.elsewhere s t ∧ e.passes t ∧ e.idle t
          ∧ ∀ l ∈ e.act, t.mach.consignOf e.iss.gid e.iss.wave l = some (fresh l false))
        ∧ ∀ l, e.act = [l] → 8 ≤ (e.w.lane l).txAborts →
          (e.m.exclusiveBusy e.asid = false → ∃ t, exec (.txbeg x) s = .next t ∧ e.elsewhere s t ∧ e.passes t ∧ e.idle t
              ∧ t.mach.consignOf e.iss.gid e.iss.wave l = some (fresh l true))
            ∧ (e.m.exclusiveBusy e.asid = true → ∃ t, exec (.txbeg x) s = .next t ∧ e.elsewhere s t ∧ e.idle t
              ∧ ((e.now t).lane l).wait = .exclusive ∧ ((e.now t).lane l).pc = e.iss.pc
              ∧ t.mach.exclQ = s.mach.exclQ ++ [⟨e.iss.gid, e.iss.wave, l, e.asid, x.ctl⟩]))
    ∧ (∀ (s : State) (asid : BitVec 16) (q : ExclReq) (w : Wave), s.mach.consigns.any (fun c => c.exclusive && !c.aborted && c.asid == asid) = false →
      s.mach.exclQ.find? (fun q => q.asid == asid) = some q → s.mach.wave q.gid q.wave = some w → (w.lane q.lane).wait = .exclusive →
      ∃ t v, exec (.exclusiveConsignmentGrant asid) s = .next t ∧ t.plat = s.plat ∧ t.mach.wave q.gid q.wave = some v
        ∧ t.mach.consignOf q.gid q.wave q.lane = some ⟨q.gid, q.wave, q.lane, asid, [], [], true, false, true⟩
        ∧ (v.lane q.lane).wait = .none ∧ (v.lane q.lane).pc = (w.lane q.lane).pc + 8 ∧ t.mach.exclQ = s.mach.exclQ.erase q
        ∧ (v.lane q.lane).ready = s.mach.clk + max 1 q.ctl.stall.toNat
        ∧ v.yieldFrom = if q.ctl.yld then some ((w.lane q.lane).pc + 8, (w.lane q.lane).prio) else w.yieldFrom)
    ∧ (∀ (x : TxendOp) (s : State) (e : Env), s.begins (.txend x) x.ctl = some e →
      -- a written sector of a bank-op page, with a command that arrived earlier at one of its banks
      let waits : Prop := ∃ l ∈ e.act, ∃ c, e.m.openConsign e.iss.gid e.iss.wave l = some c ∧ ∃ p ∈ c.sectors, ∃ y,
        (∃ b ∈ c.buffer, b.1 / 32 = p.1) ∧ (e.m.translate c.asid (32 * p.1)).2 = some y ∧ y.cls = 2
          ∧ e.m.bankBusy c.asid (32 * p.1) 32 = true
      (waits → e.held s (.txend x)) ∧ (¬ waits → ∃ t, exec (.txend x) s = .next t ∧ t.plat = s.plat ∧ t.agenda = s.agenda ∧ e.passes t
        ∧ e.keeps t (fun k => ∃ f, x.flag = some f ∧ ∃ l ∈ e.act, k = .c l f.toNat)
        ∧ (∀ l ∈ e.act, t.mach.consignOf e.iss.gid e.iss.wave l = none)
        ∧ ∀ l, e.act = [l] →
          let c := e.m.consignOf e.iss.gid e.iss.wave l
          let ok := (e.m.openConsign e.iss.gid e.iss.wave l).isSome
          (∀ f, x.flag = some f → (e.now t).cur (.c l f.toNat) = (zCc ok).setWidth 32)
            ∧ (ok = true → ((e.now t).lane l).txAborts = 0)
            ∧ (ok = false → ((e.now t).lane l).txAborts = (e.w.lane l).txAborts ∧ t.mach.mem = s.mach.mem ∧ t.mach.llc = s.mach.llc)
            ∧ ∀ d k r sc, c = some d → d.aborted = false → d.sectors = [(k, r)] → d.buffer ≠ [] → (d.buffer.map (·.1)).Nodup →
              (∀ p ∈ d.buffer, p.1 / 32 = k) → k < 2 ^ 43 → mget (e.m.core e.core).l1 (lineKey e.asid (32 * k)) = none →
              (∃ y, e.m.cachedTrans e.asid (32 * k) = some y ∧ y.cls = 0 ∧ y.pa (32 * k) < gddrTop) →
              e.m.frame e.asid (32 * k / 128 * 128) = none →
              mget e.m.llc (secKey e.asid (32 * k)) = some sc → sc.bytes.length = 32 → d.buffer.length < 32 →
              ∃ sd, mget t.mach.llc (secKey e.asid (32 * k)) = some sd
                ∧ ∀ j < 32, sd.bytes.getD j 0 = (mget d.buffer (32 * k + j)).getD (sc.bytes.getD j 0)))
    ∧ ∀ (x : ImmOp) (s : State) (e : Env), s.begins (.txabt x) x.ctl = some e →
      ∃ t, exec (.txabt x) s = .next t ∧ e.elsewhere s t ∧ e.passes t ∧ e.idle t ∧ t.mach.mem = s.mach.mem ∧ t.mach.llc = s.mach.llc
        ∧ ∀ l ∈ e.act, t.mach.openConsign e.iss.gid e.iss.wave l = none
          ∧ ((e.m.openConsign e.iss.gid e.iss.wave l).isSome →
            ((e.now t).lane l).txcause = BitVec.ofNat 32 (x.n.toNat * 65536 + min ((e.w.lane l).txAborts + 1) 15 * 256 + 6)
              ∧ ((e.now t).lane l).txAborts = (e.w.lane l).txAborts + 1)
          ∧ ((e.m.openConsign e.iss.gid e.iss.wave l).isSome = false → ((e.now t).lane l).txcause = (e.w.lane l).txcause)

/-! ## Commands -/

/-- R175, R219 to R223, R279, R280: a memory-side command checks its base addresses, its gate and its token, and is then queued
with its token and its result registers pending; a count of 0 or above 2^24 writes the token at once. -/
def Obligations.BankCommands : Prop :=
  ∀ (x : AsyncOp) (i : Instr) (bases : Env → List BankBase) (op : Env → BankOp) (regs : Env → List RKey) (count : Option (Env → Nat))
    (single : Bool),
    let va (e : Env) (l : Nat) : Nat := (e.getPair l x.a).toNat
    let n (e : Env) : Nat := (e.get e.first x.f).toNat
    let lanes (e : Env) : List Nat := if single then [e.first] else e.g.task.byThread e.w.index (fun l => l) e.act
    let lists (gather : Bool) : Prop := i = (if gather then .gathm x else .scatm x) ∧ single = true ∧ regs = (fun _ => []) ∧ count = some n
      ∧ bases = (fun e => [⟨e.first, va e e.first, if gather then .load else .store, 2 ^ x.imm8b.toNat, 2⟩,
        ⟨e.first, (e.getSrc e.first x.b 2).toNat, if gather then .store else .load, 2 ^ x.imm8b.toNat, 0⟩,
        ⟨e.first, (e.getPair e.first x.e).toNat, .load, 4, 2⟩])
      ∧ op = fun e => (if gather then BankOp.gathm else BankOp.scatm) (va e e.first) (e.getSrc e.first x.b 2).toNat
        (e.getPair e.first x.e).toNat (n e) x.imm8b.toNat
    ((i = .mred x ∧ single = singleForm i ∧ regs = (fun _ => []) ∧ count = none
          ∧ bases = (fun e => (lanes e).map fun l => ⟨l, va e l, .store, x.size.bytes, 2⟩)
          ∧ op = fun e => .mred x.op x.sgn (x.size == .b64) ((lanes e).map fun l => (l, va e l, e.getSrc l x.b x.size.regs)))
        ∨ (i = .mcas x ∧ single = singleForm i ∧ count = none
          ∧ regs = (fun e => (lanes e).flatMap fun l => (List.range x.size.regs).map fun k => x.d.key l k)
          ∧ bases = (fun e => (lanes e).map fun l => ⟨l, va e l, .store, x.size.bytes, 2⟩)
          ∧ op = fun e => .mcas (x.size == .b64) x.d
            ((lanes e).map fun l => (l, va e l, e.getSrc l x.b x.size.regs, e.getN l x.e x.size.regs)))
        ∨ (i = .msac x ∧ single = true ∧ regs = (fun _ => []) ∧ count = some n
          ∧ bases = (fun e => [⟨e.first, va e e.first, .store, 4, 2⟩, ⟨e.first, (e.getPair e.first x.e).toNat, .load, 4, 2⟩])
          ∧ op = fun e => .msac (va e e.first) (e.getPair e.first x.e).toNat (n e) (e.getSrc32 e.first x.b))
        ∨ lists true ∨ lists false) →
    ∀ (s : State) (e0 : Env), s.begins i x.ctl = some e0 →
      let e := e0.inside i
      let tok := x.compl.idx.toNat
      let fails (code info : Nat) : Prop := e.traps s i e.act code info 0
      let at' (status : Word) : Prop := ∃ t, exec i s = .next t ∧ e.elsewhere s t ∧ e.passes t ∧ (e.now t).cur (.w tok) = status
        ∧ e.keeps t (fun k => k = .w tok) ∧ t.mach.banks = s.mach.banks ∧ t.mach.mem = s.mach.mem
      (e.act = [] → ∃ t, exec i s = .next t ∧ e.elsewhere s t ∧ e.passes t ∧ e.idle t ∧ t.mach.mem = s.mach.mem)
        ∧ (e.act ≠ [] →
          (∀ a, e.judge (fun _ => false) ((bases e).map e.bankChk) = .walk a → e.waitsFor s i (.walk a))
            ∧ (∀ ls code addr, e.judge (fun _ => false) ((bases e).map e.bankChk) = .trap ls code addr →
              e.refuses s i (if single then e.act else ls) code addr)
            ∧ ∀ cls bad, e.judge (fun _ => false) ((bases e).map e.bankChk) = .ok cls bad →
              (e.gateOf x = none → fails Code.illegalOperand 0)
                ∧ ∀ gate, e.gateOf x = some gate →
                  (tok ∈ e.w.toks → fails Code.tokenReuse tok)
                    ∧ (tok ∉ e.w.toks →
                      (∀ k, count = some k → k e = 0 → at' 0)
                        ∧ (∀ k, count = some k → 2 ^ 24 < k e → at' (BitVec.ofNat 32 Code.illegalOperand))
                        ∧ ((∀ k, count = some k → 0 < k e ∧ k e ≤ 2 ^ 24) → ∃ t, exec i s = .next t ∧ t.plat = s.plat ∧ t.agenda = s.agenda
                          ∧ e.passes t ∧ e.idle t ∧ e.takes t tok (regs e) ∧ (s.mach.consigns = [] → e.elsewhere s t)
                          ∧ t.mach.banks = s.mach.banks ++ [⟨s.mach.nextId, e.iss.gid, e.iss.wave, op e, tok,
                            gate.map fun q => { q with passed := e.m.gateOpen e.iss.gid (some q) }, e.system⟩])))

/-- R188, R220, R223, R280: a command whose gate is open, whose sectors no other consignment has locked and before which no
other has arrived at its banks performs; its registers and its token are written and no longer pending. A single MRED on a
bank's word leaves the new value in memory.
The model's choices here: log 18 (DESIGN CHOICE), log 35 (DEDUCED). -/
def Obligations.BankCompletion : Prop :=
  ∀ (s : State) (n : Nat) (b : BankCmd) (g : Group) (w : Wave), s.mach.banks.find? (fun b => b.id == n) = some b →
    s.mach.group b.gid = some g → g.wave b.wave = some w → w.live ≠ [] → s.mach.bankArrived b = true →
    (∀ c ∈ s.mach.banks.takeWhile (fun c => c.id != n), s.mach.bankArrived c = false
      ∨ (b.op.listed = false ∧ ∀ r ∈ b.op.ranges, s.mach.bankMeets c g.asid r.1 r.2 = false)) →
    s.mach.solvent g.task.allot.toNat = true →
    (∀ m ws status u, s.mach.bankRun { g with system := b.system } b.op = some (m, ws, status) → m.wave b.gid b.wave = some u → u.live ≠ [] →
        ∃ t v, exec (.bankCommandCompletion n) s = .next t ∧ t.plat = s.plat ∧ t.agenda = s.agenda ∧ t.mach.mem = m.mem
          ∧ t.mach.banks = m.banks.filter (fun c => c.id != n) ∧ t.mach.wave b.gid b.wave = some v ∧ b.tok ∉ v.toks
          ∧ v.cur (.w b.tok) = if status = 0 ∧ (∃ q, b.gate = some q ∧ q.gone = true) then BitVec.ofNat 32 Code.barrierCount else status)
      ∧ ∀ op sgn w64 l va c t',
        let k := if w64 then 8 else 4
        b.op = .mred op sgn w64 [(l, va, c)] → s.mach.consigns = [] → va % k = 0 → va < 2 ^ 48 →
        s.mach.cachedTrans g.asid va = some t' → t'.cls = 2 → pteBit t'.leaf.toNat 3 = true →
        pteBit t'.leaf.toNat 4 = true → pteBit t'.leaf.toNat 5 = true → pteBit t'.leaf.toNat 6 = true → (va < 2 ^ 47 ∨ b.system = true) →
        t'.pa va < gddrTop → s.mach.remap = [] → s.mach.rel.allOk = true → s.mach.rel.flips = [] → s.mach.rel.corrective = [] →
        s.mach.rel.bad = [] →
        let old : DWord := BitVec.ofNat 64 (leNat ((List.range k).map fun j => cellGet s.mach.mem (t'.pa va + j)))
        let new := leBytes k (atomNew op sgn (8 * k) old c 0).toNat
        ∃ t, exec (.bankCommandCompletion n) s = .next t ∧ t.plat = s.plat ∧ t.agenda = s.agenda
          ∧ ∀ a, cellGet t.mach.mem a = if t'.pa va ≤ a ∧ a < t'.pa va + k then new.getD (a - t'.pa va) 0 else cellGet s.mach.mem a

/-- R279, R282 to R287, R342: CPY, TCPY, TLRREG and TLRDEL check their operands in order, no copy names the debug window, and
then the copy's request stands in its core's queue with its token pending, or a layout record is bound or freed; a copy of
no bytes writes its token at once; TLRDEL waits for the copies that name its slot and were issued before it. TLRREG reads the
record as a load does, and raises ILLEGAL_OPERAND at a record or slot that R282 to R284 turn away and the fault of a page that
cannot be pinned.
The model's choices here: log 36 (DEDUCED): the rights checked at a pinned page are those of a load. -/
def Obligations.PorterIssue : Prop :=
  let issue (i : Instr) (x : AsyncOp) (e0 : Env) (s : State) (op : PorterOp) (bytes : Nat) : Prop :=
    let e := e0.inside i
    let sectors := (bytes + 31) / 32
    let fails (code info addr : Nat) : Prop := e.traps s i e.act code info (BitVec.ofNat 64 addr)
    ((e.complOf x = none ∨ e.gateOf x = none) → fails Code.illegalOperand 0 0)
      ∧ ∀ compl gate tok, e.complOf x = some compl → e.gateOf x = some gate → compl.tok = some tok →
        (∀ off w, compl = .bar off w → 0 < sectors → e.m.tbStep e.iss.gid off 0 sectors 0 = none →
            fails Code.barrierCount 0 off)
          ∧ ((∀ off w, compl = .bar off w → 0 < sectors → (e.m.tbStep e.iss.gid off 0 sectors 0).isSome) →
            (tok ∈ e.w.toks → fails Code.tokenReuse tok 0)
              ∧ (tok ∉ e.w.toks →
                (sectors = 0 → ∃ t, exec i s = .next t ∧ e.elsewhere s t ∧ e.passes t ∧ (e.now t).cur (.w tok) = 0
                    ∧ e.keeps t fun k => k = .w tok)
                  ∧ (0 < sectors → e.m.quotaOk e.asid (544 + e.core) 1 = false → fails Code.quota 5 0)
                  ∧ (0 < sectors → e.m.quotaOk e.asid (544 + e.core) 1 = true →
                    ∃ t, exec i s = .next t ∧ t.plat = s.plat ∧ t.agenda = s.agenda
                    ∧ e.passes t ∧ (compl = .token tok → e.idle t ∧ e.takes t tok [])
                    ∧ (compl = .token tok → s.mach.spills e.asid (544 + e.core) 1 = 0 → 
                      ∃ c, (t.mach.core e.core).porterQ = (s.mach.core e.core).porterQ ++ [c] ∧ c.op = op ∧ c.gid = e.iss.gid ∧ c.wave = e.iss.wave
                        ∧ c.asid = e.asid ∧ c.next = 0 ∧ c.gate = gate ∧ c.compl = compl ∧ c.stop = none ∧ c.id = s.mach.nextId
                        ∧ c.wb = (if x.wbe then some x.wbslot.toNat else none)))))
  (∀ (x : AsyncOp) (s : State) (e0 : Env), s.begins (.cpy x) x.ctl = some e0 →
      let e := e0.inside (.cpy x)
      let sk := x.spec.getLsbD 0
      let dk := x.spec.getLsbD 1
      let src := if sk then (e.get e.first x.a).toNat else (e.getPair e.first x.a).toNat
      let dst := if dk then (e.getSrc32 e.first x.b).toNat else (e.getSrc e.first x.b 2).toNat
      let n := (e.get e.first x.e).toNat
      let fails (code addr : Nat) : Prop := e.traps s (.cpy x) e.act code 0 (BitVec.ofNat 64 addr)
      e.act ≠ [] →
        (sk = false → src % 16 ≠ 0 → fails Code.align src)
          ∧ ((sk = true ∨ src % 16 = 0) → dk = false → dst % 16 ≠ 0 → fails Code.align dst)
          ∧ ((sk = true ∨ src % 16 = 0) → (dk = true ∨ dst % 16 = 0) →
            (n % 16 ≠ 0 → fails Code.align (if sk = false then src else if dk = false then dst else 0))
              ∧ (n % 16 = 0 → 2 ^ 24 < n → fails Code.illegalOperand 0)
              ∧ (n % 16 = 0 → n ≤ 2 ^ 24 → sk = true → e.g.grant < src + n → fails Code.perm src)
              ∧ (n % 16 = 0 → n ≤ 2 ^ 24 → (sk = true → src + n ≤ e.g.grant) → dk = true → e.g.grant < dst + n →
                fails Code.perm dst)
              ∧ (n % 16 = 0 → n ≤ 2 ^ 24 → (sk = true → src + n ≤ e.g.grant) → (dk = true → dst + n ≤ e.g.grant) →
                let window := (if sk then none else e.m.windowIn e.asid src n).or (if dk then none else e.m.windowIn e.asid dst n)
                (∀ a, window = some a → fails Code.perm a)
                  ∧ (window = none → ¬ (sk = true ∧ dk = true) → e.m.flushHeld e.core e.asid = true → e.held s (.cpy x))
                  ∧ (window = none → (sk = true ∧ dk = true) ∨ e.m.flushHeld e.core e.asid = false → issue (.cpy x) x e0 s (.cpy sk dk src dst n) n))))
    ∧ (∀ (x : AsyncOp) (s : State) (e0 : Env), s.begins (.tcpy x) x.ctl = some e0 →
      let e := e0.inside (.tcpy x)
      let out := x.spec.getLsbD 0
      let cvt := x.spec.getLsbD 1
      let sp := (e.get e.first x.a).toNat
      let slot := x.imm8b.toNat
      let fails (code addr : Nat) : Prop := e.traps s (.tcpy x) e.act code 0 (BitVec.ofNat 64 addr)
      e.act ≠ [] → ∀ c, e.m.ctxOf e.asid = some c →
        (mget c.tlrs slot = none → fails Code.illegalOperand 0)
          ∧ (∀ t, mget c.tlrs slot = some t → 128 < x.e.idx.toNat + t.rank + 1 → fails Code.illegalOperand 0)
          ∧ ∀ t, mget c.tlrs slot = some t → x.e.idx.toNat + t.rank + 1 ≤ 128 →
            let coords : List RKey := (List.range t.rank).map fun i => x.e.key 0 (i + 1)
            ((∃ k ∈ coords, k ∈ e.w.pend) → e.held s (.tcpy x)) ∧ (e.late coords = none →
            let origin : List Int := (List.range (t.rank + 1)).map fun i => (e.w.getI e.clk e.first x.e i).toInt
            let bad : Prop := (cvt = true ∧ (t.fmt ≠ 5 ∨ out = true)) ∨ (swzSpan t.swz ≠ 0 ∧ sp % swzSpan t.swz ≠ 0)
            let align : Prop := t.fmt = 5 ∧ origin.getD 0 0 % 128 ≠ 0
            (align → fails Code.align 0)
              ∧ (¬ align → bad → fails Code.illegalOperand 0)
              ∧ (¬ align → ¬ bad → e.g.grant < sp + t.boxBytes cvt → fails Code.perm sp)
              ∧ (¬ align → ¬ bad → sp + t.boxBytes cvt ≤ e.g.grant →
                let window := (t.boxRanges origin cvt).findSome? fun p => e.m.windowIn e.asid p.1 p.2
                (∀ a, window = some a → fails Code.perm a)
                  ∧ (window = none → e.m.flushHeld e.core e.asid = true → e.held s (.tcpy x))
                  ∧ (window = none → e.m.flushHeld e.core e.asid = false →
                    issue (.tcpy x) x e0 s (.tcpy out cvt sp slot t origin) (t.boxBytes cvt)))))
    ∧ (∀ (x : AbOp) (s : State) (e0 : Env), s.begins (.tlrreg x) x.ctl = some e0 →
      let e := e0.inside (.tlrreg x)
      let va := (e.getPair e.first x.a).toNat
      let slot := (e.getSrc32 e.first x.b).toNat
      let checks := e.checkAll e.m .load 0 128 true [(e.first, va)]
      e.act ≠ [] → (∀ a, checks = .walk a → e.waitsFor s (.tlrreg x) (.walk a))
        ∧ (∀ ls code addr, checks = .trap ls code addr → code ≠ Code.dataUncorrectable → e.refuses s (.tlrreg x) e.act code addr)
        ∧ ∀ cls bad m vals poison c, checks = .ok cls bad →
        e.readRun (e.m.usedWalks e.core e.asid) va 128 ((cls.lookup e.first).getD 0) = .ok m vals poison → m.ctxOf e.asid = some c →
        let fails (code info addr : Nat) : Prop := e.trapsIn m s (.tlrreg x) e.act code info (BitVec.ofNat 64 addr)
        let tlr := Tlr.ofBytes (vals.flatMap (·.2))
        (tlr = none ∨ 255 < slot ∨ (mget c.tlrs slot).isSome → fails Code.illegalOperand 0 0)
          ∧ ∀ t, tlr = some t → slot ≤ 255 → mget c.tlrs slot = none →
          let remote : Prop := (m.remoteAt e.asid t.base).isSome ∨ (t.fmt = 5 ∧ (m.remoteAt e.asid t.scales).isSome)
          (remote → fails Code.illegalOperand 0 0)
            ∧ (¬ remote → (∀ code a, m.pinAll e.asid e.system c t = .inr (code, a) → fails code (if code = Code.quota then 7 else 0) a)
              ∧ ∀ n, m.pinAll e.asid e.system c t = .inl n → exec (.tlrreg x) s = .next (s.ended e0 (.tlrreg x) x.ctl
                ((m.setCtx { c with tlrs := mput c.tlrs slot t, pins := c.pins ++ [(slot, n)] }).attachScales e.asid t) e.lanes)))
    ∧ (∀ bs : List Byte, bs.length = 128 →
      let f (off n : Nat) : Nat := leNat ((bs.drop off).take n)
      let fmt := f 16 4 % 16
      let rank := f 16 4 / 16 % 8
      let swz := f 16 4 / 256 % 4
      let dim (i : Nat) : Nat := f (20 + 4 * i) 4
      let str (i : Nat) : Nat := f (32 + 8 * i) 8
      let box (i : Nat) : Nat := f (72 + 2 * i) 2
      -- half bytes of an element, and bytes of a row of the box
      let es2 := [4, 4, 8, 2, 2, 1].getD fmt 1
      let rb := box 0 * es2 / 2
      let span := [0, 32, 64, 128].getD swz 0
      let good : Prop := f 16 4 / 1024 = 0 ∧ f 16 4 / 128 % 2 = 0 ∧ (∀ j, 82 ≤ j → j < 128 → bs.getD j 0 = 0) ∧ fmt ≤ 5 ∧ rank ≤ 4
        ∧ (if fmt = 5 then f 0 8 % 64 = 0 ∧ f 8 8 % 4 = 0 else f 0 8 % (es2 / 2) = 0 ∧ f 8 8 = 0)
        ∧ (∀ i < 5, 1 ≤ dim i ∧ 1 ≤ box i ∧ box i ≤ 1024 ∧ (rank < i → dim i = 1 ∧ box i = 1 ∧ str i = 0))
        ∧ (fmt = 5 → dim 0 % 128 = 0 ∧ box 0 % 128 = 0 ∧ ∀ i, 1 ≤ i → i < 5 → str i % 64 = 0)
        ∧ rb % 16 = 0 ∧ (span ≠ 0 → rb % span = 0) ∧ rb * box 1 * box 2 * box 3 * box 4 ≤ 393216
      (¬ good → Tlr.ofBytes bs = none)
        ∧ (good → ∃ t, Tlr.ofBytes bs = some t ∧ t.base = f 0 8 ∧ t.scales = f 8 8 ∧ t.swz = swz ∧ t.rank = rank ∧ t.fmt = fmt
          ∧ (∀ i < 5, t.dims.getD i 1 = dim i ∧ t.boxes.getD i 1 = box i) ∧ ∀ i < 4, t.strs.getD i 0 = str (i + 1)))
    ∧ ∀ (x : TlrdelOp) (s : State) (e0 : Env), s.begins (.tlrdel x) x.ctl = some e0 →
      let e := e0.inside (.tlrdel x)
      let slot := (e.getSrc32 e.first x.b).toNat
      let bound := (e.w.tlrw.lookup (e.iss.pc, e.iss.prio)).getD e.m.nextId
      let holds (c : PorterCmd) : Prop := c.names e.asid slot = true ∧ c.id < bound
      let named : Prop := (∃ p ∈ s.mach.cores, ∃ c ∈ p.2.porterQ, holds c)
        ∨ ∃ r ∈ s.mach.rings, ∃ c, DepotItem.porter c ∈ r.2.items ∧ holds c
      e.act ≠ [] →
        (255 < slot → e.traps s (.tlrdel x) e.act Code.illegalOperand 0 0)
          ∧ (slot ≤ 255 → named → e.held s (.tlrdel x))
          ∧ (slot ≤ 255 → ¬ named → ∃ t, exec (.tlrdel x) s = .next t ∧ e.elsewhere s t ∧ e.passes t ∧ e.idle t ∧ t.mach.mem = s.mach.mem
            ∧ ∀ c, e.m.ctxOf e.asid = some c → mget t.mach.ctxs c.slot =
              some { c with tlrs := mdel c.tlrs slot, pins := c.pins.filter fun p => p.1 != slot })

/-- R280, R281, R287 to R290, R335, R371: a gate of a copy or of the matrix head is released once its phase has completed or its
binding is gone; a request's next sector is copied whole, each byte of it and no other, between scratchpads, from memory, to
memory, and between a box in scratchpad and its elements in a tensor, where elements outside read as zero and are not
written, when the allotment of its group has budget; a request whose sectors are all done leaves the queue and writes its
status into its token, and then what is left of its count into its barrier word.
The model's choices here: log 18 (DESIGN CHOICE), log 35 (DEDUCED), log 42 (DESIGN CHOICE). -/
def Obligations.PorterProgress : Prop :=
  (∀ (s : State) (core n : Nat) (c : PorterCmd) (q : Gate), (s.mach.core core).porterQ[n]? = some c → c.gate = some q →
      s.mach.gateOpen c.gid (some q) = true → ∃ t d, exec (.gatedCommandRelease false core n) s = .next t ∧ t.plat = s.plat
        ∧ t.agenda = s.agenda ∧ t.mach.mem = s.mach.mem ∧ t.mach.groups = s.mach.groups
        ∧ (t.mach.core core).porterQ[n]? = some d ∧ d = { c with gate := none, lost := q.gone })
    ∧ (∀ (s : State) (core n src dst bytes : Nat) (c : PorterCmd) (g : Group), (s.mach.core core).porterQ[n]? = some c → c.op = .cpy true true src dst bytes →
      s.mach.group c.gid = some g → c.gate = none → c.stop = none → c.wait = none → c.raced = false → c.next < c.sectors →
      startable (s.mach.core core).porterQ n = true → s.mach.replies = [] → (∃ w, c.compl = .token w) →
      g.units.Nodup → src + bytes ≤ g.grant → dst + bytes ≤ g.grant → (src + bytes ≤ dst ∨ dst + bytes ≤ src) →
      g.clobbers (dst + 32 * c.next) (c.len c.next) = false → s.mach.canPay g.task.allot.toNat 3 = true →
      let k := c.next
      ∃ t, exec (.porterSectorWrite core n) s = .next t ∧ t.plat = s.plat ∧ t.agenda = s.agenda ∧ t.mach.mem = s.mach.mem
        ∧ t.mach.groups = s.mach.groups ∧ (t.mach.core core).porterQ[n]? = some { c with next := k + 1 }
        ∧ (∀ j < c.len k, t.mach.spadByte g (dst + 32 * k + j) = s.mach.spadByte g (src + 32 * k + j))
        ∧ ∀ p, (∀ j < c.len k, p ≠ (g.core, g.spadPhys (dst + 32 * k + j))) → t.spad p = s.spad p)
    ∧ (∀ (s : State) (core n : Nat) (c : MxCmd) (rest : List MxCmd) (q : Gate) (g : Group), (s.mach.core core).mxQ = c :: rest →
      c.gate = some q → s.mach.group c.gid = some g →
      let released : Prop := q.gone = true ∨ q.passed = true ∨ ¬ ((s.mach.tbWord g q.off).phase % 2 = 1 ↔ q.par = true)
      let i : Instr := .gatedCommandRelease true core n
      (released → ∃ t, exec i s = .next t ∧ t.plat = s.plat ∧ t.agenda = s.agenda
          ∧ (t.mach.core core).mxQ = { c with gate := none, lost := q.gone, waited := true } :: rest
          ∧ (c.wb = none → t.mach.mem = s.mach.mem ∧ t.mach.groups = s.mach.groups))
        ∧ (¬ released → exec i s = .next { s with missed := true }))
    ∧ (∀ (s : State) (core n src dst bytes : Nat) (c : PorterCmd) (g : Group) (y : TransEntry) (sc : LlcSector) (out : Bool),
      (s.mach.core core).porterQ[n]? = some c → c.op = (if out then .cpy true false src dst bytes else .cpy false true src dst bytes) →
      s.mach.group c.gid = some g → g.core = core → c.gate = none → c.stop = none → c.wait = none → c.raced = false → c.unacked = [] →
      c.next < c.sectors → startable (s.mach.core core).porterQ n = true → s.mach.replies = [] → (∃ w, c.compl = .token w) →
      s.mach.consigns = [] → g.units.Nodup → s.mach.canPay g.task.allot.toNat 3 = true → s.mach.solvent g.task.allot.toNat = true →
      let k := c.next
      let va := (if out then dst else src) + 32 * k
      let sp := (if out then src else dst) + 32 * k
      sp + c.len k ≤ g.grant → (out = true ∨ g.clobbers sp (c.len k) = false) → va % 32 = 0 →
      s.mach.cachedTrans c.asid va = some y → y.cls = 0 → y.pa va < gddrTop → pteBit y.leaf.toNat 3 = true → pteBit y.leaf.toNat 4 = true →
      pteBit y.leaf.toNat 5 = true → pteBit y.leaf.toNat 6 = true → (va < 2 ^ 47 ∨ c.system = true) →
      s.mach.frame c.asid (va / 128 * 128) = none → mget s.mach.llc (secKey c.asid va) = some sc → sc.bytes.length = 32 →
      ∃ t, exec (.porterSectorWrite core n) s = .next t ∧ t.plat = s.plat ∧ t.agenda = s.agenda
        ∧ (t.mach.core core).porterQ[n]? = some { c with next := k + 1 }
        ∧ (out = false → t.mach.mem = s.mach.mem ∧ t.mach.groups = s.mach.groups
          ∧ (∀ j < c.len k, t.mach.spadByte g (sp + j) = sc.bytes.getD j 0)
          ∧ ∀ p, (∀ j < c.len k, p ≠ (g.core, g.spadPhys (sp + j))) → t.spad p = s.spad p)
        ∧ (out = true → (∀ p, t.spad p = s.spad p)
          ∧ (∃ sd, mget t.mach.llc (secKey c.asid va) = some sd ∧ sd.dirty = true ∧ ∀ j < 32,
            sd.bytes.getD j 0 = if j < c.len k then s.mach.spadByte g (sp + j) else sc.bytes.getD j 0)
          ∧ (t.mach.group c.gid).map (·.sig) = some (g.sig ||| sectorSig va)))
    ∧ (∀ (s : State) (core n sp slot : Nat) (t : Tlr) (origin : List Int) (c : PorterCmd) (g : Group) (out : Bool),
      (s.mach.core core).porterQ[n]? = some c → c.op = .tcpy out false sp slot t origin →
      s.mach.group c.gid = some g → g.core = core → c.gate = none → c.stop = none → c.wait = none → c.raced = false → c.unacked = [] →
      c.next < c.sectors → startable (s.mach.core core).porterQ n = true → s.mach.replies = [] → (∃ w, c.compl = .token w) →
      s.mach.consigns = [] → (s.mach.core core).tile = [] → g.units.Nodup → s.mach.canPay g.task.allot.toNat 3 = true →
      s.mach.solvent g.task.allot.toNat = true → t.fmt < 5 → t.swz < 4 → t.boxes.length = 5 →
      let es := [2, 2, 4, 1, 1].getD t.fmt 1
      let rb := t.boxes.getD 0 1 * es
      let span := [0, 32, 64, 128].getD t.swz 0
      -- byte j of the sector: its row and place in the box, in scratchpad and in the tensor
      let b (j : Nat) : Nat := 32 * c.next + j
      let row (j : Nat) : Nat := b j / rb
      let chunk (j : Nat) : Nat := b j % rb / 16
      let q := span / 16
      let place (j : Nat) : Nat := sp + row j * rb + b j % 16
        + 16 * (if q = 0 then chunk j else chunk j - chunk j % q + ((chunk j % q) ^^^ (row j % q)))
      let at' (j i : Nat) : Int := origin.getD i 0 + (if i = 0 then b j % rb / es
        else row j / (((t.boxes.drop 1).take (i - 1)).foldl (· * ·) 1) % t.boxes.getD i 1 : Nat)
      let inside (j : Nat) : Prop := ∀ i < 5, 0 ≤ at' j i ∧ at' j i < t.dims.getD i 1
      let va (j : Nat) : Nat := t.base + (at' j 0).toNat * es + (at' j 1).toNat * t.strs.getD 0 0 + (at' j 2).toNat * t.strs.getD 1 0
        + (at' j 3).toNat * t.strs.getD 2 0 + (at' j 4).toNat * t.strs.getD 3 0 + b j % rb % es
      let len := c.len c.next
      0 < rb → rb % 16 = 0 → (∀ j < len, place j < g.grant ∧ (out = true ∨ g.clobbers (place j) 1 = false)) → (∀ j < len, ∀ i < len, place j = place i → j = i) →
      ∀ byte : Nat → Byte,
      (∀ j < len, inside j → ∃ y sc, s.mach.cachedTrans c.asid (va j) = some y ∧ y.cls = 0 ∧ y.pa (va j) < gddrTop
        ∧ pteBit y.leaf.toNat 3 = true ∧ pteBit y.leaf.toNat 4 = true ∧ pteBit y.leaf.toNat 5 = true ∧ pteBit y.leaf.toNat 6 = true
        ∧ (va j < 2 ^ 47 ∨ c.system = true) ∧ s.mach.frame c.asid (va j / 128 * 128) = none
        ∧ mget s.mach.llc (secKey c.asid (va j)) = some sc ∧ sc.bytes.length = 32 ∧ sc.bytes.getD (va j % 32) 0 = byte j) →
      (out = false → ∃ u, exec (.porterSectorWrite core n) s = .next u ∧ u.plat = s.plat ∧ u.agenda = s.agenda ∧ u.mach.mem = s.mach.mem
          ∧ (u.mach.core core).porterQ[n]? = some { c with next := c.next + 1 }
          ∧ (∀ j < len, (inside j → u.mach.spadByte g (place j) = byte j) ∧ (¬ inside j → u.mach.spadByte g (place j) = 0))
          ∧ ∀ p, (∀ j < len, p ≠ (g.core, g.spadPhys (place j))) → u.spad p = s.spad p)
        ∧ ∀ key, out = true → (∀ j < len, inside j → va j / 32 = key) → (∀ j < len, ∀ i < len, inside j → inside i → va j = va i → j = i) →
          ∃ u, exec (.porterSectorWrite core n) s = .next u ∧ u.plat = s.plat ∧ u.agenda = s.agenda
            ∧ (u.mach.core core).porterQ[n]? = some { c with next := c.next + 1 } ∧ (∀ p, u.spad p = s.spad p)
            ∧ ∀ j < len, inside j → ∃ sd, mget u.mach.llc (secKey c.asid (va j)) = some sd
              ∧ sd.bytes.getD (va j % 32) 0 = s.mach.spadByte g (place j))
    ∧ (∀ (s : State) (core n off tok k : Nat) (c : PorterCmd) (g : Group) (w : Wave), (s.mach.core core).porterQ[n]? = some c →
      c.over' = true → c.unacked = [] → c.compl = .bar off tok → c.wb = none → c.barFail = false → s.mach.group c.gid = some g →
      g.gid = c.gid → g.wave c.wave = some w → w.live ≠ [] → g.binding off = some k → g.units.Nodup → off % 16 = 0 → off + 16 ≤ g.grant →
      let word := s.mach.tbWord g off
      -- the last sector's count, or those of the sectors that a fault has left unwritten
      let left := c.sectors - min c.next (c.sectors - 1)
      let status : Word := if word.sectors < left ∧ c.stop = none ∧ c.clob = none then BitVec.ofNat 32 Code.barrierCount else c.status
      ∃ t v, exec (.porterCommandCompletion core n) s = .next t ∧ t.plat = s.plat ∧ t.agenda = s.agenda
        ∧ (t.mach.core core).porterQ.map (·.id) = ((s.mach.core core).porterQ.filter (fun d => d.id != c.id)).map (·.id)
        ∧ t.mach.wave c.gid c.wave = some v ∧ v.cur (.w tok) = status ∧ tok ∉ v.toks
        ∧ t.mach.tbWord g off = if word.sectors < left ∨ 2 ^ 32 ≤ word.sectors - left then word
          else if word.arrive = 0 ∧ word.sectors = left then ⟨(word.phase + 1) % 16, word.expect, word.expect, 0⟩
          else { word with sectors := word.sectors - left })
    ∧ ∀ (s : State) (core n tok : Nat) (c : PorterCmd) (w : Wave), (s.mach.core core).porterQ[n]? = some c → c.over' = true →
      c.unacked = [] → c.compl = .token tok → s.mach.wave c.gid c.wave = some w → w.live ≠ [] →
      ∃ t v, exec (.porterCommandCompletion core n) s = .next t ∧ t.plat = s.plat ∧ t.agenda = s.agenda
        ∧ (t.mach.core core).porterQ = (s.mach.core core).porterQ.filter (fun d => d.id != c.id)
        ∧ t.mach.wave c.gid c.wave = some v ∧ v.cur (.w tok) = c.status ∧ tok ∉ v.toks
        ∧ ∀ k, k.ok → k ≠ .w tok → v.cur k = w.cur k

/-- R295, R299, R300: matrix commands check descriptor, alignment, grant, gate, token and quota in that order, and then stand in
their core's queue; OPFENCE makes the wave's scratchpad writes take effect. -/
def Obligations.MatrixIssue : Prop :=
  let pushes (i : Instr) (e0 : Env) (s : State) (c : MxCmd) : Prop :=
    let e := e0.inside i
    let fails (code info : Nat) : Prop := e.traps s i e.act code info 0
    (∀ t, c.tok = some t → t ∈ e.w.toks → fails Code.tokenReuse t)
      ∧ ((∀ t, c.tok = some t → t ∉ e.w.toks) →
        (e.m.quotaOk e.asid (416 + e.core) 1 = false → fails Code.quota 4)
          ∧ (e.m.quotaOk e.asid (416 + e.core) 1 = true →
            ∃ t, exec i s = .next t ∧ t.plat = s.plat ∧ t.agenda = s.agenda ∧ e.passes t ∧ e.idle t
            ∧ (∀ k, c.tok = some k → e.takes t k []) ∧ (c.tok = none → (e.now t).toks = e.w.toks)
            ∧ (s.mach.spills e.asid (416 + e.core) 1 = 0 → e.elsewhere s t ∧ t.mach.mem = s.mach.mem
              ∧ (t.mach.core e.core).mxQ = (s.mach.core e.core).mxQ ++ [{ c with raced := e.w.unfenced c.reads }])))
  (∀ (x : AsyncOp) (i : Instr) (op : MxOp) (a en p n k : Bool),
      (i, op, a, en, p, n, k) ∈ [(Instr.mxlds x, .lds (x.spec.getLsbD 1), true, false, true, false, false),
        (.mxmul x, .mul (x.spec.getLsbD 1), true, true, true, true, true), (.mxrd x, .rd (x.spec.getLsbD 1), true, true, true, true, false),
        (.mxzero x, .zero, false, true, false, true, false), (.mxlda x, .lda (x.spec.getLsbD 1), true, true, true, true, false)] →
      ∀ (s : State) (e0 : Env), s.begins i x.ctl = some e0 →
        let e := e0.inside i
        let b := (e.getSrc32 e.first x.b).toNat
        let c := e.mxCmd x op a en b
        let span := swzSpan c.swz
        let good : Prop := descOk b p n k = true ∧ c.pitch % 16 = 0 ∧ (span ≠ 0 → c.pitch % span = 0 ∧ c.a % span = 0) ∧ c.regionOk = true
        let fails (code addr : Nat) : Prop := e.traps s i e.act code 0 (BitVec.ofNat 64 addr)
        e.act ≠ [] →
          (¬ good → fails Code.illegalOperand 0)
            ∧ (good → c.a % 16 ≠ 0 → fails Code.align c.a)
            ∧ (good → c.a % 16 = 0 →
              (∀ r, (c.reads ++ c.writes).find? (fun r => decide (e.g.grant < r.1 + r.2)) = some r → fails Code.perm r.1)
                ∧ ((∀ r ∈ c.reads ++ c.writes, r.1 + r.2 ≤ e.g.grant) →
                  (e.gateOf x = none → fails Code.illegalOperand 0)
                    ∧ ∀ gate, e.gateOf x = some gate →
                      pushes i e0 s { c with gate := gate, tok := if x.spec.getLsbD 0 then some x.compl.idx.toNat else none })))
    ∧ (∀ (x : PlainOp) (s : State) (e0 : Env), s.begins (.mxswp x) x.ctl = some e0 →
      let e := e0.inside (.mxswp x)
      e.act ≠ [] → pushes (.mxswp x) e0 s (e.mxBare .swp none))
    ∧ (∀ (x : MxtokOp) (s : State) (e0 : Env), s.begins (.mxtok x) x.ctl = some e0 →
      let e := e0.inside (.mxtok x)
      e.act ≠ [] → pushes (.mxtok x) e0 s (e.mxBare .tok (some x.d.idx.toNat)))
    ∧ ∀ (x : PlainOp) (s : State) (e0 : Env), s.begins (.opfence x) x.ctl = some e0 →
      let e := e0.inside (.opfence x)
      ∃ t, exec (.opfence x) s = .next t ∧ e.elsewhere s t ∧ e.passes t ∧ e.idle t ∧ t.mach.mem = s.mach.mem
        ∧ (e.act ≠ [] → (e.now t).stsSince = [])

/-- R102, R280, R294 to R300: the command at the head of a core's matrix queue executes whole: MXLDS loads the shadow plane by
rows or transposed, MXSWP exchanges the planes, MXZERO clears its region, MXLDA loads it and MXRD stores it as FP32 or rounded
to BF16, MXMUL leaves in each element of its region the products of its row and column summed as R102 says, over +0 or the
element before; MXTOK writes the group's status and clears it. No other accumulator changes, and none but MXLDS and MXSWP
changes a plane. A command's own status goes to its token and, where the group has none, to the group's.
The model's choices here: log 18 (DESIGN CHOICE). -/
def Obligations.MatrixExecution : Prop :=
  ∀ (s : State) (core : Nat) (c : MxCmd) (rest : List MxCmd) (g : Group), (s.mach.core core).mxQ = c :: rest → c.gate = none →
    s.mach.group c.gid = some g →
    let k := s.mach.core core
    ∃ t, exec (.matrixCommandExecute core) s = .next t ∧ t.plat = s.plat ∧ t.agenda = s.agenda ∧ (t.mach.core core).mxQ = rest
      ∧ (c.op = .swp → (t.mach.core core).active = k.shadow ∧ (t.mach.core core).shadow = k.active ∧ (t.mach.core core).acc = k.acc)
      ∧ (∀ w, c.op = .tok → c.tok = some w → ∀ v, g.wave c.wave = some v → v.live ≠ [] →
        (t.mach.wave c.gid c.wave).map (fun v => v.cur (.w w)) = some g.mxStatus ∧ (t.mach.group c.gid).map (·.mxStatus) = some 0)
      ∧ (c.n ≤ 32 → c.op = .zero → ∀ a, mgetD (t.mach.core core).acc a 0 =
        if ∃ r < c.m, ∃ n < c.n, a = c.e + 32 * r + n then 0 else mgetD k.acc a 0)
      ∧ (c.op ≠ .swp → (t.mach.core core).active = k.active ∧ ((∀ tr, c.op ≠ .lds tr) → (t.mach.core core).shadow = k.shadow))
      ∧ ((∀ a, c.op ≠ .mul a) → (∀ b, c.op ≠ .lda b) → c.op ≠ .zero → (t.mach.core core).acc = k.acc)
      ∧ (∀ w, c.op ≠ .tok → (∀ b, c.op ≠ .rd b) → c.tok = some w → ∀ v, g.wave c.wave = some v → v.live ≠ [] →
        let status : Word := if c.lost then BitVec.ofNat 32 Code.barrierCount else 0
        (t.mach.wave c.gid c.wave).map (fun v => v.cur (.w w)) = some status
          ∧ (t.mach.group c.gid).map (·.mxStatus) = some (if g.mxStatus = 0 then status else g.mxStatus))
      ∧ (∀ tr, c.op = .lds tr → c.raced = false → ∀ i < 32, ∀ j < 32, ∀ a, a = (if tr then 32 * j + i else 32 * i + j) →
        mgetD (t.mach.core core).shadow a 0 = BitVec.ofNat 16 ((s.mach.spadByte g (c.place i (2 * j))).toNat
          + 256 * (s.mach.spadByte g (c.place i (2 * j) + 1)).toNat))
      ∧ (∀ bf, c.n ≤ 32 → c.op = .lda bf → c.raced = false →
        let byte (r b : Nat) : Nat := (s.mach.spadByte g (c.place r (b / 16 * 16) + b % 16)).toNat
        (∀ r < c.m, ∀ n < c.n, mgetD (t.mach.core core).acc (c.e + 32 * r + n) 0 = BitVec.ofNat 32
          (if bf then (byte r (2 * n) + 256 * byte r (2 * n + 1)) * 2 ^ 16
            else byte r (4 * n) + 2 ^ 8 * byte r (4 * n + 1) + 2 ^ 16 * byte r (4 * n + 2) + 2 ^ 24 * byte r (4 * n + 3)))
          ∧ ∀ a, (¬ ∃ r < c.m, ∃ n < c.n, a = c.e + 32 * r + n) → mgetD (t.mach.core core).acc a 0 = mgetD k.acc a 0)
      ∧ (∀ bf, c.op = .rd bf → c.raced = false → g.units.Nodup →
        let es := if bf then 2 else 4
        let at' (r b : Nat) : Nat := c.place r (b / 16 * 16) + b % 16
        (∀ r < c.m, ∀ b < es * c.n, at' r b < g.grant ∧ g.clobbers (at' r b) 1 = false) →
        (∀ r < c.m, ∀ b < es * c.n, ∀ r' < c.m, ∀ b' < es * c.n, at' r b = at' r' b' → r = r' ∧ b = b') →
        (∀ r < c.m, ∀ n < c.n, ∀ i < es,
          let v := (mgetD k.acc (c.e + 32 * r + n) 0).toNat
          t.mach.spadByte g (at' r (es * n + i)) = (leBytes es (if bf then ((fp32.val v).round bf16 .rn).bits else v)).getD i 0)
          ∧ ∀ p, (∀ r < c.m, ∀ b < es * c.n, p ≠ (g.core, g.spadPhys (at' r b))) → t.spad p = s.spad p)
      ∧ (∀ first, c.n ≤ 32 → c.op = .mul (!first) → c.raced = false → 0 < c.k →
        let at' (r j : Nat) : Nat := s.mach.spadByte g (c.place r (2 * j)) |>.toNat
        let hi (r j : Nat) : Nat := s.mach.spadByte g (c.place r (2 * j) + 1) |>.toNat
        (∀ r < c.m, ∀ n < c.n, mgetD (t.mach.core core).acc (c.e + 32 * r + n) 0 =
          BitVec.ofNat 32 (mxSum (if first then 0 else (mgetD k.acc (c.e + 32 * r + n) 0).toNat)
            ((List.range c.k).map fun j => (at' r j + 256 * hi r j, (mgetD k.active (32 * j + n) 0).toNat))))
          ∧ ∀ a, (¬ ∃ r < c.m, ∃ n < c.n, a = c.e + 32 * r + n) → mgetD (t.mach.core core).acc a 0 = mgetD k.acc a 0)

/-- R307, R308, R314, R316: RAYQ and BEAMQ check their operands in order and then stand in their core's ray queue, the results or
the token pending. RAY_QUERY_EXECUTE writes D to D+3 of every ray when all have ended; BEAM_QUERY_EXECUTE ends a query whose
record R316 turns away with ILLEGAL_OPERAND, and else writes the token by the precedence of R314 when the beam has ended.
The model's choices here: log 18 (DESIGN CHOICE), log 37 (DEDUCED). -/
def Obligations.RayQueries : Prop :=
  (∀ (x : AsyncOp) (s : State) (e0 : Env), s.begins (.rayq x) x.ctl = some e0 →
      let e := e0.inside (.rayq x)
      let rs := e.all.map fun l => e.ray x l
      let keys := rs.flatMap fun r => (List.range 4).map fun k => RKey.v r.lane (x.d.idx.toNat + k)
      e.act ≠ [] →
        (e.m.quotaOk e.asid (672 + e.core) 1 = false → e.traps s (.rayq x) e.act Code.quota 6 0)
          ∧ (e.m.quotaOk e.asid (672 + e.core) 1 = true →
            ∃ t, exec (.rayq x) s = .next t ∧ t.plat = s.plat ∧ t.agenda = s.agenda
            ∧ e.passes t ∧ e.idle t ∧ (e.now t).pend = e.w.pend ++ keys ∧ (e.now t).cmdPend = e.w.cmdPend ++ keys
            ∧ (s.mach.spills e.asid (672 + e.core) 1 = 0 → e.elsewhere s t ∧ t.mach.mem = s.mach.mem
              ∧ (t.mach.core e.core).rayQ = (s.mach.core e.core).rayQ
                ++ [⟨s.mach.nextId, e.iss.gid, e.iss.wave, .rays x.d.idx.toNat rs, none, false, e.system⟩])))
    ∧ (∀ (x : AsyncOp) (s : State) (e0 : Env), s.begins (.beamq x) x.ctl = some e0 →
      let e := e0.inside (.beamq x)
      let i : Instr := .beamq x
      let off := (e.get e.first x.a).toNat
      let tok := x.compl.idx.toNat
      let fails (code info addr : Nat) : Prop := e.traps s i e.act code info (BitVec.ofNat 64 addr)
      e.act ≠ [] →
        (off % 128 ≠ 0 → fails Code.align 0 off)
          ∧ (off % 128 = 0 → e.g.grant < off + 128 → fails Code.perm 0 off)
          ∧ (off % 128 = 0 → off + 128 ≤ e.g.grant →
            ((e.g.task.flvl ≠ 0 ∨ e.gateOf x = none) → fails Code.illegalOperand 0 0)
              ∧ ∀ gate, e.g.task.flvl = 0 → e.gateOf x = some gate →
                (tok ∈ e.w.toks → fails Code.tokenReuse tok 0)
                  ∧ (tok ∉ e.w.toks → e.m.quotaOk e.asid (672 + e.core) 1 = false → fails Code.quota 6 0)
                  ∧ (tok ∉ e.w.toks → e.m.quotaOk e.asid (672 + e.core) 1 = true →
                    (e.m.quotaOk e.asid (e.core / 4) 1 = false → fails Code.quota 0 0)
                      ∧ (e.m.quotaOk e.asid (e.core / 4) 1 = true →
                        (e.m.flushHeld e.core e.asid = true → e.held s i)
                          ∧ (e.m.flushHeld e.core e.asid = false →
                            ∃ t, exec i s = .next t ∧ t.plat = s.plat ∧ t.agenda = s.agenda
                            ∧ e.passes t ∧ e.idle t ∧ e.takes t tok []
                            ∧ (s.mach.spills e.asid (672 + e.core) 1 = 0 → ∃ b, (t.mach.core e.core).rayQ = (s.mach.core e.core).rayQ
                                ++ [⟨s.mach.nextId, e.iss.gid, e.iss.wave, .beam b, none, false, e.system⟩]
                              ∧ b.off = off ∧ b.tok = tok ∧ b.gate = gate ∧ b.beam = none ∧ b.frame = e.g.frames.getD e.w.depth 0))))))
    ∧ (∀ (s : State) (core dst : Nat) (rs rs' : List RayState) (c : RayCmd) (g : Group) (m : Mach) (w : Wave),
      s.mach.rayHead core = some c → c.op = .rays dst rs → s.mach.group c.gid = some g → s.mach.solvent g.task.allot.toNat = true → m.wave c.gid c.wave = some w → w.live ≠ [] →
      ((∀ r ∈ rs, r.done = true) ∧ m = s.mach ∧ rs' = rs ∨ Mach.raysRun core c.id { g with system := c.system } rayFuel s.mach rs = .done m rs') →
      (rs'.map (·.lane)).Nodup → dst + 4 ≤ 256 →
      let keys := rs'.flatMap fun r => (List.range 4).map fun k => RKey.v r.lane (dst + k)
      ∃ t v, exec (.rayQueryExecute core) s = .next t ∧ t.plat = s.plat ∧ t.agenda = s.agenda ∧ t.mach.mem = m.mem
        ∧ (t.mach.core core).rayQ = (m.core core).rayQ.filter (fun d => d.id != c.id) ∧ t.mach.wave c.gid c.wave = some v
        ∧ (∀ r ∈ rs', ∀ k < 4, v.cur (.v r.lane (dst + k)) = r.result.getD k 0)
        ∧ (∀ k, k.ok → k ∉ keys → v.cur k = w.cur k) ∧ v.pend = w.pend.filter fun k => !keys.contains k)
    ∧ ∀ (s : State) (core : Nat) (b : BeamState) (c : RayCmd) (g : Group) (w : Wave), s.mach.rayHead core = some c → c.op = .beam b →
      s.mach.group c.gid = some g →
      (b.raced = true → s.mach.wave c.gid c.wave = some w → w.live ≠ [] → ∃ t v, exec (.beamQueryExecute core) s = .next t
        ∧ t.plat = s.plat ∧ t.agenda = s.agenda ∧ t.mach.wave c.gid c.wave = some v ∧ b.tok ∉ v.toks ∧ ∀ k, k ≠ .w b.tok → v.cur k = w.cur k)
      ∧ (b.raced = false →
      let q := b.beam.getD (BeamRec.ofBytes (s.mach.spadRead g b.off 128))
      (b.beam = none → (q.bad = true ∨ q.coneOk = false) → s.mach.wave c.gid c.wave = some w → w.live ≠ [] →
          ∃ t v, exec (.beamQueryExecute core) s = .next t ∧ t.plat = s.plat ∧ t.agenda = s.agenda ∧ t.mach.mem = s.mach.mem
            ∧ (t.mach.core core).rayQ = (s.mach.core core).rayQ.filter (fun d => d.id != c.id) ∧ t.mach.wave c.gid c.wave = some v
            ∧ v.cur (.w b.tok) = BitVec.ofNat 32 Code.illegalOperand ∧ b.tok ∉ v.toks ∧ ∀ k, k ≠ .w b.tok → v.cur k = w.cur k)
        ∧ ∀ m b' code, (b.beam.isSome ∨ q.bad = false ∧ q.coneOk = true) → s.mach.solvent g.task.allot.toNat = true → m.wave c.gid c.wave = some w → w.live ≠ [] →
          Mach.beamRun core (.ray core c.id 64) { g with system := c.system } q rayFuel s.mach (if b.beam.isSome then b else
            { b with beam := some q, stack := [(q.rect, q.start, none)], gate := b.gate.filter (·.gone) }) = .done m (b', code) →
          ∃ t v, exec (.beamQueryExecute core) s = .next t ∧ t.plat = s.plat ∧ t.agenda = s.agenda ∧ t.mach.mem = m.mem
            ∧ t.mach.wave c.gid c.wave = some v ∧ v.cur (.w b'.tok) = b'.status code ∧ b'.tok ∉ v.toks)

/-- R224 to R230: a sampler instruction reads its descriptors, which raise ILLEGAL_OPERAND where R225 or R226 reserves a field,
then its texels, and its results are on their way: a filtered sample for SMP, SMPL and SMPG, a component of four texels
for GTH4, one texel for TLD, zeros outside the image; IST stores a texel as ST would.
The model's choices here: log 17 (DESIGN CHOICE), log 63 (DEDUCED). -/
def Obligations.SamplerInstructions : Prop :=
  let desc (e : Env) (x : AsyncOp) (ls : List Nat) (useE : Bool) (m : Mach) (img : Img) (smp : Smp) : Prop :=
    ∃ m1 v1 ib, e.texBytes e.m 32 (ls.map fun l => (l, [(e.getSrc (ls.headD 0) x.b 2).toNat])) = .ok m1 v1 [] ∧ texFirst v1 = some ib
      ∧ Img.ofBytes ib = some img
      ∧ (img.dim = 0 ∨ x.a.idx.toNat + 3 ≤ e.w.base + e.w.ext ∧ e.late (ls.map fun l => x.a.key l 2) = none)
      ∧ (useE = false → m = m1 ∧ smp = ⟨false, 0, 0, 0, 0, false, false, 0, 0, 0⟩)
      ∧ (useE = true → ∃ v2 sb, e.texBytes m1 16 (ls.map fun l => (l, [(e.getPair (ls.headD 0) x.e).toNat])) = .ok m v2 []
        ∧ texFirst v2 = some sb ∧ Smp.ofBytes sb = some smp)
  let rule (i : Instr) (x : AsyncOp) (useE : Bool) (plan : Env → Img → Smp → Nat → Option (List Tap))
      (mix : Img → Smp → List Tap → (Nat → List Byte) → List Nat) : Prop :=
    ∀ (s : State) (e : Env), s.begins i x.ctl = some e →
      (e.all = [] → ∃ t, exec i s = .next t ∧ e.quiet s t ∧ e.passes t ∧ e.steady t ∧ e.idle t)
        ∧ (∀ m1 v1 ib, e.all ≠ [] → e.texBytes e.m 32 ((e.ordered e.all).map fun l => (l, [(e.getSrc ((e.ordered e.all).headD 0) x.b 2).toNat])) = .ok m1 v1 [] →
          texFirst v1 = some ib → Img.ofBytes ib = none → e.trapsIn m1 s i e.named Code.illegalOperand 0 0)
        ∧ ∀ (m : Mach) (img : Img) (smp : Smp) (taps : Nat → List Tap) (m' : Mach) (vals : List (Nat × Option (List (Nat × List Byte)))), e.all ≠ [] → desc e x (e.ordered e.all) useE m img smp → (∀ l ∈ e.all, plan e img smp l = some (taps l)) →
          e.texBytes m img.tb ((e.ordered e.all).map fun l => (l, tapVas (taps l))) = .ok m' vals [] →
          let out (l : Nat) : List Nat := match (vals.lookup l).getD none with
            | some bs => mix img smp (taps l) fun va => (bs.lookup va).getD []
            | none => [0, 0, 0, 0]
          exec i s = .next (s.ended e i x.ctl
            (e.later m' ((e.ordered e.all).reverse.flatMap fun l => wordWrites x.d l ((out l).map (BitVec.ofNat 32))) [] []) e.lanes)
  let at' (e : Env) (x : AsyncOp) (l p k : Nat) : Nat := (e.w.getI e.clk (if l - l % 4 + p ∈ e.all then l - l % 4 + p else l) x.a k).toNat
  let sub (a b : Nat) : Nat := (fSub fp32 .rn a b).bits
  let texel (e : Env) (x : AsyncOp) (img : Img) (l : Nat) : Option Nat :=
    let c := e.coords x l
    let lv := (e.get l x.f).toNat
    let z := if img.dim = 0 then 0 else c.getD 2 0
    if lv < img.levels ∧ c.getD 0 0 < img.wl lv ∧ c.getD 1 0 < img.hl lv ∧ z < img.dl lv
      then some (img.texel lv (c.getD 0 0) (c.getD 1 0) z) else none
  ∀ x : AsyncOp,
    rule (.smp x) x true (fun e img smp l =>
        let dx (k : Nat) : Nat := sub (at' e x l (l % 4 ||| 1) k) (at' e x l (l % 4 &&& 2) k)
        let dy (k : Nat) : Nat := sub (at' e x l (l % 4 ||| 2) k) (at' e x l (l % 4 &&& 1) k)
        img.taps smp (log2Rho img [dx 0, dx 1, dy 0, dy 1]) (e.coords x l)) (fun img smp => img.blend smp)
      ∧ rule (.smpl x) x true (fun e img smp l => img.taps smp (some (e.get l x.f).toNat) (e.coords x l)) (fun img smp => img.blend smp)
      ∧ rule (.smpg x) x true (fun e img smp l =>
        img.taps smp (log2Rho img ((List.range 4).map fun k => (e.w.getI e.clk l x.f k).toNat)) (e.coords x l))
        (fun img smp => img.blend smp)
      ∧ rule (.gth4 x) x true (fun e img smp l =>
        match (exactSum .rn [fp32.val (e.get l x.f).toNat, .fin false 1 (-1)]).1.floor with
        | none => none
        | some k =>
          let lv := min k.toNat (img.levels - 1)
          if k < 0 then none else
          let c := e.coords x l
          match linearAt (c.getD 0 0) (img.wl lv), linearAt (c.getD 1 0) (img.hl lv),
              (match img.dim with | 0 => some 0 | 1 => layerOf (c.getD 2 0) (img.dl lv) | _ => none) with
          | some (i, _), some (j, _), some z => some [img.tap smp lv 0 i j z, img.tap smp lv 0 (i + 1) j z, img.tap smp lv 0 i (j + 1) z,
              img.tap smp lv 0 (i + 1) (j + 1) z]
          | _, _, _ => none)
        (fun img smp taps bytes => taps.map fun t => match t.t with
          | .at' va => (img.comps (bytes va)).getD (x.imm8b.toNat % 4) 0
          | .border => if smp.border then one32 else 0)
      ∧ rule (.tld x) x false (fun e img _ l => some ((texel e x img l).toList.map fun va => ⟨0, .at' va⟩))
        (fun img _ taps bytes => match taps with
          | ⟨_, .at' va⟩ :: _ => img.comps (bytes va)
          | _ => [0, 0, 0, 0])
      ∧ ∀ (s : State) (e0 : Env), s.begins (.ist x) x.ctl = some e0 →
        let e := e0.inside (.ist x)
        (e.act = [] → ∃ t, exec (.ist x) s = .next t ∧ e.elsewhere s t ∧ e.passes t ∧ e.idle t ∧ t.mach.mem = s.mach.mem)
          ∧ ∀ m img smp cls bad m', e.act ≠ [] → desc e x (e.ordered e.act) false m img smp →
            let rq := (e.ordered e.act).filterMap fun l => (texel e x img l).map fun va => (l, va)
            let data (l : Nat) : List Byte := img.store ((List.range 4).map fun k => (e.w.getI e.clk l x.d k).toNat)
            e.checkAll m .store 0 img.tb true rq = .ok cls bad → e.storeHeld cls rq img.tb data = false →
            e.storeAll (e.suppress (m.usedWalks e.core e.asid) bad) cls rq data .norm = .done m' e.lanes →
            exec (.ist x) s = .next (s.ended e0 (.ist x) x.ctl m' e.lanes)

/-- R245 to R249, R321: FST writes its thread's bytes into the granule its task fills and nowhere else; FILLC commits that
granule and holds the wave's threads until it is published, FILLX aborts it, and either raises GEN_WRITE outside a fill;
GRVINV drops the generated lines of a range of a grove from every cache but the instruction caches, ATLBINV cached translations
and grove entries. -/
def Obligations.GroveInstructions : Prop :=
  (∀ (x : MemOp) (s : State) (e0 : Env), s.begins (.fst x) x.ctl = some e0 →
      let e := e0.inside (.fst x)
      let n := x.size.bytes
      let checks := e.judge (fun _ => false) ((e.ordered e.act).map fun l => (l, e.fstChk (e.addr x l) n))
      e.act ≠ [] →
        (∀ a, checks = .walk a → e.waitsFor s (.fst x) (.walk a))
          ∧ (∀ ls code addr, checks = .trap ls code addr → e.refuses s (.fst x) ls code addr)
          ∧ ∀ cls bad ws w, checks = .ok cls bad → e.g.fillWs = some ws → mget s.mach.ways ws = some w →
            ∃ t w', exec (.fst x) s = .next t ∧ e.elsewhere s t ∧ e.passes t ∧ e.idle t ∧ t.mach.mem = s.mach.mem ∧ t.mach.llc = s.mach.llc
              ∧ mget t.mach.ways ws = some w' ∧ { w' with copy := w.copy } = w
              ∧ (∀ k, k ≠ ws → mget t.mach.ways k = mget s.mach.ways k)
              ∧ (∀ a, (∀ l ∈ e.act, ∀ j < n, a ≠ e.addr x l - w.va + j) → mgetD w'.copy a 0 = mgetD w.copy a 0)
              ∧ ∀ l ∈ e.act, ∀ j < n, (∀ k ∈ e.act, k ≠ l → ∀ q < n, e.addr x k - w.va + q ≠ e.addr x l - w.va + j) →
                mgetD w'.copy (e.addr x l - w.va + j) 0 = (e.bytesOf l x.c x.size).getD j 0)
    ∧ (∀ (i : Instr) (c : Ctl) (s : State) (e0 : Env), ((∃ x, i = .fillc x ∧ c = x.ctl) ∨ ∃ x, i = .fillx x ∧ c = x.ctl) →
      s.begins i c = some e0 →
      let e := e0.inside i
      (e.act ≠ [] → e.g.task.flvl = 0 → e.traps s i e.act Code.genWrite 0 0)
        ∧ ((e.act = [] ∨ e.g.task.flvl ≠ 0 ∧ e.g.decided = true) →
          ∃ t, exec i s = .next t ∧ e.elsewhere s t ∧ e.passes t ∧ e.idle t ∧ t.mach.ways = s.mach.ways ∧ t.mach.mem = s.mach.mem)
        ∧ ∀ ws w, e.act ≠ [] → e.g.task.flvl ≠ 0 → e.g.decided = false → e.g.fillWs = some ws → mget s.mach.ways ws = some w →
          (∀ x, i = .fillc x → ∃ t, exec i s = .next t ∧ e.elsewhere s t ∧ e.passes t ∧ e.idle t ∧ t.mach.mem = s.mach.mem
              ∧ mget t.mach.ways ws = some { w with state := .commit } ∧ (t.mach.group e.iss.gid).map (·.decided) = some true
              ∧ ∀ l, l < 64 → (e.w.lane l).st = .live → ((e.now t).lane l).wait = if (e.w.lane l).wait = .none then .fillc else (e.w.lane l).wait)
            ∧ (∀ x, i = .fillx x → w.waiters = [] → ∃ t, exec i s = .next t ∧ e.elsewhere s t ∧ e.passes t ∧ e.idle t ∧ t.mach.mem = s.mach.mem
              ∧ t.mach.ways = mdel s.mach.ways ws ∧ (t.mach.group e.iss.gid).map (·.decided) = some true)
            ∧ ∀ x, i = .fillx x → exec i s =
              .next (s.ended e0 i c ((e.updG e.m fun g => { g with decided := true }).abortFill ws x.n.toNat) e.lanes))
    ∧ (∀ (x : GrvinvOp) (s : State) (e0 : Env), s.begins (.grvinv x) x.ctl = some e0 →
      let e := e0.inside (.grvinv x)
      let va := (e.getPair e.first x.a).toNat
      let fails (code addr : Nat) : Prop := e.traps s (.grvinv x) e.act code 0 (BitVec.ofNat 64 addr)
      -- no page of another class than a grove's lies at the sector or line of a key
      let grove (m : Mach) (p k : Nat) : Prop :=
        ∀ y, ((m.l1Flush e.core e.asid).translate e.asid (p % (2 ^ 48 / k) * k)).2 = some y → y.cls = 1
      e.act ≠ [] →
        ((e.m.groveAt e.asid va).2 = none → fails Code.page va)
          ∧ ∀ m k g, e.m.groveAt e.asid va = (m, some (k, g)) →
            let n := if x.all then g.size else (e.getSrc32 e.first x.b).toNat
            let base := va / 2 ^ n * 2 ^ n
            ((n < g.lg ∨ g.size < n) → fails Code.illegalOperand 0)
              ∧ (g.lg ≤ n → n ≤ g.size → m.flushHeld e.core e.asid = false → ∃ t, exec (.grvinv x) s = .next t ∧ t.plat = s.plat
                ∧ t.agenda = s.agenda ∧ e.passes t ∧ e.idle t
                ∧ (∀ p, secKey e.asid base ≤ p → p < secKey e.asid base + (2 ^ n + 31) / 32 →
                  (∀ x, mget t.mach.llc p = some x → x.generated = false)
                  ∧ (grove m p 32 → ∀ c, mget (t.mach.core c).const p = none ∧ mget (t.mach.core c).texel p = none ∧ mget (t.mach.core c).tile p = none))
                ∧ (∀ p, lineKey e.asid base ≤ p → p < lineKey e.asid base + (2 ^ n + 63) / 64 → t.mach.victim.lookup p = none
                  ∧ (grove m p 64 → ∀ c bs, mget (t.mach.core c).l1 p = some bs → l1Dirty bs = true))
                ∧ ∀ ws w, mget s.mach.ways ws = some w → mget t.mach.ways ws =
                  some (if w.asid = e.asid ∧ w.grove = k ∧ w.va < base + 2 ^ n ∧ base < w.va + 2 ^ w.lg then { w with stale := true } else w)))
    ∧ ∀ (x : AtlbinvOp) (s : State) (e0 : Env), s.begins (.atlbinv x) x.ctl = some e0 →
      let e := e0.inside (.atlbinv x)
      let asid : BitVec 16 := (e.get e.first x.b).setWidth 16
      let hit (a : BitVec 16) (vpn size : Nat) : Bool := match x.scope with
        | .page => a == asid && covers vpn size (e.getPair e.first x.a).toNat
        | .asid => a == asid
        | .all => true
      ∃ t, exec (.atlbinv x) s = .next t ∧ e.elsewhere s t ∧ e.passes t ∧ e.idle t ∧ t.mach.mem = s.mach.mem ∧ t.mach.llc = s.mach.llc
        ∧ (e.act ≠ [] → t.mach.trans = (s.mach.trans.map fun p => (p.1, p.2.filter fun t => !hit t.asid t.vpn t.size)).filter (fun p => !p.2.isEmpty)
          ∧ (x.scope ≠ .page → ∀ k, (x.scope = .asid → k / 1024 = asid.toNat) → mget t.mach.groveCache k = none)
          ∧ ∀ c, (t.mach.core c).tlb = (s.mach.core c).tlb.filter fun t => !hit t.asid t.vpn t.size)

/-! ## Steps of other agents -/

/-- R177, R189, R207, R232, R235 to R237, R243, R246: what a missed line of a grove, or a prefetched one, goes through.
The model's choices here: log 6 (DESIGN CHOICE), log 42 (DESIGN CHOICE). -/
def Obligations.MissEvents : Prop :=
  (∀ (s : State) (asid : BitVec 16) (va : DWord) (p : BitVec 16 × Nat × Nat) (y : TransEntry),
      let line := va.toNat / 64 * 64
      s.mach.prefetch.find? (fun p => p.1 == asid && p.2.1 == line) = some p → s.mach.solvent p.2.2 = true →
      line < 2 ^ 48 → mget s.mach.llc (secKey asid line) = none → mget s.mach.llc (secKey asid (line + 32)) = none →
      s.mach.cachedTrans asid line = some y → y.cls = 0 → y.pa line < gddrTop → s.mach.remap = [] →
      (s.mach.llcMates (lineKey asid line)).length < 16 → s.mach.rel.allOk = true → s.mach.rel.flips = [] → s.mach.rel.bad = [] →
      s.mach.lockedRange asid line 64 = false →
      ∃ t, exec (.llcMiss asid va) s = .next t ∧ t.plat = s.plat ∧ t.agenda = s.agenda ∧ t.mach.mem = s.mach.mem
        ∧ t.mach.prefetch = s.mach.prefetch.erase p ∧ t.mach.groups = s.mach.groups
        ∧ ∃ a, mget t.mach.llc (secKey asid line) = some a ∧ ∀ j < 32, a.bytes.getD j 0 = cellGet s.mach.mem (y.pa line + j))
    ∧ (∀ (s : State) (n : Nat) (q : GroveReq) (m : Mach), s.mach.reqs.find? (fun q => q.id == n) = some q →
      (∀ k, q.stage = .missed → s.mach.groveAt q.asid q.va = (m, some k) →
          exec (.groveMiss n) s = .next { s with mach := m.setReq { q with stage := .probing } })
        ∧ (q.stage = .missed → s.mach.groveAt q.asid q.va = (m, none) →
          exec (.groveMiss n) s = .next { s with mach := m.refuseReq q Code.page 0 (q.va / 4096 * 4096) 4096 })
        ∧ (q.stage = .held → s.mach.locked q.asid q.va none = false →
          exec (.groveMiss n) s = .next { s with mach := s.mach.retryReq q })
        ∧ (∀ v bs, q.stage = .probing → s.mach.victimGet (lineKey q.asid (q.va / 64 * 64)) = (v, some bs) →
          (∃ gid wave loud quiet, q.who = .entry gid wave loud quiet) → (s.mach.llcMates (lineKey q.asid q.va)).length < 16 →
          ∃ t, exec (.victimStoreProbeResult n) s = .next t ∧ t.plat = s.plat ∧ t.mach.mem = s.mach.mem
            ∧ t.mach.reqs = s.mach.reqs.filter (fun r => r.id != q.id)
            ∧ (mget t.mach.llc (secKey q.asid (q.va / 64 * 64))).map (fun x => (x.bytes, x.generated)) = some (bs.take 32, true)
            ∧ (mget t.mach.llc (secKey q.asid (q.va / 64 * 64 + 32))).map (fun x => (x.bytes, x.generated)) = some ((bs.drop 32).take 32, true))
        ∧ (∀ v i e, q.stage = .probing → s.mach.victimGet (lineKey q.asid (q.va / 64 * 64)) = (v, none) → v.groveAt q.asid q.va = (m, some (i, e)) →
          let g := e.granule q.va
          let start := e.base + g * 2 ^ e.lg
          let home := homeSlice q.asid start
          let out (x : Mach) : Prop := exec (.victimStoreProbeResult n) s = .next { s with mach := x }
          -- entries that a slice's waystations hold or the restore at hand waits for (R243)
          let places (k : Nat) : Nat := (m.waysOf k).length + (m.wanted k).1
          let waits (k : Nat) : Nat := m.waitersOf k + (m.wanted k).2
          let again : Prop := out (m.setReq { q with stage := .refused (m.clk + 256) })
          (e.malformed = true → out (m.refuseReq q Code.genAbort 0xF2 (q.va / 32 * 32) 32))
            ∧ (e.malformed = false → 0 < q.level → e.flvl ≤ q.level → out (m.refuseReq q Code.genOrder 0 start (2 ^ e.lg)))
            ∧ (e.malformed = false → (q.level = 0 ∨ q.level < e.flvl) →
              (∀ ws w, m.findWay q.asid i g = some (ws, w) →
                  (waits (ws / 64) ≤ waitersMax w.flvl → out (m.join q ws)) ∧ (waitersMax w.flvl < waits (ws / 64) → again))
                ∧ (m.findWay q.asid i g = none → ∀ c, m.ctxOf q.asid = some c →
                  (c.nestmax < e.flvl → out (m.refuseReq q Code.genDepth 0 start (2 ^ e.lg)))
                    ∧ (e.flvl ≤ c.nestmax → places home ≤ waysMax e.flvl → waits home ≤ waitersMax e.flvl → out (m.startFill q i e home))
                    ∧ (e.flvl ≤ c.nestmax → (waysMax e.flvl < places home ∨ waitersMax e.flvl < waits home) → again))))
        ∧ ∀ due gid wave loud quiet w, q.stage = .refused due → due ≤ s.mach.clk → q.who = .entry gid wave loud quiet → s.mach.wave gid wave = some w →
          ∃ t v, exec (.waystationRetry n) s = .next t ∧ t.plat = s.plat ∧ t.mach.mem = s.mach.mem ∧ t.mach.wave gid wave = some v
            ∧ t.mach.reqs = s.mach.reqs.filter (fun r => r.id != q.id)
            ∧ ∀ l ∈ w.live, (v.lane l).pc = (w.lane l).pc ∧ (v.lane l).wait =
              if (w.lane l).wait.awaits q.id then (w.lane l).wait.over q.id else (w.lane l).wait)
    ∧ ∀ (s : State) (ws : Nat) (w : Waystation), mget s.mach.ways ws = some w → w.state = .commit → w.stale = false → w.waiters = [] →
      6 ≤ w.lg → w.va % 64 = 0 → w.va + 2 ^ w.lg ≤ 2 ^ 48 →
      -- with the granule in it, no set of the LLC holds more than 16 lines
      (let full := { s.mach with llc := s.mach.llc ++ (List.range (2 ^ w.lg / 32)).map fun i =>
        (secKey w.asid (w.va + 32 * i), (⟨[], false, true, false, false, none⟩ : LlcSector)) }
        ∀ i < 2 ^ w.lg / 64, (full.llcMates (lineKey w.asid (w.va + 64 * i))).length ≤ 16) →
      ∃ t, exec (.granulePublished ws) s = .next t ∧ t.plat = s.plat ∧ t.mach.mem = s.mach.mem ∧ t.mach.ways = mdel s.mach.ways ws
        ∧ (∀ i < 2 ^ w.lg / 32, (mget t.mach.llc (secKey w.asid (w.va + 32 * i))).map (fun x => (x.bytes, x.generated)) =
          some ((List.range 32).map fun b => mgetD w.copy (32 * i + b) 0, true))
        ∧ ∀ gid g k v l, w.filler = some gid → s.mach.group gid = some g → g.wave k = some v → l ∈ v.live → (v.lane l).wait = .fillc →
          (t.mach.wave gid k).map (fun v => (v.lane l).wait) = some .none

/-- R40, R42, R44, R48 to R50, R236, R254, R255, R257: records are placed; a push spills to the ring's TAIL while its queue is
full or its ring holds entries, where a failing write is a context fault; spilled entries return from HEAD; groups that are over
end and parked ones resume.
The model's choices here: log 14 (DESIGN CHOICE), log 22 (DESIGN CHOICE), log 26 (DEDUCED). -/
def Obligations.PlacementEvents : Prop :=
  -- the core's L1 has nothing to write back, to a frame among other places
  let clean (s : State) (c : Nat) : Prop := ∀ p ∈ (s.mach.core c).l1, l1Dirty p.2 = false
  (∀ (s : State) (convoy c : Nat) (e : SpawnEntry), headSpawn (mgetD s.mach.spawnQ convoy []) = some e → e.task.parts = 1 →
      s.mach.hubChoice convoy e = some [c] → s.mach.framesFor e.asid 1 = true →
      (∀ x, s.mach.ctxOf e.asid = some x → x.frames + 128 * x.frameCount ≤ 2 ^ 48) →
      ∃ t g h, exec (.hubPlacement convoy) s = .next t ∧ t.plat = s.plat ∧ t.agenda = s.agenda ∧ t.mach.group s.mach.nextGid = some g
        ∧ g.asid = e.asid ∧ g.core = c ∧ g.task = unitTask e.task e.grid 0 ∧ g.launch = e.launch ∧ g.frames = [h]
        ∧ s.mach.frame e.asid h = none
        ∧ (clean s c → ∃ f, t.mach.frame e.asid h = some f ∧ f.count = 0 ∧ f.isOpen = true ∧ f.initial = true ∧ f.parent = e.task.link.toNat)
        ∧ mgetD t.mach.spawnQ convoy [] = match e.advance with
          | some e' => (mgetD s.mach.spawnQ convoy []).map fun x => if x.serial == e.serial then e' else x
          | none => (mgetD s.mach.spawnQ convoy []).filter fun x => x.serial != e.serial)
    ∧ (∀ (s : State) (core level h : Nat) (f : FillEntry) (gr : Grant) (w : Waystation) (m : Mach),
      let q := mgetD s.mach.fillQ (3 * core + (level - 1)) []
      headFill q = some f → s.mach.fitsFill core f.asid f.task = some gr → mget s.mach.ways f.ws = some w →
      s.mach.openFrame f.asid 0 0 true = some (m, h) →
      ∃ t g, exec (.fillTaskPlacement core level) s = .next t ∧ t.plat = s.plat ∧ t.agenda = s.agenda ∧ t.mach.group s.mach.nextGid = some g
        ∧ g.asid = f.asid ∧ g.core = core ∧ g.task = f.task ∧ g.fillWs = some f.ws ∧ g.frames = [h] ∧ g.launch = BitVec.ofNat 32 s.mach.nextLaunch
        ∧ mget t.mach.ways f.ws = some { w with state := .running, filler := some s.mach.nextGid, core := core }
        ∧ mgetD t.mach.fillQ (3 * core + (level - 1)) [] = q.filter fun e => e.serial != f.serial)
    ∧ (∀ (s : State) (asid : BitVec 16) (ring : Nat) (r : Ring) (x : DepotItem) (rest : List DepotItem) (m : Mach) (bs : List Byte),
      s.mach.ring asid ring = some r → r.items = x :: rest → s.mach.queueLen ring < queueDepth ring →
      s.mach.agentReadRun asid true 0 (r.base.toNat + r.head) (entryBytes ring) = .ok m bs →
      ∃ t, exec (.depotRefill asid ring) s = .next t ∧ t.plat = s.plat ∧ t.agenda = s.agenda
        ∧ t.mach.ring asid ring = some { r with head := (r.head + entryBytes ring) % 2 ^ r.logSize, used := r.used - entryBytes ring, items := rest }
        ∧ ∀ c, x = .porter c → 544 ≤ ring → (t.mach.core (ring - 544)).porterQ = (s.mach.core (ring - 544)).porterQ ++ [c])
    ∧ (∀ (m : Mach) (asid : BitVec 16) (ring : Nat) (r : Ring) (x : DepotItem), m.ring asid ring = some r →
      let spill : Prop := queueDepth ring ≤ m.queueLen ring ∨ r.used ≠ 0
      let at_ := r.base.toNat + r.tail
      let m' := m.push asid ring x
      (¬ spill → m' = m.enqueue ring x)
        ∧ (spill → m'.ring asid ring = some { r with
            tail := (r.tail + entryBytes ring) % 2 ^ r.logSize, used := r.used + entryBytes ring, items := r.items ++ [x] }
          ∧ (∀ k, k ≠ ringKey asid ring → mget m'.rings k = mget m.rings k)
          ∧ m'.queueLen ring = m.queueLen ring
          -- a write that fails: a context fault of ORIGIN 3, taken at the next boundary
          ∧ m'.ringFaults = m.ringFaults ++ (if m.ringBad asid at_ (entryBytes ring)
            then [(asid, ⟨BitVec.ofNat 32 Code.dataUncorrectable, 3, 0, BitVec.ofNat 64 at_, 0, ⟨0, 0, 0, 0, 0⟩, none⟩)] else [])))
    ∧ (∀ (s : State) (gid : Nat) (g : Group), s.mach.group gid = some g → g.over = true → (∀ h ∈ g.frames, s.mach.countOf g.asid h = 0) →
      s.mach.flushHeld g.core g.asid = false → g.task.succ = 0 → g.queue = none → g.fillWs = none →
      ∃ t, exec (.taskCompletion gid) s = .next t ∧ t.plat = s.plat ∧ t.agenda = s.agenda ∧ t.mach.group gid = none
        ∧ (∀ h ∈ g.frames, t.mach.frame g.asid h = none) ∧ (∀ c ∈ t.mach.consigns, c.gid ≠ gid)
        ∧ ∀ f p, clean s g.core → s.mach.frame g.asid (g.frames.headD 0) = some f → f.parent ≠ 0 → f.parent ∉ g.frames → s.mach.frame g.asid f.parent = some p →
          ∃ p', t.mach.frame g.asid f.parent = some p' ∧ p'.count = p.count - 1 ∧ p'.last = g.core ∧ p'.ready = (p.ready || p.count == 1)
            ∧ p'.sig = p.sig ||| g.frames.foldl (fun (x : Sig) h => x ||| ((s.mach.frame g.asid h).map (·.sig)).getD 0) g.sig)
    ∧ ∀ (s : State) (gid d n : Nat) (g : Group) (gr : Option Grant), s.mach.group gid = some g → g.gid = gid → g.meeting = some d → g.parked = true →
      let h := g.frames.getD d 0
      s.mach.countOf g.asid h = 0 → s.mach.resumeCore g (((s.mach.frame g.asid h).map (·.last)).getD g.core) = some (n, gr) →
      (gr.isSome → s.mach.movable g = true ∧ s.mach.flushHeld g.core g.asid = false) →
      ∃ t g', exec (.continuationResume gid) s = .next t ∧ t.plat = s.plat ∧ t.agenda = s.agenda ∧ t.mach.group gid = some g'
        ∧ g'.parked = false ∧ g'.core = (if gr.isSome then n else g.core) ∧ (0 < d → t.mach.frame g.asid h = none)
        ∧ ∀ k w, g.wave k = some w → ∃ v, g'.wave k = some v ∧ (∀ key, v.cur key = w.cur key)
          ∧ ∀ l ∈ w.live, (v.lane l).pc = (w.lane l).pc ∧ ((w.lane l).wait = .await → (v.lane l).wait = .none)

/-- R324, R359, R368 to R371: MAP answers its failures in STATUS and maps a context with no save area; UNMAP saves and releases
the slot once no prologue of it is in the midst of a run; SWITCH is both; a command that has to wait leaves STATUS at BUSY, and one
of a core that OWNER does not name is ignored; table words and PERIOD wait for the period boundary, which reloads the budgets; a charge
takes its units from its entry alone (entry 0 for an invalid one), a strict entry at zero denies it, and a slack-borrowing one is
served while no work with budget left has claimed the resource; ATLBINV drops translations and grove entries; the end of a halted context
drops all it has.
The model's choices here: log 10 (DESIGN CHOICE), log 40 (DESIGN CHOICE), log 42 (DESIGN CHOICE), log 61 (DEDUCED). -/
def Obligations.SwitchboardEvents : Prop :=
  -- a command that a core which OWNER names may start; the board while it is at hand, and when it has ended with a status
  let starts (s : State) (core slot : Nat) : Prop := core < 16 ∧ slot < 16 ∧ s.mach.board.command = none
    ∧ Config.ownerNames s.mach.board.owner (core / 4) = true
  let begun (s : State) (slot desc : Nat) (cmd : BoardCmd) : Mach :=
    { s.mach with board := { s.mach.board with slot := slot, desc := BitVec.ofNat 64 desc, command := some cmd, wants := [] } }
  let ended (m : Mach) (k : Nat) : Mach := { m with board := { m.board with command := none, wants := [], status := k } }
  (∀ (s : State) (core slot desc : Nat), starts s core slot →
      let m0 := begun s slot desc (.map slot desc)
      let ends (m : Mach) (k : Nat) : Prop := exec (.map ⟨core, slot⟩ desc) s = .next { s with mach := ended m k }
      let maps (m : Mach) : Prop := ends m.trimAll 0
      -- it stays at hand, for waystations and waiter entries
      let busy (w : List (Nat × Nat × Nat)) : Prop :=
        exec (.map ⟨core, slot⟩ desc) s = .next { s with mach := { m0 with board := { m0.board with wants := w } } }
      ((mget s.mach.ctxs slot).isSome → ends m0 5)
        ∧ (∀ m, mget s.mach.ctxs slot = none → m0.readDesc desc = (m, none) → ends m 1)
        ∧ ∀ m bs, mget s.mach.ctxs slot = none → m0.readDesc desc = (m, some bs) →
          let c := Ctx.ofDesc slot desc m.nextId bs
          let good : Prop := ctxDescOk bs = true ∧ m.ctxOf c.asid = none ∧ m.queues.length + c.queueCount ≤ 128
          (¬ good → ends m 1)
            ∧ (good → (m.setCtx c).readQueues c = none → ends m 1)
            ∧ ∀ m1 qs, good → (m.setCtx c).readQueues c = some (m1, qs) →
              ((∀ m' rs, m1.readRings c = some (m', rs) → ringsOk rs = false) → ends m 4)
                ∧ ∀ m' rs, m1.readRings c = some (m', rs) → ringsOk rs = true →
                  let room : Prop := c.nestmax = 3 → m.levels.contains 3 = true ∨ coreNums.all m.thirdFree = true
                  let ready : Mach := { m' with ctxs := m.ctxs, nextId := m.nextId + 1 }
                  let held := (ready.setCtx c).readSave s.plat.sec.restores c
                  (¬ room → busy [])
                    ∧ (room → held = .nothing → maps (ready.startFresh c rs qs))
                    ∧ (room → held = .broken → maps (ready.brokenSave c))
                    ∧ (∀ k, room → held = .refused k → ends ready k)
                    ∧ (∀ sv tv rec m'', room → held = .image sv tv rec → ready.restore c rs qs sv tv rec = some m'' → maps m'')
                    ∧ ∀ sv tv rec, room → held = .image sv tv rec → ready.restore c rs qs sv tv rec = none → busy sv.wants)
    ∧ (∀ (s : State) (core slot : Nat), starts s core slot →
      let m0 := begun s slot s.mach.board.desc.toNat (.unmap slot)
      (mget s.mach.ctxs slot = none → exec (.unmap ⟨core, slot⟩) s = .next { s with mach := ended m0 5 })
        ∧ (∀ m, (mget s.mach.ctxs slot).isSome → m0.unmapGo slot = some (m, false) → exec (.unmap ⟨core, slot⟩) s = .next { s with mach := m })
        ∧ ∀ c, mget s.mach.ctxs slot = some c → (∀ p ∈ s.mach.queues, p.2.running slot = false) →
          ∃ t, exec (.unmap ⟨core, slot⟩) s = .next t ∧ t.plat = s.plat ∧ t.agenda = s.agenda
          ∧ t.mach.board = { m0.board with command := none, status := 0 }
          ∧ mget t.mach.ctxs slot = none ∧ (∀ p ∈ t.mach.queues, p.2.slot ≠ slot)
          ∧ (c.faulted = false → (∃ v ∈ t.mach.saved, v.asid = c.asid ∧ v.save = c.save ∧ v.faulted = false)
            ∧ (∀ p ∈ t.mach.groups, p.2.asid ≠ c.asid) ∧ ∀ p ∈ t.mach.ways, p.2.asid ≠ c.asid))
    ∧ (∀ (s : State) (core slot desc : Nat), starts s core slot →
      let m0 := begun s slot desc (.swap slot desc false)
      let out (m : Mach) : Prop := exec (.switchContext ⟨core, slot⟩ desc) s = .next { s with mach := m }
      (mget s.mach.ctxs slot = none → out (ended m0 5))
        ∧ (∀ m, (mget s.mach.ctxs slot).isSome → m0.unmapGo slot = some (m, false) → out m)
        ∧ ∀ m, (mget s.mach.ctxs slot).isSome → m0.unmapGo slot = some (m, true) →
          (∀ x, m.mapCtx s.plat.sec.restores slot desc = .done x → out x)
            ∧ ∀ w, m.mapCtx s.plat.sec.restores slot desc = .wait w →
              out { m with board := { m.board with command := some (.swap slot desc true), wants := w } })
    ∧ (∀ (s : State) (core slot desc : Nat) (i : Instr),
      i = .map ⟨core, slot⟩ desc ∨ i = .unmap ⟨core, slot⟩ ∨ i = .switchContext ⟨core, slot⟩ desc → core < 16 → slot < 16 → s.mach.board.command = none →
      Config.ownerNames s.mach.board.owner (core / 4) = false → exec i s = .next s)
    ∧ (∀ (s : State) (slot desc : Nat) (x : Mach), s.clocked = true → s.mach.board.command = some (.map slot desc) →
      s.mach.mapCtx s.plat.sec.restores slot desc = .done x → s.turn .board = .next { s with mach := x })
    ∧ (∀ (s : State) (v : Nat),
      let b := s.mach.board
      let out (r : BoardReg) (b' : Board) : Prop :=
        exec (.switchboardRegisterWrite r v) s = .next { s with mach := { s.mach with board := b' } }
      out .desc { b with desc := BitVec.ofNat 64 v } ∧ out .slot { b with slot := v % 16 } ∧ out .owner { b with owner := v % 2 }
        ∧ (1 ≤ v ∧ v ≤ 1024 → out .period { b with staged := mput b.staged 512 (BitVec.ofNat 32 v) })
        ∧ (¬ (1 ≤ v ∧ v ≤ 1024) → out .period b)
        ∧ ∀ e w, e < 64 → w < 6 → out (.allotment e w) { b with staged := mput b.staged (e * 8 + w) (BitVec.ofNat 32 v) })
    ∧ (∀ (s : State), s.mach.periodStart + s.mach.board.period * 1000 ≤ s.mach.timeNs →
      ∃ t, exec .allotmentPeriodBoundary s = .next t ∧ t.plat = s.plat ∧ t.agenda = s.agenda
        ∧ t.mach.board.staged = [] ∧ t.mach.periodStart = s.mach.timeNs
        ∧ t.mach.board.period = (match mget s.mach.board.staged 512 with | some p => p.toNat | none => s.mach.board.period)
        ∧ (∀ p ∈ t.mach.allot, p.2.left = p.2.budgets)
        ∧ (s.mach.board.staged = [] → ∀ n a, mget s.mach.allot n = some a → mget t.mach.allot n = some { a with left := a.budgets }))
    ∧ (∀ (m₀ m : Mach) (n k units : Nat) (a : Allotment), mget m.allot (m.allotOf n) = some a → k < 5 → a.left.length = 5 → units ≠ 0 →
      let left := (a.left.getD k 0).toNat
      -- units that work with budget left, and that borrowing work, have had of the resource in this clk
      let borrowed := m₀.slack.getD k 0
      let claimed := m₀.used.unit k - m₀.clkUsed.unit k - borrowed
      (left = 0 → m₀.charge m n k units =
          if a.strict ∨ claimed ≠ 0 then none else some { m with slack := m.slack.set k (m.slack.getD k 0 + units) })
        ∧ (left ≠ 0 → borrowed ≠ 0 → m₀.charge m n k units = none)
        ∧ (left = 2 ^ 32 - 1 → borrowed = 0 → m₀.charge m n k units = some m)
        ∧ (left ≠ 0 → left ≠ 2 ^ 32 - 1 → borrowed = 0 → ∃ m' b, m₀.charge m n k units = some m' ∧ m' = { m with allot := m'.allot }
          ∧ (∀ j, j ≠ m.allotOf n → mget m'.allot j = mget m.allot j)
          ∧ mget m'.allot (m.allotOf n) = some b ∧ { b with left := a.left } = a ∧ b.left.length = 5
          ∧ ∀ j < 5, (b.left.getD j 0).toNat = if j = k then left - units else (a.left.getD j 0).toNat))
    ∧ (∀ (m : Mach) (n : Nat), (∀ a, mget m.allot n = some a → a.valid = false) → m.allotOf n = 0)
    ∧ (∀ (s : State) (scope : InvScope) (asid : BitVec 16) (va : DWord),
      let hit (a : BitVec 16) (vpn size : Nat) : Bool := match scope with
        | .page => a == asid && covers vpn size va.toNat
        | .asid => a == asid
        | .all => true
      ∃ t, exec (.atlbinvSwitchboard scope asid va) s = .next t ∧ t.plat = s.plat ∧ t.agenda = s.agenda ∧ t.mach.mem = s.mach.mem
        ∧ t.mach.llc = s.mach.llc ∧ t.mach.groups = s.mach.groups
        ∧ t.mach.trans = (s.mach.trans.map fun p => (p.1, p.2.filter fun t => !hit t.asid t.vpn t.size)).filter (fun p => !p.2.isEmpty)
        ∧ (scope ≠ .page → ∀ k, (scope = .asid → k / 1024 = asid.toNat) → mget t.mach.groveCache k = none)
        ∧ (∀ c, ∀ f ∈ (t.mach.core c).walks, scope ≠ .all ∧ f.asid ≠ asid)
        ∧ ∀ c, (t.mach.core c).tlb = (s.mach.core c).tlb.filter fun t => !hit t.asid t.vpn t.size)
    ∧ ∀ (s : State) (asid : BitVec 16),
      (∃ c, s.mach.ctxOf asid = some c ∧ c.faulted = true) ∨ (s.mach.ctxOf asid = none ∧ ∃ v ∈ s.mach.saved, v.asid = asid) →
      ∃ t, exec (.contextEnd asid) s = .next t ∧ t.plat = s.plat ∧ t.agenda = s.agenda ∧ t.mach.ctxOf asid = none
        ∧ (∀ v ∈ t.mach.saved, v.asid ≠ asid) ∧ (∀ d ∈ t.mach.consigns, d.asid ≠ asid) ∧ ∀ p ∈ t.mach.frames, p.1 / 2 ^ 48 ≠ asid.toNat

/-- R363 to R368, R411: a front end sees a new WIDX, reads the packet at hand and performs it: NOP, WRITE, SIGNAL, WAIT,
WRITE_SIGNAL, PFENCE, GROVE_INV and LAUNCH, with its prologue; a malformed packet stops its queue with BAD_PACKET.
The model's choices here: log 14 (DESIGN CHOICE), log 41 (DEDUCED). -/
def Obligations.PacketEvents : Prop :=
  -- the check of a SIGNAL's address, which needs W alone
  let sigCheck (op sig : Nat) (m : Mach) (asid : BitVec 16) := m.checkNow asid false (if op = 0 then .store else .atomic) 0 sig 8
  (∀ (s : State) (n : Nat) (q : Queue) (c : Ctx) (m : Mach) (bs : List Byte), mget s.mach.queues n = some q → s.mach.queueCtx q = some c →
      q.stopped = false → q.stage = .idle → s.mach.asking q.wait = false → s.mach.feRead n c.asid 0 q.widx 8 = .ok m bs → leNat bs ≠ q.seen →
      s.mach.solvent c.allot.toNat = true →
      let ahead := (m.answered (.packet n)).readAhead n c.asid { q with seen := leNat bs, wait := none }
      exec (.writeIndexObserved n) s = .next { s with mach := s.mach.billed (ahead.1.setQueue n ahead.2) c.allot.toNat }
        ∧ { ahead.2 with window := [] } = { q with seen := leNat bs, wait := none, window := [] }
        ∧ (∃ ps, ahead.2.window = q.window ++ ps) ∧ (q.window.length ≤ 16 → ahead.2.window.length ≤ 16)
        ∧ (q.window.length ≤ leNat bs - q.index → ahead.2.window.length ≤ leNat bs - q.index))
    ∧ (∀ (m : Mach) (n : Nat) (q : Queue) (c : Ctx) (status : Nat), mget m.queues n = some q → m.queueCtx q = some c →
      (status = 2 ∨ status = 5 → mget (m.packetEnd n status).queues n = some q.stop)
        ∧ (status = 0 → ∀ m', (m.answered (.packet n)).feWrite c.asid q.ridx (leBytes 8 (q.index + 1)) = some m' →
          mget (m.packetEnd n 0).queues n = some { q with
            index := q.index + 1, window := q.window.tail, stage := .idle, wait := none, run := 0, outstanding := 0, again := false, status := 0, pw := [], pcc := [] }))
    ∧ (∀ (s : State) (n : Nat) (m : Mach) (q : Queue) (c : Ctx) (p : Packet), s.packet n = some (m, q, c, p) →
      let runsTo (i : Instr) (x : Mach) : Prop := exec i s = .next { s with mach := s.mach.billed x c.allot.toNat }
      let acts : List (Nat × Instr) := [(0, .packetNop n), (1, .launch n), (2, .write n), (3, .signal n), (4, .wait n),
        (5, .writeSignal n), (6, .packetPfence n), (7, .groveInv n)]
      (7 < p.ty → runsTo (.packetNop n) (m.packetEnd n 2))
        ∧ (p.ok = false → ∀ i, (p.ty, i) ∈ acts → ∃ t, exec i s = .next t ∧ t.agenda = s.agenda
          ∧ t.mach = s.mach.billed (m.packetEnd n 2) c.allot.toNat)
        ∧ (p.ok = true →
          (p.ty = 0 → runsTo (.packetNop n) (m.packetEnd n 0))
          ∧ (p.ty = 2 → m.dwordsHeld c.asid (p.dword 8) p.args = true → exec (.write n) s = .next s.miss)
          ∧ (p.ty = 2 → m.dwordsHeld c.asid (p.dword 8) p.args = false →
            (∀ x, m.feWrite c.asid (p.dword 8) ((p.bs.drop 16).take (8 * p.args)) = some x → runsTo (.write n) (x.packetEnd n 0))
              ∧ (m.feWrite c.asid (p.dword 8) ((p.bs.drop 16).take (8 * p.args)) = none → runsTo (.write n) (m.packetEnd n 5)))
          ∧ (p.ty = 3 → m.agentHeld c.asid (p.dword 8) 8 = false → ∀ x r, sigCheck (p.args % 16) (p.dword 8) m c.asid = (x, r) →
            (∀ k, r ≠ .ok k) → runsTo (.signal n) (x.packetEnd n 5))
          ∧ (p.ty = 3 → m.agentHeld c.asid (p.dword 8) 8 = false → ∀ x k old z y,
            sigCheck (p.args % 16) (p.dword 8) m c.asid = (x, .ok k) → k ≠ 4 →
            -- a store reads nothing, an atomic the dword that stands there, in whichever class of page
            (if p.args % 16 = 0 then z = x else (if k = 0 then x.llcRead c.asid (p.dword 8) 8 else x.bankRead c.asid (p.dword 8) 8) = .ok z old) →
            let v := match p.args % 16 with
              | 0 => p.dword 16
              | 1 => leNat old + p.dword 16
              | _ => leNat old + 2 ^ 64 - p.dword 16
            z.feWrite c.asid (p.dword 8) (leBytes 8 v) = some y →
            ∃ t, exec (.signal n) s = .next t ∧ t.agenda = s.agenda
              ∧ { t.plat with host := { t.plat.host with msix := s.plat.host.msix } } = s.plat
              ∧ { t.mach with device := s.mach.device } = { s.mach.billed ((if p.args / 16 % 2 = 1 then { y with irqs := y.irqs ++ [p.args / 256 % 256] } else y).packetEnd n 0)
                c.allot.toNat with device := s.mach.device })
          ∧ (p.ty = 4 → ∀ x bs, m.feRead n c.asid 0 (p.dword 8) 8 = .ok x bs →
            runsTo (.wait n) (if p.holds (leNat bs) then x.packetEnd n 0 else x.setQueue n { q with stage := .waiting, wait := none }))
          ∧ (p.ty = 5 → m.dwordsHeld c.asid (p.dword 8) (p.args % 8) = false → m.agentHeld c.asid (p.dword 40) 8 = false →
            ∀ x y, m.feWrite c.asid (p.dword 8) ((p.bs.drop 16).take (8 * (p.args % 8))) = some x →
              x.signalAt c.asid (p.dword 40) (p.args / 16) (p.dword 48) = .ok y [] → runsTo (.writeSignal n) (y.packetEnd n 0))
          ∧ (p.ty = 6 → ∃ x : Mach, runsTo (.packetPfence n) (x.packetEnd n 0)
            ∧ ((∀ k ∈ m.cores, ∀ l ∈ k.2.l1, l1Dirty l.2 = false) → x.mem = m.mem ∧ x.llc = m.llc)
            ∧ ∀ f bit, (f, bit) ∈ [(Core.const, 1), (Core.texel, 2), (Core.tile, 3), (Core.icache, 4)] → ∀ core k,
              mget (f (x.core core)) k = if (BitVec.ofNat 8 p.args).getLsbD bit ∧ k / 2 ^ 43 = c.asid.toNat then none else mget (f (m.core core)) k)
          ∧ (p.ty = 7 → (∀ x, m.groveAt c.asid (p.dword 8) = (x, none) → runsTo (.groveInv n) (x.packetEnd n 5))
            ∧ ∀ x i g, m.groveAt c.asid (p.dword 8) = (x, some (i, g)) →
              let k := if p.args % 2 = 1 then g.size else p.args / 256 % 64
              runsTo (.groveInv n) (if k < g.lg ∨ g.size < k then x.packetEnd n 2
                else (x.groveDrop c.asid i (p.dword 8 / 2 ^ k * 2 ^ k) (2 ^ k)).packetEnd n 0))
          ∧ (p.ty = 1 → ∀ x bs, m.feRead n c.asid 0 (p.dword 16) 64 = .ok x bs →
            (p.dword 24 = 0 → runsTo (.launch n) (x.launch n c.asid bs (fieldAt p.bs 4 4) (fieldAt p.bs 8 4) false))
              ∧ (p.dword 24 ≠ 0 → ∃ t q', exec (.launch n) s = .next t ∧ t.plat = s.plat ∧ mget t.mach.queues n = some q'
                ∧ q'.stage = .prologue ∧ q'.entry = p.dword 24 ∧ q'.run = 0 ∧ q'.pcc = [0, 0, 0, 0]
                ∧ (∀ i < 16, mget q'.pw i = some (BitVec.ofNat 32 (fieldAt bs (4 * i) 4)))
                ∧ mget q'.pw 16 = some (BitVec.ofNat 32 (fieldAt p.bs 4 4)) ∧ mget q'.pw 17 = some (BitVec.ofNat 32 (fieldAt p.bs 8 4))))))
    ∧ (∀ (s : State) (n : Nat) (q : Queue) (c : Ctx), mget s.mach.queues n = some q → s.mach.queueCtx q = some c →
      s.mach.solvent c.allot.toNat = true →
      let runsTo (i : Instr) (x : Mach) : Prop := exec i s = .next { s with mach := s.mach.billed x c.allot.toNat }
      (q.stage = .waiting → s.mach.asking q.wait = false → s.mach.endHeld (some n) = false → ∀ m bs m' v,
          s.mach.packetBytes n c.asid q = .ok m bs →
          m.feRead n c.asid 0 (Packet.dword ⟨bs⟩ 8) 8 = .ok m' v → Packet.holds ⟨bs⟩ (leNat v) = true →
          runsTo (.waitSatisfied n) (m'.packetEnd n 0))
        ∧ (∀ t gx gy gz u id, q.stage = .held t gx gy gz u id → s.mach.quotaOk c.asid (u % 32) 1 = true →
          runsTo (.heldLaunchResume n) (s.mach.launchFrom n c.asid t gx gy gz u id))
        ∧ (q.stage = .prologue → s.mach.asking q.wait = false → s.mach.endHeld (some n) = false →
          let w := mput (mput q.pw 18 0) 19 (BitVec.ofNat 32 q.run)
          let run := Mach.proRun n c.asid 256 s.mach ⟨q.entry, w, q.pcc⟩
          (∀ m, run = .fault m → runsTo (.prologueRun n) (m.launchFail n 4))
            ∧ ∀ m p, run = .exit m p →
              let r (i : Nat) : Nat := (mgetD p.w i 0).toNat
              let m' := m.setQueue n { q with pw := p.w, pcc := p.cc, run := q.run + 1, wait := none }
              let bs := (List.range 16).flatMap fun i => leBytes 4 (r i)
              let out : Mach := if r 18 % 4 = 1 then m'.launchFail n 1
                else if r 18 % 4 = 3 ∨ r 17 / 2 ^ 16 ≠ 0 then m'.launchFail n 4
                else m'.launch n c.asid bs (r 16) (r 17) (r 18 % 4 == 2)
              runsTo (.prologueRun n) out))
    ∧ ∀ (m : Mach) (n : Nat) (asid : BitVec 16) (bs : List Byte) (q : Queue), mget m.queues n = some q →
      let t := { TaskRec.ofBytes bs with link := 0 }
      (t.ok = false → q.outstanding = 0 → m.launch n asid bs 0 0 false = m.packetEnd n 3)
        ∧ (t.ok = true → t.parts = 1 → (m.answered (.packet n)).quotaOk asid 0 1 = true → (m.answered (.packet n)).spills asid 0 1 = 0 →
          ∃ e q', mgetD (m.launch n asid bs 0 0 false).spawnQ 0 [] = mgetD m.spawnQ 0 [] ++ [e] ∧ e.asid = asid
            ∧ e.launch = BitVec.ofNat 32 m.nextLaunch ∧ e.queue = some n ∧ e.sig = sigOnes ∧ e.task = unitTask t (some (1, 1, 1, 0)) 0
            ∧ mget (m.launch n asid bs 0 0 false).queues n = some q' ∧ q'.stage = .launched ∧ q'.outstanding = q.outstanding + 1
            ∧ (m.launch n asid bs 0 0 false).nextLaunch = m.nextLaunch + 1)

/-- R113, R136, R342, R343, R347 to R350: halting and resuming the groups of a context on a core, arming BRK stops, stores to THREAD, to
the selected thread's registers, to counters and to the waybill ring descriptor; a store to an undefined offset is ignored; a
wrapped counter sets OVF and, with OVFIE, raises PERF_OVF.
The model's choices here: log 28 (DEDUCED), log 39 (DEDUCED). -/
def Obligations.DebugEvents : Prop :=
  (∀ (s : State) (asid : BitVec 16) (core : Nat) (by' : Option Nat), (s.mach.ctxOf asid).isSome → core < 128 →
      let h := s.mach.halt core asid
      let groups (t : State) (skip : Option Nat) (f : Wave → Wave) : Prop := ∀ gid g, mget s.mach.groups gid = some g →
        ∃ g', mget t.mach.groups gid = some g'
          ∧ g' = if g.core = core ∧ g.asid = asid ∧ skip ≠ some gid then { g with waves := g.waves.map f } else g
      let rest (t : State) : Prop := t.plat = s.plat ∧ t.agenda = s.agenda ∧ t.mach.mem = s.mach.mem ∧ t.mach.llc = s.mach.llc
        ∧ ∀ n a, (n, a) ≠ (core, asid) → t.mach.halt n a = s.mach.halt n a
      (∃ t, exec (.debugHalt asid core by') s = .next t ∧ rest t ∧ t.mach.halt core asid = { h with halted := true, exempt := by' }
          ∧ groups t by' (fun w => { w with dbg := w.dbg ||| 2 })
          ∧ ∀ g, g.core = core → g.asid = asid → by' ≠ some g.gid → t.mach.haltedGroup g = true)
        ∧ (∃ t, exec (.debugResume asid core) s = .next t ∧ rest t
          ∧ t.mach.halt core asid = { h with halted := false, byBrk := false, exempt := none }
          ∧ groups t h.exempt (fun w => if h.halted then
              w.updLanes (w.live ++ w.helpersOf w.live) (fun l => { l with newRegion := true, rolled := false }) else w)
          ∧ ∀ g, g.core = core → g.asid = asid → t.mach.haltedGroup g = false)
        ∧ (∃ t, exec (.debugArmBrk asid core) s = .next t ∧ rest t ∧ t.mach.groups = s.mach.groups
          ∧ t.mach.halt core asid = { h with armed := true })
        ∧ ∃ t, exec (.debugDisarmBrk asid core) s = .next t ∧ rest t ∧ t.mach.groups = s.mach.groups
          ∧ t.mach.halt core asid = { h with armed := false })
    ∧ (∀ (s : State) (asid : BitVec 16) (core : Nat) (v : DWord) (who : Option (Nat × Nat)), (s.mach.ctxOf asid).isSome → core < 128 →
      (s.mach.selected core asid = none → exec (.debugThreadWrite asid core v) s = .next s
          ∧ ∀ off, (off < 0x810 ∨ 0x828 ≤ off) → exec (.debugRegisterWrite asid core off v who) s = .next s)
        ∧ (∀ i < 3, ∃ t, exec (.debugRegisterWrite asid core (0x810 + 8 * i) v who) s = .next t
          ∧ t.mach.halt core asid = (s.mach.halt core asid).selectWrite i v ∧ t.mach.groups = s.mach.groups)
        ∧ ∀ gid wi l w, s.mach.selected core asid = some (gid, wi, l) → s.mach.wave gid wi = some w → l < w.lanes.length →
          let same (t : State) (x : Wave) : Prop := t.plat = s.plat ∧ t.agenda = s.agenda ∧ t.mach.mem = s.mach.mem
            ∧ t.mach.wave gid wi = some x
          ((w.lane l).st = .live → ∃ t x, exec (.debugThreadWrite asid core v) s = .next t ∧ same t x ∧ (∀ k, x.cur k = w.cur k)
            ∧ (x.lane l).pc = v &&& 0xFFFFFFFFFFFF ∧ (x.lane l).prio = BitVec.ofNat 8 (v.toNat / 2 ^ 56) ∧ (x.lane l).wait = .none
            ∧ (x.lane l).newRegion = true
            ∧ ∀ k, k ≠ l → { x.lane k with newRegion := (w.lane k).newRegion, rolled := (w.lane k).rolled } = w.lane k)
          ∧ (∀ off k0 k1, (off < 0x810 ∨ 0x828 ≤ off) → off ≠ 0x840 → windowKey l off = some k0 → windowKey l (off + 4) = some k1 → k0 ≠ k1 →
            w.holds k0 = true → w.holds k1 = true →
            ∃ t x, exec (.debugRegisterWrite asid core off v who) s = .next t ∧ same t x ∧ x.cur k0 = part v 0 ∧ x.cur k1 = part v 1
              ∧ (∀ k, k.ok → k ≠ k0 → k ≠ k1 → x.cur k = w.cur k) ∧ ∀ j, (x.lane j).pc = (w.lane j).pc)
          ∧ (∀ i g' w' b, w.base + w.ext ≤ 2 * i → i < 128 → who = some (g', w') → s.mach.wave g' w' = some b →
            ∃ t x, exec (.debugRegisterWrite asid core (0x900 + 8 * i) v who) s = .next t ∧ same t x ∧ (∀ k, x.cur k = w.cur k)
              ∧ (t.mach.wave g' w').map (fun b => b.dbg.getLsbD 0) = some true)
          ∧ ∃ t x, exec (.debugRegisterWrite asid core 0x840 v who) s = .next t ∧ same t x
            ∧ (∀ n < 4, x.cur (.c l n) = ((v >>> (8 * n)).setWidth 5 : BitVec 5).setWidth 32)
            ∧ ∀ k, k.ok → (∀ n, k ≠ .c l n) → x.cur k = w.cur k)
    ∧ (∀ (s : State) (u : CtrUnit) (n : Nat) (v : DWord), n < u.size →
      let first := match u with
        | .core _ _ => 0
        | .slice _ => 0x100
        | .device => 0x200
      let last := match u with
        | .core _ _ => 0xF
        | .slice _ => 0x109
        | .device => 0x206
      let code := v.toNat % 65536
      let good : Prop := v.toNat < 2 ^ 19 ∧ (code = 0 ∨ first < code ∧ code ≤ last) ∧ (v.getLsbD 17 = true → ∃ c a, u = .core c a)
      ∃ t, exec (.counterCtlWrite u n v) s = .next t ∧ t.plat = s.plat ∧ t.agenda = s.agenda ∧ t.mach.groups = s.mach.groups
        ∧ t.mach.mem = s.mach.mem ∧ (t.mach.counter u n).value = (s.mach.counter u n).value
        ∧ (good → (t.mach.counter u n).ctl = v) ∧ (¬ good → (t.mach.counter u n).ctl = v &&& 0x70000))
    ∧ (∀ (s : State) (asid : BitVec 16) (off : Nat) (v : DWord) (c : Ctx), s.mach.ctxOf asid = some c → off < 2 ^ 24 →
      ((off < 0x80000 ∧ (0x80 ≤ off % 0x1000 ∧ off % 0x1000 < 0x800 ∨ off % 0x1000 = 0x808 ∨ off % 0x1000 = 0x830)
          ∨ 0x80000 ≤ off ∧ off < 0x90000 ∧ 0x100 ≤ off % 0x200
          ∨ 0x90000 ≤ off ∧ ¬ (0xA0000 ≤ off ∧ off < 0xA0080) ∧ ¬ (0xA0800 ≤ off ∧ off < 0xA0828)) →
          exec (.debugWindowWrite asid off v) s = .next s)
        ∧ (∀ i < 8, off = 0xA0000 + 16 * i + 8 → ∃ t, exec (.debugWindowWrite asid off v) s = .next t ∧ t.mach.mem = s.mach.mem
          ∧ (t.mach.counter .device i).value = v.setWidth 48 + (if (s.mach.counter .device i).at_ = s.mach.clk
            then BitVec.ofNat 48 (s.mach.counter .device i).now else 0) ∧ (t.mach.counter .device i).ctl = (s.mach.counter .device i).ctl
          -- the store comes before the events of its clk: a wrap of the old count by them is none
          ∧ ((s.mach.counter .device i).at_ = s.mach.clk → (s.mach.counter .device i).wrapAt = s.mach.clk →
            (v.setWidth 48).toNat + (s.mach.counter .device i).now < 2 ^ 48 → (t.mach.counter .device i).wrapped = none))
        ∧ ∀ i < 5, off = 0xA0800 + 8 * i → ∃ t, exec (.debugWindowWrite asid off v) s = .next t ∧ t.mach.groups = s.mach.groups
          ∧ mget t.mach.ctxs c.slot = some (c.ringWrite i v)
          ∧ ∀ j < 5, (c.ringWrite i v).ringField j = match i, decide (i = j) with
            | 0, true => v &&& 0xFFFFFFFFFFFF
            | 1, true => v &&& 0x1F
            | 2, true => v &&& 0xFFFFFFFF
            | _, _ => c.ringField j)
    ∧ (∀ (s : State) (u : CtrUnit) (n : Nat), s.mach.clk ≤ (s.mach.counter u n).wrapAt → exec (.counterWrap u n) s = .next s.miss)
    ∧ ∀ (s : State) (u : CtrUnit) (n : Nat) (who : Option (Nat × Nat)), (s.mach.counter u n).wrapped = some who →
      (s.mach.counter u n).wrapAt < s.mach.clk →
      ∃ t, exec (.counterWrap u n) s = .next t ∧ t.plat = s.plat ∧ t.agenda = s.agenda ∧ t.mach.mem = s.mach.mem
        ∧ t.mach.counter u n = { s.mach.counter u n with ctl := (s.mach.counter u n).ctl ||| 0x40000, wrapped := none }
        ∧ ((s.mach.counter u n).ctl.getLsbD 17 = false → t.mach.groups = s.mach.groups)
        ∧ ∀ core asid gid wave w, u = .core core asid → (s.mach.counter u n).ctl.getLsbD 17 = true →
          (∀ g ∈ s.mach.resident core, g.asid = asid → ∀ w ∈ g.waves, w.perfHeld.contains n = false
            ∧ ∀ t ∈ w.traps, ¬ (t.code = Code.perfOvf ∧ t.info = n)) →
          s.mach.ovfWave core asid who = some (gid, wave) → s.mach.wave gid wave = some w →
          (t.mach.wave gid wave).map (·.traps) = some (w.traps ++ [⟨0, 0xFF, 0, Code.perfOvf, n, 0, true⟩])

/-- R375 to R381: reads, corrections and scrubs of stored words by their syndrome, flipped bits, lines that fail to decompress, retries, spares and retraining of a vertical channel, GDDR 7
transfers, and the clearing of the logs; a DEGRADED channel delivers poisoned words and takes no writes.
The model's choices here: log 13 (PRESUMED), log 45 (DEDUCED), log 62 (DESIGN CHOICE). -/
def Obligations.ReliabilityEvents : Prop :=
  (∀ (s : State) (word : Nat), s.mach.rel.stalls word = false → 8 * word < dramTop → s.mach.rel.dead word = false → word ∉ s.mach.rel.bad →
      let die := Config.dramDie word % 4
      let stored : DWord := BitVec.ofNat 64 (leNat (s.mach.wordBytes word))
      let keeps (t : State) : Prop := t.plat = s.plat ∧ t.agenda = s.agenda ∧ t.mach.groups = s.mach.groups ∧ t.mach.llc = s.mach.llc
      let logged (t : State) (ue : Bool) (f : BitVec 72) : Prop :=
        (∀ l, s.mach.rel.arrayLogs[die]? = some l → t.mach.rel.arrayLogs[die]? = some (l.add 64 (arrayEntry ue f word)))
          ∧ t.mach.rel.errorIrqs = s.mach.rel.errorIrqs + if ue then 1 else 0
      let unwritten : Prop := ∀ p ∈ s.mach.rel.corrective, p.1 ≠ word
      (mget s.mach.rel.flips word = none → exec (.dramWordRead word) s = .next s ∧ (s.mach.readWord word).2 = (s.mach.wordBytes word, false))
        ∧ ∀ f, mget s.mach.rel.flips word = some f →
          -- by the syndrome: no error, the error of one bit, or any other
          let clean : Prop := ones f = 0 ∨ 3 ≤ ones f ∧ syndrome f = 0
          let fixes (fix : BitVec 72) : Prop := ones f = 1 ∧ fix = f ∨ 3 ≤ ones f ∧ syndrome f ≠ 0 ∧ ∃ i < 72,
            Config.hsiaoColumn i = syndrome f ∧ (∀ j < i, Config.hsiaoColumn j ≠ syndrome f) ∧ fix = (1 : BitVec 72) <<< i
          let poisons : Prop := ones f = 2 ∨ 3 ≤ ones f ∧ syndrome f ≠ 0 ∧ ∀ i < 72, Config.hsiaoColumn i ≠ syndrome f
          (clean → exec (.dramWordRead word) s = .next s
              ∧ (s.mach.readWord word).2 = (leBytes 8 (stored ^^^ f.setWidth 64).toNat, false))
            ∧ (∀ fix, fixes fix →
              let v : DWord := stored ^^^ (f ^^^ fix).setWidth 64
              (s.mach.readWord word).2 = (leBytes 8 v.toNat, false)
                ∧ (∃ t, exec (.dramWordRead word) s = .next t ∧ keeps t ∧ logged t false f ∧ t.mach.rel.flips = s.mach.rel.flips
                  ∧ t.mach.mem = s.mach.mem ∧ t.mach.rel.corrective = s.mach.rel.corrective ++ [(word, v)])
                ∧ (unwritten → ∃ t, exec (.patrolScrub word) s = .next t ∧ keeps t ∧ logged t false f
                  ∧ t.mach.rel.corrective = s.mach.rel.corrective ∧ mget t.mach.rel.flips word = none
                  ∧ ∀ a, cellGet t.mach.mem a = if a / 8 = word then (leBytes 8 v.toNat).getD (a % 8) 0 else cellGet s.mach.mem a))
            ∧ (poisons → (s.mach.readWord word).2.2 = true
              ∧ ∀ i, (i = .dramWordRead word ∨ i = .patrolScrub word ∧ unwritten) → ∃ t, exec i s = .next t ∧ keeps t ∧ logged t true f
                ∧ t.mach.mem = s.mach.mem ∧ t.mach.rel.flips = s.mach.rel.flips ∧ t.mach.rel.corrective = s.mach.rel.corrective))
    ∧ (∀ (s : State) (word bit : Nat), ∃ t, s.turn (.flip word bit) = .next t ∧ t.plat = s.plat ∧ t.agenda = s.agenda
      ∧ { t.mach with rel := s.mach.rel } = s.mach ∧ { t.mach.rel with flips := s.mach.rel.flips } = s.mach.rel
      ∧ ∀ w, mgetD t.mach.rel.flips w 0 = mgetD s.mach.rel.flips w 0 ^^^ if w = word then (1 : BitVec 72) <<< bit else 0)
    ∧ (∀ (s : State) (line i : Nat), dramTop ≤ 64 * line → 64 * line + 64 ≤ gddrTop → i < 8 →
      let w := 8 * line + i
      ∃ t, s.turn (.decompress line) = .next t ∧ t.plat = s.plat ∧ t.mach.mem = s.mach.mem
        ∧ (t.mach.rel.dead w = false →
          (t.mach.readWord w).2.2 = true ∧ (t.mach.readWord w).1.rel.errorIrqs = s.mach.rel.errorIrqs + 1
            ∧ (t.mach.readWord w).1.rel.gddrLog = s.mach.rel.gddrLog.add 64 (busEntry false 0 0 (w % 16) false none true)
            ∧ ∀ bs, bs.length = 8 → ((t.mach.writeWord w bs).readWord w).2.2 = false))
    ∧ (∀ (s : State) (n word : Nat) (v : DWord), s.mach.rel.stalls word = false → s.mach.rel.corrective[n]? = some (word, v) →
      s.mach.rel.dead word = false →
      ∃ t, exec (.correctiveWrite n) s = .next t ∧ t.plat = s.plat ∧ t.agenda = s.agenda ∧ t.mach.rel.corrective = s.mach.rel.corrective.eraseIdx n
        ∧ mget t.mach.rel.flips word = none
        ∧ ∀ a, cellGet t.mach.mem a = if a / 8 = word then (leBytes 8 v.toNat).getD (a % 8) 0 else cellGet s.mach.mem a)
    ∧ (∀ (m : Mach) (word : Nat) (bs : List (Nat × Byte)), 8 * word < dramTop →
      m.rel.status.getD (Config.dramChannel word % 32) .ok = .degraded → (m.readWord word).2.2 = true ∧ m.writeWord word bs = m)
    ∧ (∀ (s : State) (ch : Nat) (groups : Byte) (dies lastOk : Bool) (wires : List (BitVec 9)) (log : ErrLog) (soft : List (BitVec 10)),
      s.mach.rel.status[ch]? = some .ok → groups ≠ 0 → (∀ w ∈ wires, wireIn groups w = true) → s.mach.rel.busLogs[ch]? = some log →
      s.mach.rel.soft[ch]? = some soft →
      let entry (fatal : Bool) (k : Nat) (w : Option (BitVec 9)) : DWord := busEntry fatal groups k ch dies w false
      let retries : List DWord := [entry false 1 none, entry false 2 none, entry false 3 none]
      let writes (es : List DWord) : ErrLog := es.foldl (fun l e => l.add 32 e) log
      let keeps (t : State) : Prop := t.plat = s.plat ∧ t.agenda = s.agenda ∧ t.mach.groups = s.mach.groups ∧ t.mach.mem = s.mach.mem
      (∀ k < 3, ∃ t, exec (.verticalBusParityFailure ch groups dies k wires lastOk) s = .next t ∧ keeps t
          ∧ t.mach.rel.busLogs[ch]? = some (writes (retries.take (k + 1))) ∧ t.mach.rel.status = s.mach.rel.status
          ∧ t.mach.rel.soft = s.mach.rel.soft)
        ∧ (∀ w i, wires = [w] → soft.findIdx? (fun e => !e.getLsbD 9) = some i → lastOk = true →
          ∃ t, exec (.verticalBusParityFailure ch groups dies 3 wires lastOk) s = .next t ∧ keeps t
            ∧ t.mach.rel.status = s.mach.rel.status ∧ t.mach.rel.soft[ch]? = some (soft.set i (BitVec.ofNat 10 (512 + w.toNat)))
            ∧ t.mach.rel.busLogs[ch]? = some (writes (retries ++ [entry false 3 (some w)])))
        ∧ ((∃ w, wires = [w] ∧ soft.findIdx? (fun e => !e.getLsbD 9) = none) ∨ (wires = [] ∧ lastOk = false) →
          ∃ t, exec (.verticalBusParityFailure ch groups dies 3 wires lastOk) s = .next t ∧ keeps t
            ∧ t.mach.rel.status[ch]? = some .degraded ∧ t.mach.rel.soft[ch]? = some soft
            ∧ t.mach.rel.busLogs[ch]? = some (writes (retries ++ [entry true 3 none]))))
    ∧ (∀ (s : State) (ch : Nat) (failing : List (BitVec 9)) (hard soft : List (BitVec 10)), s.mach.rel.status[ch]? = some .training →
      s.mach.rel.hard[ch]? = some hard → s.mach.rel.soft[ch]? = some soft →
      let fused := hard.filter fun e => e.getLsbD 9
      fused.length ≤ 8 → ∃ t, exec (.channelTrainingComplete ch failing) s = .next t ∧ t.plat = s.plat ∧ t.mach.mem = s.mach.mem
        ∧ (failing.length ≤ 8 - fused.length → t.mach.rel.status[ch]? = some .ok
          ∧ t.mach.rel.soft[ch]? = some (fused ++ failing.map (fun w => BitVec.ofNat 10 (512 + w.toNat))
            ++ List.replicate (8 - fused.length - failing.length) 0))
        ∧ (8 - fused.length < failing.length → t.mach.rel.status[ch]? = some .degraded))
    ∧ (∀ (s : State) (dev k : Nat) (dies good lastOk : Bool), dev < 16 → dev ∉ s.mach.rel.gddrDegraded → k ≤ 3 →
      let entry (fatal : Bool) (n : Nat) : DWord := busEntry fatal 0 n dev dies none true
      ∃ t, exec (.gddrCrcMismatch dev dies k good lastOk) s = .next t ∧ t.plat = s.plat ∧ t.mach.mem = s.mach.mem
        ∧ t.mach.rel.gddrLog = (((List.range (min 3 (k + 1))).map fun i => entry false (i + 1))
            ++ if k < 3 then [] else [entry (!(good && lastOk)) 3]).foldl (fun l e => l.add 64 e) s.mach.rel.gddrLog
        ∧ t.mach.rel.gddrDegraded = s.mach.rel.gddrDegraded ++ if k = 3 ∧ ¬ (good = true ∧ lastOk = true) then [dev] else [])
    ∧ ∀ (s : State) (n : Nat),
      ∃ a b c, exec (.errorLogClear (.array n)) s = .next a ∧ exec (.errorLogClear (.bus n)) s = .next b ∧ exec (.errorLogClear .gddr) s = .next c
        ∧ c.mach.rel.gddrLog = ⟨[], 0⟩ ∧ (∀ l, s.mach.rel.arrayLogs[n]? = some l → a.mach.rel.arrayLogs[n]? = some ⟨[], 0⟩)
        ∧ (∀ l, s.mach.rel.busLogs[n]? = some l → b.mach.rel.busLogs[n]? = some ⟨[], 0⟩)
        ∧ ∀ t ∈ [a, b, c], t.plat = s.plat ∧ t.agenda = s.agenda ∧ t.mach.mem = s.mach.mem ∧ t.mach.groups = s.mach.groups

/-- R383 to R387: link training, flits with their acknowledges, credits and replays, remote writes and reads at the device that owns
the memory, and collective requests.
The model's choices here: log 21 (DESIGN CHOICE), log 24 (DESIGN CHOICE), log 46 (DEDUCED). -/
def Obligations.LinkEvents : Prop :=
  (∀ (s : State) (ok0 ok1 : Bool) (d n : Nat),
      (ok0 = true → ok1 = true → 2 ≤ n ∧ n ≤ 4 ∧ d < n ∧ (s.plat.host.ringHead = true ↔ d = 0)) →
      ∃ t, exec (.linkTraining ok0 ok1 d n) s = .next t ∧ t.plat = s.plat ∧ t.mach.mem = s.mach.mem
        ∧ t.mach.link.ports.map (·.trained) = [ok0, ok1]
        ∧ (t.mach.link.device, t.mach.link.count) = if ok0 && ok1 then (d, n) else (0, 1))
    ∧ (∀ (s : State) (port : Nat) (p : Port) (check : FlitCheck) (f : Flit), s.mach.link.ports[port]? = some p → p.trained = true →
      p.down = false →
      let k := s.mach.link
      let same (t : State) : Prop := t.plat = s.plat ∧ t.agenda = s.agenda ∧ t.mach.mem = s.mach.mem
      let keeps (t : State) : Prop := same t ∧ t.mach.groups = s.mach.groups
      let good : Prop := check.byteErrors ≤ 10 ∧ check.crcOk = true
      let up (p : Port) : Port := { p with failed := 0, credits := p.credits + f.credits.toNat }
      -- a port that goes down: its buffer, the copies with flits in it, and the reads that wait for it
      let falls (t : State) : Prop := t.mach.link.ports[port]? = some { p with down := true, replay := [], replays := 0 }
        ∧ (∀ (core n : Nat) (c : PorterCmd) (sk sys : Bool) (src dst bytes j : Nat) (seq : BitVec 12), (s.mach.core core).porterQ[n]? = some c →
          c.op = .cpy sk sys src dst bytes → c.unacked.find? (fun u => u.1 == port) = some (port, seq, j) → c.stop = none →
          (t.mach.core core).porterQ[n]? = some { c with stop := some (Code.link, j, dst + 32 * j), next := j, unacked := [] })
        ∧ ∀ (i : Nat) (r : RemoteRead), k.reads[i]? = some r → r.data = none → (k.portTo r.device = port ∨ k.portFrom r.device = port) →
          t.mach.link.reads[i]? = some { r with data := some [] }
      (¬ good → p.failed ≠ 8 → ∃ t, exec (.flitReceive port check f) s = .next t ∧ keeps t
          ∧ t.mach.link.ports[port]? = some { p with failed := p.failed + 1 })
        ∧ (¬ good → p.failed = 8 → ∃ t, exec (.flitReceive port check f) s = .next t ∧ keeps t ∧ falls t)
        -- an acknowledge frees the buffer up to the flit it names, and ends the sectors that those flits carried
        ∧ (good → f.ty = 5 → ∃ t q, exec (.flitReceive port check f) s = .next t ∧ same t ∧ t.mach.link.ports[port]? = some q
          ∧ (p.replay.findIdx? (fun x => x.seq == f.seq) = none → q = up p ∧ t.mach.groups = s.mach.groups)
          ∧ ∀ i, p.replay.findIdx? (fun x => x.seq == f.seq) = some i → q = { up p with replay := p.replay.drop (i + 1), replays := 0 }
            ∧ ((s.mach.cores.map (·.1)).Nodup → ∀ (core n : Nat) (c : PorterCmd), ((s.mach.core core).porterQ.map (·.id)).Nodup →
              (s.mach.core core).porterQ[n]? = some c → ∃ c' : PorterCmd, (t.mach.core core).porterQ[n]? = some c' ∧ c'.id = c.id
                ∧ c'.unacked = c.unacked.filter fun u => !(u.1 == port && (p.replay.take (i + 1)).any fun x => x.seq == u.2.1)))
        -- any other flit is acknowledged, and a new one returns a credit
        ∧ (good → f.ty ≠ 5 → (f.seq ≠ p.expect ∨ f.ty = 0 ∨ f.dest.toNat = k.device) →
          let fresh : Bool := f.seq == p.expect
          let next := if fresh then p.expect + 1 else p.expect
          let near := (k.device + (if port = 1 then 1 else k.count - 1)) % k.count
          ∃ t, exec (.flitReceive port check f) s = .next t ∧ keeps t
            ∧ t.mach.link.ports[port]? = some { up p with
              expect := next, sent := some ⟨5, next - 1, BitVec.ofNat 2 near, 0, if fresh then 1 else 0, List.replicate 224 0⟩ }
            ∧ ∀ i r, f.ty = 3 → fresh = true → f.dest.toNat = k.device → k.reads.findIdx? (fun r => r.data.isNone && k.portFrom r.device == port) = some i →
              k.reads[i]? = some r → r.core ≠ 129 → t.mach.link.reads[i]? = some { r with data := some (f.payload.take r.n) })
        -- one for another device goes on along the ring, or waits while the way has no room or credit
        ∧ (good → f.ty ≠ 5 → f.ty ≠ 0 → f.seq = p.expect → f.dest.toNat ≠ k.device → ∀ out q,
          k.portTo f.dest.toNat = out → out ≠ port → k.ports[out]? = some q → k.up f.dest.toNat = true →
          let room : Prop := q.replay.length < 512 ∧ 1 ≤ q.credits
          let g : Flit := ⟨f.ty, q.nextSeq, f.dest, 0, 0, f.payload ++ List.replicate (224 - f.payload.length) 0⟩
          (¬ room → exec (.flitReceive port check f) s = .next s.miss)
            ∧ (room → ∃ t, exec (.flitReceive port check f) s = .next t ∧ keeps t ∧ t.mach.link.ports[out]? = some
              { q with replay := q.replay ++ [g], nextSeq := q.nextSeq + 1, credits := q.credits - 1, sent := some g }))
        -- the oldest flit that is refused is sent again, eight times at most
        ∧ ∀ g rest, s.clocked = true → p.replay = g :: rest → ∃ t, s.turn (.refused port) = .next t ∧ keeps t
          ∧ (p.replays = 7 → falls t)
          ∧ (p.replays ≠ 7 → t.mach.link.ports[port]? = some { p with replays := p.replays + 1, sent := some g }))
    ∧ (∀ (s : State) (pa : Nat) (bytes : List Byte), 0 < bytes.length → bytes.length ≤ 224 → pa + bytes.length ≤ gddrTop → s.mach.rel.allOk = true →
      s.mach.rel.flips = [] → s.mach.remap = [] →
      ∃ t, exec (.remoteWriteArrival pa bytes) s = .next t ∧ t.plat = s.plat ∧ t.agenda = s.agenda ∧ t.mach.groups = s.mach.groups
        ∧ t.mach.llc = s.mach.llc
        ∧ ∀ a, cellGet t.mach.mem a = if pa ≤ a ∧ a < pa + bytes.length then bytes.getD (a - pa) 0 else cellGet s.mach.mem a)
    ∧ (∀ (s : State) (asker pa n : Nat) (p : Port), asker ≠ s.mach.link.device → s.mach.link.up asker = true →
      s.mach.link.ports[s.mach.link.portTo asker]? = some p → 0 < n → n ≤ 224 → pa + n ≤ gddrTop → s.mach.rel.allOk = true →
      s.mach.rel.flips = [] → s.mach.rel.bad = [] → s.mach.remap = [] → p.replay.length < 512 → 1 ≤ p.credits →
      ∃ t f, exec (.remoteReadRequest asker pa n) s = .next t ∧ t.plat = s.plat ∧ t.agenda = s.agenda ∧ t.mach.mem = s.mach.mem
        ∧ t.mach.link.ports[s.mach.link.portTo asker]? = some
          { p with replay := p.replay ++ [f], nextSeq := p.nextSeq + 1, credits := p.credits - 1, sent := some f }
        ∧ f.ty = 3 ∧ f.seq = p.nextSeq ∧ f.dest = BitVec.ofNat 2 asker
        ∧ f.payload = ((List.range n).map fun i => cellGet s.mach.mem (pa + i)) ++ List.replicate (224 - n) 0)
    ∧ (∀ (s : State) (slot : Nat) (va : DWord) (c : Ctx) (m : Mach) (bs : List Byte), mget s.mach.ctxs slot = some c →
      s.mach.agentHeld c.asid va.toNat 64 = false → va.toNat % 64 = 0 → s.mach.agentReadRun c.asid false 0 va.toNat 64 = .ok m bs →
      ∃ t q, exec (.collectiveDoorbell slot va) s = .next t ∧ t.plat = s.plat ∧ t.agenda = s.agenda
        ∧ t.mach.link.requests = m.link.requests ++ [q] ∧ q.asid = c.asid ∧ q.src = fieldAt bs 0 8 ∧ q.dst = fieldAt bs 8 8
        ∧ q.count = fieldAt bs 16 4 ∧ q.op = fieldAt bs 20 1 ∧ q.ndev = fieldAt bs 21 1 ∧ q.tag = BitVec.ofNat 16 (fieldAt bs 22 2)
        ∧ q.signal = fieldAt bs 24 8
        ∧ (q.bad = true ↔ fieldAt bs 32 32 ≠ 0 ∨ q.count = 0 ∨ 2 ^ 24 < q.count ∨ 2 < q.op ∨ q.ndev < 2 ∨ m.link.count < q.ndev))
    ∧ ∀ (s : State) (n : Nat) (q : Collective) (others : List (Half × Byte × List Word)), s.mach.link.requests.find? (fun q => q.id == n) = some q →
      s.mach.agentHeld q.asid q.signal 8 = false →
      let m := s.mach
      let k := m.link
      let runsTo (x : Mach) : Prop := exec (.collectiveCompletion n others) s = .next { s with mach := x }
      ((∃ o ∈ others, o.1 ≠ q.tag) → exec (.collectiveCompletion n others) s = .next s.miss)
        ∧ ((∀ o ∈ others, o.1 = q.tag) → q.bad = true → runsTo (m.collFail q Code.illegalOperand))
        ∧ ((∀ o ∈ others, o.1 = q.tag) → q.bad = false → k.device < q.ndev →
          let odd : Prop := others.length + 1 ≠ q.ndev ∨ ∃ o ∈ others, o.2.1.toNat ≠ q.op ∨ o.2.2.length ≠ q.count
          let reached : Prop := ∀ d < q.ndev, d = k.device ∨ k.up d = true
          (odd → runsTo (m.collFail q Code.illegalOperand))
            ∧ (¬ odd → ¬ reached → runsTo (m.collFail q Code.link))
            ∧ (¬ odd → reached → q.data = none → q.out = none →
              (∀ m1 code va, m.collRead q = .bad m1 code va → runsTo (m1.collFail q code))
                -- this device's elements are read, and have all gone to the others
                ∧ ∀ m1 bs m2, m.collRead q = .ok m1 bs → (m1.fetched 128 q.id).collSend q bs = (m2, q.flits) →
                  let q' := { q with data := some bs, sent := q.flits }
                  (∀ m3 code, m2.collCheck q.asid q.dst (4 * q.count) = (m3, some code) → runsTo (m3.collFail q' code))
                    ∧ ∀ m3 m4 k', m2.collCheck q.asid q.dst (4 * q.count) = (m3, none) →
                      let mine := (List.range q.count).map fun i => BitVec.ofNat 32 (fieldAt bs (4 * i) 4)
                      let vs := others.map (·.2.2)
                      let all := vs.take m3.link.device ++ [mine] ++ vs.drop m3.link.device
                      let out := (List.range q.count).flatMap fun i => leBytes 4 (reduceOne q.op (all.map fun v => v.getD i 0)).toNat
                      m3.collWrite q.asid q.dst out q.written = (m4, k') →
                      (k' < (q.dst + out.length + 31) / 32 - q.dst / 32 → runsTo (m4.setColl { q' with out := some out, written := k' }))
                        ∧ ((q.dst + out.length + 31) / 32 - q.dst / 32 ≤ k' → runsTo ((m4.collOver q').collSignal q' fun v => v + 1))))

/-- R17, R382, R388, R393, R394: accesses of RV64 cores, of the host and of downstream devices to device memory, what BAR2 maps, and
what the Hedgerow lets through: writes to host memory, which a revocation in their clk drops, rails, side buses, display timings; modes,
scanout reads and underflow of an output; a thermal trip.
The model's choices here: log 12 (DESIGN CHOICE), log 42 (DESIGN CHOICE), log 48 (DEDUCED), log 49 (DEDUCED), log 82 (DESIGN CHOICE). -/
def Obligations.HostEvents : Prop :=
  (∀ (s : State) (core : Nat) (asid : BitVec 16) (act : ClientAct) (m : Mach), core < 16 → s.mach.client asid act = .ok m →
      let h := s.plat.host
      let (va, n) := clientRange act
      exec (.rv64ClientAccess core asid act) s = .next { s with mach := m }
        ∧ (h.hostMode = false → asid = h.bar2Asid → h.bar2Base ≤ va → va + n ≤ h.bar2Base + h.bar2Size →
          exec (.bar2Access act) s = .next { s with
            mach := (if s.mach.ordinary asid va n then m else s.mach).countDevice 0x0205 (clientTlps act) })
        ∧ ∀ v bs, act = .write v bs → h.hostMode = true →
          exec (.downstreamDeviceWrite (.mem asid v bs)) s = .next { s with mach := m.countDevice 0x0205 1 })
    ∧ (∀ (m : Mach) (asid : BitVec 16) (va : DWord) (n : Nat) (bs : List Byte),
      (∀ m' out, m.agentReadRun asid true 0 va.toNat n = .ok m' out →
          m.client asid (.read va n) = .ok { m' with clientRead := out })
        ∧ ∀ sc t, m.lockedRange asid va.toNat bs.length = false → bs ≠ [] → va.toNat % 32 + bs.length ≤ 32 → bs.length < 32 → va.toNat < 2 ^ 48 →
          m.consigns = [] → m.frame asid (va.toNat / 128 * 128) = none → m.cachedTrans asid va.toNat = some t → t.cls = 0 → t.pa va.toNat < gddrTop →
          pteBit t.leaf.toNat 4 = true → mget m.llc (secKey asid va.toNat) = some sc → sc.bytes.length = 32 →
          ∃ m', m.client asid (.write va bs) = .ok m' ∧ m'.mem = m.mem ∧ ∃ sd, mget m'.llc (secKey asid va.toNat) = some sd ∧ ∀ k < 32,
            sd.bytes.getD k 0 = if va.toNat % 32 ≤ k ∧ k < va.toNat % 32 + bs.length then bs.getD (k - va.toNat % 32) 0 else sc.bytes.getD k 0)
    ∧ (∀ (s : State) (line : Nat), s.plat.host.hostMode = true → exec (.downstreamDeviceWrite (.msi line)) s =
      .next { s with mach := { s.mach with irqs := s.mach.irqs ++ [line] }.countDevice 0x0205 1 })
    ∧ (∀ (s : State) (addr : Nat) (bytes : List Byte),
      let h := s.plat.host
      let us := s.mach.timeNs / 1000
      let used := if h.rateUs = us then h.rate else 0
      let open_ : Prop := ∃ w ∈ h.windows, w.valid = true ∧ w.base ≤ addr ∧ addr + bytes.length ≤ w.base + w.size
      let runsTo (h' : HostSide) : Prop := exec (.hostMemoryWrite addr bytes) s = .next { s with plat := { s.plat with host := h' } }
      (¬ (open_ ∧ used + bytes.length ≤ 8000) → runsTo { h with dropped := h.dropped + 1 })
        ∧ (open_ → used + bytes.length ≤ 8000 →
          runsTo { h with rate := used + bytes.length, rateUs := us, admitted := h.admitted ++ [(addr, bytes)] })
        -- what a clk has admitted reaches the host when it ends, if its window is still open then
        ∧ (h.admitted = [(addr, bytes)] → ∃ t, s.turn .tick = .next t ∧ t.plat.host.admitted = []
          ∧ (open_ → t.plat.host.dropped = h.dropped ∧ ∀ a, cellGet t.plat.host.memory a =
              if addr ≤ a ∧ a < addr + bytes.length then bytes.getD (a - addr) 0 else cellGet h.memory a)
          ∧ (¬ open_ → t.plat.host.dropped = h.dropped + 1 ∧ t.plat.host.memory = h.memory)))
    ∧ (∀ (s : State) (n base size : Nat) (valid : Bool) (asid : BitVec 16),
      let h := s.plat.host
      let host (h : HostSide) : State := { s with plat := { s.plat with host := h } }
      (h.hostMode = true → s.turn (.hostWindow n base size valid) = .next s)
        ∧ (h.hostMode = false → s.plat.power ≠ .d3cold → n < h.windows.length → ∃ ws,
          s.turn (.hostWindow n base size valid) = .next (host { h with windows := ws }) ∧ ws[n]? = some ⟨base, size, valid⟩
            ∧ ∀ k, k ≠ n → ws[k]? = h.windows[k]?)
        -- BAR2 maps 256 MiB to 64 GiB, a power of two, on its own boundary
        ∧ (s.clocked = true → (∃ i ≤ 8, size = 2 ^ (28 + i) ∧ base % size = 0) →
          s.turn (.bar2 base size asid) = .next (host { h with bar2Base := base, bar2Size := size, bar2Asid := asid }))
        ∧ ((¬ ∃ i ≤ 8, size = 2 ^ (28 + i) ∧ base % size = 0) → s.turn (.bar2 base size asid) = .next s))
    ∧ (∀ (s : State) (n : Nat), n < 16 → ∃ t, exec (.windowRevocation n) s = .next t ∧ t.mach = s.mach ∧ t.agenda = s.agenda
      ∧ (∀ w, s.plat.host.windows[n]? = some w → t.plat.host.windows[n]? = some { w with valid := false })
      ∧ ∀ k, k ≠ n → t.plat.host.windows[k]? = s.plat.host.windows[k]?)
    ∧ (∀ (s : State) (v a : Nat),
      let host (h : HostSide) : State := { s with plat := { s.plat with host := h } }
      let h := s.plat.host
      exec .thermalTrip s = .next (host { h with thermtrip := true })
        ∧ ∃ v' a', exec (.voltageCurrentRequest v a) s = .next (host { h with milliVolt := v', milliAmp := a' })
          ∧ v' ≤ h.fuseVolt ∧ v' ≤ 1050 ∧ a' ≤ h.fuseAmp ∧ (v ≤ h.fuseVolt → v ≤ 1050 → v' = v) ∧ (a ≤ h.fuseAmp → a' = a)
          ∧ (h.fuseVolt < v → h.fuseVolt ≤ 1050 → v' = h.fuseVolt) ∧ (h.fuseAmp < a → a' = h.fuseAmp))
    ∧ (∀ (s : State) (w : SideWrite), ∃ t, exec (.i2cGpioWrite w) s = .next t ∧ t.mach = s.mach ∧ t.agenda = s.agenda
      ∧ (∀ bit v, w = .gpio bit v → (bit ∉ s.plat.host.gpioAllowed → t = s)
        ∧ (bit ∈ s.plat.host.gpioAllowed → mget t.plat.host.gpio bit = some v))
      ∧ ∀ bus adr v, w = .i2c bus adr v → ((bus, adr) ∉ s.plat.host.i2cAllowed → t = s)
        ∧ ((bus, adr) ∈ s.plat.host.i2cAllowed → adr < 1024 → mget t.plat.host.i2c (bus * 1024 + adr) = some v))
    ∧ ∀ (s : State) (out pixel : Nat) (x : Timing) (o : Output), out < 4 → s.plat.outputs[out]? = some o →
      (∃ t y, exec (.displayTimingWrite out x) s = .next t ∧ t.mach = s.mach ∧ t.plat.outputs[out]? = some { o with timing := y }
          ∧ 25000 ≤ y.pixelClockKHz ∧ y.pixelClockKHz ≤ 2700000 ∧ 23000 ≤ y.refreshMilliHz ∧ y.refreshMilliHz ≤ 500000
          ∧ Config.minBlanking y.pixelClockKHz y.refreshMilliHz ≤ y.blanking
          ∧ (25000 ≤ x.pixelClockKHz → x.pixelClockKHz ≤ 2700000 → y.pixelClockKHz = x.pixelClockKHz)
          ∧ (23000 ≤ x.refreshMilliHz → x.refreshMilliHz ≤ 500000 → y.refreshMilliHz = x.refreshMilliHz)
          ∧ (x.pixelClockKHz < 25000 → y.pixelClockKHz = 25000) ∧ (500000 < x.refreshMilliHz → y.refreshMilliHz = 500000))
        ∧ (∀ mode allot, s.clocked = true → ∃ t, s.turn (.outputSet out mode allot) = .next t ∧ t.mach = s.mach
          ∧ t.plat.outputs[out]? = some { o with mode := mode, allot := allot })
        -- scanout reads are charged to the output's allotment
        ∧ (∀ pa n, s.clocked = true → pa + n ≤ gddrTop → s.mach.solvent o.allot.toNat = true →
          s.turn (.scanout out pa n) = .next { s with mach := s.mach.billed (s.mach.paRead pa n).1 o.allot.toNat })
        ∧ ∃ t, exec (.scanoutUnderflow out pixel) s = .next t ∧ t.mach = s.mach
          ∧ t.plat.outputs[out]? = some { o with underflow := true, blackFrom := some pixel }

/-- R373, R374, R389 to R393: the boot ROM's choice and its measurements, the recovery mailbox, PROGKEY, flash, live update with
its drain, heartbeat and watchdog, and the SPDM responder.
The model's choices here: log 12 (DESIGN CHOICE), log 13 (PRESUMED), log 47 (DEDUCED). -/
def Obligations.FirmwareEvents : Prop :=
  (∀ (x : Sec),
      let good (n : Nat) : Prop := ∃ f, x.flash[n]? = some f ∧ f.valid = true ∧ x.accepts f.bytes = true
      let seq (n : Nat) : Nat := fieldAt (x.slotBytes n) 4 4
      (∀ n, x.choose 2 3 = some n → (n = 2 ∨ n = 3) ∧ good n ∧ (good 2 → good 3 → seq 2 ≤ seq n ∧ seq 3 ≤ seq n))
        ∧ (x.choose 2 3 = none → ¬ good 2 ∧ ¬ good 3)
        -- each stage that is accepted is measured and runs; with no Tchiavo the recovery mailbox is served
        ∧ (∀ n, x.choose 2 3 = some n →
          let blank : List Byte := List.replicate 48 0
          x.boot.runMon = some n ∧ x.boot.recovery = false ∧ x.boot.runFront = x.choose 0 1 ∧ x.boot.runOs = Config.osImageOk x.osImage
            ∧ x.boot.measure = [Config.sha384 (fwWhole (x.slotBytes n)),
              match x.choose 0 1 with
              | some k => Config.sha384 (fwWhole (x.slotBytes k))
              | none => blank,
              if Config.osImageOk x.osImage then Config.sha384 x.osImage else blank] ++ List.replicate 5 blank)
        ∧ (¬ good 2 → ¬ good 3 → x.boot.recovery = true ∧ x.boot.runMon = none ∧ x.boot.runFront = none ∧ x.boot.runOs = false
          ∧ x.boot.measure = List.replicate 8 (List.replicate 48 0))
        ∧ ∀ bs, x.accepts bs = true → fieldAt bs 0 4 = 0x4B564657 ∧ Config.sha384 ((bs.take (512 + fieldAt bs 16 8)).drop 512) = (bs.drop 24).take 48
          ∧ ∃ k pub, x.keys[fieldAt bs 72 4]? = some k ∧ k.revoked = false ∧ k.key = some pub
            ∧ Config.ecdsaVerify pub (Config.sha384 (bs.take 76)) ((bs.drop 76).take 96) = true)
    ∧ (∀ (s : State) (image : List Byte), s.plat.sec.recovery = true → s.plat.host.hostMode = false →
      s.plat.sec.measure ≠ [] →
      (s.plat.sec.accepts image = false → exec (.recoveryMailboxImage image) s = .next s)
        ∧ (s.plat.sec.accepts image = true → ∃ t, exec (.recoveryMailboxImage image) s = .next t ∧ t.mach = s.mach ∧ t.agenda = s.agenda
          ∧ t.plat.sec.recovery = false ∧ t.plat.sec.runMon = some 4 ∧ t.plat.sec.recoveryImage = image
          ∧ t.plat.sec.measure.head? = some (Config.sha384 (fwWhole image))))
    ∧ (∀ (s : State) (slot : Nat) (act : KeyAct) (k : KeySlot), s.plat.sec.runMon.isSome → slot < 5 → s.plat.sec.keys[slot]? = some k →
      (s.plat.host.progenLatched = false → exec (.progkey slot act) s = .next s)
        ∧ (s.plat.host.progenLatched = true → ∃ t, exec (.progkey slot act) s = .next t ∧ t.mach = s.mach ∧ t.agenda = s.agenda
          ∧ (act = .revoke → t.plat.sec.keys[slot]? = some { k with revoked := true })
          ∧ ∀ key, act = .program key → t.plat.sec.keys[slot]? =
            some (if slot ≠ 0 ∧ k.key = none ∧ key.length = 49 then { k with key := some key } else k)))
    ∧ (∀ (s : State) (slot : Nat) (act : FlashAct) (f : FwSlot), slot < 4 → s.plat.sec.flash[slot]? = some f →
      let running : Prop := s.plat.sec.runFront = some slot ∨ s.plat.sec.runMon = some slot
      (running → exec (.flashWrite slot act) s = .next s)
        ∧ (¬ running → ∃ t g, exec (.flashWrite slot act) s = .next t ∧ t.mach = s.mach ∧ t.agenda = s.agenda ∧ t.plat.host = s.plat.host
          ∧ t.plat.sec.flash[slot]? = some g ∧ (∀ k, k ≠ slot → t.plat.sec.flash[k]? = s.plat.sec.flash[k]?)
          ∧ (∀ off bs, act = .write off bs → ∀ k, g.bytes.getD k 0xFF =
            if off ≤ k ∧ k < off + bs.length then bs.getD (k - off) 0xFF else f.bytes.getD k 0xFF)
          ∧ (act = .close → g.valid = s.plat.sec.accepts f.bytes ∧ g.bytes = f.bytes)
          ∧ ∀ b, act = .erase b →
            (s.mach.timeNs < s.plat.sec.eraseReady → t = s)
              ∧ (s.plat.sec.eraseReady ≤ s.mach.timeNs → t.plat.sec.eraseReady = s.mach.timeNs + 100000000
                ∧ ∀ k, 65536 * b ≤ k → k < 65536 * b + 65536 → g.bytes.getD k 0xFF = 0xFF)))
    ∧ (∀ (s : State) (image : List Byte) (old : Nat), s.plat.sec.runFront = some old → s.plat.sec.update = none → old < 2 →
      let x := s.plat.sec
      let stored : Prop := fwWhole (x.slotBytes (1 - old)) = fwWhole image
      let quiet : Prop := ∀ p ∈ s.mach.queues, p.2.quiet = true
      -- the new image cannot restore the save areas of contexts that hold pre-empted groups
      let left : Prop := fieldAt image 8 4 / 16 % 2 = 0 ∧ ∃ v ∈ s.mach.saved, s.mach.undrained v = true
      let sec (y : Sec) : State := { s with plat := { s.plat with sec := y } }
      let good : Prop := (∃ f, x.flash[1 - old]? = some f ∧ f.valid = true) ∧ x.accepts image = true
        ∧ fieldAt image 12 4 = fieldAt (x.slotBytes old) 12 4
      let replaces : Prop := exec (.liveUpdate image) s = .next (sec (if good
        then { x with pending := false, drain := none, runFront := some (1 - old), update := some (old, s.mach.timeNs) }
        else { x with pending := false, drain := none }))
      (¬ stored → exec (.liveUpdate image) s = .next s.miss)
        ∧ (stored → x.drain = none → ¬ quiet → exec (.liveUpdate image) s = .next s.miss)
        ∧ (stored → x.drain = none → quiet → left →
          exec (.liveUpdate image) s = .next (sec { x with pending := false, drain := some (s.mach.timeNs, []) }))
        ∧ (stored → x.drain = none → quiet → ¬ left → replaces)
        ∧ ∀ since tried, stored → x.drain = some (since, tried) →
          (¬ left → s.mach.drainSlots tried = [] → quiet → replaces)
            ∧ (left → s.mach.timeNs < since + 20000000 → exec (.liveUpdate image) s = .next s.miss)
            -- a drain that takes longer leaves the update pending
            ∧ (left → since + 20000000 ≤ s.mach.timeNs → ∃ t, exec (.liveUpdate image) s = .next t ∧ t.agenda = s.agenda
              ∧ t.plat = { s.plat with sec := { x with pending := true, drain := none } }))
    ∧ (∀ (s : State) (image : List Byte), s.clocked = true →
      s.turn .heartbeat = .next { s with plat := { s.plat with sec := { s.plat.sec with update := none } } }
        ∧ s.turn (.osImage image) = .next { s with plat := { s.plat with sec := { s.plat.sec with osImage := image } } })
    ∧ (∀ (s : State) (old since : Nat), s.plat.sec.update = some (old, since) → since + 50000000 ≤ s.mach.timeNs →
      exec .watchdogExpiry s = .next { s with plat := { s.plat with sec := { s.plat.sec with runFront := some old, update := none } } })
    ∧ ∀ (s : State) (req : List Byte), s.plat.sec.runMon.isSome →
      let x := s.plat.sec
      let key := Config.deriveKey (leBytes 32 Config.uniqueSecret.toNat) (x.measure.getD 0 [])
      let sig (a : List Byte) : List Byte := Config.ecdsaSign key (Config.sha384 (x.transcript ++ req ++ a))
      -- on the DOE mailbox, or on the switchboard's in the root-port personality
      let answers (i : Instr) (y : Sec) (a : List Byte) : Prop := exec i s =
        .next { s with plat := { s.plat with sec := if s.plat.host.hostMode then { y with swBox := a } else { y with doe := a } } }
      let out (i : Instr) (y : Sec) (a : List Byte) : Prop := answers i { y with transcript := y.transcript ++ req ++ a } a
      -- a request out of the order of the negotiation
      let early (i : Instr) : Prop := answers i x (Config.spdmBody 127 req)
      out (.getVersion req) { x with version := true, caps := false, algs := false, transcript := [] } (Config.spdmBody 0 req ++ [])
        ∧ (x.version = true → out (.getCapabilities req) { x with caps := true, algs := false } (Config.spdmBody 1 req ++ []))
        ∧ (x.version = false → early (.getCapabilities req))
        ∧ (x.caps = true → out (.negotiateAlgorithms req) { x with algs := true } (Config.spdmBody 2 req ++ []))
        ∧ (x.caps = false → early (.negotiateAlgorithms req))
        ∧ (x.algs = false → ∀ i ∈ [Instr.getDigests req, .getCertificate req, .challenge req, .getMeasurements req], early i)
        ∧ (x.algs = true → out (.getDigests req) x (Config.spdmBody 3 req ++ Config.sha384 (Config.certChain key))
          ∧ out (.getCertificate req) x (Config.spdmBody 4 req ++ Config.certChain key)
          ∧ out (.challenge req) x (Config.spdmBody 5 req ++ ([] ++ sig (Config.spdmBody 5 req ++ [])))
          ∧ out (.getMeasurements req) x
            (Config.spdmBody 6 req ++ (x.measure.flatten ++ sig (Config.spdmBody 6 req ++ x.measure.flatten))))

/-- R375, R380, R389, R390, R395 to R397: cold and warm reset, D3, the gating of idle cores and the steps of the arithmetic
clock.
The model's choices here: log 2 (DESIGN CHOICE), log 9 (DESIGN CHOICE), log 10 (DESIGN CHOICE), log 12 (DESIGN CHOICE), log 44 (DEDUCED),
log 48 (DEDUCED), log 59 (DESIGN CHOICE). -/
def Obligations.PowerEvents : Prop :=
  (∀ (s : State),
      let fresh (t : State) : Prop := t.agenda = s.agenda ∧ t.mach.groups = [] ∧ t.mach.ctxs = [] ∧ t.mach.queues = [] ∧ t.mach.llc = []
        ∧ t.mach.cores = [] ∧ t.mach.allot = [(0, Allotment.zero)] ∧ t.mach.board.period = 4 ∧ t.mach.board.owner = 1 ∧ t.mach.mhz = 2300
        ∧ t.mach.timeNs = 0 ∧ t.mach.rel.hard = s.mach.rel.hard ∧ (∀ r ∈ t.mach.rel.soft, ∀ e ∈ r, e.getLsbD 9 = false)
        ∧ (∀ c ∈ t.mach.rel.status, c = .training) ∧ t.mach.rel.status.length = 32
      -- SR_TIME starts over, and with it what is left of the wait for the next erase
      let wait : Sec := { s.plat.sec with eraseReady := s.plat.sec.eraseReady - s.mach.timeNs }
      -- the boot ROM runs, and the verified front-end image says what may be written over I²C and GPIO
      let boots (t : State) : Prop := t.plat.sec = wait.boot ∧ t.plat.sec.keys = s.plat.sec.keys
        ∧ (wait.boot.runFront = none → t.plat.host.i2cAllowed = [] ∧ t.plat.host.gpioAllowed = [])
        ∧ ∀ n, wait.boot.runFront = some n → t.plat.host.i2cAllowed = (Config.i2cListed (fwWhole (wait.slotBytes n))).take 32
          ∧ t.plat.host.gpioAllowed = (Config.gpioListed (fwWhole (wait.slotBytes n))).take 32
      (∃ t, exec .coldReset s = .next t ∧ fresh t ∧ t.mach.mem = [] ∧ t.mach.rel.arrayLogs = List.replicate 4 ⟨[], 0⟩
          ∧ t.mach.rel.busLogs = List.replicate 32 ⟨[], 0⟩ ∧ t.mach.rel.gddrLog = ⟨[], 0⟩ ∧ t.plat.power = .d0
          ∧ t.plat.host.thermtrip = false ∧ t.plat.host.progenLatched = s.plat.host.progen ∧ (∀ w ∈ t.plat.host.windows, w.valid = false)
          ∧ boots t)
        ∧ (s.plat.power ≠ .d3cold → ∃ t, exec .warmReset s = .next t ∧ fresh t ∧ t.mach.mem = s.mach.mem
          ∧ t.mach.rel.arrayLogs = s.mach.rel.arrayLogs ∧ t.mach.rel.busLogs = s.mach.rel.busLogs ∧ t.mach.rel.gddrLog = s.mach.rel.gddrLog
          ∧ t.mach.rel.flips = s.mach.rel.flips ∧ t.mach.rel.bad = s.mach.rel.bad ∧ t.plat.power = .d0
          ∧ t.plat.host.thermtrip = s.plat.host.thermtrip ∧ boots t)
        ∧ (s.plat.power = .d0 → exec .d3hot s = .next { s with plat := { s.plat with power := .d3hot } })
        ∧ (s.plat.power = .d3hot → exec .d3hotExit s = .next { s with plat := { s.plat with power := .d0 } })
        ∧ ∃ t, exec .d3cold s = .next t ∧ t.mach.mem = [] ∧ t.mach.groups = []
          ∧ t.plat = { s.plat with sec := wait, power := .d3cold })
    ∧ ∀ (s : State) (core mhz : Nat),
      let k := s.mach.core core
      let only (i : Instr) (p : CorePower) : Prop := ∃ t, exec i s = .next t ∧ t.plat = s.plat ∧ t.agenda = s.agenda
        ∧ t.mach.groups = s.mach.groups ∧ t.mach.mem = s.mach.mem ∧ t.mach.core core = { k with power := p }
        ∧ ∀ n, n ≠ core → t.mach.core n = s.mach.core n
      (core < 128 → k.power = .on → k.lastIssue + s.mach.mhz ≤ s.mach.clk → only (.clockGate core) .clockGated)
        ∧ (core < 128 → k.power ≠ .powerGated → s.mach.resident core = [] → k.lastResident + 100 * s.mach.mhz ≤ s.mach.clk →
          only (.powerGate core) .powerGated)
        ∧ (800 ≤ mhz → mhz ≤ 2300 → mhz % 100 = 0 →
          exec (.clockFrequencyChange mhz) s = .next { s with mach := { s.mach with mhz := mhz } })
        -- a clk of k times 100 MHz lasts 10 / k ns, k at least 12 while a context is being halted
        ∧ (s.clocked = true → 800 ≤ s.mach.mhz → s.mach.mhz ≤ 2300 → s.mach.mhz % 100 = 0 →
          let clock : Nat := match s.mach.board.command with
            | some (.unmap _) | some (.swap _ _ false) => max 12 (s.mach.mhz / 100)
            | _ => s.mach.mhz / 100
          ∃ t, s.turn .tick = .next t ∧ t.mach.clk = s.mach.clk + 1 ∧ t.mach.timeRem < 5354228880
            ∧ clock * (5354228880 * t.mach.timeNs + t.mach.timeRem) =
              clock * (5354228880 * s.mach.timeNs + s.mach.timeRem) + 10 * 5354228880)

/-! ## Encoding, steps and the whole machine -/

/-- R68 to R84, R86: the decoder reads back every well-formed instruction from its encoding, whatever follows it, and whatever it
reads is the encoding of a well-formed instruction. -/
def Obligations.EncodeDecode : Prop :=
  (∀ (i : Instr) (rest : List Byte), i.isFarom = true → i.wf = true → decode (encode i ++ rest) = .ok (i, (encode i).length))
    ∧ ∀ (bs : List Byte) (i : Instr) (n : Nat), decode bs = .ok (i, n) → i.isFarom = true ∧ i.wf = true ∧ encode i = bs.take n ∧ n ≤ bs.length

/-- R86, R129, R152, R161, R206, R221, R262: words of the spec's worked encodings decode to the instructions they stand for, and
a reserved length or a nonzero reserved field is refused. -/
def Obligations.DecodeWords : Prop :=
  let c : Ctl := { stall := 0, yld := false, idm := false, gcc := 0, cond := .al }
  let v (n : Byte) : Opnd := ⟨.v, n⟩
  let w (n : Byte) : Opnd := ⟨.w, n⟩
  decodeTableWord 64 0x0063000406000148 = some (.fmul
      { ctl := c, flag := none, absB := false, absA := false, negB := false, negA := false, sat := false, rm := .rn
        d := v 6, a := v 1, b := .imm .e4m3 0x30, c := v 0, negC := false, absC := false })
    ∧ decodeTableWord 96 (0x0800200405008D4D + 0x4503 * 2 ^ 64) = some (.ffma
      { ctl := { c with gcc := 2, cond := .lt }, flag := none, absB := false, absA := false, negB := false, negA := true, sat := false
        rm := .rz, d := v 5, a := v 1, b := .reg (v 2), c := ⟨.k, 3⟩, negC := false, absC := true })
    ∧ decodeTableWord 64 0x8080400808040080 = some (.iadd
      { ctl := { c with stall := 4 }, flag := some 0, sub := 0, sat := false, ty := .n32, d := v 8, a := v 2, b := .reg (v 4), c := v 0 })
    ∧ decodeTableWord 64 0x5C508004020001C0 = some (.cvt
      { ctl := c, dst := .e4m3, src := .fp32, sat := true, rm := .rn, el := 0, d := v 2, a := v 1 })
    ∧ decodeTableWord 96 (0x2150100402000201 + 1 * 2 ^ 64) = some (.shfl
      { ctl := c, flag := none, seg := .s16, w64 := false, mode := .down, d := v 2, a := v 1, b := .imm .n8 1, c := v 1 })
    ∧ decodeTableWord 96 (0x01003C0804000241 + 0x00600800 * 2 ^ 64) = some (.ld
      { ctl := c, flag := none, op := .add, sgn := false, size := .b32, d := v 4, a := w 2, b := v 3, idx := true, sh := 2
        hint := .norm, off := 2, c := v 0 })
    ∧ decodeTableWord 64 0x505000000003C8 = some (.fillx { ctl := c, n := 5 })
    ∧ decodeTableWord 64 0x50300000001C = none
    ∧ decodeTableWord 64 0x005030000000001C = some (.trap { ctl := c, n := 3 })
    ∧ decodeTableWord 128 (0x0180000400000016 + 0xFF0500 * 2 ^ 64) = some (.switch { ctl := c, a := v 1, n := 3, keys := 0xFF0500 })
    ∧ decodeTableWord 128 (0x00305C100000034A + 0x00780309 * 2 ^ 64 + 0x004C3306 * 2 ^ 96) = some (.mxmul
      { ctl := c, op := .add, sgn := false, size := .b8, d := v 0, a := w 4, b := .reg (w 5), e := w 6, f := w 12, imm8b := 4
        spec := 3, gpar := true, gate := true, wbe := false, wbslot := 0, cmode := false, compl := w 9 })
    ∧ decodeTableWord 64 0x00B03000000003D0 = some (.atlbinv { ctl := c, scope := .asid, a := v 0, b := w 3 })
    ∧ (∀ w, decodeTableWord 64 (4 * w + 3) = none)

/-- R25, R68, R69, R86: the turn of a wave runs what its chosen entry fetches: the bytes at its PC, decoded, with the entry as the
issuing one; a reserved length, a misplaced or an undecodable instruction traps, in that order; the turn of another agent runs that agent's
step, unless it has to wait for clocks, and a step that touches a channel in training has no effect.
The model's choices here: log 1 (DESIGN CHOICE), log 29 (DEDUCED), log 42 (DESIGN CHOICE), log 44 (DEDUCED), log 84 (DESIGN CHOICE). -/
def Obligations.StepRuns : Prop :=
  -- what a step with a turn starts from: contexts whose ring failed halted, write-backs that a lock held gone on
  let start (s : State) (rest : List Turn) : State := { s.ready with agenda := rest }
  (∀ (s : State) (gid wave : Nat) (g : Group) (w : Wave) (e : DWord × Byte),
      s.mach.group gid = some g → g.wave wave = some w → s.mach.canIssue g w = true →
      let m := (s.mach.trimLoops g.core).paySlot g
      let pc := e.1.toNat
      let ls := w.entryLanes e.1 e.2
      -- an entry whose age count has reached 1024 and that no FORCED_ISSUE named
      let noted (x : Mach) : Mach := if w.aged e && w.forced != some e then x.count g.core g.asid 0x000A 1 (some (gid, wave)) else x
      let trapsOn (x : Mach) (ls : List Nat) (code addr : Nat) : Prop :=
        (w.loads ≠ [] → s.issueTurn gid wave = .next { s with mach := m.later gid wave e })
          ∧ (w.loads = [] →
            let m' := ((noted x).ageOthers gid wave e).deliver gid wave ⟨e.1, e.2, maskOf ls, code, 0, BitVec.ofNat 64 addr, false⟩
            s.issueTurn gid wave = .next { s with mach := m' })
      m.choose g w = some e →
        (pc % 4 ≠ 0 → trapsOn m ls Code.fetchAlign pc)
        ∧ ∀ cls m' bs, pc % 4 = 0 → m.check g.core g.asid (w.system g) .fetch 4 pc 0 = .ok cls →
          (m.core g.core).loopBytes w.laneset g.asid pc = [] → (ls.findSome? fun l => w.given l g.asid pc) = none →
          m.codeRead g w ls pc (min 16 (32 - pc % 32)) = .ok m' bs →
          let len := (bs.headD 0).toNat % 4
          let misplaced : Prop := 32 < pc % 32 + lenBytes len ∨ (opcOf bs = 5 ∧ len = 2 ∧ pc % 32 ≠ 0)
          -- the threads whose guard holds, or all where none does
          let act := ls.filter fun l => w.guard m'.clk (ctlOf (Raw.ofNat (leNat (bs.take 8)))) l
          let those := if act.isEmpty then ls else act
          (len = 3 → trapsOn m' those Code.illegalLength 0)
            ∧ (len ≠ 3 → misplaced → trapsOn m' those Code.fetchAlign pc)
            ∧ (len ≠ 3 → ¬ misplaced → (∀ r, decode bs ≠ .ok r) → trapsOn m' those Code.illegalInstruction 0)
            ∧ ∀ i n, len ≠ 3 → ¬ misplaced → decode bs = .ok (i, n) → m.solvent g.task.allot.toNat = true →
              let paid := noted (m.billed m' g.task.allot.toNat)
              let out := exec i { s with mach := { paid with issue := some ⟨gid, wave, e.1, e.2, n⟩ } }
              i.wf = true ∧ s.issueTurn gid wave = out
                ∧ ∀ s0 rest, s0.agenda = .issue gid wave :: rest → s0.clocked = true → start s0 rest = s → step s0 = s.keep out)
    ∧ (∀ (s : State) (rest : List Turn) (i : Instr), s.agenda = .event i :: rest →
      let s' := start s rest
      (s'.stalls i = true → step s = s'.keep (.next s'))
        ∧ (s'.stalls i = false → step s = s'.keep (exec i s')))
    ∧ (∀ (s : State) (r : Host.Outcome State Fault Refusal) (t : State), r = .next t →
      s.keep r = .next (if t.mach.rel.touched then { s with missed := true } else t))
    ∧ (∀ (s t : State) (gid wave : Nat) (m : Mach), s.agenda = [] → s.clocked = true → s.ready.nextEvent = none →
      s.ready.mach.pickWave = some (gid, wave, m) → { s.ready with mach := m }.issueTurn gid wave = .next t →
      t.mach.rel.touched = false → t.missed = false → step s = .next t)
    ∧ (∀ (s : State), s.missed = false → s.mach.rel.touched = false → s.mach.ringFaults = [] → s.mach.wbWait = [] → s.ready = s)
    ∧ ∀ (s : State), s.agenda = [.tick] → s.clocked = true → s.plat.host.admitted = [] → ∃ t, step s = .next t ∧ t.plat = s.plat
      ∧ t.agenda = [] ∧ t.mach.clk = s.ready.mach.clk + 1 ∧ t.mach.mem = s.ready.mach.mem ∧ t.mach.groups = s.ready.mach.groups

/-- R388, R389, R393: no step, of whatever agent, leaves the limits that the Hedgerow and the boot ROM enforce. -/
def Obligations.LimitsKept : Prop :=
  ∀ (s t : State), s.Limits → step s = .next t → t.Limits

/-- R389 to R393: no step changes a programmed key, clears a REVOKE fuse, programs slot 0, changes a fuse or a strap, or writes host
memory outside a valid window, or I²C and GPIO outside their lists, which stay until a reset; keys change only with PROGEN sampled, and THERMTRIP is cleared only by a cold reset. -/
def Obligations.FusesAndTrip : Prop :=
  ∀ (s t : State), step s = .next t →
    let x := s.plat.host
    let y := t.plat.host
    (∀ n k, s.plat.sec.keys[n]? = some k → ∃ k', t.plat.sec.keys[n]? = some k' ∧ (k.revoked = true → k'.revoked = true)
        ∧ (∀ p, k.key = some p → k'.key = some p) ∧ (n = 0 → k'.key = k.key))
      ∧ (t.plat.sec.keys ≠ s.plat.sec.keys → x.progenLatched = true)
      ∧ (y.fuseVolt, y.fuseAmp) = (x.fuseVolt, x.fuseAmp)
      -- the lists of what may be written over I²C and GPIO change only where a verified image starts to run
      ∧ ((y.i2cAllowed, y.gpioAllowed) = (x.i2cAllowed, x.gpioAllowed) ∨ s.agenda.head? = some (.event .coldReset)
        ∨ s.agenda.head? = some (.event .warmReset) ∨ ∃ image, s.agenda.head? = some (.event (.recoveryMailboxImage image)))
      ∧ (∀ b v, mget y.gpio b = some v → mget x.gpio b = some v ∨ b ∈ x.gpioAllowed)
      ∧ (∀ k v, mget y.i2c k = some v → mget x.i2c k = some v ∨ ∃ a ∈ x.i2cAllowed, k = a.1 * 1024 + a.2)
      ∧ (y.hostMode, y.progen, y.ringHead) = (x.hostMode, x.progen, x.ringHead)
      ∧ (x.thermtrip = true → y.thermtrip = true ∨ s.agenda.head? = some (.event .coldReset))
      ∧ ∀ a, cellGet y.memory a ≠ cellGet x.memory a → ∃ w ∈ x.windows, w.valid = true ∧ w.base ≤ a ∧ a < w.base + w.size

/-- R16, R170, R382, R393: a Farom instruction reaches the machine proper alone: it leaves the host, the Hedgerow, firmware and its
keys, the displays and the power state as they are, and so does the whole turn of a wave. -/
def Obligations.Isolation : Prop :=
  (∀ (i : Instr) (s t : State), i.isFarom = true → exec i s = .next t → t.plat = s.plat ∧ t.agenda = s.agenda)
    ∧ ∀ (s t : State) (rest : List Turn) (gid wave : Nat), s.agenda = .issue gid wave :: rest → step s = .next t →
      t.plat = s.plat ∧ t.agenda = rest

/-- R324, R371, R375, R380, R383, R389, R395: what reset leaves; the Hedgerow's limits hold there.
The model's choices here: log 2 (DESIGN CHOICE), log 3 (DESIGN CHOICE), log 11 (DESIGN CHOICE), log 12 (DESIGN CHOICE). -/
def Obligations.ResetState : Prop :=
  let m := State.reset.mach
  let noFuse (r : List (List (BitVec 10))) : Prop := r.length = 32 ∧ ∀ c ∈ r, c.length = 8 ∧ ∀ e ∈ c, e.getLsbD 9 = false
  State.reset.Limits ∧ m.mem = [] ∧ Memory.wf m.mem = true ∧ m.llc = [] ∧ m.ctxs = [] ∧ m.groups = [] ∧ m.queues = []
    ∧ m.rel.status = List.replicate 32 .training ∧ noFuse m.rel.soft
    ∧ m.rel.arrayLogs = List.replicate 4 ⟨[], 0⟩ ∧ m.rel.busLogs = List.replicate 32 ⟨[], 0⟩ ∧ m.rel.gddrLog = ⟨[], 0⟩
    ∧ m.board.period = 4
    ∧ m.allot = [(0, { budgets := List.replicate 5 0xFFFFFFFF, valid := true, strict := false, prio := 0, left := List.replicate 5 0xFFFFFFFF })]
    ∧ State.reset.plat.sec.measure = List.replicate 8 (List.replicate 48 0) ∧ m.link.count = 1
    ∧ (∀ u n, m.counter u n = ⟨0, 0, none, 0, 0, 0⟩) ∧ m.timeNs = 0 ∧ m.board.command = none
    -- slot 0 is fused with the vendor key, and no other slot is programmed
    ∧ State.reset.plat.sec.keys = ⟨some (leBytes 49 Config.vendorKey.toNat), false⟩ :: List.replicate 4 ⟨none, false⟩
end

