-- ==== Sys2Proof/Laws/Code.lean ====
section
/-! SUPPORT. Every reader of Decode.lean reads back what its encoder wrote: the fields of the base word and of the
extension layouts, one lemma for each form. -/

namespace Sys2Proof

/-! ## Fields -/

theorem b2n_le (b : Bool) : b2n b ≤ 1 := by cases b <;> decide
theorem b2n_eq_one (b : Bool) : (b2n b == 1) = b := by cases b <;> rfl
theorem bitOf_of {n k : Nat} {b : Bool} (h : n / 2 ^ k % 2 = b2n b) : bitOf n k = b := by
  unfold bitOf; rw [h]; exact b2n_eq_one b
theorem beq_one_of {n : Nat} {b : Bool} (h : n = b2n b) : (n == 1) = b := by rw [h]; exact b2n_eq_one b
theorem ofNat_of {w n : Nat} {v : BitVec w} (h : n % 2 ^ w = v.toNat) : BitVec.ofNat w n = v :=
  BitVec.eq_of_toNat_eq (by simp [BitVec.toNat_ofNat, h])

theorem Cls.code_lt (c : Cls) : c.code < 4 := by cases c <;> decide
theorem clsOf_code (c : Cls) : clsOf c.code = c := by cases c <;> rfl
theorem Opnd.code_lt (o : Opnd) : o.code < 1024 := by
  have := o.idx.isLt; have := o.cls.code_lt; unfold Opnd.code; omega
theorem opndOf_of {n : Nat} {o : Opnd} (h : n = o.code) : opndOf n = o := by
  subst h
  have h8 := o.idx.isLt
  have h4 := o.cls.code_lt
  have h1 : (o.idx.toNat + 256 * o.cls.code) / 256 = o.cls.code := by omega
  have h2 : BitVec.ofNat 8 (o.idx.toNat + 256 * o.cls.code) = o.idx := ofNat_of (by omega)
  cases o with
  | mk c v =>
    simp only [opndOf, Opnd.code] at *
    rw [h1, clsOf_code, h2]
theorem opndOf_zero : opndOf 0 = ⟨.v, 0⟩ := rfl

theorem IType.code_lt (t : IType) : t.code < 4 := by cases t <;> decide
theorem itypeOf_of {n : Nat} {t : IType} (h : n = t.code) : itypeOf n = t := by subst h; cases t <;> rfl
theorem Rm.code_lt (t : Rm) : t.code < 8 := by cases t <;> decide
theorem rmOf_of {n : Nat} {t : Rm} (h : n = t.code) : rmOf n = some t := by subst h; cases t <;> rfl
theorem Fmt.code_lt (t : Fmt) : t.code < 16 := by cases t <;> decide
theorem fmtOf_of {n : Nat} {t : Fmt} (h : n = t.code) : fmtOf n = some t := by subst h; cases t <;> rfl
theorem VbType.code_lt (t : VbType) : t.code < 4 := by cases t <;> decide
theorem vbOf_of {n : Nat} {t : VbType} (h : n = t.code) : vbOf n = t := by subst h; cases t <;> rfl
theorem Seg.code_lt (t : Seg) : t.code < 8 := by cases t <;> decide
theorem segOf_of {n : Nat} {t : Seg} (h : n = t.code) : segOf n = some t := by subst h; cases t <;> rfl
theorem Size.code_lt (t : Size) : t.code < 8 := by cases t <;> decide
theorem sizeOf_of {n : Nat} {t : Size} (h : n = t.code) : sizeOf' n = some t := by subst h; cases t <;> rfl
theorem AOp.code_lt (t : AOp) : t.code < 16 := by cases t <;> decide
theorem aopOf_of {n : Nat} {t : AOp} (h : n = t.code) : aopOf n = some t := by subst h; cases t <;> rfl
theorem Hint.code_lt (t : Hint) : t.code < 4 := by cases t <;> decide
theorem hintOf_of {n : Nat} {t : Hint} (h : n = t.code) : hintOf n = t := by subst h; cases t <;> rfl
theorem DFmt.code_lt (t : DFmt) : t.code < 4 := by cases t <;> decide
theorem dfmtOf_of {n : Nat} {t : DFmt} (h : n = t.code) : dfmtOf n = some t := by subst h; cases t <;> rfl
theorem ShMode.code_lt (t : ShMode) : t.code < 4 := by cases t <;> decide
theorem shModeOf_of {n : Nat} {t : ShMode} (h : n = t.code) : shModeOf n = t := by subst h; cases t <;> rfl
theorem QMode.code_lt (t : QMode) : t.code < 8 := by cases t <;> decide
theorem qModeOf_of {n : Nat} {t : QMode} (h : n = t.code) : qModeOf n = some t := by subst h; cases t <;> rfl
theorem VMode.code_lt (t : VMode) : t.code < 4 := by cases t <;> decide
theorem vModeOf_of {n : Nat} {t : VMode} (h : n = t.code) : vModeOf n = some t := by subst h; cases t <;> rfl
theorem ROp.code_lt (t : ROp) : t.code < 8 := by cases t <;> decide
theorem rOpOf_of {n : Nat} {t : ROp} (h : n = t.code) : rOpOf n = some t := by subst h; cases t <;> rfl
theorem invScopeOf_of {n : Nat} {t : InvScope} (h : n = t.code) : invScopeOf n = some t := by subst h; cases t <;> rfl
theorem InvScope.code_lt (t : InvScope) : t.code < 4 := by cases t <;> decide

theorem condOf_code (c : Cond) : condOf c.code = c := by cases c <;> rfl
theorem Cond.code_lt (c : Cond) : c.code < 16 := by cases c <;> decide
theorem ccdOf_lt (f : Option (BitVec 2)) : ccdOf f < 4 := by unfold ccdOf; exact BitVec.isLt _

/-- The control fields of an encoding. -/
theorem ctlOf_mk (len opc : Nat) (c : Ctl) (ccd d a : Nat) (b : Nat × Nat) (fn ext : Nat) :
    ctlOf (mk len opc c ccd d a b fn ext) = c := by
  cases c
  simp [ctlOf, mk, b2n_eq_one, condOf_code]
/-- The B field of an encoding. -/
theorem srcOf_mk (len opc : Nat) (c : Ctl) (ccd d a : Nat) (b : Src) (fn ext : Nat) :
    srcOf (mk len opc c ccd d a b.code fn ext) = some b := by
  cases b with
  | reg o => simp [srcOf, mk, Src.code, opndOf_of rfl]
  | imm k v =>
    have hv := v.isLt
    have h1 : BitVec.ofNat 8 (v.toNat + 256 * k.code) = v := ofNat_of (by omega)
    have h2 : (v.toNat + 256 * k.code) / 256 = k.code := by omega
    simp only [srcOf, mk, Src.code, h2]
    cases k <;> simp [Imk.code] at h1 ⊢ <;> exact h1
/-- The flag field of an encoding. -/
theorem flagOf_of {r : Raw} {f : Option (BitVec 2)} (h : r.fn / 2 ^ 8 % 2 = fBit f) (hc : r.ccd = ccdOf f) :
    flagOf r = f := by
  unfold flagOf
  rw [bitOf_of h, hc]
  cases f with
  | none => simp
  | some v => simp [ccdOf]

theorem alu0 (n : Nat) : field [10, 3, 1, 1] n 0 = n % 1024 := rfl
theorem alu1 (n : Nat) : field [10, 3, 1, 1] n 1 = n / 1024 % 8 := rfl
theorem ctl1 (n : Nat) : field [24, 8] n 1 = n / 16777216 % 256 := rfl
theorem mem0 (n : Nat) : field [10, 8, 2, 2, 1] n 0 = n % 1024 := rfl
theorem mem1 (n : Nat) : field [10, 8, 2, 2, 1] n 1 = n / 1024 % 256 := rfl
theorem mem2 (n : Nat) : field [10, 8, 2, 2, 1] n 2 = n / 1024 / 256 % 4 := rfl
theorem mem3 (n : Nat) : field [10, 8, 2, 2, 1] n 3 = n / 1024 / 256 / 4 % 4 := rfl
theorem mem4 (n : Nat) : field [10, 8, 2, 2, 1] n 4 = n / 1024 / 256 / 4 / 4 % 2 := rfl

theorem unpack_pack : ∀ (ws vs : List Nat), ws.length = vs.length → (∀ p ∈ ws.zip vs, p.2 < 2 ^ p.1) →
    unpack ws (pack ws vs) = vs
  | [], [], _, _ => rfl
  | w :: ws, v :: vs, hl, h => by
    have hv : v < 2 ^ w := h (w, v) (by simp)
    have ih := unpack_pack ws vs (by simpa using hl) (fun p hp => h p (by simp [hp]))
    have h1 : (v + 2 ^ w * pack ws vs) % 2 ^ w = v := by
      rw [Nat.add_mul_mod_self_left]; exact Nat.mod_eq_of_lt hv
    have h2 : (v + 2 ^ w * pack ws vs) / 2 ^ w = pack ws vs := by
      rw [Nat.add_mul_div_left _ _ (Nat.two_pow_pos w), Nat.div_eq_of_lt hv, Nat.zero_add]
    simp only [pack, unpack, h1, h2, ih]
  | [], _ :: _, hl, _ => by simp at hl
  | _ :: _, [], hl, _ => by simp at hl

/-! ## One lemma for each form -/

theorem dPlain_ePlain (len opc : Nat) (x : PlainOp) : dPlain (ePlain len opc x) = some x := by
  simp [dPlain, ePlain, ctlOf_mk]
theorem dImm_eImm (len opc : Nat) (x : ImmOp) : dImm (eImm len opc x) = some x := by
  cases x with
  | mk c n => simp [dImm, eImm, ctlOf_mk]; simp only [mk, bn8]; exact ofNat_of (by have := n.isLt; omega)
theorem fprioOf_of {r : Raw} {p : Option Byte} (h : r.fn = fprioFn p) : fprioOf r = p := by
  cases p with
  | none => simp [fprioOf, h, fprioFn, bitOf, b2n]
  | some v =>
    have hv := v.isLt
    have h1 : bitOf r.fn 8 = true := bitOf_of (by rw [h]; simp [fprioFn, b2n]; omega)
    have h2 : BitVec.ofNat 8 r.fn = v := ofNat_of (by rw [h]; simp only [fprioFn, Option.getD_some]; omega)
    simp [fprioOf, h1, h2]
theorem dBra_eBra (len opc : Nat) (x : BraOp) : dBra (eBra len opc x) = some x := by
  cases x with
  | mk c p t d =>
    have := t.isLt; have := d.isLt
    simp only [dBra, eBra, ctlOf_mk, Option.some.injEq, BraOp.mk.injEq, true_and]
    refine ⟨fprioOf_of rfl, ofNat_of ?_, ofNat_of ?_⟩ <;> simp only [mk, ctl1, pack, ectlWidths] <;> omega
theorem dCall_eCall (len opc : Nat) (x : CallOp) : dCall (eCall len opc x) = some x := by
  cases x with
  | mk c p t d o =>
    have := t.isLt; have := d.isLt
    simp only [dCall, eCall, ctlOf_mk, Option.some.injEq, CallOp.mk.injEq, true_and]
    refine ⟨fprioOf_of rfl, ofNat_of ?_, ofNat_of ?_, opndOf_of rfl⟩ <;> simp only [mk, ctl1, pack, ectlWidths] <;> omega
theorem dBrx_eBrx (len opc : Nat) (x : BrxOp) : dBrx (eBrx len opc x) = some x := by
  cases x
  simp only [dBrx, eBrx, ctlOf_mk, srcOf_mk, Option.map_some, Option.some.injEq, BrxOp.mk.injEq, true_and, and_true]
  exact opndOf_of rfl
theorem dOne_eOne (len opc : Nat) (x : OneOp) : dOne (eOne len opc x) = some x := by
  cases x
  simp only [dOne, eOne, ctlOf_mk, Option.some.injEq, OneOp.mk.injEq, true_and]
  exact opndOf_of rfl
theorem dSwitch_eSwitch (len opc : Nat) (x : SwitchOp) : dSwitch (eSwitch len opc x) = some x := by
  cases x with
  | mk c a n k =>
    have := n.isLt; have := k.isLt
    simp only [dSwitch, eSwitch, ctlOf_mk, Option.some.injEq, SwitchOp.mk.injEq, true_and]
    exact ⟨opndOf_of rfl, ofNat_of (by simp only [mk]; omega), ofNat_of (by simp only [mk]; omega)⟩
theorem dTokw_eTokw (len opc : Nat) (x : TokwOp) : dTokw (eTokw len opc x) = some x := by
  cases x with
  | mk c f t =>
    have hf := b2n_le f.isSome
    have ht := b2n_le t.isNone
    simp only [dTokw, eTokw, ctlOf_mk, Option.some.injEq, TokwOp.mk.injEq, true_and]
    refine ⟨flagOf_of (by simp only [mk, fBit]; omega) rfl, ?_⟩
    have h : bitOf (mk len opc c (ccdOf f) 0 ((t.map Opnd.code).getD 0) bz (b2n t.isNone + 256 * fBit f) 0).fn 0
        = t.isNone := bitOf_of (by simp only [mk, fBit]; omega)
    simp only [h]
    cases t with
    | none => rfl
    | some o => simp [mk, opndOf_of rfl]
theorem dAbc_eAbc (len opc : Nat) (x : AbcOp) : dAbc (eAbc len opc x) = some x := by
  cases x with
  | mk c a b d =>
    have := d.code_lt
    simp only [dAbc, eAbc, ctlOf_mk, srcOf_mk, Option.map_some, Option.some.injEq, AbcOp.mk.injEq, true_and]
    exact ⟨opndOf_of rfl, opndOf_of (by simp only [mk, aluWidths, alu0]; omega)⟩
theorem dBar_eBar (len opc : Nat) (x : BarOp) : dBar (eBar len opc x) = some x := by
  cases x with
  | mk c i w n =>
    have := i.isLt; have := b2n_le w
    simp only [dBar, eBar, ctlOf_mk, srcOf_mk, Option.map_some, Option.some.injEq, BarOp.mk.injEq, true_and, and_true]
    exact ⟨ofNat_of (by simp only [mk]; omega), bitOf_of (by simp only [mk]; omega)⟩
theorem dTb_eTb (len opc : Nat) (x : TbOp) : dTb (eTb len opc x) = some x := by
  cases x with
  | mk c v a b =>
    have := b2n_le v
    simp only [dTb, eTb, ctlOf_mk, srcOf_mk, Option.map_some, Option.some.injEq, TbOp.mk.injEq, true_and, and_true]
    exact ⟨bitOf_of (by simp only [mk]; omega), opndOf_of rfl⟩
theorem dAb_eAb (len opc : Nat) (x : AbOp) : dAb (eAb len opc x) = some x := by
  cases x
  simp only [dAb, eAb, ctlOf_mk, srcOf_mk, Option.map_some, Option.some.injEq, AbOp.mk.injEq, true_and, and_true]
  exact opndOf_of rfl

theorem dInt_eInt (len opc : Nat) (x : IntOp) : dInt (eInt len opc x) = some x := by
  cases x with
  | mk c f sub sat ty d a b cc =>
    have := b2n_le f.isSome; have := b2n_le sat; have := sub.isLt; have := ty.code_lt; have := cc.code_lt
    simp only [dInt, eInt, ctlOf_mk, srcOf_mk, Option.map_some, Option.some.injEq, IntOp.mk.injEq, true_and]
    refine ⟨flagOf_of ?_ rfl, ofNat_of ?_, bitOf_of ?_, itypeOf_of ?_, opndOf_of rfl, opndOf_of rfl, opndOf_of ?_⟩ <;>
      simp only [mk, pack, fBit, alu0, aluWidths] <;> omega

theorem dFlt_eFlt (len opc : Nat) (e : Bool) (x : FltOp) : dFlt e (eFlt len opc e x) = some x := by
  cases x with
  | mk c f p1 p2 p3 p4 p5 rm d a b cc p6 p7 =>
    have := b2n_le f.isSome; have := b2n_le p1; have := b2n_le p2; have := b2n_le p3; have := b2n_le p4
    have := b2n_le p5; have := b2n_le p6; have := b2n_le p7; have := rm.code_lt; have := cc.code_lt
    have hr : rmOf (rmField e (eFlt len opc e ⟨c, f, p1, p2, p3, p4, p5, rm, d, a, b, cc, p6, p7⟩)) = some rm := by
      refine rmOf_of ?_
      cases e <;> simp only [rmField, eFlt, mk, pack, fBit, alu1, aluWidths, if_true, Bool.false_eq_true, if_false] <;> omega
    simp only [dFlt, hr]
    simp only [eFlt, ctlOf_mk, srcOf_mk, Option.bind_eq_bind, Option.bind_some, Option.pure_def, Option.some.injEq,
      FltOp.mk.injEq, true_and]
    refine ⟨flagOf_of ?_ rfl, bitOf_of ?_, bitOf_of ?_, bitOf_of ?_, bitOf_of ?_, bitOf_of ?_, opndOf_of rfl, opndOf_of rfl,
      opndOf_of ?_, bitOf_of ?_, bitOf_of ?_⟩ <;> cases e <;>
      simp only [mk, pack, fBit, alu0, aluWidths, if_true, Bool.false_eq_true, if_false] <;> omega
theorem dHalf_eHalf (len opc : Nat) (e : Bool) (x : HalfOp) : dHalf e (eHalf len opc e x) = some x := by
  cases x with
  | mk c f p1 p2 p3 p4 p5 rm d a b cc p6 p7 =>
    have := b2n_le f.isSome; have := b2n_le p1; have := b2n_le p2; have := b2n_le p3; have := b2n_le p4
    have := b2n_le p5; have := b2n_le p6; have := b2n_le p7; have := rm.code_lt; have := cc.code_lt
    have hr : rmOf (rmField e (eHalf len opc e ⟨c, f, p1, p2, p3, p4, p5, rm, d, a, b, cc, p6, p7⟩)) = some rm := by
      refine rmOf_of ?_
      cases e <;> simp only [rmField, eHalf, mk, pack, fBit, alu1, aluWidths, if_true, Bool.false_eq_true, if_false] <;> omega
    simp only [dHalf, hr]
    simp only [eHalf, ctlOf_mk, srcOf_mk, Option.bind_eq_bind, Option.bind_some, Option.pure_def, Option.some.injEq,
      HalfOp.mk.injEq, true_and]
    refine ⟨flagOf_of ?_ rfl, bitOf_of ?_, bitOf_of ?_, bitOf_of ?_, bitOf_of ?_, bitOf_of ?_, opndOf_of rfl, opndOf_of rfl,
      opndOf_of ?_, bitOf_of ?_, bitOf_of ?_⟩ <;> cases e <;>
      simp only [mk, pack, fBit, alu0, aluWidths, if_true, Bool.false_eq_true, if_false] <;> omega

theorem dCvt_eCvt (len opc : Nat) (x : CvtOp) : dCvt (eCvt len opc x) = some x := by
  cases x with
  | mk c dst src sat rm el d a =>
    have := b2n_le sat; have := dst.code_lt; have := src.code_lt; have := rm.code_lt; have := el.isLt
    have h1 : rmOf ((eCvt len opc ⟨c, dst, src, sat, rm, el, d, a⟩).fn % 8) = some rm :=
      rmOf_of (by simp only [eCvt, mk, pack]; omega)
    have h2 : fmtOf ((eCvt len opc ⟨c, dst, src, sat, rm, el, d, a⟩).fn / 16 % 16) = some dst :=
      fmtOf_of (by simp only [eCvt, mk, pack]; omega)
    have h3 : fmtOf ((eCvt len opc ⟨c, dst, src, sat, rm, el, d, a⟩).b % 16) = some src :=
      fmtOf_of (by simp only [eCvt, mk, bn8]; omega)
    simp only [dCvt, h1, h2, h3]
    simp only [Option.bind_eq_bind, Option.bind_some, Option.pure_def, Option.some.injEq, CvtOp.mk.injEq, eCvt,
      ctlOf_mk, true_and]
    refine ⟨bitOf_of ?_, ofNat_of ?_, opndOf_of rfl, opndOf_of rfl⟩ <;> simp only [mk, pack, bn8] <;> omega
theorem dQntb_eQntb (len opc : Nat) (x : QntbOp) : dQntb (eQntb len opc x) = some x := by
  cases x with
  | mk c ty p2 d a b cc =>
    have := b2n_le p2; have := ty.code_lt; have := cc.code_lt
    simp only [dQntb, eQntb, ctlOf_mk, Option.some.injEq, QntbOp.mk.injEq, true_and]
    refine ⟨vbOf_of ?_, bitOf_of ?_, opndOf_of rfl, opndOf_of rfl, opndOf_of rfl, opndOf_of ?_⟩ <;>
      simp only [mk, alu0, aluWidths] <;> omega
theorem dDqnt_eDqnt (len opc : Nat) (x : DqntOp) : dDqnt (eDqnt len opc x) = some x := by
  cases x with
  | mk c f n d a b =>
    have := f.code_lt; have := n.isLt
    have h1 : dfmtOf ((eDqnt len opc ⟨c, f, n, d, a, b⟩).fn / 64 % 4) = some f :=
      dfmtOf_of (by simp only [eDqnt, mk]; omega)
    simp only [dDqnt, h1]
    simp only [Option.map_some, Option.some.injEq, DqntOp.mk.injEq, eDqnt, ctlOf_mk, true_and]
    refine ⟨ofNat_of ?_, opndOf_of rfl, opndOf_of rfl, opndOf_of rfl⟩
    simp only [mk]; omega
theorem dSclw_eSclw (len opc : Nat) (x : SclwOp) : dSclw (eSclw len opc x) = some x := by
  cases x with
  | mk c v ty rm d a =>
    have := b2n_le v; have := ty.code_lt; have := rm.code_lt
    have h1 : rmOf ((eSclw len opc ⟨c, v, ty, rm, d, a⟩).fn % 8) = some rm :=
      rmOf_of (by simp only [eSclw, mk, pack]; omega)
    simp only [dSclw, h1]
    simp only [Option.map_some, Option.some.injEq, SclwOp.mk.injEq, eSclw, ctlOf_mk, true_and]
    refine ⟨bitOf_of ?_, vbOf_of ?_, opndOf_of rfl, opndOf_of rfl⟩ <;> simp only [mk, pack] <;> omega

theorem dShfl_eShfl (len opc : Nat) (x : ShflOp) : dShfl (eShfl len opc x) = some x := by
  cases x with
  | mk c f seg w64 m d a b cc =>
    have := b2n_le f.isSome; have := b2n_le w64; have := seg.code_lt; have := m.code_lt; have := cc.code_lt
    have h1 : segOf ((eShfl len opc ⟨c, f, seg, w64, m, d, a, b, cc⟩).fn / 32 % 8) = some seg :=
      segOf_of (by simp only [eShfl, mk, pack, fBit]; omega)
    simp only [dShfl, h1]
    simp only [eShfl, ctlOf_mk, srcOf_mk, Option.bind_eq_bind, Option.bind_some, Option.pure_def, Option.some.injEq,
      ShflOp.mk.injEq, true_and]
    refine ⟨flagOf_of ?_ rfl, bitOf_of ?_, shModeOf_of ?_, opndOf_of rfl, opndOf_of rfl, opndOf_of ?_⟩ <;>
      simp only [mk, pack, fBit, alu0, aluWidths] <;> omega
theorem dQexch_eQexch (len opc : Nat) (x : QexchOp) : dQexch (eQexch len opc x) = some x := by
  cases x with
  | mk c w64 m d a =>
    have := b2n_le w64; have := m.code_lt
    have h1 : qModeOf ((eQexch len opc ⟨c, w64, m, d, a⟩).fn % 8) = some m :=
      qModeOf_of (by simp only [eQexch, mk]; omega)
    simp only [dQexch, h1]
    simp only [Option.map_some, Option.some.injEq, QexchOp.mk.injEq, eQexch, ctlOf_mk, true_and]
    refine ⟨bitOf_of ?_, opndOf_of rfl, opndOf_of rfl⟩
    simp only [mk]; omega
theorem dQder_eQder (len opc : Nat) (x : QderOp) : dQder (eQder len opc x) = some x := by
  cases x with
  | mk c co y d a =>
    have := b2n_le co; have := b2n_le y
    simp only [dQder, eQder, ctlOf_mk, Option.some.injEq, QderOp.mk.injEq, true_and]
    refine ⟨bitOf_of ?_, bitOf_of ?_, opndOf_of rfl, opndOf_of rfl⟩ <;> simp only [mk] <;> omega
theorem dVote_eVote (len opc : Nat) (x : VoteOp) : dVote (eVote len opc x) = some x := by
  cases x with
  | mk c f seg m d a =>
    have := b2n_le f.isSome; have := seg.code_lt; have := m.code_lt
    have h1 : segOf ((eVote len opc ⟨c, f, seg, m, d, a⟩).fn / 32 % 8) = some seg :=
      segOf_of (by simp only [eVote, mk, pack, fBit]; omega)
    have h2 : vModeOf ((eVote len opc ⟨c, f, seg, m, d, a⟩).fn % 4) = some m :=
      vModeOf_of (by simp only [eVote, mk, pack, fBit]; omega)
    simp only [dVote, h1, h2]
    simp only [Option.bind_eq_bind, Option.bind_some, Option.pure_def, Option.some.injEq, VoteOp.mk.injEq, eVote,
      ctlOf_mk, true_and]
    refine ⟨flagOf_of ?_ rfl, opndOf_of rfl, opndOf_of rfl⟩
    simp only [mk, pack, fBit]; omega
theorem dMatch_eMatch (len opc : Nat) (x : MatchOp) : dMatch (eMatch len opc x) = some x := by
  cases x with
  | mk c f seg w64 d a =>
    have := b2n_le f.isSome; have := seg.code_lt; have := b2n_le w64
    have h1 : segOf ((eMatch len opc ⟨c, f, seg, w64, d, a⟩).fn / 32 % 8) = some seg :=
      segOf_of (by simp only [eMatch, mk, pack, fBit]; omega)
    simp only [dMatch, h1]
    simp only [Option.map_some, Option.some.injEq, MatchOp.mk.injEq, eMatch, ctlOf_mk, true_and]
    refine ⟨flagOf_of ?_ rfl, bitOf_of ?_, opndOf_of rfl, opndOf_of rfl⟩ <;> simp only [mk, pack, fBit] <;> omega
theorem dRedux_eRedux (len opc : Nat) (x : ReduxOp) : dRedux (eRedux len opc x) = some x := by
  cases x with
  | mk c flt seg op ty rm excl d a =>
    have := b2n_le flt; have := seg.code_lt; have := op.code_lt; have := ty.code_lt; have := rm.code_lt; have := b2n_le excl
    have h1 : segOf ((eRedux len opc ⟨c, flt, seg, op, ty, rm, excl, d, a⟩).fn / 32 % 8) = some seg :=
      segOf_of (by simp only [eRedux, mk, pack]; omega)
    have h2 : rOpOf ((eRedux len opc ⟨c, flt, seg, op, ty, rm, excl, d, a⟩).fn / 4 % 8) = some op :=
      rOpOf_of (by simp only [eRedux, mk, pack]; omega)
    have h3 : rmOf ((eRedux len opc ⟨c, flt, seg, op, ty, rm, excl, d, a⟩).b % 8) = some rm :=
      rmOf_of (by simp only [eRedux, mk, bn8]; omega)
    simp only [dRedux, h1, h2, h3]
    simp only [Option.bind_eq_bind, Option.bind_some, Option.pure_def, Option.some.injEq, ReduxOp.mk.injEq, eRedux,
      ctlOf_mk, true_and]
    refine ⟨bitOf_of ?_, itypeOf_of ?_, bitOf_of ?_, opndOf_of rfl, opndOf_of rfl⟩ <;> simp only [mk, pack, bn8] <;> omega
theorem dElect_eElect (len opc : Nat) (x : ElectOp) : dElect (eElect len opc x) = some x := by
  cases x with
  | mk c ccd seg d =>
    have := seg.code_lt; have := b2n_le d.isSome; have := ccd.isLt
    have h1 : segOf ((eElect len opc ⟨c, ccd, seg, d⟩).fn / 32 % 8) = some seg :=
      segOf_of (by simp only [eElect, mk, pack]; omega)
    have h2 : bitOf (eElect len opc ⟨c, ccd, seg, d⟩).fn 0 = d.isSome :=
      bitOf_of (by simp only [eElect, mk, pack]; omega)
    simp only [dElect, h1, h2, Option.map_some, Option.some.injEq, ElectOp.mk.injEq, true_and]
    simp only [eElect, ctlOf_mk, true_and]
    refine ⟨ofNat_of (by simp only [mk]; omega), ?_⟩
    cases d with
    | none => rfl
    | some o => simp [mk, opndOf_of rfl]
theorem dLanew_eLanew (len opc : Nat) (x : LanewOp) : dLanew (eLanew len opc x) = some x := by
  cases x
  simp only [dLanew, eLanew, ctlOf_mk, srcOf_mk, Option.map_some, Option.some.injEq, LanewOp.mk.injEq, true_and, and_true]
  exact ⟨opndOf_of rfl, opndOf_of rfl⟩

theorem dMem_eMem (len opc : Nat) (x : MemOp) : dMem (eMem len opc x) = some x := by
  cases x with
  | mk c f op sgn size d a b idx sh hint off cc =>
    have := b2n_le f.isSome; have := op.code_lt; have := b2n_le sgn; have := size.code_lt; have := b2n_le idx
    have := sh.isLt; have := hint.code_lt; have := off.isLt; have := cc.code_lt
    have h1 : aopOf ((eMem len opc ⟨c, f, op, sgn, size, d, a, b, idx, sh, hint, off, cc⟩).fn / 16 % 16) = some op :=
      aopOf_of (by simp only [eMem, mk, pack, fBit]; omega)
    have h2 : sizeOf' ((eMem len opc ⟨c, f, op, sgn, size, d, a, b, idx, sh, hint, off, cc⟩).fn % 8) = some size :=
      sizeOf_of (by simp only [eMem, mk, pack, fBit]; omega)
    simp only [dMem, h1, h2, Option.bind_eq_bind, Option.bind_some, Option.pure_def, Option.some.injEq, MemOp.mk.injEq, true_and]
    simp only [eMem, ctlOf_mk, true_and]
    refine ⟨flagOf_of ?_ rfl, bitOf_of ?_, opndOf_of rfl, opndOf_of rfl, opndOf_of rfl, beq_one_of ?_, ofNat_of ?_, hintOf_of ?_,
      ofNat_of ?_, opndOf_of ?_⟩ <;> simp only [mk, pack, fBit, mem0, mem1, mem2, mem3, mem4, memWidths] <;> omega
theorem dTxend_eTxend (len opc : Nat) (x : TxendOp) : dTxend (eTxend len opc x) = some x := by
  cases x with
  | mk c f =>
    have := b2n_le f.isSome
    simp only [dTxend, eTxend, ctlOf_mk, Option.some.injEq, TxendOp.mk.injEq, true_and]
    exact flagOf_of (by simp only [mk, fBit]; omega) rfl

theorem dAsync_eAsync (len opc : Nat) (x : AsyncOp) : dAsync (eAsync len opc x) = some x := by
  cases x with
  | mk c op sgn size d a b e f imm spec gpar gate wbe wbslot cmode compl =>
    have := op.code_lt; have := b2n_le sgn; have := size.code_lt
    have h1 : aopOf ((eAsync len opc ⟨c, op, sgn, size, d, a, b, e, f, imm, spec, gpar, gate, wbe, wbslot, cmode, compl⟩).fn
        / 16 % 16) = some op := aopOf_of (by simp only [eAsync, mk, pack]; omega)
    have h2 : sizeOf' ((eAsync len opc ⟨c, op, sgn, size, d, a, b, e, f, imm, spec, gpar, gate, wbe, wbslot, cmode, compl⟩).fn
        % 8) = some size := sizeOf_of (by simp only [eAsync, mk, pack]; omega)
    have hu := unpack_pack asyncWidths [compl.code, b2n cmode, wbslot.toNat, b2n wbe, b2n gate, b2n gpar, spec.toNat, e.code,
      f.code, imm.toNat] rfl (by
        have := compl.code_lt; have := b2n_le cmode; have := wbslot.isLt; have := b2n_le wbe; have := b2n_le gate
        have := b2n_le gpar; have := spec.isLt; have := e.code_lt; have := f.code_lt; have := imm.isLt
        intro p hp
        simp only [asyncWidths, List.zip_cons_cons, List.zip_nil_right, List.mem_cons, List.not_mem_nil, or_false] at hp
        rcases hp with h | h | h | h | h | h | h | h | h | h <;> subst h <;> simp <;> omega)
    simp only [dAsync, h1, h2]
    simp only [eAsync, ctlOf_mk, srcOf_mk, Option.bind_eq_bind, Option.bind_some, Option.pure_def, Option.some.injEq,
      AsyncOp.mk.injEq, true_and]
    simp only [field, mk, hu]
    exact ⟨bitOf_of (by simp only [pack]; omega), opndOf_of rfl, opndOf_of rfl, opndOf_of rfl, opndOf_of rfl, ofNat_of (Nat.mod_eq_of_lt (BitVec.isLt _)),
      ofNat_of (Nat.mod_eq_of_lt (BitVec.isLt _)), beq_one_of rfl, beq_one_of rfl, beq_one_of rfl, ofNat_of (Nat.mod_eq_of_lt (BitVec.isLt _)), beq_one_of rfl, opndOf_of rfl⟩

theorem dTlrdel_eTlrdel (len opc : Nat) (x : TlrdelOp) : dTlrdel (eTlrdel len opc x) = some x := by
  cases x; simp [dTlrdel, eTlrdel, ctlOf_mk, srcOf_mk]
theorem dMxtok_eMxtok (len opc : Nat) (x : MxtokOp) : dMxtok (eMxtok len opc x) = some x := by
  cases x
  simp only [dMxtok, eMxtok, ctlOf_mk, Option.some.injEq, MxtokOp.mk.injEq, true_and]
  exact opndOf_of rfl
theorem dGrvinv_eGrvinv (len opc : Nat) (x : GrvinvOp) : dGrvinv (eGrvinv len opc x) = some x := by
  cases x with
  | mk c all a b =>
    have := b2n_le all
    simp only [dGrvinv, eGrvinv, ctlOf_mk, srcOf_mk, Option.map_some, Option.some.injEq, GrvinvOp.mk.injEq, true_and, and_true]
    exact ⟨bitOf_of (by simp only [mk]; omega), opndOf_of rfl⟩
theorem dAtlbinv_eAtlbinv (len opc : Nat) (x : AtlbinvOp) : dAtlbinv (eAtlbinv len opc x) = some x := by
  cases x with
  | mk c s a b =>
    have := s.code_lt
    have h1 : invScopeOf ((eAtlbinv len opc ⟨c, s, a, b⟩).fn % 4) = some s :=
      invScopeOf_of (by simp only [eAtlbinv, mk]; omega)
    simp only [dAtlbinv, h1]
    simp only [Option.map_some, Option.some.injEq, AtlbinvOp.mk.injEq, eAtlbinv, ctlOf_mk, true_and]
    exact ⟨opndOf_of rfl, opndOf_of rfl⟩

/-! ## Bytes -/

theorem leBytes_length (n x : Nat) : (leBytes n x).length = n := by
  induction n generalizing x with
  | zero => rfl
  | succ n ih => simp [leBytes, ih]
theorem leNat_leBytes (n x : Nat) : leNat (leBytes n x) = x % 256 ^ n := by
  induction n generalizing x with
  | zero => simp [leBytes, leNat, Nat.mod_one]
  | succ n ih =>
    simp only [leBytes, leNat, ih, BitVec.toNat_ofNat]
    have h : 256 ^ (n + 1) = 256 * 256 ^ n := Nat.pow_succ'
    rw [show (2 : Nat) ^ 8 = 256 from rfl, h, Nat.mod_mul]
theorem leBytes_leNat (bs : List Byte) : leBytes bs.length (leNat bs) = bs := by
  induction bs with
  | nil => rfl
  | cons b bs ih =>
    have hb : b.toNat < 256 := b.isLt
    have h1 : BitVec.ofNat 8 (b.toNat + 256 * leNat bs) = b := by
      apply BitVec.eq_of_toNat_eq; simp only [BitVec.toNat_ofNat]; omega
    have h2 : (b.toNat + 256 * leNat bs) / 256 = leNat bs := by omega
    simp only [List.length_cons, leNat, leBytes, h1, h2, ih]
/-- The first byte of an encoding holds LEN in its low bits. -/
theorem leBytes_head (n x : Nat) : leBytes (n + 1) x = BitVec.ofNat 8 x :: leBytes n (x / 256) := rfl

/-- Fields that the opcode map reads as a well-formed instruction, and that it encodes, are accepted. -/
theorem decodeRaw_of {i : Instr} {r : Raw} (hp : parse r = some i) (hw : i.wf = true) (hr : i.raw = some r) :
    decodeRaw r = some i := by
  simp [decodeRaw, hp, hw, hr]

end Sys2Proof
end

