-- ==== Sys2Proof/Laws/Maps.lean ====
section
/-! SUPPORT. Laws of tables and of memory: a read after a write, and the canonical form of memory kept by writes. -/

namespace Sys2Proof.Machine

/-! ## Tables -/

@[simp] theorem mget_mput_self {α : Type} (m : Map α) (k : Nat) (x : α) : mget (mput m k x) k = some x := by
  induction m with
  | nil => simp [mput, mget]
  | cons p t ih =>
    obtain ⟨a, y⟩ := p
    simp only [mput]
    split
    · simp [mget]
    · split
      · simp [mget]
      · rename_i h1 h2
        simp [mget, Ne.symm h2, ih]

theorem mget_mput_ne {α : Type} (m : Map α) {j k : Nat} (x : α) (h : j ≠ k) : mget (mput m k x) j = mget m j := by
  induction m with
  | nil => simp [mput, mget, Ne.symm h]
  | cons p t ih =>
    obtain ⟨a, y⟩ := p
    simp only [mput]
    split
    · simp [mget, Ne.symm h]
    · split
      · rename_i h1 h2
        subst h2
        simp [mget, Ne.symm h]
      · simp [mget, ih]

theorem mget_mput {α : Type} (m : Map α) (j k : Nat) (x : α) :
    mget (mput m k x) j = if j = k then some x else mget m j := by
  split
  · rename_i h; subst h; simp
  · rename_i h; exact mget_mput_ne m x h

@[simp] theorem mgetD_mput_self {α : Type} (m : Map α) (k : Nat) (x d : α) : mgetD (mput m k x) k d = x := by
  simp [mgetD]

theorem mgetD_mput_ne {α : Type} (m : Map α) {j k : Nat} (x d : α) (h : j ≠ k) :
    mgetD (mput m k x) j d = mgetD m j d := by
  simp [mgetD, mget_mput_ne m x h]

theorem mget_mdel_self {α : Type} (m : Map α) (k : Nat) : mget (mdel m k) k = none := by
  induction m with
  | nil => rfl
  | cons p t ih =>
    obtain ⟨a, y⟩ := p
    by_cases h : a = k
    · subst h; simpa [mdel] using ih
    · simpa [mdel, h, mget] using ih

theorem mget_mdel_ne {α : Type} (m : Map α) {j k : Nat} (h : j ≠ k) : mget (mdel m k) j = mget m j := by
  induction m with
  | nil => rfl
  | cons p t ih =>
    obtain ⟨a, y⟩ := p
    simp only [mdel] at ih
    by_cases ha : a = k
    · subst ha
      simpa [mdel, mget, Ne.symm h] using ih
    · simp [mdel, ha, mget, ih]

/-! ## Physical memory -/

/-- A canonical list stays canonical from a lower bound on. -/
theorem Memory.wfFrom_mono {mem : List Host.Cell} {lo lo' : Nat} (h : Memory.wfFrom lo mem = true) (hl : lo' ≤ lo) :
    Memory.wfFrom lo' mem = true := by
  cases mem with
  | nil => rfl
  | cons p t =>
    obtain ⟨a, c⟩ := p
    simp only [Memory.wfFrom, Bool.and_eq_true, decide_eq_true_eq] at h ⊢
    exact ⟨⟨by omega, h.1.2⟩, h.2⟩

theorem Memory.wfFrom_filter {mem : List Host.Cell} {lo : Nat} (f : Host.Cell → Bool) (h : Memory.wfFrom lo mem = true) :
    Memory.wfFrom lo (mem.filter f) = true := by
  induction mem generalizing lo with
  | nil => rfl
  | cons p t ih =>
    obtain ⟨a, c⟩ := p
    simp only [Memory.wfFrom, Bool.and_eq_true, decide_eq_true_eq] at h
    by_cases hf : f (a, c) = true
    · simp [hf, Memory.wfFrom, h.1.1, h.1.2, ih h.2]
    · simpa [hf] using Memory.wfFrom_mono (ih h.2) (by omega)

theorem Memory.wfFrom_cellIns {mem : List Host.Cell} {lo k : Nat} {b : Byte} (h : Memory.wfFrom lo mem = true)
    (hk : lo ≤ k) (hb : b ≠ memDefault) : Memory.wfFrom lo (cellIns mem k b) = true := by
  induction mem generalizing lo with
  | nil => simp [cellIns, Memory.wfFrom, hb, hk]
  | cons p t ih =>
    obtain ⟨a, c⟩ := p
    simp only [Memory.wfFrom, Bool.and_eq_true, decide_eq_true_eq] at h
    simp only [cellIns]
    split
    · simp [hb, Memory.wfFrom, hk, h.1.2, h.2]; omega
    · split
      · rename_i h1 h2
        subst h2
        simp [hb, Memory.wfFrom, h.1.1, h.2]
      · simp [Memory.wfFrom, h.1.1, h.1.2, ih h.2 (by omega)]

/-- A byte write keeps the canonical form of memory. -/
theorem Memory.wf_cellPut {mem : List Host.Cell} (k : Nat) (b : Byte) (h : Memory.wf mem = true) :
    Memory.wf (cellPut mem k b) = true := by
  unfold cellPut
  split
  · exact Memory.wfFrom_filter _ h
  · exact Memory.wfFrom_cellIns h (Nat.zero_le k) ‹_›

theorem Memory.wf_nil : Memory.wf [] = true := rfl

/-- A byte write is read at its address, and leaves every other byte alone. -/
theorem cellGet_cellPut (mem : List Host.Cell) (j k : Nat) (b : Byte) :
    cellGet (cellPut mem k b) j = if j = k then b else cellGet mem j := by
  unfold cellPut
  split
  · rename_i hb
    induction mem with
    | nil => by_cases hj : j = k <;> simp [cellGet, hj, hb]
    | cons p t ih =>
      obtain ⟨a, c⟩ := p
      by_cases ha : a = k
      · subst ha
        by_cases hj : j = a <;> simp_all [cellGet]
        simp [Ne.symm hj]
      · by_cases hj : a = j <;> simp_all [cellGet]
  · induction mem with
    | nil =>
      by_cases hj : j = k
      · simp [cellIns, cellGet, hj]
      · simp [cellIns, cellGet, hj, Ne.symm hj]
    | cons p t ih =>
      obtain ⟨a, c⟩ := p
      simp only [cellIns]
      by_cases hj : j = k
      · subst hj
        split
        · simp [cellGet]
        · split
          · simp [cellGet]
          · have : a ≠ j := fun e => by simp_all
            simp_all [cellGet]
      · split
        · simp [cellGet, Ne.symm hj]
        · split
          · rename_i h1 h2
            subst h2
            simp [cellGet, Ne.symm hj]
          · by_cases ha : a = j <;> simp_all [cellGet]

theorem cellGet_cellPut_self (mem : List Host.Cell) (k : Nat) (b : Byte) : cellGet (cellPut mem k b) k = b := by
  simp [cellGet_cellPut]

theorem cellGet_cellPut_ne (mem : List Host.Cell) {j k : Nat} (b : Byte) (hj : j ≠ k) :
    cellGet (cellPut mem k b) j = cellGet mem j := by simp [cellGet_cellPut, hj]

/-! ## Thread order (R22, R204) -/

/-- Sorting permutes. -/
theorem sortOn_perm {α : Type} (key : α → Nat) (l : List α) : (sortOn key l).Perm l := by
  induction l with
  | nil => exact .refl _
  | cons a t ih =>
    refine .trans ?_ (ih.cons a)
    show (List.takeWhile _ (sortOn key t) ++ a :: List.dropWhile _ (sortOn key t)).Perm _
    refine List.perm_middle.trans (.cons a ?_)
    rw [List.takeWhile_append_dropWhile]
/-- Thread order permutes the lanes of an entry. -/
theorem byThread_perm {α : Type} (r : TaskRec) (wave : Nat) (lane : α → Nat) (l : List α) : (r.byThread wave lane l).Perm l := by
  unfold TaskRec.byThread
  split
  · exact sortOn_perm _ _
  · exact .refl _

end Sys2Proof.Machine
end

