-- ==== Sys2Proof/Laws/PerInstr.lean ====
section
/-! SUPPORT. The family RoundTrip (R68 to R86): the decoder accepts the fields of every well-formed instruction and reads
that instruction back from them. An event row has no fields. -/

namespace Sys2Proof.Laws.RoundTrip

/-- The fields of a well-formed instruction decode to it. -/
def Statement (i : Instr) : Prop := i.wf = true → ∀ r, i.raw = some r → decodeRaw r = some i

/-- The one argument of every Farom row: its fields are read back whole. -/
theorem of_parse {i : Instr} {q : Raw} (hr : i.raw = some q) (hp : parse q = some i) : Statement i := by
  intro hw r h
  rw [hr] at h
  cases h
  exact decodeRaw_of hp hw hr
/-- An event row has no words. -/
theorem of_event {i : Instr} (h : i.raw = none) : Statement i := by
  intro _ r hr
  rw [h] at hr
  cases hr

theorem nop (x) : Statement (.nop x) :=
  of_parse rfl (congrArg (Option.map Instr.nop) (dPlain_ePlain 0 0x00 x))
theorem bra (x) : Statement (.bra x) :=
  of_parse rfl (congrArg (Option.map Instr.bra) (dBra_eBra 1 0x01 x))
theorem brx (x) : Statement (.brx x) :=
  of_parse rfl (congrArg (Option.map Instr.brx) (dBrx_eBrx 0 0x02 x))
theorem call (x) : Statement (.call x) :=
  of_parse rfl (congrArg (Option.map Instr.call) (dCall_eCall 1 0x03 x))
theorem ret (x) : Statement (.ret x) :=
  of_parse rfl (congrArg (Option.map Instr.ret) (dOne_eOne 0 0x04 x))
theorem switch (x) : Statement (.switch x) :=
  of_parse rfl (congrArg (Option.map Instr.switch) (dSwitch_eSwitch 2 0x05 x))
theorem exit (x) : Statement (.exit x) :=
  of_parse rfl (congrArg (Option.map Instr.exit) (dPlain_ePlain 0 0x06 x))
theorem trap (x) : Statement (.trap x) :=
  of_parse rfl (congrArg (Option.map Instr.trap) (dImm_eImm 0 0x07 x))
theorem brk (x) : Statement (.brk x) :=
  of_parse rfl (congrArg (Option.map Instr.brk) (dImm_eImm 0 0x08 x))
theorem yield (x) : Statement (.yield x) :=
  of_parse rfl (congrArg (Option.map Instr.yield) (dPlain_ePlain 0 0x09 x))
theorem eret (x) : Statement (.eret x) :=
  of_parse rfl (congrArg (Option.map Instr.eret) (dPlain_ePlain 0 0x0A x))
theorem isync (x) : Statement (.isync x) :=
  of_parse rfl (congrArg (Option.map Instr.isync) (dPlain_ePlain 0 0x0C x))
theorem tokw (x) : Statement (.tokw x) :=
  of_parse rfl (congrArg (Option.map Instr.tokw) (dTokw_eTokw 0 0x0D x))
theorem spawn (x) : Statement (.spawn x) :=
  of_parse rfl (congrArg (Option.map Instr.spawn) (dOne_eOne 0 0x10 x))
theorem spawnr (x) : Statement (.spawnr x) :=
  of_parse rfl (congrArg (Option.map Instr.spawnr) (dAbc_eAbc 1 0x11 x))
theorem await (x) : Statement (.await x) :=
  of_parse rfl (congrArg (Option.map Instr.await) (dPlain_ePlain 0 0x12 x))
theorem frame (x) : Statement (.frame x) :=
  of_parse rfl (congrArg (Option.map Instr.frame) (dPlain_ePlain 0 0x13 x))
theorem bara (x) : Statement (.bara x) :=
  of_parse rfl (congrArg (Option.map Instr.bara) (dBar_eBar 0 0x14 x))
theorem barw (x) : Statement (.barw x) :=
  of_parse rfl (congrArg (Option.map Instr.barw) (dPlain_ePlain 0 0x15 x))
theorem baraw (x) : Statement (.baraw x) :=
  of_parse rfl (congrArg (Option.map Instr.baraw) (dBar_eBar 0 0x16 x))
theorem tbinit (x) : Statement (.tbinit x) :=
  of_parse rfl (congrArg (Option.map Instr.tbinit) (dAbc_eAbc 1 0x18 x))
theorem tbarr (x) : Statement (.tbarr x) :=
  of_parse rfl (congrArg (Option.map Instr.tbarr) (dTb_eTb 0 0x19 x))
theorem tbexp (x) : Statement (.tbexp x) :=
  of_parse rfl (congrArg (Option.map Instr.tbexp) (dTb_eTb 0 0x1A x))
theorem tbwait (x) : Statement (.tbwait x) :=
  of_parse rfl (congrArg (Option.map Instr.tbwait) (dAb_eAb 0 0x1B x))
theorem tbrel (x) : Statement (.tbrel x) :=
  of_parse rfl (congrArg (Option.map Instr.tbrel) (dOne_eOne 0 0x1C x))
theorem iadd (x) : Statement (.iadd x) :=
  of_parse rfl (congrArg (Option.map Instr.iadd) (dInt_eInt 0 0x20 x))
theorem isub (x) : Statement (.isub x) :=
  of_parse rfl (congrArg (Option.map Instr.isub) (dInt_eInt 0 0x21 x))
theorem imul (x) : Statement (.imul x) :=
  of_parse rfl (congrArg (Option.map Instr.imul) (dInt_eInt 0 0x22 x))
theorem imulh (x) : Statement (.imulh x) :=
  of_parse rfl (congrArg (Option.map Instr.imulh) (dInt_eInt 0 0x23 x))
theorem imad (x) : Statement (.imad x) :=
  of_parse rfl (congrArg (Option.map Instr.imad) (dInt_eInt 1 0x24 x))
theorem iaddc (x) : Statement (.iaddc x) :=
  of_parse rfl (congrArg (Option.map Instr.iaddc) (dInt_eInt 0 0x25 x))
theorem isubb (x) : Statement (.isubb x) :=
  of_parse rfl (congrArg (Option.map Instr.isubb) (dInt_eInt 0 0x26 x))
theorem ineg (x) : Statement (.ineg x) :=
  of_parse rfl (congrArg (Option.map Instr.ineg) (dInt_eInt 0 0x27 x))
theorem iabs (x) : Statement (.iabs x) :=
  of_parse rfl (congrArg (Option.map Instr.iabs) (dInt_eInt 0 0x28 x))
theorem imin (x) : Statement (.imin x) :=
  of_parse rfl (congrArg (Option.map Instr.imin) (dInt_eInt 0 0x29 x))
theorem imax (x) : Statement (.imax x) :=
  of_parse rfl (congrArg (Option.map Instr.imax) (dInt_eInt 0 0x2A x))
theorem icmp (x) : Statement (.icmp x) :=
  of_parse rfl (congrArg (Option.map Instr.icmp) (dInt_eInt 0 0x2B x))
theorem lea (x) : Statement (.lea x) :=
  of_parse rfl (congrArg (Option.map Instr.lea) (dInt_eInt 0 0x2C x))
theorem idot4 (x) : Statement (.idot4 x) :=
  of_parse rfl (congrArg (Option.map Instr.idot4) (dInt_eInt 1 0x2D x))
theorem and (x) : Statement (.and x) :=
  of_parse rfl (congrArg (Option.map Instr.and) (dInt_eInt 0 0x30 x))
theorem or (x) : Statement (.or x) :=
  of_parse rfl (congrArg (Option.map Instr.or) (dInt_eInt 0 0x31 x))
theorem xor (x) : Statement (.xor x) :=
  of_parse rfl (congrArg (Option.map Instr.xor) (dInt_eInt 0 0x32 x))
theorem andn (x) : Statement (.andn x) :=
  of_parse rfl (congrArg (Option.map Instr.andn) (dInt_eInt 0 0x33 x))
theorem not (x) : Statement (.not x) :=
  of_parse rfl (congrArg (Option.map Instr.not) (dInt_eInt 0 0x34 x))
theorem shl (x) : Statement (.shl x) :=
  of_parse rfl (congrArg (Option.map Instr.shl) (dInt_eInt 0 0x35 x))
theorem shr (x) : Statement (.shr x) :=
  of_parse rfl (congrArg (Option.map Instr.shr) (dInt_eInt 0 0x36 x))
theorem sar (x) : Statement (.sar x) :=
  of_parse rfl (congrArg (Option.map Instr.sar) (dInt_eInt 0 0x37 x))
theorem rol (x) : Statement (.rol x) :=
  of_parse rfl (congrArg (Option.map Instr.rol) (dInt_eInt 0 0x38 x))
theorem bfe (x) : Statement (.bfe x) :=
  of_parse rfl (congrArg (Option.map Instr.bfe) (dInt_eInt 0 0x39 x))
theorem bfi (x) : Statement (.bfi x) :=
  of_parse rfl (congrArg (Option.map Instr.bfi) (dInt_eInt 1 0x3A x))
theorem popc (x) : Statement (.popc x) :=
  of_parse rfl (congrArg (Option.map Instr.popc) (dInt_eInt 0 0x3B x))
theorem clz (x) : Statement (.clz x) :=
  of_parse rfl (congrArg (Option.map Instr.clz) (dInt_eInt 0 0x3C x))
theorem ctz (x) : Statement (.ctz x) :=
  of_parse rfl (congrArg (Option.map Instr.ctz) (dInt_eInt 0 0x3D x))
theorem brev (x) : Statement (.brev x) :=
  of_parse rfl (congrArg (Option.map Instr.brev) (dInt_eInt 0 0x3E x))
theorem prmt (x) : Statement (.prmt x) :=
  of_parse rfl (congrArg (Option.map Instr.prmt) (dInt_eInt 1 0x3F x))
theorem mov (x) : Statement (.mov x) :=
  of_parse rfl (congrArg (Option.map Instr.mov) (dInt_eInt 0 0x40 x))
theorem sel (x) : Statement (.sel x) :=
  of_parse rfl (congrArg (Option.map Instr.sel) (dInt_eInt 0 0x41 x))
theorem movsr (x) : Statement (.movsr x) :=
  of_parse rfl (congrArg (Option.map Instr.movsr) (dInt_eInt 0 0x42 x))
theorem movsw (x) : Statement (.movsw x) :=
  of_parse rfl (congrArg (Option.map Instr.movsw) (dInt_eInt 0 0x43 x))
theorem ccrd (x) : Statement (.ccrd x) :=
  of_parse rfl (congrArg (Option.map Instr.ccrd) (dInt_eInt 0 0x44 x))
theorem ccwr (x) : Statement (.ccwr x) :=
  of_parse rfl (congrArg (Option.map Instr.ccwr) (dInt_eInt 0 0x45 x))
theorem cctst (x) : Statement (.cctst x) :=
  of_parse rfl (congrArg (Option.map Instr.cctst) (dInt_eInt 0 0x46 x))
theorem wldc (x) : Statement (.wldc x) :=
  of_parse rfl (congrArg (Option.map Instr.wldc) (dInt_eInt 0 0x47 x))
theorem xacq (x) : Statement (.xacq x) :=
  of_parse rfl (congrArg (Option.map Instr.xacq) (dInt_eInt 0 0x48 x))
theorem xrel (x) : Statement (.xrel x) :=
  of_parse rfl (congrArg (Option.map Instr.xrel) (dInt_eInt 0 0x49 x))
theorem fadd (x) : Statement (.fadd x) :=
  of_parse rfl (congrArg (Option.map Instr.fadd) (dFlt_eFlt 0 0x50 false x))
theorem fsub (x) : Statement (.fsub x) :=
  of_parse rfl (congrArg (Option.map Instr.fsub) (dFlt_eFlt 0 0x51 false x))
theorem fmul (x) : Statement (.fmul x) :=
  of_parse rfl (congrArg (Option.map Instr.fmul) (dFlt_eFlt 0 0x52 false x))
theorem ffma (x) : Statement (.ffma x) :=
  of_parse rfl (congrArg (Option.map Instr.ffma) (dFlt_eFlt 1 0x53 true x))
theorem fmin (x) : Statement (.fmin x) :=
  of_parse rfl (congrArg (Option.map Instr.fmin) (dFlt_eFlt 0 0x54 false x))
theorem fmax (x) : Statement (.fmax x) :=
  of_parse rfl (congrArg (Option.map Instr.fmax) (dFlt_eFlt 0 0x55 false x))
theorem fcmp (x) : Statement (.fcmp x) :=
  of_parse rfl (congrArg (Option.map Instr.fcmp) (dFlt_eFlt 0 0x56 false x))
theorem frnd (x) : Statement (.frnd x) :=
  of_parse rfl (congrArg (Option.map Instr.frnd) (dFlt_eFlt 0 0x57 false x))
theorem fspec (x) : Statement (.fspec x) :=
  of_parse rfl (congrArg (Option.map Instr.fspec) (dFlt_eFlt 0 0x58 false x))
theorem fcls (x) : Statement (.fcls x) :=
  of_parse rfl (congrArg (Option.map Instr.fcls) (dFlt_eFlt 0 0x59 false x))
theorem fscl (x) : Statement (.fscl x) :=
  of_parse rfl (congrArg (Option.map Instr.fscl) (dFlt_eFlt 0 0x5A false x))
theorem hadd2 (x) : Statement (.hadd2 x) :=
  of_parse rfl (congrArg (Option.map Instr.hadd2) (dHalf_eHalf 0 0x60 false x))
theorem hmul2 (x) : Statement (.hmul2 x) :=
  of_parse rfl (congrArg (Option.map Instr.hmul2) (dHalf_eHalf 0 0x61 false x))
theorem hfma2 (x) : Statement (.hfma2 x) :=
  of_parse rfl (congrArg (Option.map Instr.hfma2) (dHalf_eHalf 1 0x62 true x))
theorem hmin2 (x) : Statement (.hmin2 x) :=
  of_parse rfl (congrArg (Option.map Instr.hmin2) (dHalf_eHalf 0 0x63 false x))
theorem hmax2 (x) : Statement (.hmax2 x) :=
  of_parse rfl (congrArg (Option.map Instr.hmax2) (dHalf_eHalf 0 0x64 false x))
theorem hcmp2 (x) : Statement (.hcmp2 x) :=
  of_parse rfl (congrArg (Option.map Instr.hcmp2) (dHalf_eHalf 0 0x65 false x))
theorem hdot2 (x) : Statement (.hdot2 x) :=
  of_parse rfl (congrArg (Option.map Instr.hdot2) (dHalf_eHalf 1 0x66 true x))
theorem cvt (x) : Statement (.cvt x) :=
  of_parse rfl (congrArg (Option.map Instr.cvt) (dCvt_eCvt 0 0x70 x))
theorem pack2 (x) : Statement (.pack2 x) :=
  of_parse rfl (congrArg (Option.map Instr.pack2) (dHalf_eHalf 0 0x71 false x))
theorem qntb (x) : Statement (.qntb x) :=
  of_parse rfl (congrArg (Option.map Instr.qntb) (dQntb_eQntb 1 0x73 x))
theorem dqnt (x) : Statement (.dqnt x) :=
  of_parse rfl (congrArg (Option.map Instr.dqnt) (dDqnt_eDqnt 0 0x74 x))
theorem sclw (x) : Statement (.sclw x) :=
  of_parse rfl (congrArg (Option.map Instr.sclw) (dSclw_eSclw 0 0x75 x))
theorem shfl (x) : Statement (.shfl x) :=
  of_parse rfl (congrArg (Option.map Instr.shfl) (dShfl_eShfl 1 0x80 x))
theorem qexch (x) : Statement (.qexch x) :=
  of_parse rfl (congrArg (Option.map Instr.qexch) (dQexch_eQexch 0 0x81 x))
theorem qder (x) : Statement (.qder x) :=
  of_parse rfl (congrArg (Option.map Instr.qder) (dQder_eQder 0 0x82 x))
theorem vote (x) : Statement (.vote x) :=
  of_parse rfl (congrArg (Option.map Instr.vote) (dVote_eVote 0 0x83 x))
theorem matchv (x) : Statement (.matchv x) :=
  of_parse rfl (congrArg (Option.map Instr.matchv) (dMatch_eMatch 0 0x84 x))
theorem redux (x) : Statement (.redux x) :=
  of_parse rfl (congrArg (Option.map Instr.redux) (dRedux_eRedux 0 0x85 x))
theorem scan (x) : Statement (.scan x) :=
  of_parse rfl (congrArg (Option.map Instr.scan) (dRedux_eRedux 0 0x86 x))
theorem elect (x) : Statement (.elect x) :=
  of_parse rfl (congrArg (Option.map Instr.elect) (dElect_eElect 0 0x87 x))
theorem lanew (x) : Statement (.lanew x) :=
  of_parse rfl (congrArg (Option.map Instr.lanew) (dLanew_eLanew 0 0x88 x))
theorem ld (x) : Statement (.ld x) :=
  of_parse rfl (congrArg (Option.map Instr.ld) (dMem_eMem 1 0x90 x))
theorem st (x) : Statement (.st x) :=
  of_parse rfl (congrArg (Option.map Instr.st) (dMem_eMem 1 0x91 x))
theorem ldpf (x) : Statement (.ldpf x) :=
  of_parse rfl (congrArg (Option.map Instr.ldpf) (dMem_eMem 1 0x92 x))
theorem atom (x) : Statement (.atom x) :=
  of_parse rfl (congrArg (Option.map Instr.atom) (dMem_eMem 1 0x93 x))
theorem red (x) : Statement (.red x) :=
  of_parse rfl (congrArg (Option.map Instr.red) (dMem_eMem 1 0x94 x))
theorem txbeg (x) : Statement (.txbeg x) :=
  of_parse rfl (congrArg (Option.map Instr.txbeg) (dPlain_ePlain 0 0x95 x))
theorem txend (x) : Statement (.txend x) :=
  of_parse rfl (congrArg (Option.map Instr.txend) (dTxend_eTxend 0 0x96 x))
theorem txabt (x) : Statement (.txabt x) :=
  of_parse rfl (congrArg (Option.map Instr.txabt) (dImm_eImm 0 0x97 x))
theorem pfence (x) : Statement (.pfence x) :=
  of_parse rfl (congrArg (Option.map Instr.pfence) (dImm_eImm 0 0x98 x))
theorem afence (x) : Statement (.afence x) :=
  of_parse rfl (congrArg (Option.map Instr.afence) (dPlain_ePlain 0 0x99 x))
theorem cwb (x) : Statement (.cwb x) :=
  of_parse rfl (congrArg (Option.map Instr.cwb) (dMem_eMem 1 0x9A x))
theorem cinv (x) : Statement (.cinv x) :=
  of_parse rfl (congrArg (Option.map Instr.cinv) (dMem_eMem 1 0x9B x))
theorem icinv (x) : Statement (.icinv x) :=
  of_parse rfl (congrArg (Option.map Instr.icinv) (dMem_eMem 1 0x9C x))
theorem lds (x) : Statement (.lds x) :=
  of_parse rfl (congrArg (Option.map Instr.lds) (dMem_eMem 1 0xA0 x))
theorem sts (x) : Statement (.sts x) :=
  of_parse rfl (congrArg (Option.map Instr.sts) (dMem_eMem 1 0xA1 x))
theorem atoms (x) : Statement (.atoms x) :=
  of_parse rfl (congrArg (Option.map Instr.atoms) (dMem_eMem 1 0xA2 x))
theorem ldc (x) : Statement (.ldc x) :=
  of_parse rfl (congrArg (Option.map Instr.ldc) (dMem_eMem 1 0xA3 x))
theorem ldv (x) : Statement (.ldv x) :=
  of_parse rfl (congrArg (Option.map Instr.ldv) (dMem_eMem 1 0xA4 x))
theorem stv (x) : Statement (.stv x) :=
  of_parse rfl (congrArg (Option.map Instr.stv) (dMem_eMem 1 0xA5 x))
theorem mred (x) : Statement (.mred x) :=
  of_parse rfl (congrArg (Option.map Instr.mred) (dAsync_eAsync 2 0xB0 x))
theorem mcas (x) : Statement (.mcas x) :=
  of_parse rfl (congrArg (Option.map Instr.mcas) (dAsync_eAsync 2 0xB1 x))
theorem msac (x) : Statement (.msac x) :=
  of_parse rfl (congrArg (Option.map Instr.msac) (dAsync_eAsync 2 0xB2 x))
theorem gathm (x) : Statement (.gathm x) :=
  of_parse rfl (congrArg (Option.map Instr.gathm) (dAsync_eAsync 2 0xB3 x))
theorem scatm (x) : Statement (.scatm x) :=
  of_parse rfl (congrArg (Option.map Instr.scatm) (dAsync_eAsync 2 0xB4 x))
theorem cpy (x) : Statement (.cpy x) :=
  of_parse rfl (congrArg (Option.map Instr.cpy) (dAsync_eAsync 2 0xC0 x))
theorem tcpy (x) : Statement (.tcpy x) :=
  of_parse rfl (congrArg (Option.map Instr.tcpy) (dAsync_eAsync 2 0xC1 x))
theorem tlrreg (x) : Statement (.tlrreg x) :=
  of_parse rfl (congrArg (Option.map Instr.tlrreg) (dAb_eAb 1 0xC2 x))
theorem tlrdel (x) : Statement (.tlrdel x) :=
  of_parse rfl (congrArg (Option.map Instr.tlrdel) (dTlrdel_eTlrdel 0 0xC3 x))
theorem mxlds (x) : Statement (.mxlds x) :=
  of_parse rfl (congrArg (Option.map Instr.mxlds) (dAsync_eAsync 2 0xD0 x))
theorem mxswp (x) : Statement (.mxswp x) :=
  of_parse rfl (congrArg (Option.map Instr.mxswp) (dPlain_ePlain 0 0xD1 x))
theorem mxmul (x) : Statement (.mxmul x) :=
  of_parse rfl (congrArg (Option.map Instr.mxmul) (dAsync_eAsync 2 0xD2 x))
theorem mxrd (x) : Statement (.mxrd x) :=
  of_parse rfl (congrArg (Option.map Instr.mxrd) (dAsync_eAsync 2 0xD3 x))
theorem mxzero (x) : Statement (.mxzero x) :=
  of_parse rfl (congrArg (Option.map Instr.mxzero) (dAsync_eAsync 2 0xD4 x))
theorem mxlda (x) : Statement (.mxlda x) :=
  of_parse rfl (congrArg (Option.map Instr.mxlda) (dAsync_eAsync 2 0xD5 x))
theorem opfence (x) : Statement (.opfence x) :=
  of_parse rfl (congrArg (Option.map Instr.opfence) (dPlain_ePlain 0 0xD6 x))
theorem mxtok (x) : Statement (.mxtok x) :=
  of_parse rfl (congrArg (Option.map Instr.mxtok) (dMxtok_eMxtok 0 0xD7 x))
theorem rayq (x) : Statement (.rayq x) :=
  of_parse rfl (congrArg (Option.map Instr.rayq) (dAsync_eAsync 2 0xE0 x))
theorem beamq (x) : Statement (.beamq x) :=
  of_parse rfl (congrArg (Option.map Instr.beamq) (dAsync_eAsync 2 0xE1 x))
theorem smp (x) : Statement (.smp x) :=
  of_parse rfl (congrArg (Option.map Instr.smp) (dAsync_eAsync 2 0xE2 x))
theorem smpl (x) : Statement (.smpl x) :=
  of_parse rfl (congrArg (Option.map Instr.smpl) (dAsync_eAsync 2 0xE3 x))
theorem smpg (x) : Statement (.smpg x) :=
  of_parse rfl (congrArg (Option.map Instr.smpg) (dAsync_eAsync 2 0xE4 x))
theorem gth4 (x) : Statement (.gth4 x) :=
  of_parse rfl (congrArg (Option.map Instr.gth4) (dAsync_eAsync 2 0xE5 x))
theorem tld (x) : Statement (.tld x) :=
  of_parse rfl (congrArg (Option.map Instr.tld) (dAsync_eAsync 2 0xE6 x))
theorem ist (x) : Statement (.ist x) :=
  of_parse rfl (congrArg (Option.map Instr.ist) (dAsync_eAsync 2 0xE7 x))
theorem fst (x) : Statement (.fst x) :=
  of_parse rfl (congrArg (Option.map Instr.fst) (dMem_eMem 1 0xF0 x))
theorem fillc (x) : Statement (.fillc x) :=
  of_parse rfl (congrArg (Option.map Instr.fillc) (dPlain_ePlain 0 0xF1 x))
theorem fillx (x) : Statement (.fillx x) :=
  of_parse rfl (congrArg (Option.map Instr.fillx) (dImm_eImm 0 0xF2 x))
theorem grvinv (x) : Statement (.grvinv x) :=
  of_parse rfl (congrArg (Option.map Instr.grvinv) (dGrvinv_eGrvinv 1 0xF3 x))
theorem atlbinv (x) : Statement (.atlbinv x) :=
  of_parse rfl (congrArg (Option.map Instr.atlbinv) (dAtlbinv_eAtlbinv 0 0xF4 x))
theorem trapDelivery (a b) : Statement (.trapDelivery a b) := of_event rfl
theorem forcedIssue (a b) : Statement (.forcedIssue a b) := of_event rfl
theorem registerDrowsy (a b) : Statement (.registerDrowsy a b) := of_event rfl
theorem xacqGrant (a b) : Statement (.xacqGrant a b) := of_event rfl
theorem xacqTimeout (a b c) : Statement (.xacqTimeout a b c) := of_event rfl
theorem backgroundRefresh (a b) : Statement (.backgroundRefresh a b) := of_event rfl
theorem loadReturn (a b) : Statement (.loadReturn a b) := of_event rfl
theorem attributeTlbFill (a b c) : Statement (.attributeTlbFill a b c) := of_event rfl
theorem llcMiss (a b) : Statement (.llcMiss a b) := of_event rfl
theorem groveMiss (a) : Statement (.groveMiss a) := of_event rfl
theorem victimStoreProbeResult (a) : Statement (.victimStoreProbeResult a) := of_event rfl
theorem waystationRetry (a) : Statement (.waystationRetry a) := of_event rfl
theorem granulePublished (a) : Statement (.granulePublished a) := of_event rfl
theorem exclusiveConsignmentGrant (a) : Statement (.exclusiveConsignmentGrant a) := of_event rfl
theorem hubPlacement (a) : Statement (.hubPlacement a) := of_event rfl
theorem fillTaskPlacement (a b) : Statement (.fillTaskPlacement a b) := of_event rfl
theorem depotRefill (a b) : Statement (.depotRefill a b) := of_event rfl
theorem taskCompletion (a) : Statement (.taskCompletion a) := of_event rfl
theorem continuationResume (a) : Statement (.continuationResume a) := of_event rfl
theorem gatedCommandRelease (a b c) : Statement (.gatedCommandRelease a b c) := of_event rfl
theorem porterSectorWrite (a b) : Statement (.porterSectorWrite a b) := of_event rfl
theorem porterCommandCompletion (a b) : Statement (.porterCommandCompletion a b) := of_event rfl
theorem matrixCommandExecute (a) : Statement (.matrixCommandExecute a) := of_event rfl
theorem bankCommandCompletion (a) : Statement (.bankCommandCompletion a) := of_event rfl
theorem rayQueryExecute (a) : Statement (.rayQueryExecute a) := of_event rfl
theorem beamQueryExecute (a) : Statement (.beamQueryExecute a) := of_event rfl
theorem counterWrap (a b) : Statement (.counterWrap a b) := of_event rfl
theorem map (a b) : Statement (.map a b) := of_event rfl
theorem unmap (a) : Statement (.unmap a) := of_event rfl
theorem switchContext (a b) : Statement (.switchContext a b) := of_event rfl
theorem switchboardRegisterWrite (a b) : Statement (.switchboardRegisterWrite a b) := of_event rfl
theorem atlbinvSwitchboard (a b c) : Statement (.atlbinvSwitchboard a b c) := of_event rfl
theorem writeIndexObserved (a) : Statement (.writeIndexObserved a) := of_event rfl
theorem packetNop (a) : Statement (.packetNop a) := of_event rfl
theorem launch (a) : Statement (.launch a) := of_event rfl
theorem heldLaunchResume (a) : Statement (.heldLaunchResume a) := of_event rfl
theorem prologueRun (a) : Statement (.prologueRun a) := of_event rfl
theorem write (a) : Statement (.write a) := of_event rfl
theorem signal (a) : Statement (.signal a) := of_event rfl
theorem wait (a) : Statement (.wait a) := of_event rfl
theorem waitSatisfied (a) : Statement (.waitSatisfied a) := of_event rfl
theorem writeSignal (a) : Statement (.writeSignal a) := of_event rfl
theorem packetPfence (a) : Statement (.packetPfence a) := of_event rfl
theorem groveInv (a) : Statement (.groveInv a) := of_event rfl
theorem debugHalt (a b c) : Statement (.debugHalt a b c) := of_event rfl
theorem debugResume (a b) : Statement (.debugResume a b) := of_event rfl
theorem debugArmBrk (a b) : Statement (.debugArmBrk a b) := of_event rfl
theorem debugDisarmBrk (a b) : Statement (.debugDisarmBrk a b) := of_event rfl
theorem debugThreadWrite (a b c) : Statement (.debugThreadWrite a b c) := of_event rfl
theorem debugRegisterWrite (a b c d e) : Statement (.debugRegisterWrite a b c d e) := of_event rfl
theorem counterCtlWrite (a b c) : Statement (.counterCtlWrite a b c) := of_event rfl
theorem debugWindowWrite (a b c) : Statement (.debugWindowWrite a b c) := of_event rfl
theorem allotmentPeriodBoundary : Statement (.allotmentPeriodBoundary) := of_event rfl
theorem dramWordRead (a) : Statement (.dramWordRead a) := of_event rfl
theorem correctiveWrite (a) : Statement (.correctiveWrite a) := of_event rfl
theorem patrolScrub (a) : Statement (.patrolScrub a) := of_event rfl
theorem verticalBusParityFailure (a b c d e f) : Statement (.verticalBusParityFailure a b c d e f) := of_event rfl
theorem channelTrainingComplete (a b) : Statement (.channelTrainingComplete a b) := of_event rfl
theorem gddrCrcMismatch (a b c d e) : Statement (.gddrCrcMismatch a b c d e) := of_event rfl
theorem flitReceive (a b c) : Statement (.flitReceive a b c) := of_event rfl
theorem remoteWriteArrival (a b) : Statement (.remoteWriteArrival a b) := of_event rfl
theorem collectiveDoorbell (a b) : Statement (.collectiveDoorbell a b) := of_event rfl
theorem collectiveCompletion (a b) : Statement (.collectiveCompletion a b) := of_event rfl
theorem bar2Access (a) : Statement (.bar2Access a) := of_event rfl
theorem hostMemoryWrite (a b) : Statement (.hostMemoryWrite a b) := of_event rfl
theorem windowRevocation (a) : Statement (.windowRevocation a) := of_event rfl
theorem thermalTrip : Statement (.thermalTrip) := of_event rfl
theorem flashWrite (a b) : Statement (.flashWrite a b) := of_event rfl
theorem scanoutUnderflow (a b) : Statement (.scanoutUnderflow a b) := of_event rfl
theorem coldReset : Statement (.coldReset) := of_event rfl
theorem warmReset : Statement (.warmReset) := of_event rfl
theorem recoveryMailboxImage (a) : Statement (.recoveryMailboxImage a) := of_event rfl
theorem progkey (a b) : Statement (.progkey a b) := of_event rfl
theorem liveUpdate (a) : Statement (.liveUpdate a) := of_event rfl
theorem watchdogExpiry : Statement (.watchdogExpiry) := of_event rfl
theorem d3hot : Statement (.d3hot) := of_event rfl
theorem d3cold : Statement (.d3cold) := of_event rfl
theorem clockGate (a) : Statement (.clockGate a) := of_event rfl
theorem powerGate (a) : Statement (.powerGate a) := of_event rfl
theorem clockFrequencyChange (a) : Statement (.clockFrequencyChange a) := of_event rfl
theorem getVersion (a) : Statement (.getVersion a) := of_event rfl
theorem getCapabilities (a) : Statement (.getCapabilities a) := of_event rfl
theorem negotiateAlgorithms (a) : Statement (.negotiateAlgorithms a) := of_event rfl
theorem getDigests (a) : Statement (.getDigests a) := of_event rfl
theorem getCertificate (a) : Statement (.getCertificate a) := of_event rfl
theorem challenge (a) : Statement (.challenge a) := of_event rfl
theorem getMeasurements (a) : Statement (.getMeasurements a) := of_event rfl
theorem linkTraining (a b c d) : Statement (.linkTraining a b c d) := of_event rfl
theorem remoteReadRequest (a b c) : Statement (.remoteReadRequest a b c) := of_event rfl
theorem downstreamDeviceWrite (a) : Statement (.downstreamDeviceWrite a) := of_event rfl
theorem rv64ClientAccess (a b c) : Statement (.rv64ClientAccess a b c) := of_event rfl
theorem d3hotExit : Statement (.d3hotExit) := of_event rfl
theorem contextEnd (a) : Statement (.contextEnd a) := of_event rfl
theorem errorLogClear (a) : Statement (.errorLogClear a) := of_event rfl
theorem displayTimingWrite (a b) : Statement (.displayTimingWrite a b) := of_event rfl
theorem voltageCurrentRequest (a b) : Statement (.voltageCurrentRequest a b) := of_event rfl
theorem i2cGpioWrite (a) : Statement (.i2cGpioWrite a) := of_event rfl

end Sys2Proof.Laws.RoundTrip
end

