-- ==== Sys2Proof/Laws/Wave.lean ====
section
/-! SUPPORT. Laws of lanes and registers: what a register reads as after one register or lane has been written. -/

namespace Sys2Proof.Machine

/-! ## Lanes -/

theorem lane_updLane_self (w : Wave) {l : Nat} (f : Lane → Lane) (h : l < w.lanes.length) :
    (w.updLane l f).lane l = f (w.lane l) := by
  simp [Wave.updLane, Wave.lane, lset, List.getD_eq_getElem?_getD, h]

theorem lane_updLane_ne (w : Wave) {l k : Nat} (f : Lane → Lane) (h : l ≠ k) : (w.updLane k f).lane l = w.lane l := by
  simp [Wave.updLane, Wave.lane, lset, List.getD_eq_getElem?_getD, Ne.symm h]

@[simp] theorem length_updLane (w : Wave) (l : Nat) (f : Lane → Lane) : (w.updLane l f).lanes.length = w.lanes.length := by
  simp [Wave.updLane, lset]

@[simp] theorem length_updLanes (w : Wave) (ls : List Nat) (f : Lane → Lane) :
    (w.updLanes ls f).lanes.length = w.lanes.length := by
  induction ls generalizing w with
  | nil => rfl
  | cons a t ih => exact (ih _).trans (length_updLane w a f)

theorem lane_updLanes_out (w : Wave) {ls : List Nat} (f : Lane → Lane) {l : Nat} (h : l ∉ ls) :
    (w.updLanes ls f).lane l = w.lane l := by
  induction ls generalizing w with
  | nil => rfl
  | cons a t ih =>
    simp only [List.mem_cons, not_or] at h
    exact (ih (w.updLane a f) h.2).trans (lane_updLane_ne w f h.1)

theorem lane_updLanes_in (w : Wave) {ls : List Nat} (f : Lane → Lane) {l : Nat} (h : l ∈ ls) (nd : ls.Nodup)
    (hl : l < w.lanes.length) : (w.updLanes ls f).lane l = f (w.lane l) := by
  induction ls generalizing w with
  | nil => simp at h
  | cons a t ih =>
    rw [List.nodup_cons] at nd
    by_cases e : l = a
    · subst e
      exact (lane_updLanes_out (w.updLane l f) f nd.1).trans (lane_updLane_self w f hl)
    · have ht : l ∈ t := by simpa [e] using h
      exact (ih (w.updLane a f) ht nd.2 (by simpa using hl)).trans (congrArg f (lane_updLane_ne w f e))

/-- A lane that holds something is one of the wave's lanes. -/
theorem lane_lt_of_live (w : Wave) {l : Nat} (h : (w.lane l).st = .live) : l < w.lanes.length := by
  refine Decidable.byContradiction fun hc => ?_
  have : w.lane l = Lane.init := by simp [Wave.lane, List.getD_eq_getElem?_getD, List.getElem?_eq_none (Nat.le_of_not_lt hc)]
  rw [this] at h
  exact absurd h (by decide)

/-- What a change of lanes that keeps a field keeps in every lane. -/
theorem lane_updLanes_field {α : Type} (g : Lane → α) (w : Wave) (ls : List Nat) (f : Lane → Lane) (hf : ∀ t, g (f t) = g t)
    (l : Nat) : g ((w.updLanes ls f).lane l) = g (w.lane l) := by
  induction ls generalizing w with
  | nil => rfl
  | cons a t ih =>
    refine (ih (w.updLane a f)).trans ?_
    by_cases e : l = a
    · subst e
      by_cases hl : l < w.lanes.length
      · rw [lane_updLane_self w f hl, hf]
      · have : (w.updLane l f).lane l = w.lane l := by
          have h1 : ¬ l < (w.updLane l f).lanes.length := by simpa using hl
          simp only [Wave.lane, List.getD_eq_getElem?_getD, List.getElem?_eq_none (Nat.le_of_not_lt hl),
            List.getElem?_eq_none (Nat.le_of_not_lt h1)]
        rw [this]
    · rw [lane_updLane_ne w f e]

/-! ## Register keys -/

/-- The wave has the lane of a latch or condition code. -/
def RKey.lives (w : Wave) : RKey → Prop
  | .x l _ => l < w.lanes.length
  | .c l _ => l < w.lanes.length
  | _ => True
/-- What a register holds of a 32-bit value: a condition code has 5 bits (R114). -/
def RKey.trim (k : RKey) (x : Word) : Word :=
  match k, x with
  | .c .., x => (x.setWidth 5).setWidth 32
  | .v .., x => x
  | .k .., x => x
  | .x .., x => x
  | .w .., x => x

@[simp] theorem note_cur (w : Wave) (k j : RKey) : (w.note k).cur j = w.cur j := by
  unfold Wave.note; split <;> cases j <;> rfl
@[simp] theorem note_lanes (w : Wave) (k : RKey) : (w.note k).lanes = w.lanes := by unfold Wave.note; split <;> rfl
@[simp] theorem note_inflight (w : Wave) (k : RKey) : (w.note k).inflight = w.inflight := by unfold Wave.note; split <;> rfl

theorem put_cur_self (w : Wave) {k : RKey} (x : Word) (h : k.ok) (hl : k.lives w) : (w.put k x).cur k = k.trim x := by
  cases k with
  | v l i => simp [Wave.put, Wave.cur, RKey.trim]
  | k l i => simp [Wave.put, Wave.cur, RKey.trim]
  | w i => simp [Wave.put, Wave.cur, RKey.trim]
  | x l i =>
    simp only [Wave.put, Wave.cur, RKey.trim, lane_updLane_self w _ hl]
    split <;> rfl
  | c l n =>
    have hn : n < 4 := h
    simp only [Wave.put, Wave.cur, RKey.trim, lane_updLane_self w _ hl]
    have : n = 0 ∨ n = 1 ∨ n = 2 ∨ n = 3 := by omega
    rcases this with rfl | rfl | rfl | rfl <;> rfl

theorem lane_put_ne (w : Wave) {l : Nat} (k : RKey) (x : Word)
    (h : match k with | .x a _ => l ≠ a | .c a _ => l ≠ a | _ => True) : (w.put k x).lane l = w.lane l := by
  cases k with
  | v a i => rfl
  | k a i => rfl
  | w i => rfl
  | x a i => exact lane_updLane_ne w _ h
  | c a n => exact lane_updLane_ne w _ h

theorem updLane_out (w : Wave) {l : Nat} (f : Lane → Lane) (h : ¬ l < w.lanes.length) : w.updLane l f = w := by
  have : w.lanes.modify l f = w.lanes := List.modify_eq_self (Nat.le_of_not_lt h)
  simp [Wave.updLane, lset, this]

theorem put_out (w : Wave) {k : RKey} (x : Word) (h : ¬ k.lives w) : w.put k x = w := by
  cases k <;> simp only [RKey.lives, not_true_eq_false] at h
  · exact updLane_out w _ h
  · exact updLane_out w _ h

theorem put_cur_ne (w : Wave) {k j : RKey} (x : Word) (hk : k.ok) (hj : j.ok) (h : j ≠ k) : (w.put k x).cur j = w.cur j := by
  by_cases hv : k.lives w
  case neg => rw [put_out w x hv]
  cases k with
  | v l i =>
    cases j <;> try rfl
    rename_i l' i'
    have : l' * 256 + i' ≠ l * 256 + i := by
      intro e
      simp only [RKey.ok] at hk hj
      apply h
      have h1 : i' = i := by omega
      have h2 : l' = l := by omega
      simp [h1, h2]
    exact mgetD_mput_ne w.v x 0 this
  | k l i =>
    cases j <;> try rfl
    rename_i l' i'
    have : l' * 8 + i' ≠ l * 8 + i := by
      intro e
      simp only [RKey.ok] at hk hj
      apply h
      have h1 : i' = i := by omega
      have h2 : l' = l := by omega
      simp [h1, h2]
    exact mgetD_mput_ne w.k x 0 this
  | w i =>
    cases j <;> try rfl
    rename_i i'
    exact mgetD_mput_ne w.w x 0 (fun e => h (by rw [e]))
  | x l i =>
    cases j <;> try rfl
    · rename_i l' i'
      by_cases e : l' = l
      · subst e
        simp only [Wave.put, Wave.cur, lane_updLane_self w _ hv]
        have : i' ≠ i := fun e => h (by rw [e])
        have h1 : i < 2 := hk
        have h2 : i' < 2 := hj
        have : (i' = 0 ∧ i = 1) ∨ (i' = 1 ∧ i = 0) := by omega
        rcases this with ⟨rfl, rfl⟩ | ⟨rfl, rfl⟩ <;> rfl
      · simp only [Wave.put, Wave.cur, lane_updLane_ne w _ e]
    · rename_i l' n'
      by_cases e : l' = l
      · subst e
        simp only [Wave.put, Wave.cur, lane_updLane_self w _ hv]
        split <;> rfl
      · simp only [Wave.put, Wave.cur, lane_updLane_ne w _ e]
  | c l n =>
    cases j <;> try rfl
    · rename_i l' i'
      by_cases e : l' = l
      · subst e
        simp only [Wave.put, Wave.cur, lane_updLane_self w _ hv]
        have : n < 4 := hk
        have : n = 0 ∨ n = 1 ∨ n = 2 ∨ n = 3 := by omega
        rcases this with rfl | rfl | rfl | rfl <;> rfl
      · simp only [Wave.put, Wave.cur, lane_updLane_ne w _ e]
    · rename_i l' n'
      by_cases e : l' = l
      · subst e
        simp only [Wave.put, Wave.cur, lane_updLane_self w _ hv]
        have hne : n' ≠ n := fun e => h (by rw [e])
        have h1 : n < 4 := hk
        have h2 : n' < 4 := hj
        have g1 : n = 0 ∨ n = 1 ∨ n = 2 ∨ n = 3 := by omega
        have g2 : n' = 0 ∨ n' = 1 ∨ n' = 2 ∨ n' = 3 := by omega
        rcases g1 with rfl | rfl | rfl | rfl <;>
          rcases g2 with rfl | rfl | rfl | rfl <;> first | rfl | exact absurd rfl hne
      · simp only [Wave.put, Wave.cur, lane_updLane_ne w _ e]

@[simp] theorem length_put (w : Wave) (k : RKey) (x : Word) : (w.put k x).lanes.length = w.lanes.length := by
  cases k <;> simp [Wave.put]

@[simp] theorem length_write (w : Wave) (clk lat : Nat) (k : RKey) (x : Word) : (w.write clk lat k x).lanes.length = w.lanes.length := by
  unfold Wave.write; split <;> simp

theorem RKey.lives_of_length {w w' : Wave} (h : w'.lanes.length = w.lanes.length) {k : RKey} : k.lives w' ↔ k.lives w := by
  cases k <;> simp [RKey.lives, h]

theorem inflight_cur (w : Wave) (fs : List Inflight) (k : RKey) : ({ w with inflight := fs } : Wave).cur k = w.cur k := by
  cases k <;> rfl

theorem write_cur_self (w : Wave) (clk lat : Nat) {k : RKey} (x : Word) (h : k.ok) (hl : k.lives w) :
    (w.write clk lat k x).cur k = k.trim x := by
  simp only [Wave.write, note_cur]
  exact put_cur_self _ x h ((RKey.lives_of_length rfl).2 hl)

theorem write_cur_ne (w : Wave) (clk lat : Nat) {k j : RKey} (x : Word) (hk : k.ok) (hj : j.ok) (h : j ≠ k) :
    (w.write clk lat k x).cur j = w.cur j := by
  simp only [Wave.write, note_cur]
  exact (put_cur_ne _ x hk hj h).trans (inflight_cur w _ j)

@[simp] theorem put_inflight (w : Wave) (k : RKey) (x : Word) : (w.put k x).inflight = w.inflight := by
  cases k <;> rfl

/-- Results in flight after a write: those before, and one that is ready after the latency. -/
theorem write_inflight (w : Wave) (clk lat : Nat) (k : RKey) (x : Word) {f : Inflight}
    (h : f ∈ (w.write clk lat k x).inflight) : f ∈ w.inflight ∨ f.ready = clk + lat := by
  simp only [Wave.write, note_inflight, put_inflight] at h
  split at h
  · exact .inl (List.mem_filter.1 h).1
  · simp only [List.mem_append, List.mem_singleton] at h
    rcases h with h | h
    · exact .inl h
    · exact .inr (by rw [h])

/-- What is left of the results in flight is some of them. -/
theorem dropReady_mem (clk : Nat) (fs : List Inflight) {f : Inflight} (h : f ∈ dropReady clk fs) : f ∈ fs := by
  induction fs with
  | nil => exact h
  | cons g gs ih =>
    unfold dropReady at h
    split at h
    · exact List.mem_cons_of_mem _ (ih h)
    · rcases List.mem_cons.1 h with h | h
      · exact h ▸ List.mem_cons_self ..
      · exact List.mem_cons_of_mem _ (ih h)

/-- When nothing in flight is late, no register is unready (R87). -/
theorem unready_none (clk : Nat) (k : RKey) (fs : List Inflight) (h : ∀ f ∈ fs, f.ready ≤ clk) : unready clk k fs = none := by
  suffices ∀ v, v = none → fs.foldl (fun v f => if f.key != k then v else if clk < f.ready then v.or (some f.old) else none) v = none from
    this none rfl
  induction fs with
  | nil => exact fun _ hv => hv
  | cons f fs ih =>
    intro v hv
    refine ih (fun g hg => h g (List.mem_cons_of_mem _ hg)) _ ?_
    have : ¬ clk < f.ready := Nat.not_lt.2 (h f (List.mem_cons_self ..))
    simp [this, hv]

/-- When nothing in flight is late, a register reads as it was last written (R89). -/
theorem reg_eq_cur (w : Wave) {T : Nat} (h : ∀ f ∈ w.inflight, f.ready ≤ T) (k : RKey) : w.reg T k = w.cur k := by
  rw [Wave.reg, unready_none T k w.inflight h]; rfl

end Sys2Proof.Machine
end

