-- ==== Sys2Proof/Laws/Result.lean ====
section
/-! SUPPORT. What a register instruction leaves in its wave (R72, R87, R108, R126): its destination, latches, condition
code, and that everything else of the wave stays as it was. -/

namespace Sys2Proof.Machine

/-! ## What a register instruction never changes -/

/-- A lane without its latches, condition codes and exception flags. -/
def Lane.bare (t : Lane) : Lane := { t with x0 := 0, x1 := 0, c0 := 0, c1 := 0, c2 := 0, c3 := 0, fpx := 0 }
/-- A wave without its registers and what is said of single registers. -/
def Wave.bare (w : Wave) : Wave :=
  { w with lanes := w.lanes.map Lane.bare, v := [], k := [], w := [], inflight := [], parity := [], weak := [], refresh := [] }

theorem map_modify_of {α β : Type} (g : α → β) (f : α → α) (h : ∀ a, g (f a) = g a) (l : List α) (n : Nat) :
    (l.modify n f).map g = l.map g := by
  induction l generalizing n with
  | nil => simp
  | cons a t ih => cases n <;> simp [h, ih]

theorem updLane_bare (w : Wave) (l : Nat) (f : Lane → Lane) (h : ∀ t, (f t).bare = t.bare) : (w.updLane l f).bare = w.bare := by
  have := map_modify_of Lane.bare f h w.lanes l
  simp [Wave.updLane, Wave.bare, lset, this]

theorem setCc_bare (t : Lane) (n : Nat) (v : BitVec 5) : (t.setCc n v).bare = t.bare := by
  unfold Lane.setCc; split <;> rfl

@[simp] theorem put_bare (w : Wave) (k : RKey) (x : Word) : (w.put k x).bare = w.bare := by
  cases k with
  | v l i => rfl
  | k l i => rfl
  | w i => rfl
  | x l i => exact updLane_bare w l _ fun t => by split <;> rfl
  | c l n => exact updLane_bare w l _ fun t => setCc_bare t n _

@[simp] theorem note_bare (w : Wave) (k : RKey) : (w.note k).bare = w.bare := by
  unfold Wave.note; split <;> rfl

@[simp] theorem write_bare (w : Wave) (clk lat : Nat) (k : RKey) (x : Word) : (w.write clk lat k x).bare = w.bare := by
  unfold Wave.write; simp only [note_bare, put_bare]; split <;> rfl

@[simp] theorem setN_bare (w : Wave) (clk lat l : Nat) (o : Opnd) (n : Nat) (x : DWord) : (w.setN clk lat l o n x).bare = w.bare := by
  unfold Wave.setN; split <;> simp

@[simp] theorem orFpx_bare (w : Wave) (l : Nat) (f : BitVec 5) : (w.orFpx l f).bare = w.bare :=
  updLane_bare w l _ fun _ => rfl

@[simp] theorem side_bare (x : Res) (clk lat : Nat) (dst : Bool) (flag : Option (BitVec 2)) (l : Nat) (w : Wave) :
    (x.side clk lat dst flag l w).bare = w.bare := by
  unfold Res.side Wave.latch Wave.setCcAt
  cases dst <;> cases flag <;> simp <;> split <;> simp

theorem bare_length {w w' : Wave} (h : w'.bare = w.bare) : w'.lanes.length = w.lanes.length := by
  have := congrArg (fun x => x.lanes.length) h
  simpa [Wave.bare] using this

theorem bare_lane {w w' : Wave} (h : w'.bare = w.bare) (l : Nat) : (w'.lane l).bare = (w.lane l).bare := by
  have := congrArg (fun x => x.lanes[l]?) h
  simp only [Wave.bare, List.getElem?_map] at this
  simp only [Wave.lane, List.getD_eq_getElem?_getD]
  cases h1 : w'.lanes[l]? <;> cases h2 : w.lanes[l]? <;> simp_all

/-! ## One lane -/

/-- Registers a result writes in a lane. -/
def dstKeys (dst : Option (Opnd × Nat)) (l : Nat) : List RKey :=
  match dst with
  | none => []
  | some (d, n) => d.key l 0 :: if n = 2 then [d.key l 1] else []
/-- Latches and the condition code a result writes in a lane. -/
def sideKeys (dst : Bool) (flag : Option (BitVec 2)) (l : Nat) : List RKey :=
  (if dst then [.x l 1, .x l 0] else []) ++ match flag with | some k => [.c l k.toNat] | none => []

theorem sideKeys_ok (dst : Bool) (flag : Option (BitVec 2)) (l : Nat) : ∀ k ∈ sideKeys dst flag l, k.ok := by
  intro k hk
  have h4 : ∀ b : BitVec 2, b.toNat < 4 := fun b => b.isLt
  cases dst <;> cases flag <;> simp [sideKeys] at hk
  · subst hk; exact h4 _
  · rcases hk with rfl | rfl <;> simp [RKey.ok]
  · rcases hk with rfl | rfl | rfl
    · simp [RKey.ok]
    · simp [RKey.ok]
    · exact h4 _

theorem orFpx_cur (w : Wave) (l : Nat) (f : BitVec 5) (k : RKey) : (w.orFpx l f).cur k = w.cur k := by
  have hx : ∀ j, ((w.orFpx l f).lane j).x0 = (w.lane j).x0 ∧ ((w.orFpx l f).lane j).x1 = (w.lane j).x1 ∧
      ∀ n, ((w.orFpx l f).lane j).cc n = (w.lane j).cc n := by
    intro j
    unfold Wave.orFpx
    by_cases e : j = l
    · subst e
      by_cases hl : j < w.lanes.length
      · rw [lane_updLane_self w _ hl]; exact ⟨rfl, rfl, fun n => by unfold Lane.cc; split <;> rfl⟩
      · rw [updLane_out w _ hl]; exact ⟨rfl, rfl, fun _ => rfl⟩
    · rw [lane_updLane_ne w _ e]; exact ⟨rfl, rfl, fun _ => rfl⟩
  cases k with
  | v _ _ => rfl
  | k _ _ => rfl
  | w _ => rfl
  | x j i => simp only [Wave.cur]; rw [(hx j).1, (hx j).2.1]
  | c j n => simp only [Wave.cur]; rw [(hx j).2.2]

theorem side_cur_ne (x : Res) (clk lat : Nat) (dst : Bool) (flag : Option (BitVec 2)) (l : Nat) (w : Wave) {j : RKey} (hj : j.ok)
    (h : j ∉ sideKeys dst flag l) : (x.side clk lat dst flag l w).cur j = w.cur j := by
  have hok := sideKeys_ok dst flag l
  unfold Res.side Wave.latch Wave.setCcAt
  cases dst <;> cases flag <;> simp [sideKeys] at h hok ⊢ <;> split <;> (try rw [orFpx_cur]) <;>
    (repeat rw [write_cur_ne _ _ _ _ (by simp_all) hj (by simp_all)]) <;> rfl

theorem side_x0 (x : Res) (clk lat : Nat) (flag : Option (BitVec 2)) (l : Nat) (w : Wave) (hl : l < w.lanes.length) :
    (x.side clk lat true flag l w).cur (.x l 0) = x.r.setWidth 32 := by
  have h4 : ∀ b : BitVec 2, (RKey.c l b.toNat).ok := fun b => b.isLt
  unfold Res.side Wave.latch Wave.setCcAt
  cases flag <;> simp <;> split <;> (try rw [orFpx_cur]) <;> (try rw [write_cur_ne _ _ _ _ (h4 _) (by simp [RKey.ok]) (by simp)]) <;>
    rw [write_cur_self _ _ _ _ (by simp [RKey.ok]) (by simpa [RKey.lives] using hl)] <;> rfl

theorem side_x1 (x : Res) (clk lat : Nat) (flag : Option (BitVec 2)) (l : Nat) (w : Wave) (hl : l < w.lanes.length) :
    (x.side clk lat true flag l w).cur (.x l 1) = w.cur (.x l 0) := by
  have h4 : ∀ b : BitVec 2, (RKey.c l b.toNat).ok := fun b => b.isLt
  unfold Res.side Wave.latch Wave.setCcAt
  cases flag <;> simp <;> split <;> (try rw [orFpx_cur]) <;> (try rw [write_cur_ne _ _ _ _ (h4 _) (by simp [RKey.ok]) (by simp)]) <;>
    rw [write_cur_ne _ _ _ _ (by simp [RKey.ok]) (by simp [RKey.ok]) (by simp),
      write_cur_self _ _ _ _ (by simp [RKey.ok]) (by simpa [RKey.lives] using hl)] <;> rfl

theorem side_cc (x : Res) (clk lat : Nat) (dst : Bool) (c : BitVec 2) (l : Nat) (w : Wave) (hl : l < w.lanes.length) :
    (x.side clk lat dst (some c) l w).cur (.c l c.toNat) = x.cc.setWidth 32 := by
  have h4 : (RKey.c l c.toNat).ok := c.isLt
  unfold Res.side Wave.latch Wave.setCcAt
  have e : RKey.trim (.c l c.toNat) (x.cc.setWidth 32) = x.cc.setWidth 32 := by
    simp only [RKey.trim]; bv_omega
  cases dst <;> simp <;> split <;> (try rw [orFpx_cur]) <;>
    rw [write_cur_self _ _ _ _ h4 (by simpa [RKey.lives] using hl), e]

/-- Results in flight after one lane's sides. -/
theorem side_inflight (x : Res) (clk lat : Nat) (dst : Bool) (flag : Option (BitVec 2)) (l : Nat) (w : Wave) {f : Inflight}
    (h : f ∈ (x.side clk lat dst flag l w).inflight) : f ∈ w.inflight ∨ f.ready = clk + lat := by
  have hf : ∀ (w : Wave) g, (w.orFpx l g).inflight = w.inflight := fun _ _ => rfl
  unfold Res.side Wave.latch Wave.setCcAt at h
  have key : ∀ (w : Wave) k y, f ∈ (w.write clk lat k y).inflight → f ∈ w.inflight ∨ f.ready = clk + lat :=
    fun w k y => write_inflight w clk lat k y
  cases dst <;> cases flag <;> simp only [Bool.false_eq_true, if_false, if_true] at h
  · split at h
    · exact .inl h
    · exact .inl h
  · split at h
    · exact key _ _ _ h
    · exact key _ _ _ h
  · split at h
    · rcases key _ _ _ h with h | h
      · exact key _ _ _ h
      · exact .inr h
    · rcases key _ _ _ h with h | h
      · exact key _ _ _ h
      · exact .inr h
  · split at h
    · rcases key _ _ _ h with h | h
      · rcases key _ _ _ h with h | h
        · exact key _ _ _ h
        · exact .inr h
      · exact .inr h
    · rcases key _ _ _ h with h | h
      · rcases key _ _ _ h with h | h
        · exact key _ _ _ h
        · exact .inr h
      · exact .inr h

/-! ## Exception flags (R96) -/

@[simp] theorem put_fpx (w : Wave) (k : RKey) (x : Word) (l : Nat) : ((w.put k x).lane l).fpx = (w.lane l).fpx := by
  have h : ∀ (f : Lane → Lane) a, (∀ t, (f t).fpx = t.fpx) → ((w.updLane a f).lane l).fpx = (w.lane l).fpx :=
    fun f a hf => lane_updLanes_field (fun t => t.fpx) w [a] f hf l
  cases k with
  | v _ _ => rfl
  | k _ _ => rfl
  | w _ => rfl
  | x a i => exact h _ a fun t => by split <;> rfl
  | c a n => exact h _ a fun t => by unfold Lane.setCc; split <;> rfl
@[simp] theorem write_fpx (w : Wave) (clk lat : Nat) (k : RKey) (x : Word) (l : Nat) :
    ((w.write clk lat k x).lane l).fpx = (w.lane l).fpx := by
  have hn : ∀ (w : Wave), ((w.note k).lane l) = w.lane l := fun w => by unfold Wave.lane; rw [note_lanes]
  unfold Wave.write
  rw [hn, put_fpx]
  split <;> rfl
@[simp] theorem setN_fpx (w : Wave) (clk lat a : Nat) (o : Opnd) (n : Nat) (x : DWord) (l : Nat) :
    ((w.setN clk lat a o n x).lane l).fpx = (w.lane l).fpx := by
  unfold Wave.setN; split <;> simp
theorem orFpx_fpx (w : Wave) (a : Nat) (f : BitVec 5) (l : Nat) :
    ((w.orFpx a f).lane l).fpx = if l = a ∧ l < w.lanes.length then (w.lane l).fpx ||| f else (w.lane l).fpx := by
  unfold Wave.orFpx
  by_cases e : l = a
  · subst e
    by_cases hl : l < w.lanes.length
    · rw [lane_updLane_self w _ hl]; simp [hl]
    · rw [updLane_out w _ hl]; simp [hl]
  · rw [lane_updLane_ne w _ e]; simp [e]
theorem side_fpx (x : Res) (clk lat : Nat) (dst : Bool) (flag : Option (BitVec 2)) (a : Nat) (w : Wave) (l : Nat) :
    ((x.side clk lat dst flag a w).lane l).fpx = if l = a ∧ l < w.lanes.length then (w.lane l).fpx ||| x.fpx else (w.lane l).fpx := by
  have h : ∀ w' : Wave, w'.lanes.length = w.lanes.length → (w'.lane l).fpx = (w.lane l).fpx →
      ((if x.fpx == 0 then w' else w'.orFpx a x.fpx).lane l).fpx
        = if l = a ∧ l < w.lanes.length then (w.lane l).fpx ||| x.fpx else (w.lane l).fpx := by
    intro w' hlen hf
    split
    · rename_i h0
      simp at h0
      simp [h0, hf]
    · rw [orFpx_fpx, hlen, hf]
  unfold Res.side Wave.latch Wave.setCcAt
  cases dst <;> cases flag <;> simp only [Bool.false_eq_true, if_false, if_true]
  · exact h _ rfl rfl
  · exact h _ (by simp) (by simp)
  · exact h _ (by simp) (by simp)
  · exact h _ (by simp) (by simp)

/-! ## A destination of one or two registers -/

/-- A destination run that lies in its file. -/
def dstOk (d : Opnd) (n : Nat) : Prop :=
  (n = 1 ∨ n = 2) ∧ d.cls ≠ .x ∧ (d.cls = .v → d.idx.toNat + n ≤ 256) ∧ (d.cls = .k → d.idx.toNat + n ≤ 8)

theorem dstOk_key {d : Opnd} {n : Nat} (h : dstOk d n) (l : Nat) {j : Nat} (hj : j < n) : (d.key l j).ok ∧ ∀ w, (d.key l j).lives w := by
  obtain ⟨h1, hx, hv, hk⟩ := h
  unfold Opnd.key
  cases hc : d.cls <;> simp_all [RKey.ok, RKey.lives] <;> omega

theorem dstKeys_mem {d : Opnd} {n : Nat} (h : dstOk d n) {l : Nat} {k : RKey} :
    k ∈ dstKeys (some (d, n)) l ↔ ∃ j, j < n ∧ k = d.key l j := by
  rcases h.1 with rfl | rfl
  · simp only [dstKeys, Nat.reduceEqDiff, if_false, List.mem_singleton]
    exact ⟨fun e => ⟨0, by omega, e⟩, fun ⟨j, hj, e⟩ => by rw [e, show j = 0 by omega]⟩
  · simp [dstKeys]; constructor
    · rintro (e | e)
      · exact ⟨0, by omega, e⟩
      · exact ⟨1, by omega, e⟩
    · rintro ⟨j, hj, e⟩
      have : j = 0 ∨ j = 1 := by omega
      rcases this with rfl | rfl
      · exact .inl e
      · exact .inr e

theorem key_inj (d : Opnd) (l : Nat) {i j : Nat} (h : d.key l i = d.key l j) : i = j := by
  unfold Opnd.key at h
  cases hc : d.cls <;> simp [hc] at h <;> omega

theorem key_lane {d : Opnd} {l k i j : Nat} (hw : d.cls ≠ .w) (h : d.key l i = d.key k j) : l = k := by
  unfold Opnd.key at h
  cases hc : d.cls <;> simp_all

theorem key_not_side {d : Opnd} {l i k : Nat} (h : d.cls ≠ .x) (dst : Bool) (flag : Option (BitVec 2)) :
    d.key l i ∉ sideKeys dst flag k := by
  unfold Opnd.key sideKeys
  cases hc : d.cls <;> cases dst <;> cases flag <;> simp_all

theorem trim_key (d : Opnd) (l j : Nat) (x : Word) : (d.key l j).trim x = x := by
  unfold Opnd.key; cases d.cls <;> rfl

theorem setN_dst (w : Wave) (clk lat l : Nat) {d : Opnd} {n : Nat} (h : dstOk d n) (x : DWord) {j : Nat} (hj : j < n) :
    (w.setN clk lat l d n x).cur (d.key l j) = part x j := by
  have k0 := dstOk_key h l (j := 0) (by rcases h.1 with rfl | rfl <;> omega)
  unfold Wave.setN
  rcases h.1 with rfl | rfl
  · have : j = 0 := by omega
    subst this
    simp [write_cur_self _ _ _ _ k0.1 (k0.2 _), trim_key, part]
  · have k1 := dstOk_key h l (j := 1) (by omega)
    have : j = 0 ∨ j = 1 := by omega
    rcases this with rfl | rfl
    · simp only [if_true]
      rw [write_cur_ne _ _ _ _ k1.1 k0.1 (fun e => by have := key_inj d l e; omega), write_cur_self _ _ _ _ k0.1 (k0.2 _), trim_key]
      simp [part]
    · simp only [if_true]
      rw [write_cur_self _ _ _ _ k1.1 (k1.2 _), trim_key]
      simp [part]

theorem setN_ne (w : Wave) (clk lat l : Nat) {d : Opnd} {n : Nat} (h : dstOk d n) (x : DWord) {k : RKey} (hk : k.ok)
    (hne : k ∉ dstKeys (some (d, n)) l) : (w.setN clk lat l d n x).cur k = w.cur k := by
  have k0 := dstOk_key h l (j := 0) (by rcases h.1 with rfl | rfl <;> omega)
  unfold Wave.setN
  rcases h.1 with rfl | rfl
  · simp [dstKeys] at hne
    simp [write_cur_ne _ _ _ _ k0.1 hk hne]
  · have k1 := dstOk_key h l (j := 1) (by omega)
    simp [dstKeys] at hne
    simp [write_cur_ne _ _ _ _ k0.1 hk hne.1, write_cur_ne _ _ _ _ k1.1 hk hne.2]

theorem setN_inflight (w : Wave) (clk lat l : Nat) (d : Opnd) (n : Nat) (x : DWord) {f : Inflight}
    (h : f ∈ (w.setN clk lat l d n x).inflight) : f ∈ w.inflight ∨ f.ready = clk + lat := by
  unfold Wave.setN at h
  split at h
  · rcases write_inflight _ _ _ _ _ h with h | h
    · exact write_inflight _ _ _ _ _ h
    · exact .inr h
  · exact write_inflight _ _ _ _ _ h

/-! ## A result in every performing lane -/

/-- Write a destination, if there is one. -/
def putDst (clk lat : Nat) (dst : Option (Opnd × Nat)) (l : Nat) (x : Res) (w : Wave) : Wave :=
  match dst with | some (d, n) => w.setN clk lat l d n x.r | none => w
/-- A legal destination, or none. -/
def DstOk (dst : Option (Opnd × Nat)) : Prop := ∀ d n, dst = some (d, n) → dstOk d n

theorem putDst_ne {clk lat : Nat} {dst : Option (Opnd × Nat)} {l : Nat} (x : Res) (w : Wave) (h : DstOk dst) {k : RKey} (hk : k.ok)
    (hne : k ∉ dstKeys dst l) : (putDst clk lat dst l x w).cur k = w.cur k := by
  cases dst with
  | none => rfl
  | some p => exact setN_ne w clk lat l (h p.1 p.2 rfl) x.r hk hne
@[simp] theorem putDst_bare (clk lat : Nat) (dst : Option (Opnd × Nat)) (l : Nat) (x : Res) (w : Wave) :
    (putDst clk lat dst l x w).bare = w.bare := by
  cases dst <;> simp [putDst]
theorem putDst_inflight (clk lat : Nat) (dst : Option (Opnd × Nat)) (l : Nat) (x : Res) (w : Wave) {f : Inflight}
    (h : f ∈ (putDst clk lat dst l x w).inflight) : f ∈ w.inflight ∨ f.ready = clk + lat := by
  cases dst with
  | none => exact .inl h
  | some p => exact setN_inflight w clk lat l p.1 p.2 x.r h

/-- One lane of a per-thread register instruction. -/
def oneLane (clk lat : Nat) (dst : Option (Opnd × Nat)) (flag : Option (BitVec 2)) (val : Nat → Res) (l : Nat) (w : Wave) : Wave :=
  (val l).side clk lat dst.isSome flag l (putDst clk lat dst l (val l) w)
/-- Registers one lane of it writes. -/
def laneKeys (dst : Option (Opnd × Nat)) (flag : Option (BitVec 2)) (l : Nat) : List RKey :=
  dstKeys dst l ++ sideKeys dst.isSome flag l

section
variable {clk lat : Nat} {dst : Option (Opnd × Nat)} {flag : Option (BitVec 2)} {val : Nat → Res}

theorem oneLane_ne (w : Wave) {l : Nat} (h : DstOk dst) {k : RKey} (hk : k.ok) (hne : k ∉ laneKeys dst flag l) :
    (oneLane clk lat dst flag val l w).cur k = w.cur k := by
  simp [laneKeys] at hne
  exact (side_cur_ne _ _ _ _ _ _ _ hk hne.2).trans (putDst_ne _ w h hk hne.1)
theorem oneLane_bare (w : Wave) (l : Nat) : (oneLane clk lat dst flag val l w).bare = w.bare := by
  simp [oneLane]
theorem oneLane_length (w : Wave) (l : Nat) : (oneLane clk lat dst flag val l w).lanes.length = w.lanes.length :=
  bare_length (oneLane_bare w l)
theorem oneLane_inflight (w : Wave) (l : Nat) {f : Inflight} (h : f ∈ (oneLane clk lat dst flag val l w).inflight) :
    f ∈ w.inflight ∨ f.ready = clk + lat := by
  rcases side_inflight _ _ _ _ _ _ _ h with h | h
  · exact putDst_inflight _ _ _ _ _ _ h
  · exact .inr h

/-- Every per-thread lane, from the last to the first. -/
def lanesResult (clk lat : Nat) (dst : Option (Opnd × Nat)) (flag : Option (BitVec 2)) (val : Nat → Res) (ls : List Nat) (w : Wave) : Wave :=
  ls.foldr (oneLane clk lat dst flag val) w

theorem lanesResult_bare (ls : List Nat) (w : Wave) : (lanesResult clk lat dst flag val ls w).bare = w.bare := by
  induction ls with
  | nil => rfl
  | cons a t ih => exact (oneLane_bare _ a).trans ih
theorem lanesResult_length (ls : List Nat) (w : Wave) : (lanesResult clk lat dst flag val ls w).lanes.length = w.lanes.length :=
  bare_length (lanesResult_bare ls w)
theorem lanesResult_inflight (ls : List Nat) (w : Wave) {f : Inflight} (h : f ∈ (lanesResult clk lat dst flag val ls w).inflight) :
    f ∈ w.inflight ∨ f.ready = clk + lat := by
  induction ls with
  | nil => exact .inl h
  | cons a t ih =>
    rcases oneLane_inflight _ a h with h | h
    · exact ih h
    · exact .inr h
/-- Registers that no lane writes keep their value. -/
theorem lanesResult_ne (ls : List Nat) (w : Wave) (h : DstOk dst) {k : RKey} (hk : k.ok) (hne : ∀ l ∈ ls, k ∉ laneKeys dst flag l) :
    (lanesResult clk lat dst flag val ls w).cur k = w.cur k := by
  induction ls with
  | nil => rfl
  | cons a t ih =>
    exact (oneLane_ne _ h hk (hne a (List.mem_cons_self ..))).trans (ih fun l hl => hne l (List.mem_cons_of_mem _ hl))

theorem not_key_other {a l : Nat} (hne : l ≠ a) {k : RKey} (hk : k ∈ sideKeys dst.isSome flag l) : k ∉ sideKeys dst.isSome flag a := by
  cases hd : dst.isSome <;> cases flag <;> simp [sideKeys, hd] at hk ⊢
  · subst hk; simp [hne]
  · rcases hk with rfl | rfl <;> simp [hne]
  · rcases hk with rfl | rfl | rfl <;> simp [hne]

theorem side_not_dst (h : DstOk dst) {a l : Nat} {k : RKey} (hk : k ∈ sideKeys dst.isSome flag l) : k ∉ dstKeys dst a := by
  intro hd
  cases dst with
  | none => simp [dstKeys] at hd
  | some p =>
    obtain ⟨j, hj, rfl⟩ := (dstKeys_mem (h p.1 p.2 rfl)).1 hd
    exact key_not_side (h p.1 p.2 rfl).2.1 _ _ hk

/-- The destination of a lane holds its result; a W destination the first lane's (R32, R72). -/
theorem lanesResult_dst {d : Opnd} {n : Nat} (hd : dst = some (d, n)) (h : DstOk dst) {ls : List Nat} (nd : ls.Nodup) (w : Wave) {l : Nat}
    (hl : l ∈ ls) {j : Nat} (hj : j < n) :
    (lanesResult clk lat dst flag val ls w).cur (d.key l j) = part (val (if d.cls = .w then ls.headD 0 else l)).r j := by
  have ho := h d n hd
  have hself : ∀ (a : Nat) (w : Wave), (oneLane clk lat dst flag val a w).cur (d.key a j) = part (val a).r j := by
    intro a w
    subst hd
    unfold oneLane
    rw [side_cur_ne _ _ _ _ _ _ _ (dstOk_key ho a hj).1 (key_not_side ho.2.1 _ _)]
    exact setN_dst w clk lat a ho _ hj
  by_cases hw : d.cls = .w
  · have hk : ∀ a b, d.key a j = d.key b j := by intro a b; simp [Opnd.key, hw]
    cases ls with
    | nil => simp at hl
    | cons a t =>
      simp only [hw, if_true, List.headD_cons]
      rw [hk l a]
      exact hself a _
  · simp only [hw, if_false]
    induction ls with
    | nil => simp at hl
    | cons a t ih =>
      rw [List.nodup_cons] at nd
      by_cases e : l = a
      · subst e; exact hself l _
      · have ht : l ∈ t := by simpa [e] using hl
        refine (oneLane_ne _ h (dstOk_key ho l hj).1 ?_).trans (ih nd.2 ht)
        simp only [laneKeys, List.mem_append, not_or]
        refine ⟨fun hm => ?_, key_not_side ho.2.1 _ _⟩
        subst hd
        obtain ⟨i, _, hi⟩ := (dstKeys_mem ho).1 hm
        exact e (key_lane hw hi)

/-- X0 of a lane takes the result's low word, X1 the old X0 (R108). -/
theorem lanesResult_x {d : Opnd} {n : Nat} (hd : dst = some (d, n)) (h : DstOk dst) {ls : List Nat} (nd : ls.Nodup) (w : Wave) {l : Nat}
    (hl : l ∈ ls) (hlen : l < w.lanes.length) :
    (lanesResult clk lat dst flag val ls w).cur (.x l 0) = part (val l).r 0
      ∧ (lanesResult clk lat dst flag val ls w).cur (.x l 1) = w.cur (.x l 0) := by
  have hx0 : RKey.x l 0 ∈ sideKeys dst.isSome flag l := by simp [sideKeys, hd]
  have hx1 : RKey.x l 1 ∈ sideKeys dst.isSome flag l := by simp [sideKeys, hd]
  induction ls with
  | nil => simp at hl
  | cons a t ih =>
    rw [List.nodup_cons] at nd
    by_cases e : l = a
    · subst e
      have hout : ∀ k, k ∈ sideKeys dst.isSome flag l → (lanesResult clk lat dst flag val t w).cur k = w.cur k := by
        intro k hk
        refine lanesResult_ne t w h (sideKeys_ok _ _ _ k hk) fun b hb => ?_
        have : l ≠ b := fun e => nd.1 (e ▸ hb)
        simp only [laneKeys, List.mem_append, not_or]
        exact ⟨side_not_dst h hk, not_key_other this hk⟩
      have hlen' : l < (putDst clk lat dst l (val l) (lanesResult clk lat dst flag val t w)).lanes.length := by
        rw [bare_length (putDst_bare ..), lanesResult_length]; exact hlen
      have some_true : dst.isSome = true := by simp [hd]
      constructor
      · show ((val l).side clk lat dst.isSome flag l (putDst clk lat dst l (val l) (lanesResult clk lat dst flag val t w))).cur _ = _
        rw [some_true, side_x0 _ _ _ _ _ _ hlen']
        simp [part]
      · show ((val l).side clk lat dst.isSome flag l (putDst clk lat dst l (val l) (lanesResult clk lat dst flag val t w))).cur _ = _
        rw [some_true, side_x1 _ _ _ _ _ _ hlen', putDst_ne _ _ h (by simp [RKey.ok]) (side_not_dst h hx0)]
        exact hout _ hx0
    · have ht : l ∈ t := by simpa [e] using hl
      have := ih nd.2 ht
      refine ⟨(oneLane_ne _ h (by simp [RKey.ok]) ?_).trans this.1, (oneLane_ne _ h (by simp [RKey.ok]) ?_).trans this.2⟩ <;>
        simp only [laneKeys, List.mem_append, not_or]
      · exact ⟨side_not_dst h hx0, not_key_other e hx0⟩
      · exact ⟨side_not_dst h hx1, not_key_other e hx1⟩

/-- A lane's condition code takes the flags (R126). -/
theorem lanesResult_cc {c : BitVec 2} (hf : flag = some c) (h : DstOk dst) {ls : List Nat} (nd : ls.Nodup) (w : Wave) {l : Nat}
    (hl : l ∈ ls) (hlen : l < w.lanes.length) :
    (lanesResult clk lat dst flag val ls w).cur (.c l c.toNat) = (val l).cc.setWidth 32 := by
  have hc : RKey.c l c.toNat ∈ sideKeys dst.isSome flag l := by simp [sideKeys, hf]
  induction ls with
  | nil => simp at hl
  | cons a t ih =>
    rw [List.nodup_cons] at nd
    by_cases e : l = a
    · subst e
      subst hf
      have hlen' : l < (putDst clk lat dst l (val l) (lanesResult clk lat dst (some c) val t w)).lanes.length := by
        rw [bare_length (putDst_bare ..), lanesResult_length]; exact hlen
      exact side_cc _ _ _ _ _ _ _ hlen'
    · have ht : l ∈ t := by simpa [e] using hl
      refine (oneLane_ne _ h (sideKeys_ok _ _ _ _ hc) ?_).trans (ih nd.2 ht)
      simp only [laneKeys, List.mem_append, not_or]
      exact ⟨side_not_dst h hc, not_key_other e hc⟩
/-- The sides of a uniform result in every performing lane. -/
def sidesResult (clk lat : Nat) (dst : Bool) (flag : Option (BitVec 2)) (x : Res) (ls : List Nat) (w : Wave) : Wave :=
  ls.foldl (fun w l => x.side clk lat dst flag l w) w

theorem sidesResult_bare (b : Bool) (x : Res) (ls : List Nat) (w : Wave) : (sidesResult clk lat b flag x ls w).bare = w.bare := by
  induction ls generalizing w with
  | nil => rfl
  | cons a t ih => exact (ih _).trans (side_bare ..)
theorem sidesResult_length (b : Bool) (x : Res) (ls : List Nat) (w : Wave) :
    (sidesResult clk lat b flag x ls w).lanes.length = w.lanes.length := bare_length (sidesResult_bare b x ls w)
theorem sidesResult_inflight (b : Bool) (x : Res) (ls : List Nat) (w : Wave) {f : Inflight}
    (h : f ∈ (sidesResult clk lat b flag x ls w).inflight) : f ∈ w.inflight ∨ f.ready = clk + lat := by
  induction ls generalizing w with
  | nil => exact .inl h
  | cons a t ih =>
    rcases ih _ h with h | h
    · exact side_inflight _ _ _ _ _ _ _ h
    · exact .inr h
theorem sidesResult_ne (b : Bool) (x : Res) (ls : List Nat) (w : Wave) {k : RKey} (hk : k.ok) (hne : ∀ l ∈ ls, k ∉ sideKeys b flag l) :
    (sidesResult clk lat b flag x ls w).cur k = w.cur k := by
  induction ls generalizing w with
  | nil => rfl
  | cons a t ih =>
    exact (ih _ fun l hl => hne l (List.mem_cons_of_mem _ hl)).trans (side_cur_ne _ _ _ _ _ _ _ hk (hne a (List.mem_cons_self ..)))

theorem sides_other {b : Bool} {a l : Nat} (hne : l ≠ a) {k : RKey} (hk : k ∈ sideKeys b flag l) : k ∉ sideKeys b flag a := by
  cases b <;> cases flag <;> simp [sideKeys] at hk ⊢
  · subst hk; simp [hne]
  · rcases hk with rfl | rfl <;> simp [hne]
  · rcases hk with rfl | rfl | rfl <;> simp [hne]

theorem sidesResult_x (x : Res) {ls : List Nat} (nd : ls.Nodup) (w : Wave) {l : Nat} (hl : l ∈ ls) (hlen : l < w.lanes.length) :
    (sidesResult clk lat true flag x ls w).cur (.x l 0) = part x.r 0
      ∧ (sidesResult clk lat true flag x ls w).cur (.x l 1) = w.cur (.x l 0) := by
  have hx0 : RKey.x l 0 ∈ sideKeys true flag l := by simp [sideKeys]
  have hx1 : RKey.x l 1 ∈ sideKeys true flag l := by simp [sideKeys]
  induction ls generalizing w with
  | nil => simp at hl
  | cons a t ih =>
    rw [List.nodup_cons] at nd
    show (sidesResult clk lat true flag x t (x.side clk lat true flag a w)).cur _ = _ ∧
      (sidesResult clk lat true flag x t (x.side clk lat true flag a w)).cur _ = _
    by_cases e : l = a
    · subst e
      have out : ∀ b ∈ t, l ≠ b := fun b hb e => nd.1 (e ▸ hb)
      rw [sidesResult_ne true x t _ (by simp [RKey.ok]) fun b hb => sides_other (out b hb) hx0,
        sidesResult_ne true x t _ (by simp [RKey.ok]) fun b hb => sides_other (out b hb) hx1,
        side_x0 _ _ _ _ _ _ hlen, side_x1 _ _ _ _ _ _ hlen]
      simp [part]
    · have ht : l ∈ t := by simpa [e] using hl
      have := ih nd.2 (x.side clk lat true flag a w) ht (by rw [bare_length (side_bare ..)]; exact hlen)
      refine ⟨this.1, this.2.trans ?_⟩
      exact side_cur_ne _ _ _ _ _ _ _ (by simp [RKey.ok]) (sides_other e hx0)

theorem sidesResult_cc {c : BitVec 2} (b : Bool) (x : Res) {ls : List Nat} (nd : ls.Nodup) (w : Wave) {l : Nat} (hl : l ∈ ls)
    (hlen : l < w.lanes.length) : (sidesResult clk lat b (some c) x ls w).cur (.c l c.toNat) = x.cc.setWidth 32 := by
  have hc : RKey.c l c.toNat ∈ sideKeys b (some c) l := by simp [sideKeys]
  induction ls generalizing w with
  | nil => simp at hl
  | cons a t ih =>
    rw [List.nodup_cons] at nd
    show (sidesResult clk lat b (some c) x t (x.side clk lat b (some c) a w)).cur _ = _
    by_cases e : l = a
    · subst e
      have out : ∀ b ∈ t, l ≠ b := fun b hb e => nd.1 (e ▸ hb)
      rw [sidesResult_ne b x t _ (sideKeys_ok _ _ _ _ hc) fun a ha => sides_other (out a ha) hc, side_cc _ _ _ _ _ _ _ hlen]
    · have ht : l ∈ t := by simpa [e] using hl
      exact ih nd.2 _ ht (by rw [bare_length (side_bare ..)]; exact hlen)

theorem putDst_fpx (x : Res) (a : Nat) (w : Wave) (l : Nat) : ((putDst clk lat dst a x w).lane l).fpx = (w.lane l).fpx := by
  cases dst <;> simp [putDst]
/-- Exceptions of per-thread lanes. -/
theorem lanesResult_fpx {ls : List Nat} (nd : ls.Nodup) (w : Wave) (l : Nat) :
    ((lanesResult clk lat dst flag val ls w).lane l).fpx
      = if l ∈ ls ∧ l < w.lanes.length then (w.lane l).fpx ||| (val l).fpx else (w.lane l).fpx := by
  induction ls with
  | nil => simp [lanesResult]
  | cons a t ih =>
    rw [List.nodup_cons] at nd
    show (((val a).side clk lat dst.isSome flag a (putDst clk lat dst a (val a) (lanesResult clk lat dst flag val t w))).lane l).fpx = _
    rw [side_fpx, putDst_fpx, bare_length (putDst_bare ..), lanesResult_length, ih nd.2]
    by_cases e : l = a
    · subst e; simp [nd.1]
    · simp [e]
/-- Exceptions of a uniform result. -/
theorem sidesResult_fpx (b : Bool) (x : Res) {ls : List Nat} (nd : ls.Nodup) (w : Wave) (l : Nat) :
    ((sidesResult clk lat b flag x ls w).lane l).fpx
      = if l ∈ ls ∧ l < w.lanes.length then (w.lane l).fpx ||| x.fpx else (w.lane l).fpx := by
  induction ls generalizing w with
  | nil => simp [sidesResult]
  | cons a t ih =>
    rw [List.nodup_cons] at nd
    show ((sidesResult clk lat b flag x t (x.side clk lat b flag a w)).lane l).fpx = _
    rw [ih nd.2, side_fpx, bare_length (side_bare ..)]
    by_cases e : l = a
    · subst e; simp [nd.1]
    · simp [e]

end

end Sys2Proof.Machine
end

