-- ==== Sys2Proof/Laws/Perform.lean ====
section
/-! SUPPORT. How an instruction that runs ends (R71, R86, R119): the laws of the issuing entry, of an instruction's end, and
of the register instructions as a whole. -/

namespace Sys2Proof.Machine

/-! ## Groups and waves -/

theorem group_updGroup_self (m : Mach) (gid : Nat) (f : Group → Group) : (m.updGroup gid f).group gid = (m.group gid).map f := by
  unfold Mach.updGroup
  cases h : m.group gid <;> simp [Mach.group] at h ⊢ <;> simp [h]

theorem group_updGroup_ne (m : Mach) {gid g : Nat} (f : Group → Group) (h : g ≠ gid) : (m.updGroup gid f).group g = m.group g := by
  unfold Mach.updGroup
  cases m.group gid <;> simp [Mach.group]
  exact mget_mput_ne _ _ h

theorem wave_updWave_self (m : Mach) (gid wv : Nat) (f : Wave → Wave) : (m.updWave gid wv f).wave gid wv = (m.wave gid wv).map f := by
  unfold Mach.wave Mach.updWave
  rw [group_updGroup_self]
  cases m.group gid <;> simp [Group.wave, Group.updWave, lset]

theorem wave_updWave_ne (m : Mach) {gid wv g v : Nat} (f : Wave → Wave) (h : (g, v) ≠ (gid, wv)) :
    (m.updWave gid wv f).wave g v = m.wave g v := by
  unfold Mach.wave Mach.updWave
  by_cases e : g = gid
  · subst e
    rw [group_updGroup_self]
    have : wv ≠ v := fun e => h (by rw [e])
    cases m.group g <;> simp [Group.wave, Group.updWave, lset, this]
  · rw [group_updGroup_ne m _ e]

/-- A change of one group leaves every other field of the machine. -/
theorem updGroup_eq (m : Mach) (gid : Nat) (f : Group → Group) : ∃ gs, m.updGroup gid f = { m with groups := gs } := by
  unfold Mach.updGroup
  cases m.group gid
  · exact ⟨m.groups, rfl⟩
  · exact ⟨_, rfl⟩
theorem updWave_eq (m : Mach) (gid wv : Nat) (f : Wave → Wave) : ∃ gs, m.updWave gid wv f = { m with groups := gs } :=
  updGroup_eq m gid _

/-! ## Cores -/

@[simp] theorem core_setCore_self (m : Mach) (n : Nat) (c : Core) : (m.setCore n c).core n = c := by
  simp [Mach.setCore, Mach.core]
theorem core_setCore_ne (m : Mach) {n k : Nat} (c : Core) (h : k ≠ n) : (m.setCore n c).core k = m.core k := by
  simp [Mach.setCore, Mach.core, mgetD_mput_ne _ _ _ h]
@[simp] theorem core_updCore_self (m : Mach) (n : Nat) (f : Core → Core) : (m.updCore n f).core n = f (m.core n) := by
  simp [Mach.updCore]
theorem core_updCore_ne (m : Mach) {n k : Nat} (f : Core → Core) (h : k ≠ n) : (m.updCore n f).core k = m.core k :=
  core_setCore_ne m _ h

/-- A core without its counters, its idle clocks and its loop buffers. -/
def Core.still (c : Core) : Core := { c with counters := [], lastIssue := 0, power := .on, loops := [] }

theorem count_eq (m : Mach) (core : Nat) (asid : BitVec 16) (code n : Nat) (who : Option (Nat × Nat)) :
    ∃ cs, m.count core asid code n who = { m with cores := cs } := by
  unfold Mach.count
  by_cases h : (m.core core).counters.isEmpty = true
  · exact ⟨m.cores, if_pos h⟩
  · exact ⟨_, if_neg h⟩
theorem count_still (m : Mach) (core : Nat) (asid : BitVec 16) (code n : Nat) (who : Option (Nat × Nat)) (k : Nat) :
    ((m.count core asid code n who).core k).still = (m.core k).still := by
  unfold Mach.count
  by_cases h : (m.core core).counters.isEmpty = true
  · simp only [h, if_true]
  · simp only [h, Bool.false_eq_true, if_false]
    by_cases e : k = core
    · subst e; simp [Core.still]
    · rw [core_setCore_ne _ _ e]
@[simp] theorem count_groups (m : Mach) (core : Nat) (asid : BitVec 16) (code n : Nat) (who : Option (Nat × Nat)) :
    (m.count core asid code n who).groups = m.groups := by
  obtain ⟨cs, h⟩ := count_eq m core asid code n who
  rw [h]

/-! ## The issuing entry -/

/-- Where an instruction runs there is an issuing entry, and it is the wave's before its regions are marked. -/
theorem runs_some {s : State} {i : Instr} {c : Ctl} {e : Env} (h : s.runs i c = some e) :
    ∃ e0, Env.of c s.mach = some e0 ∧ e0.blocked i c = none ∧ (e0.begin c).parity ((e0.begin c).readsOf i) = none
      ∧ e = if txForbidden i then (e0.begin c).outsideTx else e0.begin c := by
  unfold State.runs at h
  split at h
  · cases h
  · rename_i e0 he
    split at h
    · cases h
    · rename_i hb
      split at h
      · cases h
      · rename_i hp
        refine ⟨e0, he, by simpa using hb, by simpa using hp, ?_⟩
        exact (Option.some.inj h).symm

theorem begin_consigns (e : Env) (c : Ctl) (h : e.m.consigns = []) : (e.begin c).m.consigns = [] := by
  unfold Env.begin
  simp only [h, List.isEmpty_nil, if_true]
  obtain ⟨gs, hg⟩ := updWave_eq e.m e.iss.gid e.iss.wave fun w => w.beginRegions c.idm e.whole
  show (Mach.updWave _ _ _ _).consigns = _
  rw [hg]; exact h

/-- What the surroundings of an issuing entry are (R24, R25, R34). -/
theorem of_eq {c : Ctl} {m : Mach} {e : Env} (h : Env.of c m = some e) :
    e.m = m ∧ m.issue = some e.iss ∧ m.wave e.iss.gid e.iss.wave = some e.w ∧ e.lanes = e.w.entryLanes e.iss.pc e.iss.prio
      ∧ e.act = e.lanes.filter fun l => e.w.guard m.clk c l := by
  unfold Env.of at h
  split at h
  · cases h
  rename_i iss hi
  split at h
  · cases h
  rename_i g hg
  split at h
  · cases h
  rename_i w hw
  simp only [Option.some.injEq] at h
  subst h
  exact ⟨rfl, hi, by unfold Mach.wave; show (m.group iss.gid).bind _ = _; rw [hg]; exact hw, rfl, rfl⟩

/-- The instruction may run in every thread: no open consignment forbids it (R211). -/
def Free (s : State) (i : Instr) : Prop := txForbidden i = false ∨ s.mach.consigns = []

/-- Where no consignment is open, none forbids an instruction (R211). -/
theorem consigned_nil {e : Env} (h : e.m.consigns = []) (ls : List Nat) : e.consigned ls = [] := by
  simp [Env.consigned, h]
/-- An instruction that no open consignment forbids performs in every active thread (R211). -/
theorem barred_free {e : Env} {i : Instr} (h : txForbidden i = false ∨ e.m.consigns = []) (body : Env → Eff) :
    e.barred i body = body e := by
  unfold Env.barred
  rcases h with h | h
  · simp [h]
  · simp [consigned_nil h]

theorem runs_free {s : State} {i : Instr} {c : Ctl} {e : Env} (h : s.runs i c = some e) (hf : Free s i) :
    ∃ e0, Env.of c s.mach = some e0 ∧ e0.blocked i c = none ∧ (e0.begin c).parity ((e0.begin c).readsOf i) = none
      ∧ e = e0.begin c ∧ (txForbidden i = false ∨ e.m.consigns = []) := by
  obtain ⟨e0, h1, h2, h3, h4⟩ := runs_some h
  have hc : txForbidden i = false ∨ (e0.begin c).m.consigns = [] :=
    hf.imp id fun hf => begin_consigns e0 c (by rw [(of_eq h1).1]; exact hf)
  have he : e = e0.begin c := h4.trans <| by
    rcases hc with hc | hc
    · simp [hc]
    · have : (e0.begin c).outsideTx = e0.begin c := by
        unfold Env.outsideTx
        rw [consigned_nil hc, List.filter_eq_self.2 (by simp)]
      simp [this]
  exact ⟨e0, h1, h2, h3, he, he ▸ hc⟩

/-- An instruction that runs is its body, ended. -/
theorem perform_runs {s : State} {i : Instr} {c : Ctl} {e : Env} (h : s.runs i c = some e) (hf : Free s i)
    (body : Env → Eff) : perform i c body s = onMach (fun _ => e.settle i c (body e)) s := by
  obtain ⟨e0, h1, h2, h3, rfl, h4⟩ := runs_free h hf
  simp only [perform, onMach, runIn, h1, h2, h3, barred_free h4]

/-- What asks for nothing is charged nothing (R371). -/
theorem bill_same {m₀ m : Mach} (h : m.used = m₀.used) (n : Nat) : m₀.bill m n = some m := if_pos h

/-- An instruction that runs, asks for nothing below the registers and is done ends in the state of its end. -/
theorem perform_done {s : State} {i : Instr} {c : Ctl} {e : Env} (h : s.runs i c = some e) (hf : Free s i)
    {body : Env → Eff} {m : Mach} {adv : List Nat} (hb : body e = .done m adv) (hu : m.used = e.m.used) :
    perform i c body s = .next { s with mach := e.finish i c m adv } := by
  rw [perform_runs h hf, hb]
  simp [onMach, Env.settle, bill_same hu]

/-! ## The threads of the issuing entry -/

theorem beginRegions_lane (w : Wave) (idm : Bool) (ls : List Nat) (l : Nat) :
    ((w.beginRegions idm ls).lane l).st = (w.lane l).st ∧ ((w.beginRegions idm ls).lane l).pc = (w.lane l).pc := by
  have h1 : ∀ {α : Type} (g : Lane → α), (∀ t : Lane, g t.snapNow = g t) → g ((w.beginRegions idm ls).lane l) = g (w.lane l) := by
    intro α g hs
    unfold Wave.beginRegions
    dsimp only
    split
    · rfl
    · exact lane_updLanes_field g _ _ Lane.snapNow hs l
  exact ⟨h1 Lane.st (fun _ => rfl), h1 Lane.pc (fun _ => rfl)⟩

/-- What holds of the surroundings of an instruction that runs. -/
structure Env.Good (e : Env) (s : State) : Prop where
  wave : e.m.wave e.iss.gid e.iss.wave = some e.w
  live : ∀ l ∈ e.lanes, l < 64 ∧ l < e.w.lanes.length ∧ (e.w.lane l).pc = e.iss.pc
  nodup : e.lanes.Nodup
  active : ∀ l ∈ e.act, l ∈ e.lanes
  mach : { e.m with groups := s.mach.groups, consigns := s.mach.consigns } = s.mach
  consigns : e.m.consigns.map (fun c => { c with fresh := false }) = s.mach.consigns.map (fun c => { c with fresh := false })
  others : ∀ gid wave, (gid, wave) ≠ (e.iss.gid, e.iss.wave) → e.m.wave gid wave = s.mach.wave gid wave

theorem begin_good {c : Ctl} {s : State} {e : Env} (h : Env.of c s.mach = some e) : (e.begin c).Good s := by
  obtain ⟨hm, _, hw, hl, ha⟩ := of_eq h
  -- the machine before the wave's regions begin
  obtain ⟨m1, e1, m1g, m1c, m1f⟩ : ∃ m1 : Mach, (e.begin c).m = m1.updWave e.iss.gid e.iss.wave (fun w => w.beginRegions c.idm e.whole)
      ∧ m1.groups = s.mach.groups ∧ { m1 with groups := s.mach.groups, consigns := s.mach.consigns } = s.mach
      ∧ m1.consigns.map (fun c => { c with fresh := false }) = s.mach.consigns.map (fun c => { c with fresh := false }) := by
    refine ⟨_, rfl, ?_, ?_, ?_⟩
    · rw [← hm]; split <;> rfl
    · rw [← hm]; split <;> rfl
    · rw [← hm]
      split
      · rfl
      · simp only [List.map_map]
        apply List.map_congr_left
        intro a _
        simp only [Function.comp]
        split <;> rfl
  have m1w : ∀ a b : Nat, m1.wave a b = s.mach.wave a b := fun a b => by unfold Mach.wave Mach.group; rw [m1g]
  have hwv : (e.begin c).m.wave e.iss.gid e.iss.wave = some (e.w.beginRegions c.idm e.whole) := by
    rw [e1, wave_updWave_self, m1w, hw]; rfl
  have hbw : (e.begin c).w = e.w.beginRegions c.idm e.whole := by
    show ((e.begin c).m.wave e.iss.gid e.iss.wave).getD e.w = _
    rw [hwv]; rfl
  have hlane : ∀ l ∈ e.lanes, l < 64 ∧ (e.w.lane l).st = .live ∧ (e.w.lane l).pc = e.iss.pc := by
    intro l hm
    rw [hl] at hm
    simp [Wave.entryLanes] at hm
    exact ⟨hm.1, hm.2.1.1.1.1, hm.2.1.1.1.2⟩
  obtain ⟨gs, hgs⟩ := updWave_eq m1 e.iss.gid e.iss.wave fun w => w.beginRegions c.idm e.whole
  refine ⟨by rw [hbw]; exact hwv, ?_, ?_, ?_, ?_, ?_, ?_⟩
  · intro l hm
    obtain ⟨h1, h2, h3⟩ := hlane l hm
    have hb := beginRegions_lane e.w c.idm e.whole l
    rw [hbw]
    exact ⟨h1, lane_lt_of_live _ (hb.1.trans h2), hb.2.trans h3⟩
  · show e.lanes.Nodup
    rw [hl]
    exact (List.nodup_range).filter _
  · intro l hm
    have : l ∈ e.act := hm
    rw [ha] at this
    exact (List.mem_filter.1 this).1
  · rw [e1, hgs]; exact m1c
  · rw [e1, hgs]; exact m1f
  · intro g v hne
    have hne : (g, v) ≠ (e.iss.gid, e.iss.wave) := hne
    rw [e1, wave_updWave_ne m1 _ hne, m1w]

theorem runs_good {s : State} {i : Instr} {c : Ctl} {e : Env} (h : s.runs i c = some e) (hf : Free s i) : e.Good s := by
  obtain ⟨e0, h1, _, _, rfl, _⟩ := runs_free h hf
  exact begin_good h1

theorem all_nodup (e : Env) : e.all.Nodup := (List.nodup_range).filter _
theorem mem_ordered {e : Env} {ls : List Nat} {l : Nat} : l ∈ e.ordered ls ↔ l ∈ ls := (byThread_perm ..).mem_iff
theorem ordered_nodup (e : Env) {ls : List Nat} (h : ls.Nodup) : (e.ordered ls).Nodup := (byThread_perm ..).symm.nodup h
theorem act_all {e : Env} {s : State} (g : e.Good s) {l : Nat} (h : l ∈ e.act) : l ∈ e.all := by
  simp only [Env.all, List.mem_filter, List.mem_range]
  exact ⟨(g.live l (g.active l h)).1, by simp [h]⟩

/-! ## The end of an instruction -/

/-- Some of a wave's threads have aged by one (R27). -/
def Wave.older (ls : List Nat) (w : Wave) : Wave := w.updLanes ls fun t => { t with age := t.age + 1 }
/-- A wave at the end of its instruction: threads `ls` of its other entries have aged (R27, R71). -/
def Env.endedWave (e : Env) (i : Instr) (c : Ctl) (adv ls : List Nat) (w : Wave) : Wave := (e.finishWave i c adv w).older ls

/-- What ageing does (R27): threads of the issuing wave have aged, and nothing else has changed. -/
theorem age_spec (e : Env) (m : Mach) : (∃ gs, e.age m = { m with groups := gs })
    ∧ (∃ ls, (e.age m).wave e.iss.gid e.iss.wave = (m.wave e.iss.gid e.iss.wave).map (Wave.older ls))
    ∧ ∀ g v, (g, v) ≠ (e.iss.gid, e.iss.wave) → (e.age m).wave g v = m.wave g v := by
  have same : (∃ gs, m = { m with groups := gs }) ∧ (∃ ls, m.wave e.iss.gid e.iss.wave = (m.wave e.iss.gid e.iss.wave).map (Wave.older ls))
      ∧ ∀ g v, (g, v) ≠ (e.iss.gid, e.iss.wave) → m.wave g v = m.wave g v :=
    ⟨⟨m.groups, rfl⟩, ⟨[], by cases m.wave e.iss.gid e.iss.wave <;> rfl⟩, fun _ _ _ => rfl⟩
  unfold Env.age Mach.ageOthers
  split
  · exact same
  · split
    · exact same
    · dsimp only
      split
      · exact same
      · refine ⟨updWave_eq m _ _ _, ?_, fun g v h => wave_updWave_ne m _ h⟩
        rw [wave_updWave_self]
        cases m.wave e.iss.gid e.iss.wave with
        | none => exact ⟨[], rfl⟩
        | some w => exact ⟨_, rfl⟩

theorem trimLoops_eq (m : Mach) (n : Nat) : ∃ cs, m.trimLoops n = { m with cores := cs } := by
  unfold Mach.trimLoops
  by_cases h : (m.core n).loops.isEmpty = true
  · exact ⟨m.cores, if_pos h⟩
  · exact ⟨_, if_neg h⟩
/-- Loop buffers are only ever left (R265). -/
theorem trimLoops_loops (m : Mach) (n k : Nat) : ∀ p ∈ ((m.trimLoops n).core k).loops, p ∈ (m.core k).loops := by
  unfold Mach.trimLoops
  dsimp only
  split
  · exact fun _ h => h
  · intro p hp
    by_cases h : k = n
    · subst h
      rw [core_setCore_self] at hp
      exact (List.mem_filter.1 hp).1
    · rwa [core_setCore_ne _ _ h] at hp
theorem trimLoops_still (m : Mach) (n k : Nat) : ((m.trimLoops n).core k).still = (m.core k).still := by
  unfold Mach.trimLoops
  dsimp only
  split
  · rfl
  · by_cases h : k = n
    · subst h; rw [core_setCore_self]; rfl
    · rw [core_setCore_ne _ _ h]
theorem count_loops (m : Mach) (core : Nat) (asid : BitVec 16) (code n : Nat) (who : Option (Nat × Nat)) (k : Nat) :
    ((m.count core asid code n who).core k).loops = (m.core k).loops := by
  unfold Mach.count
  dsimp only
  split
  · rfl
  · by_cases e : k = core
    · subst e; simp
    · rw [core_setCore_ne _ _ e]

/-- The machine at an instruction's end, its core's idle clock and counters apart. -/
def Env.ending (e : Env) (i : Instr) (c : Ctl) (m : Mach) (adv : List Nat) : Mach := e.age (e.upd m (e.finishWave i c adv))

theorem ending_eq (e : Env) (i : Instr) (c : Ctl) (m : Mach) (adv : List Nat) : ∃ gs, e.ending i c m adv = { m with groups := gs } := by
  obtain ⟨gs, h⟩ := (age_spec e (e.upd m (e.finishWave i c adv))).1
  obtain ⟨gs', h'⟩ := updWave_eq m e.iss.gid e.iss.wave (e.finishWave i c adv)
  refine ⟨gs, h.trans ?_⟩
  unfold Env.upd
  rw [h']
theorem finish_def (e : Env) (i : Instr) (c : Ctl) (m : Mach) (adv : List Nat) :
    e.finish i c m adv = { (((((e.ending i c m adv).updCore e.core fun k => { k with lastIssue := e.clk, power := .on }).trimLoops e.core).count
      e.core e.asid 0x0002 1 (some (e.iss.gid, e.iss.wave))).count e.core e.asid 0x0003 e.act.length (some (e.iss.gid, e.iss.wave)))
      with issue := none } := rfl

/-- An instruction's end changes its wave, the counters, clocks and loop buffers of its core, and the issue; nothing else. -/
theorem finish_eq (e : Env) (i : Instr) (c : Ctl) (m : Mach) (adv : List Nat) :
    ∃ cs, e.finish i c m adv = { e.ending i c m adv with cores := cs, issue := none } := by
  rw [finish_def]
  generalize e.ending i c m adv = m
  obtain ⟨c0, h0⟩ := trimLoops_eq (m.updCore e.core fun k => { k with lastIssue := e.clk, power := .on }) e.core
  rw [h0]
  obtain ⟨c1, h1⟩ := count_eq ({ m.updCore e.core (fun k => { k with lastIssue := e.clk, power := .on }) with cores := c0 } : Mach)
    e.core e.asid 0x0002 1 (some (e.iss.gid, e.iss.wave))
  rw [h1]
  obtain ⟨c2, h2⟩ := count_eq ({ m.updCore e.core (fun k => { k with lastIssue := e.clk, power := .on }) with cores := c1 } : Mach)
    e.core e.asid 0x0003 e.act.length (some (e.iss.gid, e.iss.wave))
  exact ⟨c2, congrArg (fun m : Mach => ({ m with issue := none } : Mach)) h2⟩

theorem finish_still (e : Env) (i : Instr) (c : Ctl) (m : Mach) (adv : List Nat) (n : Nat) :
    ((e.finish i c m adv).core n).still = (m.core n).still := by
  obtain ⟨gs, h⟩ := ending_eq e i c m adv
  rw [finish_def, h]
  show ((Mach.count _ _ _ _ _ _).core n).still = _
  rw [count_still, count_still, trimLoops_still]
  by_cases h : n = e.core
  · subst h
    rw [core_updCore_self]; rfl
  · rw [core_updCore_ne _ _ h]; rfl
theorem finish_loops (e : Env) (i : Instr) (c : Ctl) (m : Mach) (adv : List Nat) (n : Nat) :
    ∀ p ∈ ((e.finish i c m adv).core n).loops, p ∈ (m.core n).loops := by
  obtain ⟨gs, h⟩ := ending_eq e i c m adv
  rw [finish_def, h]
  show ∀ p ∈ ((Mach.count _ _ _ _ _ _).core n).loops, _
  rw [count_loops, count_loops]
  intro p hp
  have := trimLoops_loops _ _ _ p hp
  by_cases h : n = e.core
  · subst h
    rw [core_updCore_self] at this; exact this
  · rw [core_updCore_ne _ _ h] at this; exact this

theorem finish_wave (e : Env) (i : Instr) (c : Ctl) (m : Mach) (adv : List Nat) : ∃ ls,
    (e.finish i c m adv).wave e.iss.gid e.iss.wave = (m.wave e.iss.gid e.iss.wave).map (e.endedWave i c adv ls) := by
  obtain ⟨cs, h⟩ := finish_eq e i c m adv
  obtain ⟨ls, hl⟩ := (age_spec e (e.upd m (e.finishWave i c adv))).2.1
  refine ⟨ls, ?_⟩
  rw [h]
  refine Eq.trans hl ?_
  unfold Env.upd
  rw [wave_updWave_self, Option.map_map]
  rfl

theorem finish_wave_ne (e : Env) (i : Instr) (c : Ctl) (m : Mach) (adv : List Nat) {g v : Nat} (hne : (g, v) ≠ (e.iss.gid, e.iss.wave)) :
    (e.finish i c m adv).wave g v = m.wave g v := by
  obtain ⟨cs, h⟩ := finish_eq e i c m adv
  rw [h]
  exact ((age_spec e (e.upd m (e.finishWave i c adv))).2.2 g v hne).trans (wave_updWave_ne m _ hne)

/-! ## The wave at an instruction's end -/

theorem cur_updLanes (w : Wave) (ls : List Nat) (f : Lane → Lane)
    (hf : ∀ t, (f t).x0 = t.x0 ∧ (f t).x1 = t.x1 ∧ (f t).c0 = t.c0 ∧ (f t).c1 = t.c1 ∧ (f t).c2 = t.c2 ∧ (f t).c3 = t.c3) (k : RKey) :
    (w.updLanes ls f).cur k = w.cur k := by
  have hv : ∀ w : Wave, (w.updLanes ls f).v = w.v ∧ (w.updLanes ls f).k = w.k ∧ (w.updLanes ls f).w = w.w := by
    induction ls with
    | nil => exact fun _ => ⟨rfl, rfl, rfl⟩
    | cons a t ih => exact fun w => ih (w.updLane a f)
  cases k with
  | v l i => simp only [Wave.cur]; rw [(hv w).1]
  | k l i => simp only [Wave.cur]; rw [(hv w).2.1]
  | w i => simp only [Wave.cur]; rw [(hv w).2.2]
  | x l i =>
    simp only [Wave.cur]
    rw [lane_updLanes_field Lane.x0 w ls f (fun t => (hf t).1), lane_updLanes_field Lane.x1 w ls f (fun t => (hf t).2.1)]
  | c l n =>
    simp only [Wave.cur]
    rw [lane_updLanes_field (fun t => t.cc n) w ls f fun t => by
      obtain ⟨_, _, h0, h1, h2, h3⟩ := hf t
      unfold Lane.cc; split <;> assumption]

theorem mark_cur (w : Wave) (lead : Nat) (k j : RKey) : (w.mark lead k).cur j = w.cur j := by
  unfold Wave.mark
  split
  · split <;> cases j <;> rfl
  · cases j <;> rfl
  · rfl
theorem mark_lanes (w : Wave) (lead : Nat) (k : RKey) : (w.mark lead k).lanes = w.lanes := by
  unfold Wave.mark
  split
  · split <;> rfl
  · rfl
  · rfl
theorem mark_inflight (w : Wave) (lead : Nat) (k : RKey) : (w.mark lead k).inflight = w.inflight := by
  unfold Wave.mark
  split
  · split <;> rfl
  · rfl
  · rfl
theorem marks_cur (ks : List RKey) (w : Wave) (lead : Nat) (j : RKey) : (ks.foldl (fun w k => w.mark lead k) w).cur j = w.cur j := by
  induction ks generalizing w with
  | nil => rfl
  | cons a t ih => exact (ih _).trans (mark_cur w lead a j)
theorem marks_lanes (ks : List RKey) (w : Wave) (lead : Nat) : (ks.foldl (fun w k => w.mark lead k) w).lanes = w.lanes := by
  induction ks generalizing w with
  | nil => rfl
  | cons a t ih => exact (ih _).trans (mark_lanes w lead a)
theorem marks_inflight (ks : List RKey) (w : Wave) (lead : Nat) : (ks.foldl (fun w k => w.mark lead k) w).inflight = w.inflight := by
  induction ks generalizing w with
  | nil => rfl
  | cons a t ih => exact (ih _).trans (mark_inflight w lead a)
theorem updLanes_inflight (w : Wave) (ls : List Nat) (f : Lane → Lane) : (w.updLanes ls f).inflight = w.inflight := by
  induction ls generalizing w with
  | nil => rfl
  | cons a t ih => exact ih (w.updLane a f)

/-- The lanes at the end of an instruction, the threads that advance apart: STALL, the region and the ages. -/
theorem endedWave_lane' {α : Type} (e : Env) (i : Instr) (c : Ctl) (adv ls : List Nat) (w : Wave) (g : Lane → α)
    (hr : ∀ t r a b, g { t with ready := r, age := a, rolled := b } = g t) (hn : ∀ t n b, g { t with newRegion := n, rolled := b } = g t)
    (ha : ∀ t a, g { t with age := a } = g t) (l : Nat) :
    g ((e.endedWave i c adv ls w).lane l) = g ((w.updLanes adv e.advance).lane l) := by
  have hm : ∀ (ks : List RKey) (w : Wave), (ks.foldl (fun w k => w.mark e.lead k) w).lane l = w.lane l := fun ks w => by
    unfold Wave.lane; rw [marks_lanes]
  refine (lane_updLanes_field g _ ls _ (fun t => ha t _) l).trans ?_
  show g ((List.foldl _ _ _ : Wave).lane l) = _
  rw [hm]
  have h1 : ∀ w : Wave, g ((if external i && !e.act.isEmpty then w.closeRegions e.lanes else w).lane l) = g (w.lane l) := fun w => by
    split
    · exact lane_updLanes_field g w _ _ (fun t => hn t _ _) l
    · rfl
  rw [h1, lane_updLanes_field g _ _ (fun t => { t with rolled := false }) (fun t => hn t t.newRegion false),
    lane_updLanes_field g _ _ (e.settleLane c) (fun t => hr t _ _ _)]

/-- What the end of an instruction keeps of a lane's fields that neither issue nor the frontier concerns. -/
theorem endedWave_lane {α : Type} (e : Env) (i : Instr) (c : Ctl) (adv ls : List Nat) (w : Wave) (g : Lane → α)
    (hp : ∀ t pc, g { t with pc := pc } = g t) (hr : ∀ t r a b, g { t with ready := r, age := a, rolled := b } = g t)
    (hn : ∀ t n b, g { t with newRegion := n, rolled := b } = g t) (ha : ∀ t a, g { t with age := a } = g t) (l : Nat) :
    g ((e.endedWave i c adv ls w).lane l) = g (w.lane l) :=
  (endedWave_lane' e i c adv ls w g hr hn ha l).trans (lane_updLanes_field g _ _ e.advance (fun t => hp t _) l)

/-- A thread that advances stands past the instruction's length; no other moves. -/
theorem endedWave_pc (e : Env) (i : Instr) (c : Ctl) {adv : List Nat} (ls : List Nat) (w : Wave) (nd : adv.Nodup) (l : Nat) :
    ((e.endedWave i c adv ls w).lane l).pc
      = if l ∈ adv ∧ l < w.lanes.length then (w.lane l).pc + BitVec.ofNat 64 e.iss.len else (w.lane l).pc := by
  rw [endedWave_lane' e i c adv ls w Lane.pc (fun _ _ _ _ => rfl) (fun _ _ _ => rfl) (fun _ _ => rfl)]
  by_cases h : l ∈ adv
  · by_cases hl : l < w.lanes.length
    · rw [lane_updLanes_in w _ h nd hl]; simp [h, hl, Env.advance]
    · have h1 : ¬ l < (w.updLanes adv e.advance).lanes.length := by simpa using hl
      simp only [h, hl, and_false, if_false, Wave.lane, List.getD_eq_getElem?_getD, List.getElem?_eq_none (Nat.le_of_not_lt hl),
        List.getElem?_eq_none (Nat.le_of_not_lt h1)]
  · rw [lane_updLanes_out w _ h]; simp [h]

/-- The end of an instruction writes no register. -/
theorem endedWave_cur (e : Env) (i : Instr) (c : Ctl) (adv ls : List Nat) (w : Wave) (k : RKey) :
    (e.endedWave i c adv ls w).cur k = w.cur k := by
  unfold Env.endedWave Wave.older
  have quiet : ∀ (w : Wave) (ls : List Nat), (w.updLanes ls fun t => { t with age := t.age + 1 }).cur k = w.cur k ∧
      (w.updLanes ls fun t => { t with newRegion := true, rolled := false }).cur k = w.cur k ∧
      (w.updLanes ls (e.settleLane c)).cur k = w.cur k ∧ (w.updLanes ls e.advance).cur k = w.cur k ∧
      (w.updLanes ls fun t => { t with rolled := false }).cur k = w.cur k := fun w ls =>
    ⟨cur_updLanes w ls _ (fun _ => by exact ⟨rfl, rfl, rfl, rfl, rfl, rfl⟩) k, cur_updLanes w ls _ (fun _ => by exact ⟨rfl, rfl, rfl, rfl, rfl, rfl⟩) k, cur_updLanes w ls _ (fun _ => by exact ⟨rfl, rfl, rfl, rfl, rfl, rfl⟩) k,
      cur_updLanes w ls _ (fun _ => by exact ⟨rfl, rfl, rfl, rfl, rfl, rfl⟩) k, cur_updLanes w ls _ (fun _ => by exact ⟨rfl, rfl, rfl, rfl, rfl, rfl⟩) k⟩
  refine (quiet _ ls).1.trans ?_
  have h0 : ∀ w' : Wave, w'.cur k = w.cur k → (if external i && !e.act.isEmpty then w'.closeRegions e.lanes else w').cur k = w.cur k :=
    fun w' h => by
      split
      · exact (quiet w' _).2.1.trans h
      · exact h
  have h1 := (marks_cur (e.writesOf i) _ e.lead k).trans (h0
    (((w.updLanes adv e.advance).updLanes e.lanes (e.settleLane c)).updLanes (e.w.helpersOf e.lanes) fun t => { t with rolled := false }) <|
    (quiet _ _).2.2.2.2.trans ((quiet _ e.lanes).2.2.1.trans (quiet _ adv).2.2.2.1))
  cases k <;> exact h1

/-- The end of an instruction puts no result in flight. -/
theorem endedWave_inflight (e : Env) (i : Instr) (c : Ctl) (adv ls : List Nat) (w : Wave) {f : Inflight}
    (h : f ∈ (e.endedWave i c adv ls w).inflight) : f ∈ w.inflight := by
  unfold Env.endedWave Wave.older at h
  rw [updLanes_inflight] at h
  have h := dropReady_mem _ _ h
  rw [marks_inflight] at h
  split at h
  · unfold Wave.closeRegions at h
    rwa [updLanes_inflight, updLanes_inflight, updLanes_inflight, updLanes_inflight] at h
  · rwa [updLanes_inflight, updLanes_inflight, updLanes_inflight] at h

/-- The special registers of wave scope (R117). -/
def Wave.special (w : Wave) : Word × BitVec 2 × Word × DWord × DWord × DWord := (w.ctl, w.dbg, w.tcause, w.tpc, w.taddr, w.tmask)
theorem updLanes_special (w : Wave) (ls : List Nat) (f : Lane → Lane) : (w.updLanes ls f).special = w.special := by
  induction ls generalizing w with
  | nil => rfl
  | cons a t ih => exact ih (w.updLane a f)
theorem marks_special (ks : List RKey) (w : Wave) (lead : Nat) : (ks.foldl (fun w k => w.mark lead k) w).special = w.special := by
  induction ks generalizing w with
  | nil => rfl
  | cons a t ih =>
    refine (ih (w.mark lead a)).trans ?_
    unfold Wave.mark
    split
    · split <;> rfl
    · rfl
    · rfl
/-- The end of an instruction keeps the special registers of its wave. -/
theorem endedWave_special (e : Env) (i : Instr) (c : Ctl) (adv ls : List Nat) (w : Wave) :
    (e.endedWave i c adv ls w).special = w.special := by
  refine (updLanes_special _ ls _).trans ((marks_special (e.writesOf i) _ e.lead).trans ?_)
  split
  · exact (updLanes_special _ _ _).trans ((updLanes_special _ _ _).trans ((updLanes_special _ _ _).trans (updLanes_special _ _ _)))
  · exact (updLanes_special _ _ _).trans ((updLanes_special _ _ _).trans (updLanes_special _ _ _))

end Sys2Proof.Machine
end

