-- ==== Sys2Proof/Laws/Reads.lean ====
section
/-! SUPPORT. Reads of stored words that have nothing wrong in them (R376 to R381). -/

namespace Sys2Proof.Machine
/-- A word of a memory with nothing wrong in it reads as it was written, and the machine stands (R376, R378, R380). -/
theorem Mach.readWord_clean {m : Mach} (ok : m.rel.allOk = true) (flips : m.rel.flips = []) (bad : m.rel.bad = []) (word : Nat) :
    m.readWord word = (m, m.wordBytes word, false) := by
  simp [Mach.readWord, Mach.stallAt, Rel.stalls, Rel.dead, Rel.eccAt, Mach.wordOut, ok, flips, bad, mget]
theorem foldl_words {m : Mach} (h : ∀ w, m.readWord w = (m, m.wordBytes w, false)) (ws : List Nat) (bs : List Byte) :
    ws.foldl (fun (a : Mach × List Byte × Option Nat) w =>
      let (m, d, p) := a.1.readWord w
      (m, a.2.1 ++ d, if p then a.2.2.or (some (8 * w)) else a.2.2)) (m, bs, none) = (m, bs ++ ws.flatMap m.wordBytes, none) := by
  induction ws generalizing bs with
  | nil => simp
  | cons w ws ih => rw [List.foldl_cons]; simp only [h]; simpa using ih (bs ++ m.wordBytes w)
/-- A read of memory with nothing wrong in it: the bytes as they were written, none poisoned (R376). -/
theorem Mach.paRead_clean {m : Mach} (ok : m.rel.allOk = true) (flips : m.rel.flips = []) (bad : m.rel.bad = []) (pa n : Nat) :
    let bs := ((((List.range ((pa + n + 7) / 8 - pa / 8)).map (· + pa / 8)).flatMap m.wordBytes).drop (pa % 8)).take n
    m.paRead pa n = (m.beats pa bs, bs, none) := by
  simp only [Mach.paRead]
  rw [foldl_words (Mach.readWord_clean ok flips bad)]
  simp
/-- A line that the victim store holds, in memory with nothing wrong in it (R189). -/
theorem Mach.victimGet_hit {m : Mach} (ok : m.rel.allOk = true) (flips : m.rel.flips = []) (bad : m.rel.bad = []) {line way : Nat}
    (h : m.victim.lookup line = some way) : ∃ v bs, m.victimGet line = (v, some bs) := by
  have := Mach.paRead_clean ok flips bad (victimAt line way) 64
  refine ⟨(m.paRead (victimAt line way) 64).1, (m.paRead (victimAt line way) 64).2.1, ?_⟩
  simp only [Mach.victimGet, h, this]
end Sys2Proof.Machine
end

