-- ==== Sys2Proof/Laws/Register.lean ====
section
/-! SUPPORT. The law of register instructions (R32, R72, R87, R108, R126): what the machine holds after one has run. -/

namespace Sys2Proof.Machine

/-- No fixed latency is longer than 8 clk (R87). -/
theorem latency_le (i : Instr) : latency i ≤ 8 := by
  unfold latency; split <;> omega

/-- A legal destination of one register, or of an even register and the next (R72). -/
theorem dstOk_of_use {u : Use} {regs : Nat} (h : u.ok regs = true) (hd : u.dst = true) (hn : u.n = 1 ∨ (u.n = 2 ∧ u.align = 2)) :
    dstOk u.o u.n := by
  have hlt := u.o.idx.isLt
  simp only [Use.ok, Bool.and_eq_true, beq_iff_eq] at h
  obtain ⟨⟨_, ha⟩, hc⟩ := h
  refine ⟨by omega, fun hx => ?_, fun hv => ?_, fun hk => ?_⟩
  · simp [hx, hd] at hc
  · rcases hn with hn | ⟨hn, hal⟩
    · omega
    · rw [hal] at ha; omega
  · simp [hk] at hc; omega

/-- The operands of an instruction that runs are legal (R86, order 5). -/
theorem runs_usesOk {s : State} {i : Instr} {c : Ctl} {e : Env} (h : s.runs i c = some e) :
    ∃ regs, usesOk (uses i) regs = true := by
  obtain ⟨e0, _, hb, _, _⟩ := runs_some h
  refine ⟨e0.w.base + e0.w.ext, ?_⟩
  unfold Env.blocked at hb
  simp only at hb
  split at hb
  · cases hb
  · split at hb
    · cases hb
    · rename_i h; simpa using h

/-- Each legal destination named by an instruction that runs. -/
theorem runs_dstOk {s : State} {i : Instr} {c : Ctl} {e : Env} (h : s.runs i c = some e) {u : Use} (hu : u ∈ uses i)
    (hd : u.dst = true) (hn : u.n = 1 ∨ (u.n = 2 ∧ u.align = 2)) : dstOk u.o u.n := by
  obtain ⟨regs, ho⟩ := runs_usesOk h
  simp only [usesOk, Bool.and_eq_true] at ho
  exact dstOk_of_use (List.all_eq_true.1 ho.1 u hu) hd hn

/-- A machine in which only the issuing wave has changed, and is now w. -/
structure Env.Alone (e : Env) (m : Mach) (w : Wave) : Prop where
  eq : ∃ gs, m = { e.m with groups := gs }
  wave : m.wave e.iss.gid e.iss.wave = some w
  others : ∀ g v, (g, v) ≠ (e.iss.gid, e.iss.wave) → m.wave g v = e.m.wave g v

theorem alone_self {s : State} {e : Env} (g : e.Good s) : e.Alone e.m e.w :=
  ⟨⟨e.m.groups, rfl⟩, g.wave, fun _ _ _ => rfl⟩
/-- A machine in which only the issuing wave has changed has asked for nothing. -/
theorem alone_used {e : Env} {m : Mach} {w : Wave} (h : e.Alone m w) : m.used = e.m.used := by
  obtain ⟨gs, rfl⟩ := h.eq; rfl
theorem alone_upd {e : Env} {m : Mach} {w : Wave} (h : e.Alone m w) (f : Wave → Wave) : e.Alone (e.upd m f) (f w) := by
  refine ⟨?_, ?_, ?_⟩
  · obtain ⟨gs, hg⟩ := updWave_eq m e.iss.gid e.iss.wave f
    obtain ⟨gs', rfl⟩ := h.eq
    exact ⟨gs, hg⟩
  · show (Mach.updWave m e.iss.gid e.iss.wave f).wave e.iss.gid e.iss.wave = _
    rw [wave_updWave_self, h.wave]; rfl
  · intro a b hne
    show (Mach.updWave m e.iss.gid e.iss.wave f).wave a b = _
    rw [wave_updWave_ne m f hne, h.others a b hne]

section
variable {s : State} {e : Env} {m : Mach} {w : Wave}

/-- The end of an instruction that worked on its wave alone leaves everything else (R86). -/
theorem finish_quiet (g : e.Good s) (h : e.Alone m w) (i : Instr) (c : Ctl) (adv : List Nat) :
    e.quiet s { s with mach := e.finish i c m adv } := by
  obtain ⟨cs, hf⟩ := finish_eq e i c m adv
  obtain ⟨gs, hg⟩ := ending_eq e i c m adv
  obtain ⟨gs', rfl⟩ := h.eq
  have hm : e.finish i c { e.m with groups := gs' } adv = { e.m with groups := gs, cores := cs, issue := none } := by
    rw [hf, hg]
  have h3 (n : Nat) : e.m.core n = s.mach.core n := by
    have h4 : e.m.cores = s.mach.cores := by have := congrArg Mach.cores g.mach; exact this
    unfold Mach.core; rw [h4]
  refine ⟨rfl, rfl, ?_, ?_, ?_, ?_, ?_⟩
  · show { e.finish i c { e.m with groups := gs' } adv with groups := s.mach.groups, cores := s.mach.cores, issue := s.mach.issue, consigns := s.mach.consigns } = s.mach
    rw [hm]
    have := g.mach
    calc _ = { ({ e.m with groups := s.mach.groups, consigns := s.mach.consigns } : Mach) with cores := s.mach.cores, issue := s.mach.issue } := rfl
      _ = { s.mach with cores := s.mach.cores, issue := s.mach.issue } := by rw [this]
      _ = s.mach := rfl
  · show (e.finish i c { e.m with groups := gs' } adv).consigns.map _ = _
    rw [hm]; exact g.consigns
  · intro gid wave hne
    show (e.finish i c { e.m with groups := gs' } adv).wave gid wave = _
    rw [finish_wave_ne e i c _ adv hne, h.others gid wave hne, g.others gid wave hne]
  · intro n
    exact (finish_still e i c { e.m with groups := gs' } adv n).trans (congrArg Core.still (h3 n))
  · intro n b hb
    rw [← h3 n]
    exact finish_loops e i c { e.m with groups := gs' } adv n b hb

/-- The wave at the end of the instruction. -/
theorem finish_now (h : e.Alone m w) (i : Instr) (c : Ctl) (adv : List Nat) :
    ∃ ls, e.now { s with mach := e.finish i c m adv } = e.endedWave i c adv ls w := by
  obtain ⟨ls, hl⟩ := finish_wave e i c m adv
  refine ⟨ls, ?_⟩
  show ((e.finish i c m adv).wave e.iss.gid e.iss.wave).getD e.w = _
  rw [hl, h.wave]
  rfl
/-- What the end of the instruction keeps of a lane. -/
theorem finish_lane {α : Type} (h : e.Alone m w) (i : Instr) (c : Ctl) (adv : List Nat) (g : Lane → α)
    (hp : ∀ t pc, g { t with pc := pc } = g t) (hr : ∀ t r a b, g { t with ready := r, age := a, rolled := b } = g t)
    (hn : ∀ t n b, g { t with newRegion := n, rolled := b } = g t) (ha : ∀ t a, g { t with age := a } = g t) (l : Nat) :
    g ((e.now { s with mach := e.finish i c m adv }).lane l) = g (w.lane l) := by
  obtain ⟨ls, hl⟩ := finish_now (s := s) h i c adv
  rw [hl, endedWave_lane e i c adv ls w g hp hr hn ha]
/-- The end of the instruction writes no register. -/
theorem finish_cur (h : e.Alone m w) (i : Instr) (c : Ctl) (adv : List Nat) (k : RKey) :
    (e.now { s with mach := e.finish i c m adv }).cur k = w.cur k := by
  obtain ⟨ls, hl⟩ := finish_now (s := s) h i c adv
  rw [hl, endedWave_cur]

/-- The threads of the entry have advanced, when their wave kept its lanes and pcs. -/
theorem finish_passes (g : e.Good s) (h : e.Alone m w) (i : Instr) (c : Ctl) (hf : w.bare = e.w.bare) :
    e.passes { s with mach := e.finish i c m e.lanes } := by
  have hl := bare_length hf
  have hp : ∀ l, (w.lane l).pc = (e.w.lane l).pc := by
    intro l
    have h1 : (w.lane l).bare.pc = (e.w.lane l).bare.pc := by rw [bare_lane hf l]
    exact h1
  obtain ⟨ls, hn⟩ := finish_now (s := s) h i c e.lanes
  constructor
  · intro l hm
    rw [hn, endedWave_pc e i c _ _ g.nodup, hp]
    obtain ⟨_, h2, h3⟩ := g.live l hm
    simp [hm, hl, h2, h3, Env.next]
  · intro l hm
    rw [hn, endedWave_pc e i c _ _ g.nodup, hp]
    simp [hm]

/-- A register reads, from the clk on at which everything is ready, as the instruction left it. -/
theorem finish_reg (h : e.Alone m w) (i : Instr) (c : Ctl) (adv : List Nat) {T : Nat} (ht : e.settled T)
    (hf : ∀ x ∈ w.inflight, x ∈ e.w.inflight ∨ x.ready = e.clk + latency i) (k : RKey) :
    (e.now { s with mach := e.finish i c m adv }).reg T k = w.cur k := by
  obtain ⟨ls, hn⟩ := finish_now (s := s) h i c adv
  rw [hn, reg_eq_cur, endedWave_cur]
  intro x hx
  have hl := latency_le i
  rcases hf x (endedWave_inflight e i c adv ls _ hx) with h | h
  · exact ht.2 x h
  · have := ht.1; omega

/-- Special registers and threads are as before, when only registers of the wave have changed. -/
theorem finish_steady (h : e.Alone m w) (i : Instr) (c : Ctl) (adv : List Nat) (hf : w.bare = e.w.bare) :
    e.steady { s with mach := e.finish i c m adv } := by
  obtain ⟨ls, hn⟩ := finish_now (s := s) h i c adv
  have hs : (e.now { s with mach := e.finish i c m adv }).special = e.w.special := by
    rw [hn, endedWave_special]
    exact show w.bare.special = e.w.bare.special by rw [hf]
  have hl : ∀ {α : Type} (g : Lane → α), (∀ t pc, g { t with pc := pc } = g t) → (∀ t r a b, g { t with ready := r, age := a, rolled := b } = g t) →
      (∀ t n b, g { t with newRegion := n, rolled := b } = g t) → (∀ t a, g { t with age := a } = g t) → (∀ t, g t.bare = g t) →
      ∀ l, g ((e.now { s with mach := e.finish i c m adv }).lane l) = g (e.w.lane l) := fun g h1 h2 h3 h5 h4 l => by
    rw [finish_lane h i c adv g h1 h2 h3 h5 l, ← h4 (w.lane l), bare_lane hf l, h4]
  simp only [Wave.special, Prod.mk.injEq] at hs
  exact ⟨hs, fun l => ⟨hl Lane.st (fun _ _ => rfl) (fun _ _ _ _ => rfl) (fun _ _ _ => rfl) (fun _ _ => rfl) (fun _ => rfl) l,
    hl Lane.prio (fun _ _ => rfl) (fun _ _ _ _ => rfl) (fun _ _ _ => rfl) (fun _ _ => rfl) (fun _ => rfl) l,
    hl Lane.wait (fun _ _ => rfl) (fun _ _ _ _ => rfl) (fun _ _ _ => rfl) (fun _ _ => rfl) (fun _ => rfl) l,
    hl Lane.txcause (fun _ _ => rfl) (fun _ _ _ _ => rfl) (fun _ _ _ => rfl) (fun _ _ => rfl) (fun _ => rfl) l,
    hl Lane.arrival (fun _ _ => rfl) (fun _ _ _ _ => rfl) (fun _ _ _ => rfl) (fun _ _ => rfl) (fun _ => rfl) l,
    hl Lane.handler (fun _ _ => rfl) (fun _ _ _ _ => rfl) (fun _ _ _ => rfl) (fun _ _ => rfl) (fun _ => rfl) l⟩⟩

theorem finish_fpx (h : e.Alone m w) (i : Instr) (c : Ctl) (adv : List Nat) (l : Nat) :
    ((e.now { s with mach := e.finish i c m adv }).lane l).fpx = (w.lane l).fpx := by
  exact finish_lane h i c adv Lane.fpx (fun _ _ => rfl) (fun _ _ _ _ => rfl) (fun _ _ _ => rfl) (fun _ _ => rfl) l
end

theorem keeps_side {e : Env} {dst : Option (Opnd × Nat)} {flag : Option (BitVec 2)} {k : RKey} (hn : ¬ e.written dst flag k) {l : Nat}
    (hl : l ∈ e.all) : k ∉ sideKeys dst.isSome flag l := by
  intro hm
  apply hn
  cases hd : dst.isSome <;> cases flag <;> simp [sideKeys, hd] at hm
  · exact .inr (.inr ⟨_, rfl, l, hl, hm⟩)
  · exact .inr (.inl ⟨hd, l, hl, hm.symm⟩)
  · rcases hm with hm | hm | hm
    · exact .inr (.inl ⟨hd, l, hl, .inr hm⟩)
    · exact .inr (.inl ⟨hd, l, hl, .inl hm⟩)
    · exact .inr (.inr ⟨_, rfl, l, hl, hm⟩)

/-- The law of register instructions: what the wave and the machine hold after one that runs. -/
theorem result_runs {s : State} {i : Instr} {c : Ctl} {e : Env} {body : Env → Eff} {dst : Option (Opnd × Nat)}
    {flag : Option (BitVec 2)} {val : Nat → Res} (h : s.runs i c = some e) (hf : Free s i)
    (hb : body e = e.result i c dst flag val) (hd : DstOk dst)
    (hu : isUniform (uses i) = true → ∃ d n, dst = some (d, n) ∧ d.cls = .w) :
    ∃ t, perform i c body s = .next t ∧ (e.quiet s t ∧ e.passes t ∧ e.steady t ∧ e.raises t i c (fun l => (val l).fpx))
      ∧ (∀ d n, dst = some (d, n) → e.gives t i c d n (fun l => (val l).r) ∧ e.latches t i c (fun l => (val l).r))
      ∧ e.flags t i c flag (fun l => (val l).cc)
      ∧ e.keeps t (e.written dst flag) := by
  have g := runs_good h hf
  have nd := all_nodup e
  by_cases hun : isUniform (uses i) = true
  · obtain ⟨d, n, rfl, hw⟩ := hu hun
    by_cases hg : e.w.guard e.clk c e.lead = true
    · -- uniform, performed for the lead
      let x := val e.lead
      let f : Wave → Wave := fun w => sidesResult e.clk (latency i) true flag x e.all (putDst e.clk (latency i) (some (d, n)) e.lead x w)
      have hbody : body e = .done (e.upd e.m f) e.lanes := by
        rw [hb]; simp only [Env.result, Env.compute, hun, hg, if_true]; rfl
      have ha := alone_upd (alone_self g) f
      have hbare : (f e.w).bare = e.w.bare := (sidesResult_bare _ _ _ _).trans (putDst_bare ..)
      have hinf : ∀ y ∈ (f e.w).inflight, y ∈ e.w.inflight ∨ y.ready = e.clk + latency i := by
        intro y hy
        rcases sidesResult_inflight _ _ _ _ hy with hy | hy
        · exact putDst_inflight _ _ _ _ _ _ hy
        · exact .inr hy
      have ho := hd d n rfl
      have hkey : ∀ l j, d.key l j = d.key e.lead j := by intro l j; simp [Opnd.key, hw]
      have hplen : (putDst e.clk (latency i) (some (d, n)) e.lead x e.w).lanes.length = e.w.lanes.length := bare_length (putDst_bare ..)
      refine ⟨_, perform_done h hf hbody (alone_used ha), ⟨finish_quiet g ha i c e.lanes, finish_passes g ha i c hbare,
        finish_steady ha i c e.lanes hbare, ?_, ?_⟩, ?_, ?_, ?_⟩
      · intro l hl hlen
        have hact : l ∈ e.all := by simpa [Env.performers, hun, hg] using hl
        rw [finish_fpx ha, sidesResult_fpx true x nd, hplen, putDst_fpx]
        simp [hun, hact, hlen, x]
      · intro l hl
        rw [finish_fpx ha, sidesResult_fpx true x nd, putDst_fpx]
        simp [hl]
      · intro d' n' hdn
        obtain ⟨rfl, rfl⟩ : d = d' ∧ n = n' := by simpa using hdn
        constructor
        · intro T ht l hl j hj
          rw [finish_reg ha i c e.lanes ht hinf]
          simp only [Env.giver, hun, if_true]
          rw [hkey l j]
          show (sidesResult _ _ _ _ _ _ _).cur _ = _
          rw [sidesResult_ne _ _ _ _ (dstOk_key ho _ hj).1 fun a _ => key_not_side ho.2.1 _ _]
          exact setN_dst _ _ _ _ ho _ hj
        · intro T ht l hl hlen
          have hact : l ∈ e.all := by simpa [Env.performers, hun, hg] using hl
          rw [finish_reg ha i c e.lanes ht hinf, finish_reg ha i c e.lanes ht hinf]
          have := sidesResult_x (clk := e.clk) (lat := latency i) (flag := flag) x nd (putDst e.clk (latency i) (some (d, n)) e.lead x e.w)
            hact (by rw [hplen]; exact hlen)
          simp only [hun, if_true]
          refine ⟨this.1, this.2.trans ?_⟩
          exact putDst_ne _ _ hd (by simp [RKey.ok]) (side_not_dst (flag := flag) hd (l := l) (by simp [sideKeys]))
      · intro k hk T ht l hl hlen
        subst hk
        have hact : l ∈ e.all := by simpa [Env.performers, hun, hg] using hl
        unfold Wave.ccAt
        rw [finish_reg ha i c e.lanes ht hinf]
        show (BitVec.setWidth 5 ((sidesResult _ _ _ _ _ _ _).cur _)) = _
        rw [sidesResult_cc true x nd _ hact (by rw [hplen]; exact hlen)]
        simp only [hun, if_true]
        show ((val e.lead).cc.setWidth 32).setWidth 5 = _
        bv_omega
      · intro k hk hn
        rw [finish_cur ha]
        show (sidesResult _ _ _ _ _ _ _).cur _ = _
        have hside : ∀ l ∈ e.all, k ∉ sideKeys true flag l := fun l hl => keeps_side (dst := some (d, n)) hn hl
        rw [sidesResult_ne _ _ _ _ hk hside, putDst_ne _ _ hd hk]
        intro hm
        obtain ⟨j, hj, rfl⟩ := (dstKeys_mem ho).1 hm
        exact hn (.inl ⟨d, n, rfl, e.lead, j, .inr hw, hj, rfl⟩)
    · -- uniform, guard false at the lead: nothing performs
      have hbody : body e = .done e.m e.lanes := by
        rw [hb]; simp only [Env.result, Env.compute, hun, hg, if_true, Bool.false_eq_true, if_false]
      have ha := alone_self g
      have hper : e.performers i c = [] := by simp [Env.performers, hun, hg]
      refine ⟨_, perform_done h hf hbody (alone_used ha), ⟨finish_quiet g ha i c e.lanes, finish_passes g ha i c rfl,
        finish_steady ha i c e.lanes rfl, ?_, ?_⟩, ?_, ?_, ?_⟩
      · intro l hl; rw [hper] at hl; simp at hl
      · intro l _; rw [finish_fpx ha]
      · intro d' n' hdn
        constructor
        · intro T ht l hl; rw [hper] at hl; simp at hl
        · intro T ht l hl; rw [hper] at hl; simp at hl
      · intro k hk T ht l hl; rw [hper] at hl; simp at hl
      · intro k _ _
        rw [finish_cur ha]
  · -- per-thread
    let f : Wave → Wave := lanesResult e.clk (latency i) dst flag val (e.ordered e.all)
    have nd := ordered_nodup e nd
    have hbody : body e = .done (e.upd e.m f) e.lanes := by
      rw [hb]; simp only [Env.result, Env.compute, hun, Bool.false_eq_true, if_false]; rfl
    have ha := alone_upd (alone_self g) f
    have hbare : (f e.w).bare = e.w.bare := lanesResult_bare _ _
    have hinf : ∀ y ∈ (f e.w).inflight, y ∈ e.w.inflight ∨ y.ready = e.clk + latency i := fun y hy => lanesResult_inflight _ _ hy
    have hper : e.performers i c = e.all := by simp [Env.performers, hun]
    refine ⟨_, perform_done h hf hbody (alone_used ha), ⟨finish_quiet g ha i c e.lanes, finish_passes g ha i c hbare,
      finish_steady ha i c e.lanes hbare, ?_, ?_⟩, ?_, ?_, ?_⟩
    · intro l hl hlen
      rw [hper] at hl
      rw [finish_fpx ha, lanesResult_fpx nd]
      simp [hun, mem_ordered, hl, hlen]
    · intro l hl
      rw [finish_fpx ha, lanesResult_fpx nd]
      simp [hl, mem_ordered]
    · intro d n hdn
      have ho := hd d n hdn
      constructor
      · intro T ht l hl j hj
        rw [hper] at hl
        rw [finish_reg ha i c e.lanes ht hinf]
        show (lanesResult _ _ _ _ _ _ _).cur _ = _
        rw [lanesResult_dst hdn hd nd _ (mem_ordered.2 hl) hj]
        simp only [Env.giver, hun, Bool.false_eq_true, if_false]
        rfl
      · intro T ht l hl hlen
        rw [hper] at hl
        rw [finish_reg ha i c e.lanes ht hinf, finish_reg ha i c e.lanes ht hinf]
        simp only [hun, Bool.false_eq_true, if_false]
        exact lanesResult_x hdn hd nd _ (mem_ordered.2 hl) hlen
    · intro k hk T ht l hl hlen
      rw [hper] at hl
      unfold Wave.ccAt
      rw [finish_reg ha i c e.lanes ht hinf]
      show (BitVec.setWidth 5 ((lanesResult _ _ _ _ _ _ _).cur _)) = _
      rw [lanesResult_cc hk hd nd _ (mem_ordered.2 hl) hlen]
      simp only [hun, Bool.false_eq_true, if_false]
      bv_omega
    · intro k hk hn
      rw [finish_cur ha]
      show (lanesResult _ _ _ _ _ _ _).cur _ = _
      refine lanesResult_ne _ _ hd hk fun l hl => ?_
      rw [mem_ordered] at hl
      simp only [laneKeys, List.mem_append, not_or]
      refine ⟨fun hm => ?_, keeps_side hn hl⟩
      cases dst with
      | none => simp [dstKeys] at hm
      | some p =>
        obtain ⟨j, hj, rfl⟩ := (dstKeys_mem (hd p.1 p.2 rfl)).1 hm
        exact hn (.inl ⟨p.1, p.2, rfl, l, j, .inl hl, hj, rfl⟩)

/-! ## Completion of register instructions -/

/-- Sources alone: operands none of which is a destination. -/
def sources (us : List Use) : Prop := ∀ u ∈ us, u.dst = false
theorem sources_nil : sources [] := fun _ h => by simp at h
theorem sources_srcN (o : Opnd) (cs : List Cls) (n : Nat) {us : List Use} (h : sources us) : sources (srcN o cs n :: us) := by
  intro u hu
  rcases List.mem_cons.1 hu with rfl | hu
  · rfl
  · exact h u hu
theorem sources_append {a b : List Use} (ha : sources a) (hb : sources b) : sources (a ++ b) := fun u hu =>
  (List.mem_append.1 hu).elim (ha u) (hb u)
theorem sources_srcB (b : Src) (cs : List Cls) (n : Nat) : sources (srcB b cs n) := by
  cases b
  · exact sources_srcN _ _ _ sources_nil
  · exact sources_nil
theorem regs_cases (t : IType) : t.regs = 1 ∨ t.regs = 2 := by cases t <;> simp [IType.regs]
/-- Sources alone are never uniform. -/
theorem sources_uniform {us : List Use} (h : sources us) : isUniform us = false := by
  simp only [isUniform, Bool.and_eq_false_imp]
  intro ha
  simp only [List.any_eq_true, Bool.and_eq_true] at ha
  obtain ⟨u, hu, hd, _⟩ := ha
  rw [h u hu] at hd; cases hd

/-- Completion of a register instruction with one destination. -/
theorem completes_dst {i : Instr} {c : Ctl} {d : Opnd} {n : Nat} {flag : Option (BitVec 2)} {val : Env → Nat → Res} {body : Env → Eff}
    {cs : List Cls} {us : List Use} (hx : ∀ s, exec i s = perform i c body s) (hf : txForbidden i = false)
    (hb : ∀ e, body e = e.result i c (some (d, n)) flag (val e)) (hu : uses i = dstN d cs n :: us) (hs : sources us)
    (hn : n = 1 ∨ n = 2) : Completes i c (some (d, n)) flag val := by
  intro s e h
  have hm : dstN d cs n ∈ uses i := by rw [hu]; exact List.mem_cons_self ..
  have hok := runs_dstOk h hm rfl (hn.elim .inl fun e => .inr ⟨e, e⟩)
  obtain ⟨t, h1, h2, h3, h4, h5⟩ := result_runs h (.inl hf) (hb e)
    (fun d' n' hd => by obtain ⟨rfl, rfl⟩ : d = d' ∧ n = n' := by simpa using hd
                        exact hok)
    (fun hun => by
      refine ⟨d, n, rfl, ?_⟩
      rw [hu] at hun
      simp only [isUniform, Bool.and_eq_true, List.any_cons, Bool.or_eq_true] at hun
      rcases hun.1 with h | h
      · simpa [dstN] using h
      · simp only [List.any_eq_true, Bool.and_eq_true] at h
        obtain ⟨u, hm, hd, _⟩ := h
        rw [hs u hm] at hd; cases hd)
  exact ⟨t, (hx s).trans h1, h2, h3, h4, h5⟩

/-- Completion of a register instruction that writes flags alone. -/
theorem completes_flag {i : Instr} {c : Ctl} {flag : Option (BitVec 2)} {val : Env → Nat → Res} {body : Env → Eff}
    (hx : ∀ s, exec i s = perform i c body s) (hf : txForbidden i = false)
    (hb : ∀ e, body e = e.result i c none flag (val e)) (hs : sources (uses i)) : Completes i c none flag val := by
  intro s e h
  obtain ⟨t, h1, h2, h3, h4, h5⟩ := result_runs h (.inl hf) (hb e) (fun d n hd => by simp at hd)
    (fun hun => by rw [sources_uniform hs] at hun; cases hun)
  exact ⟨t, (hx s).trans h1, h2, h3, h4, h5⟩

end Sys2Proof.Machine
end

