-- ==== Sys2Proof/Laws/State.lean ====
section
/-! SUPPORT. What the record updates of the state leave alone, field by field, and that every operation over memory,
scratchpad and host memory keeps the canonical form. -/

namespace Sys2Proof.Machine

/-! ## The fields of an updated record -/

@[simp] theorem setCore_issue (m : Mach) (n : Nat) (c : Core) : (m.setCore n c).issue = m.issue := rfl
@[simp] theorem setCore_clk (m : Mach) (n : Nat) (c : Core) : (m.setCore n c).clk = m.clk := rfl
@[simp] theorem setCore_timeNs (m : Mach) (n : Nat) (c : Core) : (m.setCore n c).timeNs = m.timeNs := rfl
@[simp] theorem setCore_timeRem (m : Mach) (n : Nat) (c : Core) : (m.setCore n c).timeRem = m.timeRem := rfl
@[simp] theorem setCore_mhz (m : Mach) (n : Nat) (c : Core) : (m.setCore n c).mhz = m.mhz := rfl
@[simp] theorem setCore_fresh (m : Mach) (n : Nat) (c : Core) : (m.setCore n c).fresh = m.fresh := rfl
@[simp] theorem setCore_bundle (m : Mach) (n : Nat) (c : Core) : (m.setCore n c).bundle = m.bundle := rfl
@[simp] theorem setCore_mem (m : Mach) (n : Nat) (c : Core) : (m.setCore n c).mem = m.mem := rfl
@[simp] theorem setCore_llc (m : Mach) (n : Nat) (c : Core) : (m.setCore n c).llc = m.llc := rfl
@[simp] theorem setCore_victim (m : Mach) (n : Nat) (c : Core) : (m.setCore n c).victim = m.victim := rfl
@[simp] theorem setCore_trans (m : Mach) (n : Nat) (c : Core) : (m.setCore n c).trans = m.trans := rfl
@[simp] theorem setCore_remap (m : Mach) (n : Nat) (c : Core) : (m.setCore n c).remap = m.remap := rfl
@[simp] theorem setCore_aliased (m : Mach) (n : Nat) (c : Core) : (m.setCore n c).aliased = m.aliased := rfl
@[simp] theorem setCore_wbWait (m : Mach) (n : Nat) (c : Core) : (m.setCore n c).wbWait = m.wbWait := rfl
@[simp] theorem setCore_prefetch (m : Mach) (n : Nat) (c : Core) : (m.setCore n c).prefetch = m.prefetch := rfl
@[simp] theorem setCore_groveCache (m : Mach) (n : Nat) (c : Core) : (m.setCore n c).groveCache = m.groveCache := rfl
@[simp] theorem setCore_groups (m : Mach) (n : Nat) (c : Core) : (m.setCore n c).groups = m.groups := rfl
@[simp] theorem setCore_frames (m : Mach) (n : Nat) (c : Core) : (m.setCore n c).frames = m.frames := rfl
@[simp] theorem setCore_spawnQ (m : Mach) (n : Nat) (c : Core) : (m.setCore n c).spawnQ = m.spawnQ := rfl
@[simp] theorem setCore_fillQ (m : Mach) (n : Nat) (c : Core) : (m.setCore n c).fillQ = m.fillQ := rfl
@[simp] theorem setCore_xacqQ (m : Mach) (n : Nat) (c : Core) : (m.setCore n c).xacqQ = m.xacqQ := rfl
@[simp] theorem setCore_rings (m : Mach) (n : Nat) (c : Core) : (m.setCore n c).rings = m.rings := rfl
@[simp] theorem setCore_ways (m : Mach) (n : Nat) (c : Core) : (m.setCore n c).ways = m.ways := rfl
@[simp] theorem setCore_reqs (m : Mach) (n : Nat) (c : Core) : (m.setCore n c).reqs = m.reqs := rfl
@[simp] theorem setCore_replies (m : Mach) (n : Nat) (c : Core) : (m.setCore n c).replies = m.replies := rfl
@[simp] theorem setCore_clientRead (m : Mach) (n : Nat) (c : Core) : (m.setCore n c).clientRead = m.clientRead := rfl
@[simp] theorem setCore_consigns (m : Mach) (n : Nat) (c : Core) : (m.setCore n c).consigns = m.consigns := rfl
@[simp] theorem setCore_exclQ (m : Mach) (n : Nat) (c : Core) : (m.setCore n c).exclQ = m.exclQ := rfl
@[simp] theorem setCore_banks (m : Mach) (n : Nat) (c : Core) : (m.setCore n c).banks = m.banks := rfl
@[simp] theorem setCore_ctxs (m : Mach) (n : Nat) (c : Core) : (m.setCore n c).ctxs = m.ctxs := rfl
@[simp] theorem setCore_saved (m : Mach) (n : Nat) (c : Core) : (m.setCore n c).saved = m.saved := rfl
@[simp] theorem setCore_queues (m : Mach) (n : Nat) (c : Core) : (m.setCore n c).queues = m.queues := rfl
@[simp] theorem setCore_slices (m : Mach) (n : Nat) (c : Core) : (m.setCore n c).slices = m.slices := rfl
@[simp] theorem setCore_device (m : Mach) (n : Nat) (c : Core) : (m.setCore n c).device = m.device := rfl
@[simp] theorem setCore_allot (m : Mach) (n : Nat) (c : Core) : (m.setCore n c).allot = m.allot := rfl
@[simp] theorem setCore_used (m : Mach) (n : Nat) (c : Core) : (m.setCore n c).used = m.used := rfl
@[simp] theorem setCore_clkUsed (m : Mach) (n : Nat) (c : Core) : (m.setCore n c).clkUsed = m.clkUsed := rfl
@[simp] theorem setCore_slack (m : Mach) (n : Nat) (c : Core) : (m.setCore n c).slack = m.slack := rfl
@[simp] theorem setCore_denials (m : Mach) (n : Nat) (c : Core) : (m.setCore n c).denials = m.denials := rfl
@[simp] theorem setCore_behind (m : Mach) (n : Nat) (c : Core) : (m.setCore n c).behind = m.behind := rfl
@[simp] theorem setCore_periodStart (m : Mach) (n : Nat) (c : Core) : (m.setCore n c).periodStart = m.periodStart := rfl
@[simp] theorem setCore_board (m : Mach) (n : Nat) (c : Core) : (m.setCore n c).board = m.board := rfl
@[simp] theorem setCore_irqs (m : Mach) (n : Nat) (c : Core) : (m.setCore n c).irqs = m.irqs := rfl
@[simp] theorem setCore_rel (m : Mach) (n : Nat) (c : Core) : (m.setCore n c).rel = m.rel := rfl
@[simp] theorem setCore_link (m : Mach) (n : Nat) (c : Core) : (m.setCore n c).link = m.link := rfl
@[simp] theorem setCore_ringFaults (m : Mach) (n : Nat) (c : Core) : (m.setCore n c).ringFaults = m.ringFaults := rfl
@[simp] theorem setCore_nextGid (m : Mach) (n : Nat) (c : Core) : (m.setCore n c).nextGid = m.nextGid := rfl
@[simp] theorem setCore_nextLaunch (m : Mach) (n : Nat) (c : Core) : (m.setCore n c).nextLaunch = m.nextLaunch := rfl
@[simp] theorem setCore_nextSerial (m : Mach) (n : Nat) (c : Core) : (m.setCore n c).nextSerial = m.nextSerial := rfl
@[simp] theorem setCore_nextId (m : Mach) (n : Nat) (c : Core) : (m.setCore n c).nextId = m.nextId := rfl
@[simp] theorem setGroup_issue (m : Mach) (g : Group) : (m.setGroup g).issue = m.issue := rfl
@[simp] theorem setGroup_clk (m : Mach) (g : Group) : (m.setGroup g).clk = m.clk := rfl
@[simp] theorem setGroup_timeNs (m : Mach) (g : Group) : (m.setGroup g).timeNs = m.timeNs := rfl
@[simp] theorem setGroup_timeRem (m : Mach) (g : Group) : (m.setGroup g).timeRem = m.timeRem := rfl
@[simp] theorem setGroup_mhz (m : Mach) (g : Group) : (m.setGroup g).mhz = m.mhz := rfl
@[simp] theorem setGroup_fresh (m : Mach) (g : Group) : (m.setGroup g).fresh = m.fresh := rfl
@[simp] theorem setGroup_bundle (m : Mach) (g : Group) : (m.setGroup g).bundle = m.bundle := rfl
@[simp] theorem setGroup_mem (m : Mach) (g : Group) : (m.setGroup g).mem = m.mem := rfl
@[simp] theorem setGroup_llc (m : Mach) (g : Group) : (m.setGroup g).llc = m.llc := rfl
@[simp] theorem setGroup_victim (m : Mach) (g : Group) : (m.setGroup g).victim = m.victim := rfl
@[simp] theorem setGroup_trans (m : Mach) (g : Group) : (m.setGroup g).trans = m.trans := rfl
@[simp] theorem setGroup_remap (m : Mach) (g : Group) : (m.setGroup g).remap = m.remap := rfl
@[simp] theorem setGroup_aliased (m : Mach) (g : Group) : (m.setGroup g).aliased = m.aliased := rfl
@[simp] theorem setGroup_wbWait (m : Mach) (g : Group) : (m.setGroup g).wbWait = m.wbWait := rfl
@[simp] theorem setGroup_prefetch (m : Mach) (g : Group) : (m.setGroup g).prefetch = m.prefetch := rfl
@[simp] theorem setGroup_groveCache (m : Mach) (g : Group) : (m.setGroup g).groveCache = m.groveCache := rfl
@[simp] theorem setGroup_cores (m : Mach) (g : Group) : (m.setGroup g).cores = m.cores := rfl
@[simp] theorem setGroup_frames (m : Mach) (g : Group) : (m.setGroup g).frames = m.frames := rfl
@[simp] theorem setGroup_spawnQ (m : Mach) (g : Group) : (m.setGroup g).spawnQ = m.spawnQ := rfl
@[simp] theorem setGroup_fillQ (m : Mach) (g : Group) : (m.setGroup g).fillQ = m.fillQ := rfl
@[simp] theorem setGroup_xacqQ (m : Mach) (g : Group) : (m.setGroup g).xacqQ = m.xacqQ := rfl
@[simp] theorem setGroup_rings (m : Mach) (g : Group) : (m.setGroup g).rings = m.rings := rfl
@[simp] theorem setGroup_ways (m : Mach) (g : Group) : (m.setGroup g).ways = m.ways := rfl
@[simp] theorem setGroup_reqs (m : Mach) (g : Group) : (m.setGroup g).reqs = m.reqs := rfl
@[simp] theorem setGroup_replies (m : Mach) (g : Group) : (m.setGroup g).replies = m.replies := rfl
@[simp] theorem setGroup_clientRead (m : Mach) (g : Group) : (m.setGroup g).clientRead = m.clientRead := rfl
@[simp] theorem setGroup_consigns (m : Mach) (g : Group) : (m.setGroup g).consigns = m.consigns := rfl
@[simp] theorem setGroup_exclQ (m : Mach) (g : Group) : (m.setGroup g).exclQ = m.exclQ := rfl
@[simp] theorem setGroup_banks (m : Mach) (g : Group) : (m.setGroup g).banks = m.banks := rfl
@[simp] theorem setGroup_ctxs (m : Mach) (g : Group) : (m.setGroup g).ctxs = m.ctxs := rfl
@[simp] theorem setGroup_saved (m : Mach) (g : Group) : (m.setGroup g).saved = m.saved := rfl
@[simp] theorem setGroup_queues (m : Mach) (g : Group) : (m.setGroup g).queues = m.queues := rfl
@[simp] theorem setGroup_slices (m : Mach) (g : Group) : (m.setGroup g).slices = m.slices := rfl
@[simp] theorem setGroup_device (m : Mach) (g : Group) : (m.setGroup g).device = m.device := rfl
@[simp] theorem setGroup_allot (m : Mach) (g : Group) : (m.setGroup g).allot = m.allot := rfl
@[simp] theorem setGroup_used (m : Mach) (g : Group) : (m.setGroup g).used = m.used := rfl
@[simp] theorem setGroup_clkUsed (m : Mach) (g : Group) : (m.setGroup g).clkUsed = m.clkUsed := rfl
@[simp] theorem setGroup_slack (m : Mach) (g : Group) : (m.setGroup g).slack = m.slack := rfl
@[simp] theorem setGroup_denials (m : Mach) (g : Group) : (m.setGroup g).denials = m.denials := rfl
@[simp] theorem setGroup_behind (m : Mach) (g : Group) : (m.setGroup g).behind = m.behind := rfl
@[simp] theorem setGroup_periodStart (m : Mach) (g : Group) : (m.setGroup g).periodStart = m.periodStart := rfl
@[simp] theorem setGroup_board (m : Mach) (g : Group) : (m.setGroup g).board = m.board := rfl
@[simp] theorem setGroup_irqs (m : Mach) (g : Group) : (m.setGroup g).irqs = m.irqs := rfl
@[simp] theorem setGroup_rel (m : Mach) (g : Group) : (m.setGroup g).rel = m.rel := rfl
@[simp] theorem setGroup_link (m : Mach) (g : Group) : (m.setGroup g).link = m.link := rfl
@[simp] theorem setGroup_ringFaults (m : Mach) (g : Group) : (m.setGroup g).ringFaults = m.ringFaults := rfl
@[simp] theorem setGroup_nextGid (m : Mach) (g : Group) : (m.setGroup g).nextGid = m.nextGid := rfl
@[simp] theorem setGroup_nextLaunch (m : Mach) (g : Group) : (m.setGroup g).nextLaunch = m.nextLaunch := rfl
@[simp] theorem setGroup_nextSerial (m : Mach) (g : Group) : (m.setGroup g).nextSerial = m.nextSerial := rfl
@[simp] theorem setGroup_nextId (m : Mach) (g : Group) : (m.setGroup g).nextId = m.nextId := rfl
@[simp] theorem setCtx_issue (m : Mach) (c : Ctx) : (m.setCtx c).issue = m.issue := rfl
@[simp] theorem setCtx_clk (m : Mach) (c : Ctx) : (m.setCtx c).clk = m.clk := rfl
@[simp] theorem setCtx_timeNs (m : Mach) (c : Ctx) : (m.setCtx c).timeNs = m.timeNs := rfl
@[simp] theorem setCtx_timeRem (m : Mach) (c : Ctx) : (m.setCtx c).timeRem = m.timeRem := rfl
@[simp] theorem setCtx_mhz (m : Mach) (c : Ctx) : (m.setCtx c).mhz = m.mhz := rfl
@[simp] theorem setCtx_fresh (m : Mach) (c : Ctx) : (m.setCtx c).fresh = m.fresh := rfl
@[simp] theorem setCtx_bundle (m : Mach) (c : Ctx) : (m.setCtx c).bundle = m.bundle := rfl
@[simp] theorem setCtx_mem (m : Mach) (c : Ctx) : (m.setCtx c).mem = m.mem := rfl
@[simp] theorem setCtx_llc (m : Mach) (c : Ctx) : (m.setCtx c).llc = m.llc := rfl
@[simp] theorem setCtx_victim (m : Mach) (c : Ctx) : (m.setCtx c).victim = m.victim := rfl
@[simp] theorem setCtx_trans (m : Mach) (c : Ctx) : (m.setCtx c).trans = m.trans := rfl
@[simp] theorem setCtx_remap (m : Mach) (c : Ctx) : (m.setCtx c).remap = m.remap := rfl
@[simp] theorem setCtx_aliased (m : Mach) (c : Ctx) : (m.setCtx c).aliased = m.aliased := rfl
@[simp] theorem setCtx_wbWait (m : Mach) (c : Ctx) : (m.setCtx c).wbWait = m.wbWait := rfl
@[simp] theorem setCtx_prefetch (m : Mach) (c : Ctx) : (m.setCtx c).prefetch = m.prefetch := rfl
@[simp] theorem setCtx_groveCache (m : Mach) (c : Ctx) : (m.setCtx c).groveCache = m.groveCache := rfl
@[simp] theorem setCtx_cores (m : Mach) (c : Ctx) : (m.setCtx c).cores = m.cores := rfl
@[simp] theorem setCtx_groups (m : Mach) (c : Ctx) : (m.setCtx c).groups = m.groups := rfl
@[simp] theorem setCtx_frames (m : Mach) (c : Ctx) : (m.setCtx c).frames = m.frames := rfl
@[simp] theorem setCtx_spawnQ (m : Mach) (c : Ctx) : (m.setCtx c).spawnQ = m.spawnQ := rfl
@[simp] theorem setCtx_fillQ (m : Mach) (c : Ctx) : (m.setCtx c).fillQ = m.fillQ := rfl
@[simp] theorem setCtx_xacqQ (m : Mach) (c : Ctx) : (m.setCtx c).xacqQ = m.xacqQ := rfl
@[simp] theorem setCtx_rings (m : Mach) (c : Ctx) : (m.setCtx c).rings = m.rings := rfl
@[simp] theorem setCtx_ways (m : Mach) (c : Ctx) : (m.setCtx c).ways = m.ways := rfl
@[simp] theorem setCtx_reqs (m : Mach) (c : Ctx) : (m.setCtx c).reqs = m.reqs := rfl
@[simp] theorem setCtx_replies (m : Mach) (c : Ctx) : (m.setCtx c).replies = m.replies := rfl
@[simp] theorem setCtx_clientRead (m : Mach) (c : Ctx) : (m.setCtx c).clientRead = m.clientRead := rfl
@[simp] theorem setCtx_consigns (m : Mach) (c : Ctx) : (m.setCtx c).consigns = m.consigns := rfl
@[simp] theorem setCtx_exclQ (m : Mach) (c : Ctx) : (m.setCtx c).exclQ = m.exclQ := rfl
@[simp] theorem setCtx_banks (m : Mach) (c : Ctx) : (m.setCtx c).banks = m.banks := rfl
@[simp] theorem setCtx_saved (m : Mach) (c : Ctx) : (m.setCtx c).saved = m.saved := rfl
@[simp] theorem setCtx_queues (m : Mach) (c : Ctx) : (m.setCtx c).queues = m.queues := rfl
@[simp] theorem setCtx_slices (m : Mach) (c : Ctx) : (m.setCtx c).slices = m.slices := rfl
@[simp] theorem setCtx_device (m : Mach) (c : Ctx) : (m.setCtx c).device = m.device := rfl
@[simp] theorem setCtx_allot (m : Mach) (c : Ctx) : (m.setCtx c).allot = m.allot := rfl
@[simp] theorem setCtx_used (m : Mach) (c : Ctx) : (m.setCtx c).used = m.used := rfl
@[simp] theorem setCtx_clkUsed (m : Mach) (c : Ctx) : (m.setCtx c).clkUsed = m.clkUsed := rfl
@[simp] theorem setCtx_slack (m : Mach) (c : Ctx) : (m.setCtx c).slack = m.slack := rfl
@[simp] theorem setCtx_denials (m : Mach) (c : Ctx) : (m.setCtx c).denials = m.denials := rfl
@[simp] theorem setCtx_behind (m : Mach) (c : Ctx) : (m.setCtx c).behind = m.behind := rfl
@[simp] theorem setCtx_periodStart (m : Mach) (c : Ctx) : (m.setCtx c).periodStart = m.periodStart := rfl
@[simp] theorem setCtx_board (m : Mach) (c : Ctx) : (m.setCtx c).board = m.board := rfl
@[simp] theorem setCtx_irqs (m : Mach) (c : Ctx) : (m.setCtx c).irqs = m.irqs := rfl
@[simp] theorem setCtx_rel (m : Mach) (c : Ctx) : (m.setCtx c).rel = m.rel := rfl
@[simp] theorem setCtx_link (m : Mach) (c : Ctx) : (m.setCtx c).link = m.link := rfl
@[simp] theorem setCtx_ringFaults (m : Mach) (c : Ctx) : (m.setCtx c).ringFaults = m.ringFaults := rfl
@[simp] theorem setCtx_nextGid (m : Mach) (c : Ctx) : (m.setCtx c).nextGid = m.nextGid := rfl
@[simp] theorem setCtx_nextLaunch (m : Mach) (c : Ctx) : (m.setCtx c).nextLaunch = m.nextLaunch := rfl
@[simp] theorem setCtx_nextSerial (m : Mach) (c : Ctx) : (m.setCtx c).nextSerial = m.nextSerial := rfl
@[simp] theorem setCtx_nextId (m : Mach) (c : Ctx) : (m.setCtx c).nextId = m.nextId := rfl
/-- A group's update reaches the groups alone. -/
theorem updGroup_rest {α : Type} (p : Mach → α) (m : Mach) (gid : Nat) (f : Group → Group)
    (h : ∀ gs, p { m with groups := gs } = p m) : p (m.updGroup gid f) = p m := by
  unfold Mach.updGroup
  split
  · exact h _
  · rfl
@[simp] theorem updGroup_issue (m : Mach) (gid : Nat) (f : Group → Group) : (m.updGroup gid f).issue = m.issue :=
  updGroup_rest Mach.issue m gid f fun _ => rfl
@[simp] theorem updWave_issue (m : Mach) (gid w : Nat) (f : Wave → Wave) : (m.updWave gid w f).issue = m.issue :=
  updGroup_rest Mach.issue m gid _ fun _ => rfl
@[simp] theorem updGroup_clk (m : Mach) (gid : Nat) (f : Group → Group) : (m.updGroup gid f).clk = m.clk :=
  updGroup_rest Mach.clk m gid f fun _ => rfl
@[simp] theorem updWave_clk (m : Mach) (gid w : Nat) (f : Wave → Wave) : (m.updWave gid w f).clk = m.clk :=
  updGroup_rest Mach.clk m gid _ fun _ => rfl
@[simp] theorem updGroup_timeNs (m : Mach) (gid : Nat) (f : Group → Group) : (m.updGroup gid f).timeNs = m.timeNs :=
  updGroup_rest Mach.timeNs m gid f fun _ => rfl
@[simp] theorem updWave_timeNs (m : Mach) (gid w : Nat) (f : Wave → Wave) : (m.updWave gid w f).timeNs = m.timeNs :=
  updGroup_rest Mach.timeNs m gid _ fun _ => rfl
@[simp] theorem updGroup_timeRem (m : Mach) (gid : Nat) (f : Group → Group) : (m.updGroup gid f).timeRem = m.timeRem :=
  updGroup_rest Mach.timeRem m gid f fun _ => rfl
@[simp] theorem updWave_timeRem (m : Mach) (gid w : Nat) (f : Wave → Wave) : (m.updWave gid w f).timeRem = m.timeRem :=
  updGroup_rest Mach.timeRem m gid _ fun _ => rfl
@[simp] theorem updGroup_mhz (m : Mach) (gid : Nat) (f : Group → Group) : (m.updGroup gid f).mhz = m.mhz :=
  updGroup_rest Mach.mhz m gid f fun _ => rfl
@[simp] theorem updWave_mhz (m : Mach) (gid w : Nat) (f : Wave → Wave) : (m.updWave gid w f).mhz = m.mhz :=
  updGroup_rest Mach.mhz m gid _ fun _ => rfl
@[simp] theorem updGroup_fresh (m : Mach) (gid : Nat) (f : Group → Group) : (m.updGroup gid f).fresh = m.fresh :=
  updGroup_rest Mach.fresh m gid f fun _ => rfl
@[simp] theorem updWave_fresh (m : Mach) (gid w : Nat) (f : Wave → Wave) : (m.updWave gid w f).fresh = m.fresh :=
  updGroup_rest Mach.fresh m gid _ fun _ => rfl
@[simp] theorem updGroup_bundle (m : Mach) (gid : Nat) (f : Group → Group) : (m.updGroup gid f).bundle = m.bundle :=
  updGroup_rest Mach.bundle m gid f fun _ => rfl
@[simp] theorem updWave_bundle (m : Mach) (gid w : Nat) (f : Wave → Wave) : (m.updWave gid w f).bundle = m.bundle :=
  updGroup_rest Mach.bundle m gid _ fun _ => rfl
@[simp] theorem updGroup_mem (m : Mach) (gid : Nat) (f : Group → Group) : (m.updGroup gid f).mem = m.mem :=
  updGroup_rest Mach.mem m gid f fun _ => rfl
@[simp] theorem updWave_mem (m : Mach) (gid w : Nat) (f : Wave → Wave) : (m.updWave gid w f).mem = m.mem :=
  updGroup_rest Mach.mem m gid _ fun _ => rfl
@[simp] theorem updGroup_llc (m : Mach) (gid : Nat) (f : Group → Group) : (m.updGroup gid f).llc = m.llc :=
  updGroup_rest Mach.llc m gid f fun _ => rfl
@[simp] theorem updWave_llc (m : Mach) (gid w : Nat) (f : Wave → Wave) : (m.updWave gid w f).llc = m.llc :=
  updGroup_rest Mach.llc m gid _ fun _ => rfl
@[simp] theorem updGroup_victim (m : Mach) (gid : Nat) (f : Group → Group) : (m.updGroup gid f).victim = m.victim :=
  updGroup_rest Mach.victim m gid f fun _ => rfl
@[simp] theorem updWave_victim (m : Mach) (gid w : Nat) (f : Wave → Wave) : (m.updWave gid w f).victim = m.victim :=
  updGroup_rest Mach.victim m gid _ fun _ => rfl
@[simp] theorem updGroup_trans (m : Mach) (gid : Nat) (f : Group → Group) : (m.updGroup gid f).trans = m.trans :=
  updGroup_rest Mach.trans m gid f fun _ => rfl
@[simp] theorem updWave_trans (m : Mach) (gid w : Nat) (f : Wave → Wave) : (m.updWave gid w f).trans = m.trans :=
  updGroup_rest Mach.trans m gid _ fun _ => rfl
@[simp] theorem updGroup_remap (m : Mach) (gid : Nat) (f : Group → Group) : (m.updGroup gid f).remap = m.remap :=
  updGroup_rest Mach.remap m gid f fun _ => rfl
@[simp] theorem updWave_remap (m : Mach) (gid w : Nat) (f : Wave → Wave) : (m.updWave gid w f).remap = m.remap :=
  updGroup_rest Mach.remap m gid _ fun _ => rfl
@[simp] theorem updGroup_aliased (m : Mach) (gid : Nat) (f : Group → Group) : (m.updGroup gid f).aliased = m.aliased :=
  updGroup_rest Mach.aliased m gid f fun _ => rfl
@[simp] theorem updWave_aliased (m : Mach) (gid w : Nat) (f : Wave → Wave) : (m.updWave gid w f).aliased = m.aliased :=
  updGroup_rest Mach.aliased m gid _ fun _ => rfl
@[simp] theorem updGroup_wbWait (m : Mach) (gid : Nat) (f : Group → Group) : (m.updGroup gid f).wbWait = m.wbWait :=
  updGroup_rest Mach.wbWait m gid f fun _ => rfl
@[simp] theorem updWave_wbWait (m : Mach) (gid w : Nat) (f : Wave → Wave) : (m.updWave gid w f).wbWait = m.wbWait :=
  updGroup_rest Mach.wbWait m gid _ fun _ => rfl
@[simp] theorem updGroup_prefetch (m : Mach) (gid : Nat) (f : Group → Group) : (m.updGroup gid f).prefetch = m.prefetch :=
  updGroup_rest Mach.prefetch m gid f fun _ => rfl
@[simp] theorem updWave_prefetch (m : Mach) (gid w : Nat) (f : Wave → Wave) : (m.updWave gid w f).prefetch = m.prefetch :=
  updGroup_rest Mach.prefetch m gid _ fun _ => rfl
@[simp] theorem updGroup_groveCache (m : Mach) (gid : Nat) (f : Group → Group) : (m.updGroup gid f).groveCache = m.groveCache :=
  updGroup_rest Mach.groveCache m gid f fun _ => rfl
@[simp] theorem updWave_groveCache (m : Mach) (gid w : Nat) (f : Wave → Wave) : (m.updWave gid w f).groveCache = m.groveCache :=
  updGroup_rest Mach.groveCache m gid _ fun _ => rfl
@[simp] theorem updGroup_cores (m : Mach) (gid : Nat) (f : Group → Group) : (m.updGroup gid f).cores = m.cores :=
  updGroup_rest Mach.cores m gid f fun _ => rfl
@[simp] theorem updWave_cores (m : Mach) (gid w : Nat) (f : Wave → Wave) : (m.updWave gid w f).cores = m.cores :=
  updGroup_rest Mach.cores m gid _ fun _ => rfl
@[simp] theorem updGroup_frames (m : Mach) (gid : Nat) (f : Group → Group) : (m.updGroup gid f).frames = m.frames :=
  updGroup_rest Mach.frames m gid f fun _ => rfl
@[simp] theorem updWave_frames (m : Mach) (gid w : Nat) (f : Wave → Wave) : (m.updWave gid w f).frames = m.frames :=
  updGroup_rest Mach.frames m gid _ fun _ => rfl
@[simp] theorem updGroup_spawnQ (m : Mach) (gid : Nat) (f : Group → Group) : (m.updGroup gid f).spawnQ = m.spawnQ :=
  updGroup_rest Mach.spawnQ m gid f fun _ => rfl
@[simp] theorem updWave_spawnQ (m : Mach) (gid w : Nat) (f : Wave → Wave) : (m.updWave gid w f).spawnQ = m.spawnQ :=
  updGroup_rest Mach.spawnQ m gid _ fun _ => rfl
@[simp] theorem updGroup_fillQ (m : Mach) (gid : Nat) (f : Group → Group) : (m.updGroup gid f).fillQ = m.fillQ :=
  updGroup_rest Mach.fillQ m gid f fun _ => rfl
@[simp] theorem updWave_fillQ (m : Mach) (gid w : Nat) (f : Wave → Wave) : (m.updWave gid w f).fillQ = m.fillQ :=
  updGroup_rest Mach.fillQ m gid _ fun _ => rfl
@[simp] theorem updGroup_xacqQ (m : Mach) (gid : Nat) (f : Group → Group) : (m.updGroup gid f).xacqQ = m.xacqQ :=
  updGroup_rest Mach.xacqQ m gid f fun _ => rfl
@[simp] theorem updWave_xacqQ (m : Mach) (gid w : Nat) (f : Wave → Wave) : (m.updWave gid w f).xacqQ = m.xacqQ :=
  updGroup_rest Mach.xacqQ m gid _ fun _ => rfl
@[simp] theorem updGroup_rings (m : Mach) (gid : Nat) (f : Group → Group) : (m.updGroup gid f).rings = m.rings :=
  updGroup_rest Mach.rings m gid f fun _ => rfl
@[simp] theorem updWave_rings (m : Mach) (gid w : Nat) (f : Wave → Wave) : (m.updWave gid w f).rings = m.rings :=
  updGroup_rest Mach.rings m gid _ fun _ => rfl
@[simp] theorem updGroup_ways (m : Mach) (gid : Nat) (f : Group → Group) : (m.updGroup gid f).ways = m.ways :=
  updGroup_rest Mach.ways m gid f fun _ => rfl
@[simp] theorem updWave_ways (m : Mach) (gid w : Nat) (f : Wave → Wave) : (m.updWave gid w f).ways = m.ways :=
  updGroup_rest Mach.ways m gid _ fun _ => rfl
@[simp] theorem updGroup_reqs (m : Mach) (gid : Nat) (f : Group → Group) : (m.updGroup gid f).reqs = m.reqs :=
  updGroup_rest Mach.reqs m gid f fun _ => rfl
@[simp] theorem updWave_reqs (m : Mach) (gid w : Nat) (f : Wave → Wave) : (m.updWave gid w f).reqs = m.reqs :=
  updGroup_rest Mach.reqs m gid _ fun _ => rfl
@[simp] theorem updGroup_replies (m : Mach) (gid : Nat) (f : Group → Group) : (m.updGroup gid f).replies = m.replies :=
  updGroup_rest Mach.replies m gid f fun _ => rfl
@[simp] theorem updWave_replies (m : Mach) (gid w : Nat) (f : Wave → Wave) : (m.updWave gid w f).replies = m.replies :=
  updGroup_rest Mach.replies m gid _ fun _ => rfl
@[simp] theorem updGroup_clientRead (m : Mach) (gid : Nat) (f : Group → Group) : (m.updGroup gid f).clientRead = m.clientRead :=
  updGroup_rest Mach.clientRead m gid f fun _ => rfl
@[simp] theorem updWave_clientRead (m : Mach) (gid w : Nat) (f : Wave → Wave) : (m.updWave gid w f).clientRead = m.clientRead :=
  updGroup_rest Mach.clientRead m gid _ fun _ => rfl
@[simp] theorem updGroup_consigns (m : Mach) (gid : Nat) (f : Group → Group) : (m.updGroup gid f).consigns = m.consigns :=
  updGroup_rest Mach.consigns m gid f fun _ => rfl
@[simp] theorem updWave_consigns (m : Mach) (gid w : Nat) (f : Wave → Wave) : (m.updWave gid w f).consigns = m.consigns :=
  updGroup_rest Mach.consigns m gid _ fun _ => rfl
@[simp] theorem updGroup_exclQ (m : Mach) (gid : Nat) (f : Group → Group) : (m.updGroup gid f).exclQ = m.exclQ :=
  updGroup_rest Mach.exclQ m gid f fun _ => rfl
@[simp] theorem updWave_exclQ (m : Mach) (gid w : Nat) (f : Wave → Wave) : (m.updWave gid w f).exclQ = m.exclQ :=
  updGroup_rest Mach.exclQ m gid _ fun _ => rfl
@[simp] theorem updGroup_banks (m : Mach) (gid : Nat) (f : Group → Group) : (m.updGroup gid f).banks = m.banks :=
  updGroup_rest Mach.banks m gid f fun _ => rfl
@[simp] theorem updWave_banks (m : Mach) (gid w : Nat) (f : Wave → Wave) : (m.updWave gid w f).banks = m.banks :=
  updGroup_rest Mach.banks m gid _ fun _ => rfl
@[simp] theorem updGroup_ctxs (m : Mach) (gid : Nat) (f : Group → Group) : (m.updGroup gid f).ctxs = m.ctxs :=
  updGroup_rest Mach.ctxs m gid f fun _ => rfl
@[simp] theorem updWave_ctxs (m : Mach) (gid w : Nat) (f : Wave → Wave) : (m.updWave gid w f).ctxs = m.ctxs :=
  updGroup_rest Mach.ctxs m gid _ fun _ => rfl
@[simp] theorem updGroup_saved (m : Mach) (gid : Nat) (f : Group → Group) : (m.updGroup gid f).saved = m.saved :=
  updGroup_rest Mach.saved m gid f fun _ => rfl
@[simp] theorem updWave_saved (m : Mach) (gid w : Nat) (f : Wave → Wave) : (m.updWave gid w f).saved = m.saved :=
  updGroup_rest Mach.saved m gid _ fun _ => rfl
@[simp] theorem updGroup_queues (m : Mach) (gid : Nat) (f : Group → Group) : (m.updGroup gid f).queues = m.queues :=
  updGroup_rest Mach.queues m gid f fun _ => rfl
@[simp] theorem updWave_queues (m : Mach) (gid w : Nat) (f : Wave → Wave) : (m.updWave gid w f).queues = m.queues :=
  updGroup_rest Mach.queues m gid _ fun _ => rfl
@[simp] theorem updGroup_slices (m : Mach) (gid : Nat) (f : Group → Group) : (m.updGroup gid f).slices = m.slices :=
  updGroup_rest Mach.slices m gid f fun _ => rfl
@[simp] theorem updWave_slices (m : Mach) (gid w : Nat) (f : Wave → Wave) : (m.updWave gid w f).slices = m.slices :=
  updGroup_rest Mach.slices m gid _ fun _ => rfl
@[simp] theorem updGroup_device (m : Mach) (gid : Nat) (f : Group → Group) : (m.updGroup gid f).device = m.device :=
  updGroup_rest Mach.device m gid f fun _ => rfl
@[simp] theorem updWave_device (m : Mach) (gid w : Nat) (f : Wave → Wave) : (m.updWave gid w f).device = m.device :=
  updGroup_rest Mach.device m gid _ fun _ => rfl
@[simp] theorem updGroup_allot (m : Mach) (gid : Nat) (f : Group → Group) : (m.updGroup gid f).allot = m.allot :=
  updGroup_rest Mach.allot m gid f fun _ => rfl
@[simp] theorem updWave_allot (m : Mach) (gid w : Nat) (f : Wave → Wave) : (m.updWave gid w f).allot = m.allot :=
  updGroup_rest Mach.allot m gid _ fun _ => rfl
@[simp] theorem updGroup_used (m : Mach) (gid : Nat) (f : Group → Group) : (m.updGroup gid f).used = m.used :=
  updGroup_rest Mach.used m gid f fun _ => rfl
@[simp] theorem updGroup_clkUsed (m : Mach) (gid : Nat) (f : Group → Group) : (m.updGroup gid f).clkUsed = m.clkUsed :=
  updGroup_rest Mach.clkUsed m gid f fun _ => rfl
@[simp] theorem updGroup_slack (m : Mach) (gid : Nat) (f : Group → Group) : (m.updGroup gid f).slack = m.slack :=
  updGroup_rest Mach.slack m gid f fun _ => rfl
@[simp] theorem updGroup_denials (m : Mach) (gid : Nat) (f : Group → Group) : (m.updGroup gid f).denials = m.denials :=
  updGroup_rest Mach.denials m gid f fun _ => rfl
@[simp] theorem updGroup_behind (m : Mach) (gid : Nat) (f : Group → Group) : (m.updGroup gid f).behind = m.behind :=
  updGroup_rest Mach.behind m gid f fun _ => rfl
@[simp] theorem updWave_used (m : Mach) (gid w : Nat) (f : Wave → Wave) : (m.updWave gid w f).used = m.used :=
  updGroup_rest Mach.used m gid _ fun _ => rfl
@[simp] theorem updWave_clkUsed (m : Mach) (gid w : Nat) (f : Wave → Wave) : (m.updWave gid w f).clkUsed = m.clkUsed :=
  updGroup_rest Mach.clkUsed m gid _ fun _ => rfl
@[simp] theorem updWave_slack (m : Mach) (gid w : Nat) (f : Wave → Wave) : (m.updWave gid w f).slack = m.slack :=
  updGroup_rest Mach.slack m gid _ fun _ => rfl
@[simp] theorem updWave_denials (m : Mach) (gid w : Nat) (f : Wave → Wave) : (m.updWave gid w f).denials = m.denials :=
  updGroup_rest Mach.denials m gid _ fun _ => rfl
@[simp] theorem updWave_behind (m : Mach) (gid w : Nat) (f : Wave → Wave) : (m.updWave gid w f).behind = m.behind :=
  updGroup_rest Mach.behind m gid _ fun _ => rfl
@[simp] theorem updGroup_periodStart (m : Mach) (gid : Nat) (f : Group → Group) : (m.updGroup gid f).periodStart = m.periodStart :=
  updGroup_rest Mach.periodStart m gid f fun _ => rfl
@[simp] theorem updWave_periodStart (m : Mach) (gid w : Nat) (f : Wave → Wave) : (m.updWave gid w f).periodStart = m.periodStart :=
  updGroup_rest Mach.periodStart m gid _ fun _ => rfl
@[simp] theorem updGroup_board (m : Mach) (gid : Nat) (f : Group → Group) : (m.updGroup gid f).board = m.board :=
  updGroup_rest Mach.board m gid f fun _ => rfl
@[simp] theorem updWave_board (m : Mach) (gid w : Nat) (f : Wave → Wave) : (m.updWave gid w f).board = m.board :=
  updGroup_rest Mach.board m gid _ fun _ => rfl
@[simp] theorem updGroup_irqs (m : Mach) (gid : Nat) (f : Group → Group) : (m.updGroup gid f).irqs = m.irqs :=
  updGroup_rest Mach.irqs m gid f fun _ => rfl
@[simp] theorem updWave_irqs (m : Mach) (gid w : Nat) (f : Wave → Wave) : (m.updWave gid w f).irqs = m.irqs :=
  updGroup_rest Mach.irqs m gid _ fun _ => rfl
@[simp] theorem updGroup_rel (m : Mach) (gid : Nat) (f : Group → Group) : (m.updGroup gid f).rel = m.rel :=
  updGroup_rest Mach.rel m gid f fun _ => rfl
@[simp] theorem updWave_rel (m : Mach) (gid w : Nat) (f : Wave → Wave) : (m.updWave gid w f).rel = m.rel :=
  updGroup_rest Mach.rel m gid _ fun _ => rfl
@[simp] theorem updGroup_link (m : Mach) (gid : Nat) (f : Group → Group) : (m.updGroup gid f).link = m.link :=
  updGroup_rest Mach.link m gid f fun _ => rfl
@[simp] theorem updGroup_ringFaults (m : Mach) (gid : Nat) (f : Group → Group) : (m.updGroup gid f).ringFaults = m.ringFaults :=
  updGroup_rest Mach.ringFaults m gid f fun _ => rfl
@[simp] theorem updWave_link (m : Mach) (gid w : Nat) (f : Wave → Wave) : (m.updWave gid w f).link = m.link :=
  updGroup_rest Mach.link m gid _ fun _ => rfl
@[simp] theorem updWave_ringFaults (m : Mach) (gid w : Nat) (f : Wave → Wave) : (m.updWave gid w f).ringFaults = m.ringFaults :=
  updGroup_rest Mach.ringFaults m gid _ fun _ => rfl
@[simp] theorem updGroup_nextGid (m : Mach) (gid : Nat) (f : Group → Group) : (m.updGroup gid f).nextGid = m.nextGid :=
  updGroup_rest Mach.nextGid m gid f fun _ => rfl
@[simp] theorem updWave_nextGid (m : Mach) (gid w : Nat) (f : Wave → Wave) : (m.updWave gid w f).nextGid = m.nextGid :=
  updGroup_rest Mach.nextGid m gid _ fun _ => rfl
@[simp] theorem updGroup_nextLaunch (m : Mach) (gid : Nat) (f : Group → Group) : (m.updGroup gid f).nextLaunch = m.nextLaunch :=
  updGroup_rest Mach.nextLaunch m gid f fun _ => rfl
@[simp] theorem updWave_nextLaunch (m : Mach) (gid w : Nat) (f : Wave → Wave) : (m.updWave gid w f).nextLaunch = m.nextLaunch :=
  updGroup_rest Mach.nextLaunch m gid _ fun _ => rfl
@[simp] theorem updGroup_nextSerial (m : Mach) (gid : Nat) (f : Group → Group) : (m.updGroup gid f).nextSerial = m.nextSerial :=
  updGroup_rest Mach.nextSerial m gid f fun _ => rfl
@[simp] theorem updWave_nextSerial (m : Mach) (gid w : Nat) (f : Wave → Wave) : (m.updWave gid w f).nextSerial = m.nextSerial :=
  updGroup_rest Mach.nextSerial m gid _ fun _ => rfl
@[simp] theorem updGroup_nextId (m : Mach) (gid : Nat) (f : Group → Group) : (m.updGroup gid f).nextId = m.nextId :=
  updGroup_rest Mach.nextId m gid f fun _ => rfl
@[simp] theorem updWave_nextId (m : Mach) (gid w : Nat) (f : Wave → Wave) : (m.updWave gid w f).nextId = m.nextId :=
  updGroup_rest Mach.nextId m gid _ fun _ => rfl
@[simp] theorem group_updWave_gid (g : Group) (w : Nat) (f : Wave → Wave) : (g.updWave w f).gid = g.gid := rfl
@[simp] theorem group_updWave_asid (g : Group) (w : Nat) (f : Wave → Wave) : (g.updWave w f).asid = g.asid := rfl
@[simp] theorem group_updWave_core (g : Group) (w : Nat) (f : Wave → Wave) : (g.updWave w f).core = g.core := rfl
@[simp] theorem group_updWave_launch (g : Group) (w : Nat) (f : Wave → Wave) : (g.updWave w f).launch = g.launch := rfl
@[simp] theorem group_updWave_task (g : Group) (w : Nat) (f : Wave → Wave) : (g.updWave w f).task = g.task := rfl
@[simp] theorem group_updWave_place (g : Group) (w : Nat) (f : Wave → Wave) : (g.updWave w f).place = g.place := rfl
@[simp] theorem group_updWave_placement (g : Group) (w : Nat) (f : Wave → Wave) : (g.updWave w f).placement = g.placement := rfl
@[simp] theorem group_updWave_position (g : Group) (w : Nat) (f : Wave → Wave) : (g.updWave w f).position = g.position := rfl
@[simp] theorem group_updWave_units (g : Group) (w : Nat) (f : Wave → Wave) : (g.updWave w f).units = g.units := rfl
@[simp] theorem group_updWave_slots (g : Group) (w : Nat) (f : Wave → Wave) : (g.updWave w f).slots = g.slots := rfl
@[simp] theorem group_updWave_frames (g : Group) (w : Nat) (f : Wave → Wave) : (g.updWave w f).frames = g.frames := rfl
@[simp] theorem group_updWave_sig (g : Group) (w : Nat) (f : Wave → Wave) : (g.updWave w f).sig = g.sig := rfl
@[simp] theorem group_updWave_parked (g : Group) (w : Nat) (f : Wave → Wave) : (g.updWave w f).parked = g.parked := rfl
@[simp] theorem group_updWave_fillWs (g : Group) (w : Nat) (f : Wave → Wave) : (g.updWave w f).fillWs = g.fillWs := rfl
@[simp] theorem group_updWave_decided (g : Group) (w : Nat) (f : Wave → Wave) : (g.updWave w f).decided = g.decided := rfl
@[simp] theorem group_updWave_reserve (g : Group) (w : Nat) (f : Wave → Wave) : (g.updWave w f).reserve = g.reserve := rfl
@[simp] theorem group_updWave_system (g : Group) (w : Nat) (f : Wave → Wave) : (g.updWave w f).system = g.system := rfl
@[simp] theorem group_updWave_mxStatus (g : Group) (w : Nat) (f : Wave → Wave) : (g.updWave w f).mxStatus = g.mxStatus := rfl
@[simp] theorem group_updWave_queue (g : Group) (w : Nat) (f : Wave → Wave) : (g.updWave w f).queue = g.queue := rfl
@[simp] theorem group_updWave_ctabDead (g : Group) (w : Nat) (f : Wave → Wave) : (g.updWave w f).ctabDead = g.ctabDead := rfl
@[simp] theorem updLane_index (w : Wave) (l : Nat) (f : Lane → Lane) : (w.updLane l f).index = w.index := rfl
@[simp] theorem updLane_laneset (w : Wave) (l : Nat) (f : Lane → Lane) : (w.updLane l f).laneset = w.laneset := rfl
@[simp] theorem updLane_slot (w : Wave) (l : Nat) (f : Lane → Lane) : (w.updLane l f).slot = w.slot := rfl
@[simp] theorem updLane_base (w : Wave) (l : Nat) (f : Lane → Lane) : (w.updLane l f).base = w.base := rfl
@[simp] theorem updLane_ext (w : Wave) (l : Nat) (f : Lane → Lane) : (w.updLane l f).ext = w.ext := rfl
@[simp] theorem updLane_ended (w : Wave) (l : Nat) (f : Lane → Lane) : (w.updLane l f).ended = w.ended := rfl
@[simp] theorem updLane_v (w : Wave) (l : Nat) (f : Lane → Lane) : (w.updLane l f).v = w.v := rfl
@[simp] theorem updLane_k (w : Wave) (l : Nat) (f : Lane → Lane) : (w.updLane l f).k = w.k := rfl
@[simp] theorem updLane_w (w : Wave) (l : Nat) (f : Lane → Lane) : (w.updLane l f).w = w.w := rfl
@[simp] theorem updLane_inflight (w : Wave) (l : Nat) (f : Lane → Lane) : (w.updLane l f).inflight = w.inflight := rfl
@[simp] theorem updLane_pend (w : Wave) (l : Nat) (f : Lane → Lane) : (w.updLane l f).pend = w.pend := rfl
@[simp] theorem updLane_toks (w : Wave) (l : Nat) (f : Lane → Lane) : (w.updLane l f).toks = w.toks := rfl
@[simp] theorem updLane_cmdPend (w : Wave) (l : Nat) (f : Lane → Lane) : (w.updLane l f).cmdPend = w.cmdPend := rfl
@[simp] theorem updLane_tokw (w : Wave) (l : Nat) (f : Lane → Lane) : (w.updLane l f).tokw = w.tokw := rfl
@[simp] theorem updLane_tlrw (w : Wave) (l : Nat) (f : Lane → Lane) : (w.updLane l f).tlrw = w.tlrw := rfl
@[simp] theorem updLane_remoteSeen (w : Wave) (l : Nat) (f : Lane → Lane) : (w.updLane l f).remoteSeen = w.remoteSeen := rfl
@[simp] theorem updLane_loads (w : Wave) (l : Nat) (f : Lane → Lane) : (w.updLane l f).loads = w.loads := rfl
@[simp] theorem updLane_marks (w : Wave) (l : Nat) (f : Lane → Lane) : (w.updLane l f).marks = w.marks := rfl
@[simp] theorem updLane_wmarks (w : Wave) (l : Nat) (f : Lane → Lane) : (w.updLane l f).wmarks = w.wmarks := rfl
@[simp] theorem updLane_parity (w : Wave) (l : Nat) (f : Lane → Lane) : (w.updLane l f).parity = w.parity := rfl
@[simp] theorem updLane_weak (w : Wave) (l : Nat) (f : Lane → Lane) : (w.updLane l f).weak = w.weak := rfl
@[simp] theorem updLane_ctl (w : Wave) (l : Nat) (f : Lane → Lane) : (w.updLane l f).ctl = w.ctl := rfl
@[simp] theorem updLane_dbg (w : Wave) (l : Nat) (f : Lane → Lane) : (w.updLane l f).dbg = w.dbg := rfl
@[simp] theorem updLane_tcause (w : Wave) (l : Nat) (f : Lane → Lane) : (w.updLane l f).tcause = w.tcause := rfl
@[simp] theorem updLane_tpc (w : Wave) (l : Nat) (f : Lane → Lane) : (w.updLane l f).tpc = w.tpc := rfl
@[simp] theorem updLane_taddr (w : Wave) (l : Nat) (f : Lane → Lane) : (w.updLane l f).taddr = w.taddr := rfl
@[simp] theorem updLane_tmask (w : Wave) (l : Nat) (f : Lane → Lane) : (w.updLane l f).tmask = w.tmask := rfl
@[simp] theorem updLane_inHandler (w : Wave) (l : Nat) (f : Lane → Lane) : (w.updLane l f).inHandler = w.inHandler := rfl
@[simp] theorem updLane_depth (w : Wave) (l : Nat) (f : Lane → Lane) : (w.updLane l f).depth = w.depth := rfl
@[simp] theorem updLane_yieldFrom (w : Wave) (l : Nat) (f : Lane → Lane) : (w.updLane l f).yieldFrom = w.yieldFrom := rfl
@[simp] theorem updLane_forced (w : Wave) (l : Nat) (f : Lane → Lane) : (w.updLane l f).forced = w.forced := rfl
@[simp] theorem updLane_drowsy (w : Wave) (l : Nat) (f : Lane → Lane) : (w.updLane l f).drowsy = w.drowsy := rfl
@[simp] theorem updLane_lastExt (w : Wave) (l : Nat) (f : Lane → Lane) : (w.updLane l f).lastExt = w.lastExt := rfl
@[simp] theorem updLane_refresh (w : Wave) (l : Nat) (f : Lane → Lane) : (w.updLane l f).refresh = w.refresh := rfl
@[simp] theorem updLane_traps (w : Wave) (l : Nat) (f : Lane → Lane) : (w.updLane l f).traps = w.traps := rfl
@[simp] theorem updLane_perfHeld (w : Wave) (l : Nat) (f : Lane → Lane) : (w.updLane l f).perfHeld = w.perfHeld := rfl
@[simp] theorem updLane_delivered (w : Wave) (l : Nat) (f : Lane → Lane) : (w.updLane l f).delivered = w.delivered := rfl
@[simp] theorem updLane_denied (w : Wave) (l : Nat) (f : Lane → Lane) : (w.updLane l f).denied = w.denied := rfl
@[simp] theorem updLane_stsSince (w : Wave) (l : Nat) (f : Lane → Lane) : (w.updLane l f).stsSince = w.stsSince := rfl
@[simp] theorem updLane_lastIssue (w : Wave) (l : Nat) (f : Lane → Lane) : (w.updLane l f).lastIssue = w.lastIssue := rfl

/-! ## Memory keeps its canonical form -/

/-- A run of byte writes keeps the canonical form. -/
theorem wf_puts {α : Type} (k : α → Nat) (b : α → Byte) (ps : List α) :
    ∀ {mem : List Host.Cell}, Memory.wf mem = true → Memory.wf (ps.foldl (fun mem p => cellPut mem (k p) (b p)) mem) = true := by
  induction ps with
  | nil => intro mem h; exact h
  | cons p ps ih => intro mem h; exact ih (Memory.wf_cellPut _ _ h)
theorem reset_mem_wf : Memory.wf State.reset.mach.mem = true := rfl
theorem reset_host_wf : Memory.wf State.reset.plat.host.memory = true := rfl
/-- Noting a channel in training changes nothing else (R380). -/
theorem stallAt_mem (m : Mach) (word : Nat) : (m.stallAt word).mem = m.mem := by unfold Mach.stallAt; split <;> rfl
/-- A write within one word (R376). -/
theorem writeWord_wf (m : Mach) (word : Nat) (bs : List (Nat × Byte)) (h : Memory.wf m.mem = true) :
    Memory.wf (m.writeWord word bs).mem = true := by
  have hs : Memory.wf (m.stallAt word).mem = true := by rw [stallAt_mem]; exact h
  have put (x : Mach) (hx : Memory.wf x.mem = true) (ps) : Memory.wf (x.putWord word ps).mem = true :=
    wf_puts (fun p : Nat × Byte => 8 * word + p.1) (·.2) ps hx
  unfold Mach.writeWord
  dsimp only
  split
  · exact hs
  · split
    · exact put _ hs bs
    · split
      · exact put _ hs bs
      · split
        · exact put _ hs bs
        · exact put _ (put _ hs _) bs
/-- Counting beats changes no memory (R344). -/
theorem beats_mem (m : Mach) (pa : Nat) (bs : List Byte) : (m.beats pa bs).mem = m.mem := by
  unfold Mach.beats Mach.countDevice
  split <;> dsimp only <;> split <;> rfl
/-- A write at physical addresses (R177). -/
theorem paWrite_wf (m : Mach) (pa : Nat) (bs : List Byte) (h : Memory.wf m.mem = true) :
    Memory.wf (m.paWrite pa bs).mem = true := by
  unfold Mach.paWrite
  dsimp only
  generalize (List.range ((pa + bs.length + 7) / 8 - pa / 8)).map (· + pa / 8) = ws
  have h : Memory.wf (m.beats pa bs).mem = true := by rw [beats_mem]; exact h
  revert h
  generalize m.beats pa bs = m
  intro h
  induction ws generalizing m with
  | nil => exact h
  | cons w ws ih =>
    refine ih _ ?_
    dsimp only
    split
    · exact h
    · exact writeWord_wf _ _ _ h
/-- A read changes no byte (R376). -/
theorem readWord_mem (m : Mach) (word : Nat) : (m.readWord word).1.mem = m.mem := by
  unfold Mach.readWord
  dsimp only
  split
  · exact stallAt_mem m word
  · split <;> exact stallAt_mem m word
/-- A corrective write stores the corrected word (R376). -/
theorem correct_wf (m : Mach) (word : Nat) (v : DWord) (h : Memory.wf m.mem = true) :
    Memory.wf (m.correct word v).mem = true := by
  unfold Mach.correct
  split
  · exact h
  · exact wf_puts (fun p : Nat × Byte => 8 * word + p.1) (·.2) _ h
/-- Marking raced beam queries touches no scratchpad (R316). -/
theorem raceBeams_spad (m : Mach) (g : Group) (off n k : Nat) : ((m.raceBeams g off n).core k).spad = (m.core k).spad := by
  have h1 : ((if (m.core g.core).rayQ.isEmpty then m else
      m.updCore g.core fun c => { c with rayQ := c.rayQ.map (RayCmd.race g.gid off n) }).core k).spad = (m.core k).spad := by
    split
    · rfl
    · by_cases hk : k = g.core
      · subst hk; unfold Mach.updCore Mach.core Mach.setCore; simp
      · unfold Mach.updCore Mach.core Mach.setCore; rw [mgetD_mput_ne _ _ _ hk]
  have h2 (m' : Mach) (b : Bool) (r : Map Ring) : (if b then { m' with rings := r } else m').core k = m'.core k := by
    split <;> rfl
  unfold Mach.raceBeams
  dsimp only
  rw [h2]
  exact h1
/-- A scratchpad write by a thread or an engine (R172, R206). -/
theorem spadWrite_wf (m : Mach) (g : Group) (off : Nat) (bs : List Byte) (h : ∀ k, Memory.wf (m.core k).spad = true) (k : Nat) :
    Memory.wf ((m.spadWrite g off bs).core k).spad = true := by
  have h1 (k : Nat) : Memory.wf ((m.raceBeams g off bs.length).core k).spad = true := by rw [raceBeams_spad]; exact h k
  unfold Mach.spadWrite
  by_cases hk : k = g.core
  · subst hk
    have := wf_puts (fun p : Nat × Byte => g.spadPhys (off + p.1)) (·.2) ((List.range bs.length).zip bs) (h1 g.core)
    simpa [Mach.updCore, Mach.setCore, Mach.core] using this
  · have := h1 k
    simpa [Mach.updCore, Mach.setCore, Mach.core, mgetD_mput_ne _ _ _ hk] using this
/-- A scattered scratchpad write (R339). -/
theorem spadPut_wf (m : Mach) (g : Group) (bs : List (Nat × Byte)) (h : ∀ k, Memory.wf (m.core k).spad = true) (k : Nat) :
    Memory.wf ((m.spadPut g bs).core k).spad = true := by
  have h1 : ∀ (ps : List (Nat × Byte)) (m : Mach) (k : Nat),
      ((ps.foldl (fun m p => m.raceBeams g p.1 1) m).core k).spad = (m.core k).spad := by
    intro ps
    induction ps with
    | nil => intro m k; rfl
    | cons p ps ih => intro m k; exact (ih _ k).trans (raceBeams_spad m g p.1 1 k)
  have h2 (k : Nat) : Memory.wf ((bs.foldl (fun m p => m.raceBeams g p.1 1) m).core k).spad = true := by rw [h1]; exact h k
  unfold Mach.spadPut
  by_cases hk : k = g.core
  · subst hk
    have := wf_puts (fun p : Nat × Byte => g.spadPhys p.1) (·.2) bs (h2 g.core)
    simpa [Mach.updCore, Mach.setCore, Mach.core] using this
  · have := h2 k
    simpa [Mach.updCore, Mach.setCore, Mach.core, mgetD_mput_ne _ _ _ hk] using this
/-- A host-memory write that has been admitted reaches host memory, or not (R393, R394). -/
theorem land_wf (h : HostSide) (p : Nat × List Byte) (hw : Memory.wf h.memory = true) : Memory.wf (h.land p).memory = true := by
  unfold HostSide.land
  split
  · exact wf_puts (fun q : Nat × Byte => p.1 + q.1) (·.2) ((List.range p.2.length).zip p.2) hw
  · exact hw
/-- The end of a clk keeps host memory's form (R394). -/
theorem landWrites_wf (s : State) (hw : Memory.wf s.plat.host.memory = true) : Memory.wf s.landWrites.plat.host.memory = true := by
  unfold State.landWrites
  dsimp only
  split
  · exact hw
  · show Memory.wf (s.plat.host.admitted.foldl HostSide.land s.plat.host).memory = true
    generalize s.plat.host.admitted = ps
    revert hw
    generalize s.plat.host = h
    intro hw
    induction ps generalizing h with
    | nil => exact hw
    | cons p ps ih => exact ih _ (land_wf h p hw)

/-! ## Updates of the platform -/

@[simp] theorem miss_agenda (s : State) : s.miss.agenda = s.agenda := rfl
@[simp] theorem miss_mach (s : State) : s.miss.mach = s.mach := rfl
@[simp] theorem miss_plat (s : State) : s.miss.plat = s.plat := rfl
@[simp] theorem miss_missed (s : State) : s.miss.missed = true := rfl
@[simp] theorem withSec_mach (s : State) (x : Sec) : (s.withSec x).mach = s.mach := rfl
@[simp] theorem withSec_agenda (s : State) (x : Sec) : (s.withSec x).agenda = s.agenda := rfl
@[simp] theorem withSec_sec (s : State) (x : Sec) : (s.withSec x).plat.sec = x := rfl
@[simp] theorem withSec_host (s : State) (x : Sec) : (s.withSec x).plat.host = s.plat.host := rfl
@[simp] theorem withSec_outputs (s : State) (x : Sec) : (s.withSec x).plat.outputs = s.plat.outputs := rfl
@[simp] theorem withSec_power (s : State) (x : Sec) : (s.withSec x).plat.power = s.plat.power := rfl
@[simp] theorem withHost_mach (s : State) (h : HostSide) : (s.withHost h).mach = s.mach := rfl
@[simp] theorem withHost_agenda (s : State) (h : HostSide) : (s.withHost h).agenda = s.agenda := rfl
@[simp] theorem withHost_host (s : State) (h : HostSide) : (s.withHost h).plat.host = h := rfl
@[simp] theorem withHost_sec (s : State) (h : HostSide) : (s.withHost h).plat.sec = s.plat.sec := rfl
@[simp] theorem withHost_outputs (s : State) (h : HostSide) : (s.withHost h).plat.outputs = s.plat.outputs := rfl
@[simp] theorem withHost_power (s : State) (h : HostSide) : (s.withHost h).plat.power = s.plat.power := rfl

/-! ## What a step's shape leaves alone -/

/-- A Farom instruction reaches the machine proper alone (R16, R170). -/
theorem onMach_frame {f : Mach → Host.Outcome Mach Fault Refusal} {s t : State} (h : onMach f s = .next t) : t.plat = s.plat ∧ t.agenda = s.agenda := by
  unfold onMach at h
  split at h <;> cases h
  exact ⟨rfl, rfl⟩

end Sys2Proof.Machine
end

