-- ==== Sys2Proof/Tests/Slice0.lean ====
section
/-! SUPPORT. Tests: a term each check of WellFormed refuses, words written out from the spec's encodings, small steps whose
results the spec's examples and tables give, and for every obligation states that meet its hypotheses. -/

namespace Sys2Proof.Tests
open Sys2Proof.Machine
set_option maxRecDepth 8192
set_option exponentiation.threshold 1024

/-! ## Terms and states to test on -/

def c0 : Ctl := ⟨0, false, false, 0, .al⟩
/-- Guarded by c1 when it says equal: false in the states below. -/
def cOff : Ctl := ⟨0, false, false, 1, .eq⟩
def v (n : Byte) : Opnd := ⟨.v, n⟩
def k (n : Byte) : Opnd := ⟨.k, n⟩
def w (n : Byte) : Opnd := ⟨.w, n⟩
def n8 (n : Byte) : Src := .imm .n8 n
def int : IntOp := ⟨c0, none, 0, false, .n32, v 2, v 4, .reg (v 6), v 0⟩
def flt : FltOp := ⟨c0, none, false, false, false, false, false, .rn, v 2, v 4, .reg (v 6), v 0, false, false⟩
def half : HalfOp := ⟨c0, none, false, false, false, false, false, .rn, v 2, v 4, .reg (v 6), v 0, false, false⟩
def mem : MemOp := ⟨c0, none, .add, false, .b32, v 2, w 8, v 0, false, 0, .norm, 0, v 0⟩
def async : AsyncOp := ⟨c0, .add, false, .b8, v 0, w 4, .reg (w 6), v 0, v 0, 0, 0, false, false, false, 0, false, w 9⟩
def plain : PlainOp := ⟨c0⟩
def imm (n : Byte) : ImmOp := ⟨c0, n⟩

/-- One thread on core 127 of a mapped context, at the code page. -/
def probe : State := State.reset.withFetchWord 64 0
/-- The same with its instruction issuing. -/
def rig : State := { probe with agenda := [], mach := { probe.mach with issue := some ⟨1, 0, 0x14000, 0xFF, 8⟩ } }
def rigWave (f : Wave → Wave) : State := { rig with mach := rig.mach.updWave 1 0 f }
def rigGroup (f : Group → Group) : State := { rig with mach := rig.mach.updGroup 1 f }
def rigCore (f : Core → Core) : State := { rig with mach := rig.mach.updCore 127 f }
def rigMach (f : Mach → Mach) : State := { rig with mach := f rig.mach }
/-- W registers set. -/
def withW (ps : List (Nat × Word)) (u : Wave) : Wave := { u with w := ps.foldl (fun (m : Map Word) p => mput m p.1 p.2) u.w }
/-- The instruction begins and its surroundings meet `p`. -/
def begun (s : State) (i : Instr) (c : Ctl) (p : Env → Bool) : Bool :=
  match s.begins i c with
  | some e => p e
  | none => false
/-- The same for the surroundings its body acts in. -/
def within (s : State) (i : Instr) (c : Ctl) (p : Env → Bool) : Bool := begun s i c fun e => p (e.inside i)
/-- The instruction runs to its body with a performing thread. -/
def runs (s : State) (i : Instr) (c : Ctl) : Bool :=
  match s.runs i c with
  | some e => !e.act.isEmpty
  | none => false
def active (e : Env) : Bool := !e.act.isEmpty
/-- What a step leaves, if it goes on. -/
def after {α : Type} (x : Host.Outcome State Fault Refusal) (f : State → α) : Option α :=
  match x with
  | .next t => some (f t)
  | _ => none
/-- The one wave of the rig. -/
def wave1 (s : State) : Wave := (s.mach.wave 1 0).getD (Wave.born probeTask 0 0 0 0)

/-! ## WellFormed: a term each check refuses -/

theorem wf_switch : Instr.wf (.switch ⟨c0, v 1, 9, 0⟩) = false ∧ Instr.wf (.switch ⟨c0, v 1, 1, 0x100⟩) = false
    ∧ Instr.wf (.switch ⟨c0, v 1, 8, 0xFF⟩) = true := by decide
theorem wf_fillx : Instr.wf (.fillx (imm 0xF0)) = false ∧ Instr.wf (.fillx (imm 0xEF)) = true := by decide
theorem wf_bar : Instr.wf (.bara ⟨c0, 0, false, n8 1⟩) = false ∧ Instr.wf (.baraw ⟨c0, 1, false, .imm .s8 1⟩) = false := by decide
theorem wf_src : Instr.wf (.brx ⟨c0, v 2, .imm .e4m3 0⟩) = false ∧ Instr.wf (.spawnr ⟨c0, w 2, .imm .s8 0, w 3⟩) = false
    ∧ Instr.wf (.tbinit ⟨c0, w 2, .imm .s8 0, w 3⟩) = false ∧ Instr.wf (.tbarr ⟨c0, false, w 2, .imm .s8 1⟩) = false
    ∧ Instr.wf (.tbexp ⟨c0, false, w 2, .imm .s8 1⟩) = false ∧ Instr.wf (.tbwait ⟨c0, w 2, .imm .s8 1⟩) = false
    ∧ Instr.wf (.tlrdel ⟨c0, .imm .s8 1⟩) = false ∧ Instr.wf (.tlrreg ⟨c0, w 2, .imm .s8 1⟩) = false := by decide
theorem wf_int : Instr.wf (.iadd { int with b := .imm .e4m3 0 }) = false ∧ Instr.wf (.iadd { int with c := v 1 }) = false
    ∧ Instr.wf (.iadd { int with sub := 1 }) = false ∧ Instr.wf (.imulh { int with sat := true }) = false
    ∧ Instr.wf (.icmp int) = false ∧ Instr.wf (.lea int) = false ∧ Instr.wf (.idot4 { int with ty := .s64 }) = false
    ∧ Instr.wf (.iaddc { int with sub := 4 }) = false ∧ Instr.wf (.ineg int) = false ∧ Instr.wf (.bfe { int with b := n8 1 }) = false
    ∧ Instr.wf (.prmt int) = false ∧ Instr.wf (.sel { int with sub := 16 }) = false ∧ Instr.wf (.mov int) = false
    ∧ Instr.wf (.mov { int with b := n8 1 }) = false := by decide
theorem wf_special : Instr.wf (.movsr int) = false ∧ Instr.wf (.movsw { int with b := n8 0x18 }) = false ∧ Instr.wf (.ccrd int) = false
    ∧ Instr.wf (.ccwr int) = false ∧ Instr.wf (.cctst int) = false ∧ Instr.wf (.wldc { int with flag := some 0 }) = false
    ∧ Instr.wf (.xacq { int with sub := 2, ty := .s32, d := v 0, a := v 0, b := .reg (v 0) }) = false
    ∧ Instr.wf (.xrel int) = false := by decide
theorem wf_flt : Instr.wf (.fadd { flt with b := n8 0 }) = false ∧ Instr.wf (.fadd { flt with c := v 1 }) = false
    ∧ Instr.wf (.fmin { flt with rm := .rz }) = false ∧ Instr.wf (.fcmp flt) = false ∧ Instr.wf (.frnd { flt with negB := true, b := .reg (v 0) }) = false
    ∧ Instr.wf (.fcls { flt with sat := true, b := .reg (v 0) }) = false ∧ Instr.wf (.fspec { flt with b := n8 7 }) = false
    ∧ Instr.wf (.fscl { flt with b := .imm .e4m3 0 }) = false := by decide
theorem wf_half : Instr.wf (.hadd2 { half with flag := some 0 }) = false ∧ Instr.wf (.hmin2 { half with rm := .rz }) = false
    ∧ Instr.wf (.hcmp2 { half with sat := true }) = false ∧ Instr.wf (.pack2 { half with c := v 1 }) = false := by decide
theorem wf_convert : Instr.wf (.cvt ⟨c0, .fp32, .s16, false, .rn, 2, v 2, v 4⟩) = false
    ∧ Instr.wf (.cvt ⟨c0, .s32, .s16, false, .rz, 0, v 2, v 4⟩) = false ∧ Instr.wf (.cvt ⟨c0, .s32, .fp32, true, .rn, 0, v 2, v 4⟩) = false
    ∧ Instr.wf (.dqnt ⟨c0, .bf16, 3, v 2, v 4, v 6⟩) = false ∧ Instr.wf (.sclw ⟨c0, true, .e2m1, .rn, v 2, v 4⟩) = false := by decide
theorem wf_cross : Instr.wf (.shfl ⟨c0, none, .s64, false, .idx, v 2, v 4, .imm .s8 0, v 6⟩) = false
    ∧ Instr.wf (.vote ⟨c0, none, .s64, .all, v 0, v 4⟩) = false ∧ Instr.wf (.redux ⟨c0, false, .s64, .add, .n32, .rn, true, v 2, v 4⟩) = false
    ∧ Instr.wf (.scan ⟨c0, true, .s64, .xor, .s32, .rn, true, v 2, v 4⟩) = false ∧ Instr.wf (.lanew ⟨c0, v 2, v 4, .imm .s8 0⟩) = false := by decide
theorem wf_mem : Instr.wf (.ld { mem with sh := 1 }) = false ∧ Instr.wf (.ld { mem with sgn := true }) = false
    ∧ Instr.wf (.ldc { mem with size := .b8 }) = false ∧ Instr.wf (.st mem) = false ∧ Instr.wf (.ldpf mem) = false
    ∧ Instr.wf (.atom { mem with op := .fadd, size := .b64 }) = false ∧ Instr.wf (.red { mem with op := .cas, d := v 0 }) = false
    ∧ Instr.wf (.lds { mem with hint := .byp }) = false ∧ Instr.wf (.pfence (imm 1)) = false ∧ Instr.wf (.cwb mem) = false
    ∧ Instr.wf (.fst { mem with d := v 0, hint := .nalloc }) = false := by decide
theorem wf_async : Instr.wf (.mred async) = false ∧ Instr.wf (.mcas async) = false ∧ Instr.wf (.msac { async with imm8b := 1 }) = false
    ∧ Instr.wf (.gathm async) = false ∧ Instr.wf (.scatm { async with imm8b := 7 }) = false ∧ Instr.wf (.cpy { async with spec := 4 }) = false
    ∧ Instr.wf (.tcpy async) = false ∧ Instr.wf (.mxlds { async with e := w 1 }) = false ∧ Instr.wf (.mxmul { async with cmode := true }) = false
    ∧ Instr.wf (.mxrd { async with wbe := true, spec := 1 }) = false ∧ Instr.wf (.mxzero async) = false ∧ Instr.wf (.mxlda { async with gpar := true }) = false
    ∧ Instr.wf (.rayq async) = false ∧ Instr.wf (.beamq async) = false ∧ Instr.wf (.smp async) = false
    ∧ Instr.wf (.gth4 { async with compl := v 0, imm8b := 4 }) = false := by decide
theorem wf_grove : Instr.wf (.grvinv ⟨c0, true, w 2, n8 1⟩) = false ∧ Instr.wf (.grvinv ⟨c0, false, w 2, .imm .s8 1⟩) = false
    ∧ Instr.wf (.atlbinv ⟨c0, .asid, w 2, w 3⟩) = false ∧ Instr.wf (.atlbinv ⟨c0, .all, v 0, w 3⟩) = false := by decide

/-! ## Decoding: words written out from the encodings of 04 and of each family's examples -/

/-- 04: the worked program of the encoding file. -/
theorem dec_isub : decodeTableWord 64 0x8042800001400084 =
    some (.isub ⟨c0, some 1, 0, false, .s32, v 1, v 0, .imm .s8 0x28, v 0⟩) := by decide
theorem dec_bra : decodeTableWord 96 (0xFF00000000025005 + 0xFD000008 * 2 ^ 64) =
    some (.bra ⟨{ c0 with stall := 2, gcc := 1, cond := .ge }, some 0xFE, 0xFD, 8⟩) := by decide
/-- 09: the carry chain. -/
theorem dec_iaddc : decodeTableWord 64 0x0080500C09000094 =
    some (.iaddc ⟨c0, none, 0, false, .n32, v 9, v 3, .reg (v 5), v 0⟩) := by decide
/-- 15: control flow words. -/
theorem dec_control : decodeTableWord 64 0x0000002800000010 = some (.ret ⟨c0, v 10⟩)
    ∧ decodeTableWord 96 (0x000000000A00000D + 0xFF000010 * 2 ^ 64) = some (.call ⟨c0, none, 0xFF, 0x10, v 10⟩)
    ∧ decodeTableWord 64 0x8080000000800034 = some (.tokw ⟨c0, some 2, none⟩) ∧ decodeTableWord 64 0x24 = some (.yield plain)
    ∧ decodeTableWord 64 0x28 = some (.eret plain) ∧ decodeTableWord 64 0x30 = some (.isync plain)
    ∧ decodeTableWord 64 0x0000000C00008C40 = some (.spawn ⟨{ c0 with gcc := 2, cond := .lt }, v 3⟩)
    ∧ decodeTableWord 64 0x48 = some (.await plain) ∧ decodeTableWord 64 0x4C = some (.frame plain) := by decide
/-- 20: barriers. -/
theorem dec_barrier : decodeTableWord 64 0x00D8000000000050 = some (.bara ⟨c0, 1, false, n8 0x80⟩)
    ∧ decodeTableWord 96 (0x00501C2C00000061 + 0x30C * 2 ^ 64) = some (.tbinit ⟨c0, w 11, n8 1, w 12⟩)
    ∧ decodeTableWord 64 0x00500C180000006C = some (.tbwait ⟨c0, w 6, n8 0⟩) := by decide
/-- 14: fill instructions. -/
theorem dec_fill : decodeTableWord 96 (0x01003C08000003C1 + 0x00600005 * 2 ^ 64) =
      some (.fst ⟨c0, none, .add, false, .b32, v 0, w 2, v 3, true, 2, .norm, 0, v 5⟩)
    ∧ decodeTableWord 64 0x3C4 = some (.fillc plain) := by decide
/-- 17: rays and beams. -/
theorem dec_rays : decodeTableWord 128 (0x005010000C000382 + 0x302 * 2 ^ 96) =
      some (.rayq { async with d := v 12, a := v 0, b := n8 1, e := w 2, compl := v 0 })
    ∧ decodeTableWord 128 (0x00000C1000000386 + 0x309 * 2 ^ 64) = some (.beamq { async with a := w 4, b := .reg (v 0), compl := w 9 }) := by decide
/-- 21: a special register and the matrix words beside DQNT. -/
theorem dec_special : decodeTableWord 64 0x00521C180000010C =
      some (.movsw ⟨c0, none, 0, false, .s32, v 0, w 6, n8 0x21, v 0⟩)
    ∧ decodeTableWord 64 0x200080100C0001D0 = some (.dqnt ⟨c0, .bf16, 0, v 12, v 4, v 8⟩)
    ∧ decodeTableWord 128 (0x0030EC2000000342 + 0x00080000 * 2 ^ 64 + 0x000C3000 * 2 ^ 96) =
      some (.mxlds { async with a := w 8, b := .reg (w 14), f := w 12, gate := true, compl := v 0 }) := by decide
/-- R68, R83, R86: a reserved length, an opcode without a row, a wrong length and a set reserved bit are refused. -/
theorem dec_refused : decodeTableWord 64 3 = none ∧ decodeTableWord 64 (0x0B * 4) = none ∧ decodeTableWord 64 (0x20 * 4 + 1) = none
    ∧ decodeTableWord 64 (0x3C4 + 2 ^ 24) = none := by decide

/-! ## Small steps: results the spec's examples and rules state -/

/-- V registers of thread 0 set. -/
def withV (ps : List (Nat × Word)) : State := rigWave fun u => { u with v := ps.foldl (fun (m : Map Word) p => mput m p.1 p.2) u.v }
/-- 09: the low half of the carry chain. -/
theorem step_iadd : after (exec (.iadd { int with flag := some 0, d := v 8, a := v 2, b := .reg (v 4) })
    (withV [(2, 0xFFFFFFF0), (4, 0x20)])) (fun t => ((wave1 t).cur (.v 0 8), (wave1 t).cur (.c 0 0))) = some (0x10, 2) := by decide
/-- R129: overflow sets V, and SAT clamps. -/
theorem step_iadd_sat : after (exec (.iadd { int with flag := some 0, ty := .s32, sat := true })
    (withV [(4, 0x7FFFFFFF), (6, 1)])) (fun t => ((wave1 t).cur (.v 0 2), (wave1 t).cur (.c 0 0))) = some (0x7FFFFFFF, 1) := by decide
/-- R86: 3.0 × 0.5 through an e4m3 immediate. -/
theorem step_fmul : after (exec (.fmul { flt with b := .imm .e4m3 0x30 }) (withV [(4, 0x40400000)]))
    (fun t => (wave1 t).cur (.v 0 2)) = some 0x3FC00000 := by decide
/-- R130: a shift by the full width gives 0, and C is the last bit out. -/
theorem step_shl_width : after (exec (.shl { int with flag := some 1 }) (withV [(4, 1), (6, 32)]))
    (fun t => ((wave1 t).cur (.v 0 2), (wave1 t).cur (.c 0 1))) = some (0, 6) := by decide
/-- R155: the worked quantisation, thread 0. -/
theorem step_qntb : after (exec (.qntb ⟨c0, .e2m1, false, v 8, v 1, v 2, w 5⟩) (withV [(1, 0x40400000), (2, 0xBF99999A)]))
    (fun t => ((wave1 t).cur (.v 0 8), (wave1 t).cur (.v 0 9))) = some (0xC7, 0x7E000001) := by decide
/-- R71, R267: a guarded-off NOP only advances; EXIT ends the thread. -/
theorem step_advance : after (exec (.nop ⟨cOff⟩) rig) (fun t => ((wave1 t).lane 0).pc) = some 0x14008 := by decide
theorem step_exit : after (exec (.exit plain) rig) (fun t => ((wave1 t).lane 0).st) = some .exited := by decide
/-- R262: DISP counts words of 4 bytes from the branch's own address. -/
theorem step_bra : after (exec (.bra ⟨c0, none, 0x7F, 0xFFFFFF⟩) rig)
    (fun t => (((wave1 t).lane 0).pc, ((wave1 t).lane 0).prio)) = some (0x13FFC, 0x7F) := by decide
/-- R206: a store to scratchpad and where it goes, little-endian. -/
theorem step_sts : after (exec (.sts { mem with d := v 0, c := v 4 })
    { withV [(4, 0x11223344)] with mach := (withV [(4, 0x11223344)]).mach.updWave 1 0 (withW [(8, 64)]) })
    (fun t => (t.spad (127, 64), t.spad (127, 67), t.spad (127, 68))) = some (0x44, 0x11, 0) := by decide
/-- R85: a privileged instruction in user mode goes nowhere near its effect: with no vector mapped the context faults. -/
theorem step_priv : after (exec (.atlbinv ⟨c0, .all, v 0, v 0⟩) rig) (fun t => t.mach.groups.isEmpty) = some true := by decide

/-! ## Hypotheses that are met -/

theorem meets_IntegerInstructions : ([Instr.iadd int, .isub int, .iaddc int, .isubb int, .ineg { int with b := .reg (v 0) },
    .iabs { int with b := .reg (v 0) }, .imul int, .imulh int, .imad int, .imin int, .imax int, .icmp { int with flag := some 0, d := v 0 },
    .lea { int with ty := .n64 }, .idot4 int].all fun i => runs rig i c0) = true := by decide
theorem meets_LogicInstructions : ([Instr.and int, .or int, .xor int, .andn int, .not { int with b := .reg (v 0) }, .shl int, .shr int, .sar int,
    .rol int, .bfe int, .bfi int, .popc { int with b := .reg (v 0) }, .clz { int with b := .reg (v 0) }, .ctz { int with b := .reg (v 0) },
    .brev { int with b := .reg (v 0) }, .prmt int].all fun i => runs rig i c0) = true := by decide
theorem meets_MoveInstructions : ([Instr.mov { int with b := .reg (v 0) }, .mov { int with a := v 0, b := n8 7 }, .sel int,
    .cctst { int with a := v 0, b := .reg (v 0) }, .ccrd { int with a := v 0, b := .reg (v 0) },
    .ccwr { int with flag := some 2, d := v 0, b := .reg (v 0) }, .movsr { int with a := v 0, b := n8 0x10 }].all fun i => runs rig i c0) = true := by
  decide
theorem meets_SpecialRegisters : begun rig (.movsr { int with a := v 0, b := n8 0x11 }) c0 (fun e => (e.w.lane 0).clkHi.isNone
      && (e.w.lane 0).timeHi.isNone) = true
    ∧ begun (rigWave fun u => u.updLane 0 fun t => { t with clkHi := some 1, timeHi := some 2 }) (.movsr { int with a := v 0, b := n8 0x11 }) c0
      (fun e => (e.w.lane 0).clkHi.isSome && (e.w.lane 0).timeHi.isSome) = true := by decide
theorem meets_FloatInstructions : ([Instr.fadd flt, .fsub flt, .fmul flt, .ffma flt, .fmin flt, .fmax flt, .frnd { flt with b := .reg (v 0) },
    .fspec { flt with b := n8 6 }, .fscl flt, .fcmp { flt with flag := some 0, d := v 0 }, .fcls { flt with b := .reg (v 0) }].all
      fun i => runs rig i c0) = true := by decide
theorem meets_HalfInstructions : ([Instr.hadd2 half, .hmul2 half, .hfma2 half, .hmin2 half, .hmax2 half, .hcmp2 half, .hdot2 half].all
    fun i => runs rig i c0) = true := by decide
/-- 1 / 3 is no value of a format, 1 is, and 2^200 overflows. -/
theorem meets_FloatRounding : (roundRat fp32 .rz false 1 3).fl &&& flNX ≠ 0 ∧ (roundRat fp32 .ru false 1 1).fl &&& flOF = 0
    ∧ (roundRat fp32 .rz false 1 1).bits < fp32.maxBits ∧ (roundRat fp32 .ru false (2 ^ 200) 1).fl &&& flOF ≠ 0
    ∧ fp32.val 0x7FC00000 = .nan := by decide
theorem meets_ConvertInstructions : ([Instr.cvt ⟨c0, .s64, .fp32, false, .rn, 0, v 2, v 4⟩, .cvt ⟨c0, .fp16, .n8, false, .rz, 3, v 2, v 4⟩,
    .pack2 half, .dqnt ⟨c0, .bf16, 6, v 2, v 4, v 6⟩, .dqnt ⟨c0, .fp32, 7, v 2, v 4, v 6⟩, .sclw ⟨c0, true, .uint, .rn, v 2, v 4⟩,
    .sclw ⟨c0, false, .hyb, .ru, v 2, v 4⟩].all fun i => runs rig i c0) = true := by decide
theorem meets_QuantiseInstruction : runs rig (.qntb ⟨c0, .e2m1, false, v 8, v 1, v 2, w 5⟩) c0 = true
    ∧ (match vbQuantise [f32 0x3F800000] .uint true (f32 0x7F7FFFFF) with | .block _ _ => false | .none => true) = true
    ∧ (match vbQuantise [f32 0x3F800000] .uint true (f32 0) with | .block _ cs => cs.length == 1 | .none => false) = true := by decide
theorem meets_CrossLaneInstructions : ([Instr.shfl ⟨c0, some 1, .s16, true, .down, v 2, v 4, n8 15, v 6⟩, .qexch ⟨c0, true, .b3, v 2, v 4⟩,
    .qder ⟨c0, true, true, v 2, v 4⟩, .vote ⟨c0, some 0, .s64, .all, v 0, v 4⟩, .vote ⟨c0, some 0, .s4, .any, v 0, v 4⟩,
    .vote ⟨c0, none, .s8, .ballot, v 2, v 4⟩, .matchv ⟨c0, some 3, .s32, true, v 2, v 4⟩, .elect ⟨c0, 1, .s64, some (v 2)⟩,
    .elect ⟨c0, 1, .s64, none⟩, .redux ⟨c0, false, .s64, .add, .n64, .rn, false, v 2, v 4⟩,
    .scan ⟨c0, true, .s64, .add, .s32, .rz, true, v 2, v 4⟩].all fun i => runs rig i c0) = true
    ∧ begun rig (.redux ⟨c0, false, .s64, .add, .n32, .rn, false, v 2, v 4⟩) c0 (fun e => e.act.all (· < 64)) = true := by decide
/-- The rig with a second live thread, in lane 1. -/
def rig2 : State := rigWave fun u => u.updLane 1 fun t => { t with st := .live, pc := 0x14000, prio := 0xFF }
/-- The loop buffer holds 64 bytes from the instruction on. -/
def looped : State := rigCore fun k => { k with loops := [(0, (0xFFFF, 0x14000, List.replicate 64 0))] }
def isOk (c : Checked) : Bool := match c with | .ok .. => true | _ => false
def isTrap (c : Checked) : Bool := match c with | .trap .. => true | _ => false
def isWalk (c : Checked) : Bool := match c with | .walk .. => true | _ => false

theorem meets_Branches : begun rig (.bra ⟨c0, none, 0xFF, 0x7FFFFF⟩) c0 active = true
    ∧ begun rig (.bra ⟨c0, some 1, 0xFF, 0x800000⟩) c0 active = true ∧ begun rig2 (.bra ⟨cOff, some 1, 0xFF, 8⟩) cOff (fun e => e.lanes.length == 2) = true
    ∧ begun rig2 (.brx ⟨c0, v 2, n8 0x40⟩) c0 active = true ∧ begun rig (.call ⟨c0, none, 0xFE, 8, v 10⟩) c0 active = true
    ∧ begun rig (.ret ⟨c0, v 10⟩) c0 active = true := by decide
theorem meets_Branches_table : begun looped (.switch ⟨c0, v 1, 8, 0⟩) c0 (fun e => (List.range 9).all fun k =>
      decide (4 ≤ ((e.m.core e.core).loopBytes e.w.laneset e.asid (e.iss.pc.toNat + 16 + 4 * k)).length)) = true
    ∧ begun rig (.switch ⟨c0, v 1, 1, 0⟩) c0 (fun e => match e.tableAt e.m 0 with | .ok _ _ => true | _ => false) = true
    ∧ begun rig (.switch ⟨cOff, v 1, 1, 0⟩) cOff (fun e => e.act.isEmpty && match e.tableAt e.m 8 with | .ok _ _ => true | _ => false) = true := by decide
theorem meets_PlainControl : begun rig (.nop plain) c0 active = true ∧ begun rig (.yield plain) c0 active = true
    ∧ begun rig (.isync plain) c0 active = true ∧ begun rig2 (.exit plain) c0 active = true ∧ begun rig2 (.exit ⟨cOff⟩) cOff (fun e => e.act.isEmpty) = true := by decide
theorem meets_PlainControl_tokw : begun rig (.tokw ⟨c0, some 0, some (w 4)⟩) c0 (fun e => !((e.waited ⟨c0, some 0, some (w 4)⟩).any e.w.toks.contains)) = true
    ∧ begun (rigWave fun u => { u with toks := [63], pend := [.w 63] }) (.tokw ⟨c0, none, none⟩) c0
      (fun e => (e.waited ⟨c0, none, none⟩).any e.w.toks.contains && !e.all.isEmpty) = true := by decide

/-- A pending W register, an external effect behind a load, AWAIT with a pending token, TOKW of one. -/
theorem meets_ChecksTrap_holds : ([(rigWave fun u => { u with pend := [.w 6] }, Instr.mov { int with a := w 6, b := .reg (v 0) }),
      (rigWave fun u => { u with toks := [4] }, .await plain), (rigWave fun u => { u with toks := [4] }, .tokw ⟨c0, some 0, some (w 4)⟩)].all fun p =>
      match Env.of c0 p.1.mach with
      | some e => usesOk (uses p.2) (e.w.base + e.w.ext) && e.scoreHolds p.2 c0 && !e.act.isEmpty && !e.all.isEmpty && p.2.raw.isSome
      | none => false) = true
    ∧ (match Env.of c0 (rigWave fun u => { u with loads := [⟨0x14000, 0xFF, 1, [], [], none, []⟩] }).mach with
      | some e => external (.spawn ⟨c0, v 2⟩) && e.w.loads.any fun o => e.lanes.any fun l => o.mask.getLsbD l
      | none => false) = true := by decide
/-- In system mode, in user mode, and past the register limit of the wave. -/
theorem meets_ChecksTrap : (match Env.of c0 rig.mach with
      | some e => privileged (.atlbinv ⟨c0, .all, v 0, v 0⟩) && !e.g.system && !usesOk (uses (.iadd { int with d := v 200 })) (e.w.base + e.w.ext)
        && !usesOk (uses (.iadd { int with d := v 255, ty := .s64 })) (e.w.base + e.w.ext)
      | none => false) = true
    ∧ (Instr.raw (.atlbinv ⟨c0, .all, v 0, v 0⟩)).isSome = true ∧ (Instr.raw (.iadd { int with d := v 200 })).isSome = true
    ∧ (match Env.of cOff (rigGroup fun g => { g with system := true }).mach with
      | some e => e.act.isEmpty && e.g.system && !usesOk (uses (.atlbinv ⟨cOff, .page, w 63, w 3⟩)) (e.w.base + e.w.ext)
      | none => false) = true := by decide

def trap1 : PendTrap := ⟨0x14000, 0xFF, 1, Code.swtrap, 3, 0, false⟩
/-- A trap vector table at the code page, with a handler for SWTRAP. -/
def vectored (u : State) : State := { u with mach := { u.mach with
  ctxs := mput u.mach.ctxs 15 { probeCtx with tvec := 0x14100 }, mem := putBytes u.mach.mem (vectorAddr 0x14100 Code.swtrap) (leBytes 8 0x14201) } }
def theGroup (s : State) : Option (Group × Wave) := match s.mach.group 1 with
  | none => none
  | some g => match g.wave 0 with
    | some w => some (g, w)
    | none => none
theorem meets_TrapEntry : (match theGroup (vectored rig) with
      | none => false
      | some (g, w) => !w.inHandler && match (((vectored rig).mach.updWave 1 0 fun w => w.setTrapRegs trap1).readVector g
          (vectorAddr ((vectored rig).mach.tvec g.asid) trap1.code)) with | .ok m _ => (m.group 1).isSome | _ => false) = true := by decide
theorem meets_NestedTrap : (match theGroup (rigWave fun u => { u with inHandler := true }), (rigWave fun u => { u with inHandler := true }).mach.ctxOf 0xFFFF with
      | some (_, w), some c => w.inHandler && trap1.code != Code.perfOvf && c.asid == 0xFFFF | _, _ => false) = true
    ∧ (match theGroup rig, rig.mach.ctxOf 0xFFFF with
      | some (g, w), some c => !w.inHandler && (match ((rig.mach.updWave 1 0 fun w => w.setTrapRegs trap1).readVector g (vectorAddr c.tvec trap1.code)) with
          | .fault m _ => (m.ctxOf g.asid).isSome && (m.group 1).isSome | _ => false)
      | _, _ => false) = true := by decide
theorem meets_TrapInstructions : begun rig (.trap (imm 0)) c0 active = true ∧ begun rig2 (.trap ⟨cOff, 255⟩) cOff (fun e => e.act.isEmpty) = true
    ∧ begun rig (.brk (imm 255)) c0 (fun e => active e && !(e.m.halt e.core e.asid).armed) = true
    ∧ begun (rigCore fun k => { k with halts := [(0xFFFF, ⟨false, true, false, none, ⟨0, 0, 0, 0, 0⟩, false⟩)] }) (.brk (imm 1)) c0
      (fun e => active e && (e.m.halt e.core e.asid).armed) = true
    ∧ begun rig (.eret plain) c0 (fun e => active e && !e.w.inHandler) = true
    ∧ begun (rigWave fun u => { u with inHandler := true, tmask := 1 }.updLane 0 fun t => { t with handler := true }) (.eret plain) c0
      (fun e => active e && e.w.inHandler) = true
    ∧ begun ({ rig2 with mach := rig2.mach.updWave 1 0 fun u => { u with inHandler := true, tmask := 2 }.updLanes [0, 1] fun t => { t with handler := true } })
      (.eret plain) c0 (fun e => active e && (e.w.lane 1).handler) = true := by decide
def barBind (off : Nat) (s : State) : State :=
  { s with mach := s.mach.updGroup 1 fun g => { g with slots := g.slots.set 1 { BarSlot.free with kind := .binding off } } }
/-- A scratchpad word at an offset of unit 0. -/
def spadSet (s : State) (ps : List (Nat × Byte)) : State := { s with mach := s.mach.updCore 127 fun k => { k with spad := ps } }
/-- A live barrier word at 0: PHASE 0, counts 1 and EXPECT 1. -/
def barWord : State := barBind 0 (spadSet rig [(1, 1), (3, 1)])

/-- A written line over a sector that another consignment has locked. -/
def lockedL1 : State :=
  let m := rig.mach.l1Store 127 0xFFFF 0x14000 [1] .norm
  { rig with mach := { m with consigns := [⟨9, 0, 0, 0xFFFF, [(0xA00, false)], [], true, false, true⟩] } }
def spawning (off : Byte) (s : State) : State := { s with mach := s.mach.updWave 1 0 fun u => { u with v := mput u.v 2 (off.setWidth 32) } }
theorem meets_SpawnInstructions : within rig (.spawn ⟨c0, v 2⟩) c0 (fun e => active e
      && let (m, ps) := e.records (v 2) fun _ => none
         (e.spawnCheck m ps fun _ => false).isNone && !m.flushHeld e.core e.asid && m.rel.allOk && m.spills e.asid (e.core / 4) ps.length == 0) = true
    ∧ within (spawning 1 rig) (.spawn ⟨c0, v 2⟩) c0 (fun e => active e
      && let (m, ps) := e.records (v 2) fun _ => none
         (e.spawnCheck m ps fun _ => false).isSome) = true
    ∧ within rig (.spawnr ⟨c0, v 2, n8 0, v 3⟩) c0 (fun e => active e
      && let (m, ps) := e.records (v 2) fun _ => some (1, 1, 1)
         (e.spawnCheck m ps fun _ => false).isNone && !m.flushHeld e.core e.asid && m.rel.allOk) = true
    ∧ within lockedL1 (.spawn ⟨c0, v 2⟩) c0 (fun e => active e
      && let (m, ps) := e.records (v 2) fun _ => none
         (e.spawnCheck m ps fun _ => false).isNone && m.flushHeld e.core e.asid) = true := by decide
/-- Each check at its boundary. -/
theorem meets_SpawnInstructions_checks : begun rig (.nop plain) c0 (fun e =>
      let p (off : Nat) (t : TaskRec) : Spawning := ⟨0, off, t, none⟩
      let t := { probeTask with spad := 384 }
      (p 1 t).off % 64 != 0 && (p 32768 t).off % 64 == 0 && decide (e.g.grant < (p 32768 t).off + 64)
        && decide ((p 32704 t).off + 64 ≤ e.g.grant) && t.ok && !{ t with spad := 385 }.ok
        && decide (e.m.countOf e.asid (e.g.frames.getD e.w.depth 0) + t.parts < 2 ^ 32)) = true
    ∧ begun { rig with mach := rig.mach.updFrame 0xFFFF (2 ^ 47) fun f => { f with count := 2 ^ 32 - 1 } } (.nop plain) c0 (fun e =>
      decide (2 ^ 32 ≤ e.m.countOf e.asid (e.g.frames.getD e.w.depth 0) + probeTask.parts)) = true := by decide
/-- The thread alone, with a live thread elsewhere, and with a child not yet over. -/
def awaits (s : State) (p : Mach → Group → Bool) : Bool := begun s (.await plain) c0 fun e =>
  let m := e.upd e.m fun w => w.updLanes e.act fun t => { t with wait := .await, pc := e.next }
  active e && e.w.toks.isEmpty && (e.g.waves.all fun v => v.depth == e.w.depth || v.live.all fun l => (v.lane l).wait != .await)
    && match m.group e.iss.gid with
    | some g => !g.parked && p m g
    | none => false
def nested : State :=
  let m := rig.mach.updGroup 1 fun g => { g with frames := [2 ^ 47, 2 ^ 47 + 64] }
  let m := { m with frames := mput m.frames (frameKey 0xFFFF (2 ^ 47 + 64)) ⟨0, true, false, false, false, none, 2 ^ 47, 0, 0, 0⟩ }
  { rig with mach := m.updWave 1 0 fun u => { u with depth := 1 } }
theorem meets_FrameAndAwait : awaits rig (fun m g => g.meeting == some 0 && m.countOf 0xFFFF (g.frames.getD 0 0) == 0) = true
    ∧ awaits nested (fun m g => g.meeting == some 1 && m.countOf 0xFFFF (g.frames.getD 1 0) == 0) = true
    ∧ awaits { rig with mach := rig.mach.updFrame 0xFFFF (2 ^ 47) fun f => { f with count := 1 } }
      (fun m g => g.meeting == some 0 && m.countOf 0xFFFF (g.frames.getD 0 0) != 0) = true
    ∧ awaits { rig2 with mach := rig2.mach.updWave 1 0 fun u => u.updLane 1 fun t => { t with pc := 0x14010 } } (fun _ g => g.meeting == none) = true := by
  decide
def frameable (s : State) (p : Env → Bool) : Bool := begun s (.frame plain) c0 fun e => e.act == e.w.live && (e.act.any fun l => (e.w.lane l).framesReplay.isEmpty) && p e
theorem meets_FrameAndAwait_frame : frameable rig (fun e => decide (e.w.depth + 1 < 16) && e.g.frames.getD (e.w.depth + 1) 0 == 0
      && (e.m.openFrame e.asid (e.g.frames.getD e.w.depth 0) 0 false).isSome) = true
    ∧ frameable { nested with mach := nested.mach.updWave 1 0 fun u => { u with depth := 0 } }
      (fun e => decide (e.w.depth + 1 < 16) && e.g.frames.getD (e.w.depth + 1) 0 != 0) = true
    ∧ frameable { rig with mach := { rig.mach with ctxs := [(15, { probeCtx with frameCount := 1 })] } } (fun e => decide (e.w.depth + 1 < 16)
      && e.g.frames.getD (e.w.depth + 1) 0 == 0 && (e.m.openFrame e.asid (e.g.frames.getD e.w.depth 0) 0 false).isNone) = true
    ∧ frameable (rigWave fun u => { u with depth := 15 }) (fun e => decide (16 ≤ e.w.depth + 1)) = true
    ∧ begun (rigWave fun u => u.updLanes [0, 1, 2, 3] fun t => { t with newRegion := false, framesReplay := [1] }) (.frame plain) c0 (fun e => active e
      && (e.act.all fun l => !(e.w.lane l).framesReplay.isEmpty) && (e.w.lane e.first).framesReplay.head? == some 1) = true
    ∧ begun { rig2 with mach := rig2.mach.updWave 1 0 fun u => u.updLane 1 fun t => { t with pc := 0x14010 } } (.frame plain) c0
      (fun e => (e.act.any fun l => (e.w.lane l).framesReplay.isEmpty) && e.act != e.w.live) = true
    ∧ begun rig (.frame ⟨cOff⟩) cOff (fun e => e.act.isEmpty && e.act != e.w.live) = true := by decide

def arrives (s : State) (i : Instr) (x : BarOp) (good : Bool) : Bool := within s i x.ctl fun e => active e
  && match e.arrivals x with | .ok _ _ => good | .bad _ => !good
def arrived (a : Option (BitVec 6 × Nat)) : State := rigWave fun u => u.updLane 0 fun t => { t with arrival := a }
theorem meets_NamedBarriers : arrives rig (.bara ⟨c0, 0, false, n8 0⟩) ⟨c0, 0, false, n8 0⟩ true = true
    ∧ arrives rig2 (.bara ⟨c0, 63, true, n8 1⟩) ⟨c0, 63, true, n8 1⟩ true = true
    ∧ arrives rig (.bara ⟨c0, 5, false, n8 0⟩) ⟨c0, 5, false, n8 0⟩ false = true
    ∧ arrives rig2 (.baraw ⟨c0, 1, false, n8 3⟩) ⟨c0, 1, false, n8 3⟩ true = true ∧ arrives rig (.baraw ⟨c0, 1, true, n8 1⟩) ⟨c0, 1, true, n8 1⟩ true = true
    ∧ begun (arrived (some (0, 0))) (.barw plain) c0 (fun e => active e && e.g.barSlot 0 == some 0 && (e.g.slot 0).phase == 0) = true
    ∧ begun (arrived (some (0, 1))) (.barw plain) c0 (fun e => active e && e.g.barSlot 0 == some 0 && (e.g.slot 0).phase != 1) = true
    ∧ begun (arrived none) (.barw plain) c0 active = true := by decide
/-- The last arrival of a phase, and one that is not. -/
theorem meets_NamedBarriers_arrive1 : (match theGroup rig with
      | none => false
      | some (g, w) => decide (1 < g.slots.length ∧ 0 < w.lanes.length) && (g.slot 1).arrived + 1 == (if (g.slot 1).expected = 0 then 1 else (g.slot 1).expected)
        && (g.slot 7).arrived + 1 != (if (g.slot 7).expected = 0 then 2 else (g.slot 7).expected)) = true := by decide

/-- TBINIT with the offset in W2 and the sectors in W3. -/
def tbinit (s : State) (a : Word) (b : Byte) (c : Word) (p : Env → Nat → Bool) : Bool :=
  within { s with mach := s.mach.updWave 1 0 (withW [(2, a), (3, c)]) } (.tbinit ⟨c0, w 2, n8 b, w 3⟩) c0 fun e =>
    active e && (e.getSrc32 e.first (n8 b)).toNat == b.toNat && (e.get e.first (w 3)).toNat == c.toNat && p e (e.get e.first (w 2)).toNat
theorem meets_BarrierWords_tbinit : tbinit rig 8 1 0 (fun _ a => a % 16 != 0) = true
    ∧ tbinit rig 32768 1 0 (fun e a => a % 16 == 0 && decide (e.g.grant < a + 16)) = true
    ∧ tbinit rig 32752 0 0 (fun e a => a % 16 == 0 && decide (a + 16 ≤ e.g.grant)) = true ∧ tbinit rig 0 1 16 (fun e a => decide (a + 16 ≤ e.g.grant)) = true
    ∧ tbinit barWord 0 1 15 (fun e a => decide (a + 16 ≤ e.g.grant) && (e.g.binding a).isSome) = true
    ∧ tbinit rig 0 1 15 (fun e a => decide (a + 16 ≤ e.g.grant) && (e.g.binding a).isNone && e.g.freeBar == some 1 && decide (1 < e.g.slots.length)) = true := by
  decide
/-- TBARR and TBEXP of n at offset 0. -/
def tbstep (s : State) (arrive : Bool) (n : Byte) (p : Env → Nat → Bool) : Bool :=
  let x : TbOp := ⟨c0, false, w 2, n8 n⟩
  within s (if arrive then .tbarr x else .tbexp x) c0 fun e =>
    active e && e.g.gid == e.iss.gid && (e.getSrc32 e.first (n8 n)).toNat == n.toNat && p e (e.get e.first (w 2)).toNat
theorem meets_BarrierWords : tbstep rig true 1 (fun e a => (e.g.binding a).isNone) = true
    ∧ tbstep barWord true 1 (fun e a => (e.g.binding a).isSome && (e.m.tbStep e.iss.gid a 1 0 0).isSome) = true
    ∧ tbstep barWord false 255 (fun e a => (e.g.binding a).isSome && (e.m.tbStep e.iss.gid a 0 255 0).isSome) = true
    ∧ tbstep barWord true 0 (fun e a => (e.g.binding a).isSome) = true
    ∧ tbstep barWord true 2 (fun e a => (e.g.binding a).isSome && (e.m.tbStep e.iss.gid a 2 0 0).isNone) = true := by decide
/-- A step that completes the phase, one that does not, and one below zero. -/
theorem meets_BarrierWords_tbStep : (match barWord.mach.group 1 with
      | none => false
      | some g =>
        let b := barWord.mach.tbWord g 0
        g.gid == 1 && g.binding 0 == some 1 && decide (g.units.Nodup) && decide (0 + 16 ≤ g.grant) && b.arrive - 1 == 0 && b.sectors == 0
          && decide (1 ≤ b.arrive) && decide (b.arrive < 2) && decide (b.sectors + 5 - 0 < 2 ^ 32)) = true := by decide
theorem meets_BarrierWaits : within barWord (.tbwait ⟨c0, w 2, n8 0⟩) c0 (fun e => active e && e.g.binding 0 == some 1 && (e.m.tbWord e.g 0).phase == 0) = true
    ∧ within barWord (.tbwait ⟨c0, w 2, n8 15⟩) c0 (fun e => active e && e.g.binding 0 == some 1 && (e.m.tbWord e.g 0).phase != 15) = true
    ∧ within barWord (.tbrel ⟨c0, w 2⟩) c0 (fun e => active e && e.g.binding 0 == some 1 && decide (1 < e.g.slots.length)
      && (e.m.core e.core).porterQ.isEmpty && e.m.rings.isEmpty) = true := by decide
def movsw (n : Byte) : Instr := .movsw { int with d := v 0, a := w 2, b := n8 n }
theorem meets_SpecialWrites : ([0x18, 0x19, 0x1A, 0x20, 0x21, 0x22, 0x23, 0x24, 0x25, 0x26].all fun n =>
      within rig (movsw n) c0 fun e => active e && !srReadOnly n.toNat) = true
    ∧ ([0x30, 0x37, 0x16, 0x1F, 0x38, 0xFF].all fun n => within rig (movsw n) c0 fun e => active e && !srReadOnly n.toNat) = true
    ∧ ([0x01, 0x15, 0x29].all fun n => begun rig (movsw n) c0 fun _ => srReadOnly n.toNat) = true
    ∧ ([0x27, 0x28].all fun n => within rig (movsw n) c0 fun e => active e && (e.m.ctxOf e.asid).isSome) = true
    ∧ within rig (.movsw { int with ctl := cOff, d := v 0, a := w 2, b := n8 0x18 }) cOff (fun e => e.act.isEmpty) = true := by decide

def xacq (flag : Option (BitVec 2)) (sub : BitVec 5) : IntOp := { int with flag := flag, ty := .s32, sub := sub, d := v 0, a := v 0, b := .reg (v 0) }
def xfree (e : Env) (n : Nat) : Bool := (mgetD e.m.xacqQ (e.core * 8 + e.w.laneset) []).isEmpty && decide (n / 32 ≤ e.m.freeUnits e.core e.w.laneset)
theorem meets_ExtendedBlocks : within rig (.xacq (xacq (some 0) 0)) c0 (fun e => active e && e.w.ext == 0 && xfree e 64) = true
    ∧ within rig (.xacq (xacq none 1)) c0 (fun e => active e && e.w.ext == 0 && xfree e 128) = true
    ∧ within (rigWave fun u => { u with ext := 64 }) (.xacq (xacq none 0)) c0 (fun e => active e && e.w.ext != 0) = true
    ∧ within { rig with mach := { rig.mach with xacqQ := [(127 * 8, [⟨9, 0, 0, 0, 64, 0, c0, [0]⟩])] } } (.xacq (xacq (some 3) 0)) c0
      (fun e => active e && e.w.ext == 0 && !xfree e 64) = true
    ∧ within { rig with mach := { rig.mach with xacqQ := [(127 * 8, [⟨9, 0, 0, 0, 64, 0, c0, [0]⟩])] } } (.xacq (xacq none 1)) c0
      (fun e => active e && e.w.ext == 0 && !xfree e 128) = true
    ∧ within rig (.xrel (xacq none 0)) c0 (fun e => e.w.ext == 0) = true
    ∧ within (rigWave fun u => { u with ext := 128 }) (.xrel (xacq none 0)) c0 (fun e => active e && e.w.ext != 0 && e.w.pend.isEmpty) = true := by decide

/-- The rig with W8 set, for operands at an address. -/
def at8 (s : State) (a : Word) : State := { s with mach := s.mach.updWave 1 0 (withW [(8, a)]) }
/-- The code page, writable; its class is 0, or 2 for a bank's. -/
def writable (cls : BitVec 3) : State := rigCore fun k => { k with tlb := k.tlb.map fun t => { t with w := true, cls := cls } }
def mst : MemOp := { mem with d := v 0, c := v 4 }
def spadOk (e : Env) (x : MemOp) (ls : List Nat) (write : Bool) : Bool :=
  (spadCheck (fun _ => false) x.size.bytes write (ls.map fun l => ⟨l, e.spadAddr x l, some e.g, e.spadAddr x l⟩)).isNone
theorem meets_ScratchpadLoads : begun (at8 rig 32764) (.lds mem) c0 (fun e => spadOk e mem (e.readers (.lds mem)) false
      && !(e.readers (.lds mem)).isEmpty && (e.readers (.lds mem)).all fun l => !e.m.inBuffer e.g (e.spadAddr mem l, 4)) = true
    ∧ begun (at8 rig 32768) (.lds mem) c0 (fun e => !spadOk e mem (e.readers (.lds mem)) false) = true
    ∧ begun (at8 rig 2) (.ldv { mem with sgn := true, size := .b16 }) c0 (fun e => (e.m.atPosition e.g 0).isSome
      && spadOk e { mem with size := .b16 } (e.readers (.ldv { mem with sgn := true, size := .b16 })) false) = true
    ∧ begun (at8 rig 0x3000000) (.ldv mem) c0 (fun e => (e.m.atPosition e.g 3).isNone) = true := by decide
theorem meets_ScratchpadStores : within (at8 rig 32760) (.sts { mst with size := .b64 }) c0 (fun e => active e && spadOk e { mst with size := .b64 } e.act true
      && e.act.all fun l => !e.m.inBuffer e.g (e.spadAddr mst l, 8)) = true
    ∧ within (at8 barWord 12) (.sts mst) c0 (fun e => active e && !spadOk e mst e.act true) = true
    ∧ within (at8 barWord 16) (.sts mst) c0 (fun e => active e && spadOk e mst e.act true) = true
    ∧ within (at8 rig 4) (.stv mst) c0 (fun e => active e && (e.m.atPosition e.g 0).isSome) = true
    ∧ within (at8 rig 0x1000000) (.stv mst) c0 (fun e => active e && (e.m.atPosition e.g 1).isNone) = true := by decide
theorem meets_ScratchpadAtomics : within (at8 rig 4) (.atoms { mem with c := v 4 }) c0 (fun e => (e.actors (.atoms { mem with c := v 4 })).length == 1
      && spadOk e mem (e.actors (.atoms { mem with c := v 4 })) true && !e.m.inBuffer e.g (e.spadAddr mem 0, 4)) = true
    ∧ within (at8 rig 6) (.atoms { mem with c := v 4, op := .cas, flag := some 1 }) c0
      (fun e => !spadOk e mem (e.actors (.atoms { mem with c := v 4, op := .cas, flag := some 1 })) true) = true := by decide
def loadOk (e : Env) (i : Instr) (x : MemOp) (path : Nat) : Bool :=
  let rq := (e.readers i).map fun l => (l, e.addr x l)
  !rq.isEmpty && match e.checkAll e.m .load path x.size.bytes (x.size != .b64) rq with
  | .ok cls [] => (match e.loadAll (e.m.usedWalks e.core e.asid) path x.size.bytes cls rq (fun ls => ls) fun m l va cls => e.load1 m l va x.size.bytes cls x.hint with
    | .ok _ _ [] => true
    | _ => false)
  | _ => false
theorem meets_Loads : begun (at8 rig 0x14FFC) (.ld mem) c0 (fun e => loadOk e (.ld mem) mem 0) = true
    ∧ begun (at8 rig 0x14000) (.ldc { mem with size := .b64 }) c0 (fun e => loadOk e (.ldc { mem with size := .b64 }) { mem with size := .b64 } 1) = true
    ∧ begun (at8 rig 0x15000) (.ld mem) c0 (fun e => isWalk (e.checkAll e.m .load 0 4 true ((e.readers (.ld mem)).map fun l => (l, e.addr mem l)))) = true
    ∧ begun (at8 rig 0x14001) (.ld mem) c0 (fun e => isTrap (e.checkAll e.m .load 0 4 true ((e.readers (.ld mem)).map fun l => (l, e.addr mem l)))) = true
    ∧ begun (at8 rig 0x14000) (.wldc { int with d := w 12, a := w 8, b := n8 255 }) c0
      (fun e => !(e.readers (.wldc { int with d := w 12, a := w 8, b := n8 255 })).isEmpty) = true := by decide
/-- A machine whose LLC holds the sector at 0x14000. -/
def cached : Mach := { rig.mach with llc := [(secKey 0xFFFF 0x14000, ⟨List.replicate 32 7, false, false, false, false, none⟩)] }
theorem meets_MemoryPaths : (cached.core 127).l1Line 0xFFFF 0x14000 = l1Empty ∧ l1Empty.length = 64
    ∧ l1Hit ((cached.core 127).l1Line 0xFFFF 0x14000) 0 32 = none ∧ (mget cached.llc (secKey 0xFFFF 0x14000)).isSome = true
    ∧ mget (cached.core 127).const (secKey 0xFFFF 0x14000) = none ∧ l1Dirty ((cached.core 127).l1Line 0xFFFF 0x14000) = false ∧ cached.consigns = []
    ∧ l1Dirty (((cached.l1Store 127 0xFFFF 0x14000 [1] .norm).core 127).l1Line 0xFFFF 0x14000) = true
    ∧ l1Hit (((cached.l1Store 127 0xFFFF 0x14000 [1] .norm).core 127).l1Line 0xFFFF 0x14000) 0 1 = some [1] := by decide
theorem meets_MemoryPaths_memory : (let m := (rig.mach.translate 0xFFFF 0x14000).1
      (match m.cachedTrans 0xFFFF 0x14000 with
        | some t => t.cls == 0 && decide (t.pa (0x14000 / 32 * 32) < gddrTop)
        | none => false)
      && (mget (m.core 127).l1 (lineKey 0xFFFF 0x14000)).isNone && (mget m.llc (secKey 0xFFFF 0x14000)).isNone
      && decide ((m.core 127).l1.length < m.l1Lines 127) && decide ((m.llcMates (secKey 0xFFFF 0x14000 / 2)).length < 16) && m.remap.isEmpty && m.rel.allOk && m.rel.flips.isEmpty) = true := by decide
def storeRq (e : Env) (x : MemOp) : List Acs := e.act.map fun l => (l, e.addr x l)
theorem meets_Stores : begun (at8 (writable 0) 0x14000) (.st mst) c0 (fun e => active e
      && match e.checkAll e.m .store 0 4 true (storeRq e mst) with
        | .ok cls [] => !e.storeHeld cls (storeRq e mst) 4 (fun l => e.bytesOf l mst.c mst.size) && e.m.consigns.isEmpty && (e.act.all fun l => cls.lookup l == some 0)
          && decide ((e.m.core e.core).l1.length + e.act.length ≤ e.m.l1Lines e.core) && match e.storeAll (e.m.usedWalks e.core e.asid) cls (storeRq e mst)
            (fun l => e.bytesOf l mst.c mst.size) mst.hint with | .done _ ls => ls == e.lanes | _ => false
        | _ => false) = true
    ∧ begun (at8 rig 0x14000) (.st mst) c0 (fun e => active e && isTrap (e.checkAll e.m .store 0 4 true (storeRq e mst))) = true
    ∧ begun (at8 rig 0x20000) (.st mst) c0 (fun e => active e && isWalk (e.checkAll e.m .store 0 4 true (storeRq e mst))) = true
    ∧ begun { at8 (writable 0) 0x14000 with mach := { (at8 (writable 0) 0x14000).mach with consigns := [⟨9, 0, 0, 0xFFFF, [(0xA00, false)], [], true, false, true⟩] } }
      (.st mst) c0 (fun e => active e && match e.checkAll e.m .store 0 4 true (storeRq e mst) with
        | .ok cls _ => e.storeHeld cls (storeRq e mst) 4 (fun l => e.bytesOf l mst.c mst.size)
        | _ => false) = true
    ∧ begun rig (.st { mst with ctl := cOff }) cOff (fun e => e.act.isEmpty) = true := by decide
theorem meets_MemoryAtomics : within { at8 (writable 0) 0x14000 with mach := { (at8 (writable 0) 0x14000).mach with llc := cached.llc } }
      (.atom { mem with c := v 4 }) c0 (fun e =>
        let rq := (e.actors (.atom { mem with c := v 4 })).map fun l => (l, e.addr mem l)
        rq == [(0, 0x14000)] && !e.lockedAny (fun _ => false) rq && e.m.consigns.isEmpty && (mget e.m.llc (secKey e.asid 0x14000)).isSome
          && (mget (e.m.core 127).l1 (lineKey e.asid 0x14000)).isNone && match e.checkAll e.m .atomic 0 4 true rq with
          | .ok cls _ => cls.lookup 0 == some 0 && (e.atomReady (rq.foldl (fun m p => m.l1DropSector e.core e.asid p.2) (e.m.usedWalks e.core e.asid)) 4 cls rq).2.isEmpty
          | _ => false) = true
    ∧ within (at8 (writable 0) 0x14004) (.red { mst with op := .fadd }) c0 (fun e => isOk (e.checkAll e.m .atomic 0 4 true (storeRq e mst))) = true
    ∧ within (at8 rig 0x14004) (.atom { mem with c := v 4 }) c0 (fun e => isTrap (e.checkAll e.m .atomic 0 4 true (storeRq e mem))) = true
    ∧ within (at8 rig 0x20000) (.red mst) c0 (fun e => isWalk (e.checkAll e.m .atomic 0 4 true (storeRq e mst))) = true
    ∧ within rig (.red { mst with ctl := cOff }) cOff (fun e => (e.actors (.red { mst with ctl := cOff })).isEmpty) = true := by decide
def load1 : LoadOp := ⟨0x14000, 0xFF, 1, [(.v 0 5, 7)], [(0, 1, 4)], none, [(0, 3)]⟩
def waveOk (s : State) (p : Group → Wave → Bool) : Bool := match theGroup s with | some (g, u) => p g u | none => false
theorem meets_WaveEvents : waveOk (rigWave fun u => { u with loads := [load1], pend := [.v 0 5, .c 0 1] }) (fun _ u =>
      u.loads == [load1] && load1.poison.isNone && load1.flags.all (fun f => f.2.1 < 4)) = true
    ∧ (∀ p ∈ load1.writes, p.1.ok)
    ∧ waveOk (rigWave fun u => { u with loads := [{ load1 with poison := some (1, 0x14000) }] }) (fun _ u => (u.lane 0).rerun != some (load1.pc, 3)) = true
    ∧ waveOk (rigWave fun u => { u with loads := [{ load1 with poison := some (1, 0x14000) }] }.updLane 0 fun t => { t with rerun := some (0x14000, 3) })
      (fun _ u => (u.lane 0).rerun == some (load1.pc, 3)) = true := by
  refine ⟨by decide, ?_, by decide, by decide⟩
  intro p hp; simp only [load1, List.mem_singleton] at hp; subst hp; simp [RKey.ok]
def xreq : XacqReq := ⟨1, 0, 0x14000, 0xFF, 64, 0, c0, [0]⟩
def queued (t : Nat) : State :=
  let s := rigWave fun u => u.updLane 0 fun l => { l with wait := .xacq }
  { s with mach := { s.mach with xacqQ := [(127 * 8, [xreq])], timeNs := t } }
theorem meets_WaveEvents_waits : waveOk (rigWave fun u => { u with traps := [trap1] }) (fun g u => !u.ended && !g.parked && !rig.mach.haltedGroup g
      && u.deliverable g.task == some trap1 && trap1.code != Code.perfOvf) = true
    ∧ waveOk (rigWave fun u => u.updLane 0 fun l => { l with age := 1024 }) (fun g u => u.forced.isNone
      && (firstEntry ((rig.mach.eligible g u).filter fun e => u.live.any fun l => (u.lane l).entry == e && decide (1024 ≤ (u.lane l).age))).isSome) = true
    ∧ waveOk { rigWave (fun u => { u with ext := 64 }) with mach := { (rigWave fun u => { u with ext := 64 }).mach with clk := 4096 } }
      (fun _ u => u.ext != 0 && !u.drowsy && decide (u.lastExt + 4096 ≤ 4096)) = true
    ∧ waveOk (rigWave fun u => { u with refresh := [.v 0 1] }) (fun _ u => !u.refresh.isEmpty) = true
    ∧ waveOk (queued 0) (fun _ u => mgetD (queued 0).mach.xacqQ (127 * 8 + 0) [] == [xreq] && xreq.here u == [0] && xreq.entry u == [0] && u.ext == 0
      && decide (xreq.regs / 32 ≤ (queued 0).mach.freeUnits 127 0)) = true
    ∧ waveOk (queued 1000000) (fun _ u => decide (xreq.since + 1000000 ≤ (queued 1000000).mach.timeNs) && xreq.here u == [0]) = true
    ∧ waveOk (rigWave fun u => u.updLane 0 fun l => { l with wait := .walk 0x14123 }) (fun g u => u.live.contains 0 && (u.lane 0).wait == .walk 0x14123
      && (rig.mach.translate g.asid 0x14FFF).2.isSome) = true
    ∧ waveOk (rigWave fun u => u.updLane 0 fun l => { l with wait := .walk 0x20000 }) (fun g _ => (rig.mach.translate g.asid 0x20000).2.isNone) = true := by decide

theorem meets_LineOperations : ([Instr.ldpf { mst with c := v 0, hint := .byp }, .cwb { mst with c := v 0 }, .cinv { mst with c := v 0 }, .icinv { mst with c := v 0 }].all fun i =>
      within (at8 rig 0x14000) i c0 fun e => e.act == [0] && e.m.consigns.isEmpty && match e.m.check e.core e.asid e.g.system .load 0 (e.addr mst 0) 1 with
        | .ok 0 => true
        | _ => false) = true
    ∧ within rig (.pfence (imm 0x1E)) c0 active = true ∧ within rig (.afence ⟨cOff⟩) cOff (fun e => e.act.isEmpty) = true
    ∧ within rig (.afence plain) c0 (fun e => active e && !e.m.flushHeld e.core e.asid) = true := by decide
theorem meets_LineOperations_held : within lockedL1 (.afence plain) c0 (fun e => active e && e.m.flushHeld e.core e.asid) = true := by decide

def consign (excl : Bool) : Consign := ⟨1, 0, 0, 0xFFFF, [(0xA00, false)], [(0x14000, 1), (0x1401F, 2)], excl, false, false⟩
def aborts (n : Nat) : State := rigWave fun u => u.updLane 0 fun t => { t with txAborts := n }
def consigned (s : State) (cs : List Consign) : State := { s with mach := { s.mach with consigns := cs } }
theorem meets_Consignments : within (aborts 7) (.txbeg plain) c0 (fun e => active e && e.act.all fun l => decide ((e.w.lane l).txAborts < 8)) = true
    ∧ within (aborts 8) (.txbeg plain) c0 (fun e => e.act == [0] && decide (8 ≤ (e.w.lane 0).txAborts) && !e.m.exclusiveBusy e.asid) = true
    ∧ within (consigned (aborts 8) [⟨9, 0, 0, 0xFFFF, [], [], true, false, true⟩]) (.txbeg plain) c0 (fun e => e.act == [0] && e.m.exclusiveBusy e.asid) = true
    ∧ begun (consigned rig [consign false]) (.txend ⟨c0, some 0⟩) c0 (fun e => e.act == [0] && (e.m.openConsign e.iss.gid e.iss.wave 0).isSome) = true
    ∧ begun rig (.txend ⟨c0, some 3⟩) c0 (fun e => e.act == [0] && (e.m.openConsign e.iss.gid e.iss.wave 0).isNone) = true
    ∧ begun (consigned rig [consign true]) (.txabt (imm 9)) c0 (fun e => active e && (e.m.openConsign e.iss.gid e.iss.wave 0).isSome) = true
    ∧ begun rig (.txabt (imm 9)) c0 (fun e => active e && (e.m.openConsign e.iss.gid e.iss.wave 0).isNone) = true := by decide
/-- A commit of two bytes of a cached sector, and a thread that waits to go alone. -/
theorem meets_Consignments_commit : (let d := consign false
      d.sectors == [(0xA00, false)] && decide ((d.buffer.map (·.1)).Nodup) && d.buffer.all (fun p => p.1 / 32 == 0xA00) && decide (d.buffer.length < 32)
      && (mget (cached.core 127).l1 (lineKey 0xFFFF (32 * 0xA00))).isNone && (mget cached.llc (secKey 0xFFFF (32 * 0xA00))).isSome
      && (cached.frame 0xFFFF (32 * 0xA00 / 128 * 128)).isNone && match (cached.translate 0xFFFF 0x14000).1.cachedTrans 0xFFFF (32 * 0xA00) with
        | some y => y.cls == 0 && decide (y.pa (32 * 0xA00) < gddrTop)
        | none => false) = true
    ∧ waveOk (rigWave fun u => u.updLane 0 fun t => { t with wait := .exclusive }) (fun _ u => (u.lane 0).wait == .exclusive
      && ([⟨1, 0, 0, 0xFFFF, c0⟩] : List ExclReq).find? (fun q => q.asid == 0xFFFF) == some ⟨1, 0, 0, 0xFFFF, c0⟩) = true := by decide

def chks (e : Env) (bs : List BankBase) : Checked := e.judge (fun _ => false) (bs.map e.bankChk)
def bankOk (s : State) (i : Instr) (x : AsyncOp) (bases : Env → List BankBase) (p : Env → Bool) : Bool :=
  within s i x.ctl fun e => active e && isOk (chks e (bases e)) && (e.gateOf x).isSome && p e
def atW (s : State) (ps : List (Nat × Word)) : State := { s with mach := s.mach.updWave 1 0 (withW ps) }
def mredX : AsyncOp := { async with size := .b32, a := w 4, b := .reg (v 4), compl := w 9 }
def listX : AsyncOp := { async with size := .b8, a := w 4, b := .reg (w 6), e := w 10, f := w 12, imm8b := 2, compl := w 9 }
theorem meets_BankCommands : bankOk (atW (writable 2) [(4, 0x14000)]) (.mred { mredX with e := v 0 }) { mredX with e := v 0 }
      (fun e => e.act.map fun l => ⟨l, (e.getPair l (w 4)).toNat, .store, 4, 2⟩) (fun e => !e.w.toks.contains 9) = true
    ∧ bankOk (atW (writable 2) [(4, 0x14000)]) (.mcas { mredX with d := v 8, e := v 6 }) { mredX with d := v 8, e := v 6 }
      (fun e => e.act.map fun l => ⟨l, (e.getPair l (w 4)).toNat, .store, 4, 2⟩) (fun e => !e.w.toks.contains 9) = true
    ∧ within (atW rig [(4, 0x14000)]) (.mred { mredX with e := v 0 }) c0 (fun e => active e
      && isTrap (chks e (e.act.map fun l => ⟨l, (e.getPair l (w 4)).toNat, .store, 4, 2⟩))) = true
    ∧ within (atW rig [(4, 0x20000)]) (.mred { mredX with e := v 0 }) c0 (fun e => active e
      && isWalk (chks e (e.act.map fun l => ⟨l, (e.getPair l (w 4)).toNat, .store, 4, 2⟩))) = true
    ∧ within { atW (writable 2) [(4, 0x14000)] with mach := (atW (writable 2) [(4, 0x14000)]).mach.updWave 1 0 fun u => { u with toks := [9], pend := [.w 9] } }
      (.mred { mredX with e := v 0, compl := w 8 }) c0 (fun e => active e && e.w.toks.contains 9) = true := by decide
def withTlb (t : TlbEntry) (s : State) : State := { s with mach := s.mach.updCore 127 fun k => { k with tlb := k.tlb ++ [t] } }
/-- MSAC and the lists at the ends of the range of counts. -/
theorem meets_BankCommands_counts : ([(0 : Word), 1, 0x1000000, 0x1000001].all fun n =>
      let s := atW (writable 2) [(4, 0x14000), (10, 0x14100), (12, n)]
      within s (.msac { listX with imm8b := 0, b := .reg (w 6) }) c0 (fun e => active e && (e.get e.first (w 12)) == n
        && isOk (chks e [⟨e.first, (e.getPair e.first (w 4)).toNat, .store, 4, 2⟩, ⟨e.first, (e.getPair e.first (w 10)).toNat, .load, 4, 2⟩]))) = true
    ∧ (let s := withTlb ⟨0xFFFF, 0x15, 0, 0, 0x1F, 0, true, false, true, true⟩ (atW (writable 2) [(4, 0x14000), (6, 0x15000), (10, 0x14100), (12, 1)])
      [true, false].all fun gather => within s (if gather then .gathm listX else .scatm listX) c0 (fun e => active e
        && isOk (chks e [⟨e.first, (e.getPair e.first (w 4)).toNat, if gather then .load else .store, 4, 2⟩,
          ⟨e.first, (e.getSrc e.first (.reg (w 6)) 2).toNat, if gather then .store else .load, 4, 0⟩, ⟨e.first, (e.getPair e.first (w 10)).toNat, .load, 4, 2⟩]))) = true := by
  decide
/-- A translation cached at every controller. -/
def everywhere (t : TransEntry) : Map (List TransEntry) := (List.range 32).map fun n => (n, [t])
def bankLeaf : TransEntry := ⟨0xFFFF, 0x14, 0, BitVec.ofNat 64 (probeCode + 0x79 + 2 * 2 ^ 9)⟩
/-- A bank's word, translated, with every right. -/
theorem meets_BankCompletion : (let m := { rig.mach with trans := everywhere bankLeaf, banks := [⟨3, 1, 0, .mred .add false false [(0, 0x14000, 5)], 9, none, false⟩] }
      (m.banks.find? fun b => b.id == 3).any (fun b => m.bankArrived b) && m.solvent 0 && (m.cachedTrans 0xFFFF 0x14000).isSome && m.remap.isEmpty && m.rel.allOk && m.rel.flips.isEmpty && m.consigns.isEmpty
      && bankLeaf.cls == 2 && ([3, 4, 5, 6].all fun k => pteBit bankLeaf.leaf.toNat k) && covers bankLeaf.vpn bankLeaf.size 0x14000
      && match m.group 1 with
        | some g => (g.wave 0).any (fun u => !u.live.isEmpty) && (m.bankRun g (.mred .add false false [(0, 0x14000, 5)])).isSome
        | none => false) = true := by decide
def cpyX (spec : BitVec 8) : AsyncOp := { async with size := .b8, a := w 4, b := .reg (w 6), e := w 10, compl := w 9, spec := spec.setWidth _ }
/-- A CPY with source, destination and count. -/
def copy (spec : BitVec 8) (s : State) (src dst n : Word) (p : Env → Bool) : Bool :=
  within (atW s [(4, src), (6, dst), (10, n)]) (.cpy (cpyX spec)) c0 fun e =>
    let x := cpyX spec
    active e && (if x.spec.getLsbD 0 then (e.get e.first x.a) == src else (e.getPair e.first x.a).toNat == src.toNat)
      && (if x.spec.getLsbD 1 then (e.getSrc32 e.first x.b) == dst else (e.getSrc e.first x.b 2).toNat == dst.toNat) && e.get e.first x.e == n && p e
theorem meets_PorterIssue : copy 0 rig 0x14008 0x15000 16 (fun _ => true) = true ∧ copy 0 rig 0x14000 0x15008 16 (fun _ => true) = true
    ∧ copy 3 rig 0 0x4000 8 (fun _ => true) = true ∧ copy 0 rig 0x14000 0x15000 0x1000010 (fun e => !e.m.flushHeld e.core e.asid) = true
    ∧ copy 1 rig 0x7FF0 0x15000 32 (fun e => decide (e.g.grant < 0x7FF0 + 32)) = true ∧ copy 2 rig 0x14000 0x7FF0 32 (fun e => decide (e.g.grant < 0x7FF0 + 32)) = true
    ∧ copy 0 lockedL1 0x14000 0x15000 16 (fun e => e.m.flushHeld e.core e.asid) = true
    ∧ copy 3 rig 0 0x4000 48 (fun e => !e.w.toks.contains 9 && e.m.quotaOk e.asid (544 + e.core) 1 && e.m.spills e.asid (544 + e.core) 1 == 0
      && decide (0x4000 + 48 ≤ e.g.grant)) = true
    ∧ copy 3 rig 0 0x4000 0 (fun e => !e.w.toks.contains 9) = true
    ∧ copy 3 { rig with mach := rig.mach.updWave 1 0 fun u => { u with toks := [8] } } 0 0 16 (fun e => e.w.toks.contains 8) = true := by decide
/-- Completion and gate in a barrier word. -/
theorem meets_PorterIssue_word : within (atW barWord [(6, 0x4000), (10, 64)]) (.cpy { cpyX 3 with cmode := true, compl := w 20, d := w 9, gate := true, f := w 21 }) c0
      (fun e =>
        let x := { cpyX 3 with cmode := true, compl := w 20, d := w 9, gate := true, f := w 21 }
        active e && e.complOf x == some (.bar 0 9) && (e.gateOf x).isSome && (e.m.tbStep e.iss.gid 0 0 2 0).isSome) = true
    ∧ within (atW rig [(6, 0x4000), (10, 64)]) (.cpy { cpyX 3 with cmode := true, compl := w 20, d := w 9 }) c0
      (fun e => active e && e.complOf { cpyX 3 with cmode := true, compl := w 20, d := w 9 } == none) = true := by decide
/-- A layout of 16 bytes in the code page: rank 0, format 0. -/
def tlrBytes : List Byte := leBytes 8 0x14200 ++ leBytes 8 0 ++ leBytes 4 0 ++ (List.replicate 5 (leBytes 4 1)).flatten ++ List.replicate 32 0
  ++ leBytes 2 16 ++ (List.replicate 4 (leBytes 2 1)).flatten ++ List.replicate 46 0
def layout : State := { rig with mach := { rig.mach with mem := putBytes rig.mach.mem 0x14100 tlrBytes, ctxs := [(15, { probeCtx with pinmax := 1 })] } }
def tlr1 : Tlr := ⟨0x14200, 0, 0, 0, 0, [1, 1, 1, 1, 1], [0, 0, 0, 0], [16, 1, 1, 1, 1]⟩
theorem meets_PorterIssue_layout : Tlr.ofBytes tlrBytes = some tlr1
    ∧ within (atW layout [(4, 0x14100)]) (.tlrreg ⟨c0, w 4, n8 255⟩) c0 (fun e => active e
      && match e.checkAll e.m .load 0 128 true [(e.first, (e.getPair e.first (w 4)).toNat)] with
        | .ok cls _ => (match e.readRun (e.m.usedWalks e.core e.asid) 0x14100 128 ((cls.lookup e.first).getD 0), e.m.ctxOf e.asid with
          | .ok m vals _, some c => Tlr.ofBytes (vals.flatMap (·.2)) == some tlr1 && (mget c.tlrs 255).isNone && (m.remoteAt e.asid 0x14200).isNone
            && match m.pinAll e.asid e.g.system c tlr1 with | .inl n => n == 1 | .inr _ => false
          | _, _ => false)
        | _ => false) = true
    ∧ (let s := { layout with mach := { layout.mach with ctxs := [(15, { probeCtx with tlrs := [(7, tlr1)] })] } }
      within s (.tcpy { async with size := .b8, a := w 4, b := .reg (v 0), e := w 10, imm8b := 7, compl := w 9 }) c0 (fun e => active e
        && !e.m.flushHeld e.core e.asid && match e.m.ctxOf e.asid with
          | some c => mget c.tlrs 7 == some tlr1 && (mget c.tlrs 8).isNone && decide (10 + tlr1.rank + 1 ≤ 128) && decide (tlr1.boxBytes false ≤ e.g.grant)
            && decide (e.g.grant < 32767 + tlr1.boxBytes false)
          | none => false)
      && within s (.tlrdel ⟨c0, n8 7⟩) c0 (fun e => active e && e.m.rings.isEmpty && e.m.cores.all fun p => p.2.porterQ.isEmpty)
      && within s (.tlrdel ⟨c0, .imm .s8 255⟩) c0 active
      && within (rigCore fun k => { k with porterQ := [⟨1, 1, 0, 0xFFFF, .tcpy false false 0 7 tlr1 [0], 0, none, none, false, none, .token 9, none, ⟨0, 0, 0, 0, 0⟩, 0, none, false, false, false, false, []⟩] })
        (.tlrdel ⟨c0, n8 7⟩) c0 (fun e => active e && (e.m.core e.core).porterQ.any fun c => c.names e.asid 7)) = true := by decide
def porter1 : PorterCmd := ⟨1, 1, 0, 0xFFFF, .cpy true true 0 0x4000 48, 0, none, none, false, none, .token 9, none, ⟨0, 0, 0, 0, 0⟩, 0, none, false, false, false, false, []⟩
/-- The first sector and the last, short one of a copy within scratchpad, its end, and a gate. -/
theorem meets_PorterProgress : (let s := rigCore fun k => { k with porterQ := [porter1, { porter1 with next := 1 }, { porter1 with next := 2 }] }
      porter1.sectors == 2 && startable (s.mach.core 127).porterQ 0 && s.mach.replies.isEmpty && s.mach.canPay 0 3 && { porter1 with next := 2 }.over'
      && match s.mach.group 1 with
        | some g => decide (g.units.Nodup) && decide (0x4000 + 48 ≤ g.grant) && !g.clobbers 0x4000 (porter1.len 0) && !g.clobbers 0x4020 (porter1.len 1)
          && porter1.len 1 == 16 && g.task.allot == 0 && (g.wave 0).any fun u => !u.live.isEmpty
        | none => false) = true
    ∧ barWord.mach.gateOpen 1 (some ⟨0, true, false, false⟩) = true ∧ barWord.mach.gateOpen 1 (some ⟨0, false, false, false⟩) = false
    ∧ barWord.mach.gateOpen 1 (some ⟨0, false, true, false⟩) = true := by decide

def mxX : AsyncOp := { async with size := .b8, a := w 4, b := .reg (w 6), e := w 10, compl := v 0, imm8b := 2 }
/-- A matrix command with its descriptor in W6, A in W4 and E in W10. -/
def matrix (s : State) (i : Instr) (op : MxOp) (a en pb nb kb : Bool) (va desc en0 : Word) (p : Env → MxCmd → Bool → Bool) : Bool :=
  within (atW s [(4, va), (6, desc), (10, en0)]) i c0 fun e =>
    let c := e.mxCmd mxX op a en (e.getSrc32 e.first mxX.b).toNat
    let span := swzSpan c.swz
    active e && (e.getSrc32 e.first mxX.b) == desc && p e c (descOk desc.toNat pb nb kb && c.pitch % 16 == 0
      && (span == 0 || c.pitch % span == 0 && c.a % span == 0) && c.regionOk)
def fits (e : Env) (c : MxCmd) : Bool := (c.reads ++ c.writes).all fun r => decide (r.1 + r.2 ≤ e.g.grant)
def mxMulDesc : Word := BitVec.ofNat 32 (16 + 32 * 2 ^ 16 + 8 * 2 ^ 22)
theorem meets_MatrixIssue : matrix rig (.mxmul mxX) (.mul false) true true true true true 0 mxMulDesc 0 (fun e c ok => ok && c.a % 16 == 0 && fits e c && (e.gateOf mxX).isSome
      && e.m.quotaOk e.asid (416 + e.core) 1 && e.m.spills e.asid (416 + e.core) 1 == 0) = true
    ∧ matrix rig (.mxmul mxX) (.mul false) true true true true true 8 mxMulDesc 0 (fun _ c ok => ok && c.a % 16 != 0) = true
    ∧ matrix rig (.mxmul mxX) (.mul false) true true true true true 0x7FF0 mxMulDesc 0 (fun e c ok => ok && c.a % 16 == 0 && !fits e c) = true
    ∧ matrix rig (.mxmul mxX) (.mul false) true true true true true 0 0x210000 0 (fun _ _ ok => !ok) = true
    ∧ matrix rig (.mxlds { mxX with e := v 0, imm8b := 0 }) (.lds false) true false true false false 0 16 0 (fun e c ok => ok && fits e c) = true
    ∧ matrix rig (.mxrd mxX) (.rd false) true true true true false 0 (BitVec.ofNat 32 (16 + 4 * 2 ^ 16)) 0 (fun e c ok => ok && fits e c) = true
    ∧ matrix rig (.mxlda mxX) (.lda false) true true true true false 0 (BitVec.ofNat 32 (16 + 4 * 2 ^ 16)) 65500 (fun e c ok => ok && fits e c) = true
    ∧ matrix rig (.mxzero { mxX with a := v 0 }) .zero false true false true false 0 (BitVec.ofNat 32 (32 * 2 ^ 16)) 0 (fun e c ok => ok && fits e c) = true
    ∧ within rig (.mxswp plain) c0 (fun e => active e && e.m.quotaOk e.asid (416 + e.core) 1) = true
    ∧ within rig (.mxtok ⟨c0, w 7⟩) c0 (fun e => active e && !e.w.toks.contains 7) = true ∧ within rig (.opfence plain) c0 active = true := by decide
def mxc (op : MxOp) : MxCmd := ⟨1, 1, 0, op, 0, 16, 32, 8, 0, 2, 0, none, some 7, none, ⟨0, 0, 0, 0, 0⟩, 0, 0, false, false, false⟩
theorem meets_MatrixExecution : ([MxOp.swp, .tok, .zero, .mul true, .mul false, .lds true, .rd true, .lda false].all fun op =>
      let s := rigCore fun k => { k with mxQ := [mxc op] }
      (s.mach.core 127).mxQ == [mxc op] && (mxc op).gate.isNone && (mxc op).n ≤ 32 && (mxc op).raced == false && 0 < (mxc op).k
        && (match s.mach.group 1 with | some g => (g.wave 0).any fun u => !u.live.isEmpty | none => false)
        && match exec (.matrixCommandExecute 127) s with | .next t => (t.mach.core 127).mxQ.isEmpty | _ => false) = true := by decide
def rayX : AsyncOp := { async with d := v 12, a := v 0, b := n8 1, e := w 2, compl := v 0 }
def beamX : AsyncOp := { async with a := w 4, b := .reg (v 0), compl := w 9 }
theorem meets_RayQueries : begun rig (.rayq rayX) c0 (fun _ => true) = true ∧ within rig (.rayq rayX) c0 (fun e => active e && e.m.quotaOk e.asid (672 + e.core) 1
      && e.m.spills e.asid (672 + e.core) 1 == 0) = true
    ∧ within (atW rig [(4, 64)]) (.beamq beamX) c0 (fun e => active e && (e.get e.first beamX.a).toNat % 128 != 0) = true
    ∧ within (atW rig [(4, 0x8000)]) (.beamq beamX) c0 (fun e => active e && decide (e.g.grant < (e.get e.first beamX.a).toNat + 128)) = true
    ∧ within (atW rig [(4, 0x7F80)]) (.beamq beamX) c0 (fun e => active e && decide ((e.get e.first beamX.a).toNat + 128 ≤ e.g.grant) && e.g.task.flvl == 0
      && (e.gateOf beamX).isSome && !e.w.toks.contains 9 && e.m.quotaOk e.asid (672 + e.core) 1 && e.m.quotaOk e.asid (e.core / 4) 1
      && !e.m.flushHeld e.core e.asid && e.m.spills e.asid (672 + e.core) 1 == 0) = true
    ∧ within (rigGroup fun g => { g with task := { g.task with flvl := 1 } }) (.beamq beamX) c0 (fun e => active e && e.g.task.flvl != 0) = true
    ∧ within lockedL1 (.beamq beamX) c0 (fun e => active e && e.m.flushHeld e.core e.asid) = true := by decide
def ray1 : RayState := ⟨0, [0, 0, 0], [0, 0, 0x3F800000], 0, 0x3F800000, 0, 0, [], none, false, 0, true⟩
def beam1 : BeamState := ⟨0, none, [], 0, 0, false, false, none, [], none, 9, 2 ^ 47, 0, false⟩
/-- Rays that have ended, a record of zeros, and a beam with nothing left to visit. -/
theorem meets_RayQueries_engine : (let s := rigCore fun k => { k with rayQ := [⟨1, 1, 0, .rays 12 [ray1], none, false, false⟩] }
      (s.mach.rayHead 127).any fun c => c.op == .rays 12 [ray1] && ray1.done && (s.mach.group c.gid).isSome
        && (s.mach.wave c.gid c.wave).any fun u => !u.live.isEmpty) = true
    ∧ (let s := rigCore fun k => { k with spad := [(12, 2)], rayQ := [⟨1, 1, 0, .beam beam1, none, false, false⟩] }
      (s.mach.rayHead 127).any fun c => c.op == .beam beam1 && !beam1.raced && match s.mach.group c.gid with
        | some g => let q := BeamRec.ofBytes (s.mach.spadRead g 0 128); beam1.beam.isNone && (q.bad || !q.coneOk)
        | none => false) = true
    ∧ (let b := { beam1 with beam := some (BeamRec.ofBytes (List.replicate 128 0)) }
      let s := rigCore fun k => { k with rayQ := [⟨1, 1, 0, .beam b, none, true, false⟩] }
      (s.mach.rayHead 127).any fun c => c.op == .beam b && match s.mach.group c.gid with
        | some g => (match Mach.beamRun 127 (.ray 127 c.id 64) g (BeamRec.ofBytes (List.replicate 128 0)) rayFuel s.mach b with
          | .done m _ => (m.wave c.gid c.wave).any fun u => !u.live.isEmpty
          | _ => false)
        | none => false) = true := by decide

def smpX : AsyncOp := { async with d := v 12, a := v 4, b := .reg (w 6), e := w 10, f := v 8, imm8b := 0, compl := v 0 }
/-- An image of one texel, and a reserved code in its descriptor. -/
def imaged (code : Byte) : State :=
  let s := atW rig [(6, 0x14100), (10, 0x14140)]
  { s with mach := { s.mach with mem := putBytes s.mach.mem 0x14100 (leBytes 8 0x14200 ++ [0, 0, 0, 0, 0, 0, code]) } }
def texOk (s : State) (i : Instr) (x : AsyncOp) (useE : Bool) (p : Env → List Nat → Mach → Img → Smp → Bool) : Bool :=
  within s i x.ctl fun e =>
    let ls := if i == .ist x then e.act else e.all
    !ls.isEmpty && match e.texBytes e.m 32 (ls.map fun l => (l, [(e.getSrc (ls.headD 0) x.b 2).toNat])) with
    | .ok m1 v1 [] => (match texFirst v1 with
      | some ib => (match Img.ofBytes ib with
        | some img => (img.dim == 0 || decide (x.a.idx.toNat + 3 ≤ e.w.base + e.w.ext)) && (if useE then
            (match e.texBytes m1 16 (ls.map fun l => (l, [(e.getPair (ls.headD 0) x.e).toNat])) with
            | .ok m v2 [] => (match texFirst v2 with
              | some sb => (match Smp.ofBytes sb with
                | some smp => p e ls m img smp
                | none => false)
              | none => false)
            | _ => false)
          else p e ls m1 img ⟨false, 0, 0, 0, 0, false, false, 0, 0, 0⟩)
        | none => false)
      | none => false)
    | _ => false
def tapOk (plan : Env → Img → Smp → Nat → Option (List Tap)) (e : Env) (ls : List Nat) (m : Mach) (img : Img) (smp : Smp) : Bool :=
  ls.all (fun l => (plan e img smp l).isSome)
    && match e.texBytes m img.tb (ls.map fun l => (l, tapVas ((plan e img smp l).getD []))) with | .ok _ _ [] => true | _ => false
theorem meets_SamplerInstructions : texOk (imaged 0) (.smpl smpX) smpX true
      (tapOk fun e img smp l => img.taps smp (some (e.get l smpX.f).toNat) (e.coords smpX l)) = true
    ∧ texOk (imaged 0) (.smpg smpX) smpX true (tapOk fun e img smp l =>
      img.taps smp (log2Rho img ((List.range 4).map fun k => (e.w.getI e.clk l smpX.f k).toNat)) (e.coords smpX l)) = true
    ∧ texOk (imaged 0) (.smp { smpX with f := v 0 }) { smpX with f := v 0 } true (tapOk fun e img smp l => img.taps smp (log2Rho img [0, 0, 0, 0]) (e.coords smpX l)) = true := by
  decide
theorem meets_SamplerInstructions_texel : texOk (imaged 0) (.gth4 { smpX with imm8b := 3 }) { smpX with imm8b := 3 } true (fun e _ _ img smp =>
      (gatherLevel img (e.get 0 smpX.f).toNat).isSome && (linearAt ((e.coords smpX 0).getD 0 0) (img.wl 0)).isSome) = true
    ∧ texOk (imaged 0) (.tld { smpX with e := v 0 }) { smpX with e := v 0 } false
      (tapOk fun _ img _ _ => some [⟨0, .at' (img.texel 0 0 0 0)⟩]) = true
    ∧ texOk { imaged 0 with mach := (imaged 0).mach.updCore 127 fun k => { k with tlb := k.tlb.map fun t => { t with w := true } } }
      (.ist { smpX with e := v 0, compl := v 0 }) { smpX with e := v 0, compl := v 0 } false (fun e ls m img _ =>
      let rq := ls.map fun l => (l, img.texel 0 0 0 0)
      match e.checkAll m .store 0 img.tb true rq with | .ok cls [] => !e.storeHeld cls rq img.tb (fun l => img.store ((List.range 4).map fun k => (e.w.getI e.clk l smpX.d k).toNat)) | _ => false) = true
    ∧ begun (imaged 0x70) (.tld { smpX with e := v 0 }) c0 (fun e => !e.all.isEmpty
      && match e.texBytes e.m 32 ((e.ordered e.all).map fun l => (l, [(e.getSrc ((e.ordered e.all).headD 0) smpX.b 2).toNat])) with
        | .ok _ v1 [] => (texFirst v1).any fun ib => (Img.ofBytes ib).isNone
        | _ => false) = true := by decide

/-- A fill of a granule of 64 bytes in the code page's place. -/
def way (ws : List (Nat × Nat)) : Waystation := ⟨0xFFFF, 0, 0, .running, false, 0, 1, ws, [(3, 9)], some 1, 127, 0x14000, 6⟩
def filling : State :=
  let s := at8 (writable 1) 0x14000
  let m := s.mach.updGroup 1 fun g => { g with task := { g.task with flvl := 1 }, fillWs := some 5 }
  { s with mach := { m with ways := [(5, way [])] } }
theorem meets_GroveInstructions : within filling (.fst mst) c0 (fun e => active e && isOk (e.judge (fun _ => false) (e.act.map fun l => (l, e.fstChk (e.addr mst l) 4)))
      && e.g.fillWs == some 5 && mget e.m.ways 5 == some (way [])) = true
    ∧ within (at8 filling 0x14040) (.fst mst) c0 (fun e => active e && isTrap (e.judge (fun _ => false) (e.act.map fun l => (l, e.fstChk (e.addr mst l) 4)))) = true
    ∧ within (at8 filling 0x20000) (.fst mst) c0 (fun e => active e && isWalk (e.judge (fun _ => false) (e.act.map fun l => (l, e.fstChk (e.addr mst l) 4)))) = true
    ∧ within filling (.fillc plain) c0 (fun e => active e && e.g.task.flvl != 0 && !e.g.decided) = true
    ∧ within filling (.fillx (imm 5)) c0 (fun e => active e && e.g.task.flvl != 0 && !e.g.decided && (mget e.m.ways 5).any fun x => x.waiters.isEmpty) = true
    ∧ within rig (.fillc plain) c0 (fun e => active e && e.g.task.flvl == 0) = true
    ∧ within { filling with mach := filling.mach.updGroup 1 fun g => { g with decided := true } } (.fillx (imm 0xEF)) c0 (fun e => active e && e.g.decided) = true := by
  decide
/-- A grove of 64 KiB at 0x20000 in granules of 64 bytes, filled at level 1 by a program at 0x14000. -/
def groveBytes1 : List Byte := leBytes 8 0x20000 ++ leBytes 8 0x14000 ++ List.replicate 8 0 ++ leBytes 4 (2 ^ 31 + 2 ^ 14 + 16) ++ List.replicate 36 0
def groved (flvl : Nat) : Mach := { rig.mach with
  ctxs := [(15, { probeCtx with groveCount := 1 })], trans := everywhere ⟨0xFFFF, 0x20, 0, 0x261⟩
  groveCache := [(0xFFFF * 1024, groveBytes1.set 25 (BitVec.ofNat 8 (64 * flvl)))] }
def grove1 : Grove := Grove.ofBytes groveBytes1
theorem meets_GroveInstructions_inv : within (atW rig [(2, 0x14000)]) (.grvinv ⟨c0, false, w 2, n8 12⟩) c0 (fun e => active e && (e.m.groveAt e.asid 0x14000).2.isNone) = true
    ∧ within { atW rig [(2, 0x20FFF)] with mach := (groved 1).updWave 1 0 (withW [(2, 0x20FFF)]) } (.grvinv ⟨c0, false, w 2, n8 6⟩) c0 (fun e => active e
      && match e.m.groveAt e.asid 0x20FFF with
        | (m, some (k, g)) => k == 0 && g.lg == 6 && g.size == 16 && !m.flushHeld e.core e.asid
        | _ => false) = true
    ∧ ([(.all, v 0), (.asid, v 0), (.page, w 2)] : List (InvScope × Opnd)).all (fun p => within (rigGroup fun g => { g with system := true })
      (.atlbinv ⟨c0, p.1, p.2, if p.1 == .all then v 0 else w 4⟩) c0 active) = true := by decide
def tran1 : TransEntry := ⟨0xFFFF, 0x14, 0, BitVec.ofNat 64 (probeCode + 0x79)⟩
/-- The page cached by the controllers, so that a line of it can come in. -/
def missing : Mach := { rig.mach with trans := everywhere tran1, prefetch := [(0xFFFF, 0x14000, 0)] }
theorem meets_MissEvents : (missing.prefetch.find? fun p => p.1 == 0xFFFF && p.2.1 == 0x14000).isSome = true
    ∧ (let m := missing
      m.solvent 0 && (mget m.llc (secKey 0xFFFF 0x14000)).isNone && (mget m.llc (secKey 0xFFFF 0x14020)).isNone && m.remap.isEmpty && m.rel.allOk
        && m.rel.flips.isEmpty && tran1.cls == 0 && decide (tran1.pa 0x14000 < gddrTop) && m.cachedTrans 0xFFFF 0x14000 == some tran1
        && decide ((m.llcMates (lineKey 0xFFFF 0x14000)).length < 16)) = true := by decide
def req (st : ReqStage) (level : Nat) : GroveReq := ⟨4, .entry 1 0 [(0, 0x20040)] [], 0xFFFF, 0x20040, 0, 0, level, st⟩
/-- Missed, found in the Victim Store, and probing: a malformed entry, a level not below, a waystation, a full slice, too deep a level, a new fill. -/
theorem meets_MissEvents_probe : ((groved 1).groveAt 0xFFFF 0x20040).2.isSome = true ∧ (rig.mach.groveAt 0xFFFF 0x20040).2.isNone = true
    ∧ grove1.malformed = false ∧ { grove1 with size := 15 }.malformed = true ∧ grove1.flvl = 1 ∧ (groved 1).findWay 0xFFFF 0 1 = none
    ∧ ({ groved 1 with ways := [(0, { way [] with granule := 1 })] }.findWay 0xFFFF 0 1).isSome = true
    ∧ { groved 1 with ways := [(0, { way [] with granule := 1 })] }.waitersOf 0 ≤ waitersMax 1
    ∧ ((groved 3).groveAt 0xFFFF 0x20040).2.any (fun p => p.2.flvl == 3 && !p.2.malformed) = true ∧ (groved 3).ctxOf 0xFFFF = some { probeCtx with groveCount := 1 }
    ∧ ((groved 1).waysOf (homeSlice 0xFFFF 0x20040)).length ≤ waysMax 1 ∧ (groved 1).waitersOf (homeSlice 0xFFFF 0x20040) ≤ waitersMax 1 := by decide
theorem meets_MissEvents_answers : (let m := { rig.mach with victim := [(lineKey 0xFFFF 0x20040, 3)], reqs := [req .probing 0] }
      (m.victim.lookup (lineKey 0xFFFF (0x20040 / 64 * 64))).isSome && decide ((m.llcMates (lineKey 0xFFFF 0x20040)).length < 16) && m.reqs.find? (fun q => q.id == 4) == some (req .probing 0)) = true
    ∧ waveOk { rig with mach := { rig.mach with clk := 256, reqs := [req (.refused 256) 0] } } (fun _ _ => (req (.refused 256) 0).stage == .refused 256) = true
    ∧ (let w := { way [] with state := .commit }
      w.stale == false && w.waiters.isEmpty && decide (w.va + 2 ^ w.lg ≤ 2 ^ 48) && w.filler == some 1) = true
    ∧ waveOk (rigWave fun u => u.updLane 0 fun t => { t with wait := .fillc }) (fun _ u => u.live.contains 0 && (u.lane 0).wait == .fillc) = true := by decide

def entry1 : SpawnEntry := ⟨0xFFFF, { probeTask with link := 2 ^ 47 }, 0, 7, some (2, 1, 1, 0), none, 1, false⟩
def fill1 : FillEntry := ⟨0xFFFF, { probeTask with flvl := 1, fill := true, base := 0, spad := 0, bars := 0 }, 5, 1⟩
theorem meets_PlacementEvents : (let m := { rig.mach with spawnQ := [(31, [entry1])] }
      headSpawn (mgetD m.spawnQ 31 []) == some entry1 && entry1.task.parts == 1 && (m.hubChoice 31 entry1).any (fun cs => cs.length == 1)
      && m.framesFor 0xFFFF 1 && entry1.advance.isSome && { entry1 with grid := none }.advance.isNone) = true
    ∧ (let m := { rig.mach with fillQ := [(3 * 127, [fill1])], ways := [(5, way [])] }
      headFill (mgetD m.fillQ (3 * 127 + (1 - 1)) []) == some fill1 && (m.fitsFill 127 0xFFFF fill1.task).isSome && (mget m.ways fill1.ws).isSome
      && (m.openFrame 0xFFFF 0 0 true).isSome) = true
    ∧ (match theGroup (rigWave fun u => { u.updLane 0 fun t => { t with st := .exited } with ended := true }) with
      | some (g, _) => g.over && g.frames.all (fun h => rig.mach.countOf g.asid h == 0) && !rig.mach.flushHeld g.core g.asid && g.task.succ == 0
        && g.queue.isNone && g.fillWs.isNone
      | none => false) = true := by decide
/-- A parked group at depth 0 and one at depth 1, and a ring with an entry and room before it. -/
def parkedAt (s : State) : State :=
  { s with mach := (s.mach.updGroup 1 fun g => { g with parked := true }).updWave 1 0 fun u => u.updLane 0 fun t => { t with wait := .await } }
def ring1 : Ring := ⟨0x14200, 12, 64, 0, 64, 64, [.porter porter1]⟩
def resumable (s : State) (d : Nat) : Bool := match s.mach.group 1 with
  | some g => g.gid == 1 && g.meeting == some d && g.parked && s.mach.countOf g.asid (g.frames.getD d 0) == 0
    && (s.mach.resumeCore g (((s.mach.frame g.asid (g.frames.getD d 0)).map (·.last)).getD g.core)).isSome
    && s.mach.movable g && !s.mach.flushHeld g.core g.asid
  | none => false
theorem meets_PlacementEvents_more : resumable (parkedAt rig) 0 = true ∧ resumable (parkedAt nested) 1 = true
    ∧ (let m := { rig.mach with rings := [(ringKey 0xFFFF 671, ring1)] }
      m.ring 0xFFFF 671 == some ring1 && decide (m.queueLen 671 < queueDepth 671)
      && match m.agentReadRun 0xFFFF true 0 (ring1.base.toNat + ring1.head) (entryBytes 671) with | .ok _ _ => true | _ => false) = true := by decide

/-- The queue of the probe's context, its ring in the code page, with the packet at hand. -/
def queue1 : Queue := { slot := 15, ring := 0x14400, logN := 4, widx := 0x14300, ridx := 0x14308, err := 0x14310, seen := 1, index := 0, stopped := false
                        stage := .idle, entry := 0, status := 0, pw := [], pcc := [], run := 0, outstanding := 0, again := false, wait := none, window := [] }
def packeted (q : Queue) (bs : List Byte) : State :=
  let s := writable 0
  { s with mach := { s.mach with
      mem := putBytes s.mach.mem 0x14400 bs, queues := [(0, q)], trans := everywhere tran1 } }
def packetOk (bs : List Byte) (p : Mach → Packet → Bool) : Bool := match (packeted queue1 bs).packet 0 with
  | some (m, _, _, k) => p m k
  | none => false
theorem meets_PacketEvents : packetOk [0] (fun _ p => p.ok && p.ty == 0) = true ∧ packetOk [8] (fun _ p => p.ty == 8) = true ∧ packetOk [0, 1] (fun _ p => !p.ok) = true
    ∧ packetOk ([2, 1, 0, 0, 0, 0, 0, 0] ++ leBytes 8 0x14800) (fun m p => p.ok && !m.lockedRange 0xFFFF 0x14800 8 && (m.feWrite 0xFFFF 0x14800 (List.replicate 8 0)).isSome) = true
    ∧ packetOk ([2, 5, 0, 0, 0, 0, 0, 0] ++ leBytes 8 0x30000) (fun m p => p.ok && (m.feWrite 0xFFFF 0x30000 (List.replicate 40 0)).isNone) = true
    ∧ packetOk ([6, 0x1E]) (fun _ p => p.ok && p.ty == 6) = true
    ∧ packetOk ([7, 1, 0, 0, 0, 0, 0, 0] ++ leBytes 8 0x14000) (fun m p => p.ok && p.ty == 7 && (m.groveAt 0xFFFF 0x14000).2.isNone) = true := by decide
def readOk (x : Fe) : Bool := match x with | .ok .. => true | _ => false
theorem meets_PacketEvents_reads : packetOk ([3, 0x11, 2, 0, 0, 0, 0, 0] ++ leBytes 8 0x14800) (fun m p => p.ok && p.ty == 3 && readOk (m.feRead 0 0xFFFF 0 0x14800 8)) = true
    ∧ packetOk ([4, 3, 0, 0, 0, 0, 0, 0] ++ leBytes 8 0x14800) (fun m p => p.ok && p.ty == 4 && readOk (m.feRead 0 0xFFFF 0 0x14800 8)) = true
    ∧ packetOk ([5, 0x21, 0, 0, 0, 0, 0, 0] ++ leBytes 8 0x14800 ++ List.replicate 24 0 ++ leBytes 8 0x14808) (fun m p => p.ok && p.ty == 5
      && !m.lockedRange 0xFFFF (p.dword 40) 8 && (m.feWrite 0xFFFF 0x14800 (List.replicate 8 0)).isSome) = true
    ∧ packetOk ([1, 0, 0, 0] ++ leBytes 4 3 ++ leBytes 8 0 ++ leBytes 8 0x14800) (fun m p => p.ok && p.ty == 1 && readOk (m.feRead 0 0xFFFF 0 (p.dword 16) 64) && p.dword 24 == 0) = true := by
  decide
def fed (q : Queue) (bs : List Byte) (p : Mach → Queue → Bool) : Bool :=
  let m := (packeted q bs).mach
  (m.queueCtx q).any (fun c => c.asid == 0xFFFF) && !m.asking q.wait && !m.endHeld (some 0) && p m q
theorem meets_PacketEvents_queue : fed { queue1 with seen := 7 } [] (fun m q => !q.stopped && q.stage == .idle
      && match m.feRead 0 0xFFFF 0 q.widx 8 with | .ok _ bs => leNat bs != q.seen | _ => false) = true
    ∧ fed queue1 [] (fun m q => ((m.answered (.packet 0)).feWrite 0xFFFF q.ridx (leBytes 8 (q.index + 1))).isSome) = true
    ∧ fed { queue1 with stage := .waiting } ([4, 0, 0, 0, 0, 0, 0, 0] ++ leBytes 8 0x14800) (fun m q => q.stage == .waiting
      && match m.feRead 0 0xFFFF 0 q.ring 64 with
        | .ok m bs => (match m.feRead 0 0xFFFF 0 (Packet.dword ⟨bs⟩ 8) 8 with | .ok _ v => Packet.holds ⟨bs⟩ (leNat v) | _ => false)
        | _ => false) = true
    ∧ fed { queue1 with stage := .held probeTask 1 1 1 0 7 } [] (fun m _ => m.quotaOk 0xFFFF 0 1) = true
    ∧ fed { queue1 with stage := .prologue, entry := 0x14401 } [] (fun m q => match Mach.proRun 0 0xFFFF 256 m ⟨q.entry, q.pw, q.pcc⟩ with | .fault _ => true | _ => false) = true
    ∧ fed { queue1 with stage := .prologue, entry := 0x14400, pcc := [0, 0, 0, 0] } (leBytes 8 0x18)
      (fun m q => match Mach.proRun 0 0xFFFF 256 m ⟨q.entry, mput (mput q.pw 18 0) 19 0, q.pcc⟩ with | .exit _ _ => true | _ => false) = true := by decide
/-- A record of zeros is a task of one thread; one with a reserved bit is none. -/
theorem meets_PacketEvents_launch : (let t := { TaskRec.ofBytes (List.replicate 64 0) with link := 0 }
      t.ok && t.parts == 1 && !{ TaskRec.ofBytes (List.replicate 63 0 ++ [1]) with link := 0, xpre := 3 }.ok
      && ((packeted queue1 []).mach.answered (.packet 0)).quotaOk 0xFFFF 0 1 && ((packeted queue1 []).mach.answered (.packet 0)).spills 0xFFFF 0 1 == 0) = true := by decide

/-- The selection names the probe's thread. -/
def selecting : State := rigCore fun k => { k with halts := [(0xFFFF, ⟨false, false, false, none, ⟨0, 0, 0, 0, 0⟩, false⟩)] }
theorem meets_DebugEvents : selecting.mach.selected 127 0xFFFF = some (1, 0, 0) ∧ (selecting.mach.ctxOf 0xFFFF).isSome = true
    ∧ (rigCore fun k => { k with halts := [(0xFFFF, ⟨false, false, false, none, ⟨0, 0, 0, 0, 1⟩, false⟩)] }).mach.selected 127 0xFFFF = none
    ∧ windowKey 0 0x900 = some (.v 0 0) ∧ windowKey 0 0x904 = some (.v 0 1) ∧ windowKey 0 0xAF8 = some (.v 0 126) ∧ windowKey 0 0xD00 = some (.w 0)
    ∧ windowKey 0 0xEFC = some (.w 127)
    ∧ waveOk selecting (fun _ u => u.holds (.v 0 126) && u.holds (.v 0 127) && !u.holds (.v 0 128) && (u.lane 0).st == .live) = true := by decide
theorem meets_DebugEvents_counters : (rigMach fun m => m.setCounter (.core 127 0xFFFF) 3 ⟨0x30002, 0, some (some (1, 0)), 0, 0, 0⟩).mach.counter (.core 127 0xFFFF) 3
      = ⟨0x30002, 0, some (some (1, 0)), 0, 0, 0⟩
    ∧ (rigMach fun m => m.setCounter (.core 127 0xFFFF) 3 ⟨0x30002, 0, some (some (1, 0)), 0, 0, 0⟩).mach.ovfWave 127 0xFFFF (some (1, 0)) = some (1, 0)
    ∧ CtrUnit.size (.core 127 0xFFFF) = 8 ∧ CtrUnit.size .device = 8 := by decide

/-- A stored word with one wrong bit, one with two, and a correction on its way. -/
def flipped (f : BitVec 72) : Rel := { rig.mach.rel with flips := [(5, f)], corrective := [(6, 7)] }
theorem meets_ReliabilityEvents : (flipped 1).dead 5 = false ∧ (flipped 1).stalls 5 = false ∧ (flipped 1).bad = [] ∧ ones 1 = 1 ∧ ones 3 = 2 ∧ 8 * 5 < dramTop
    ∧ (flipped 3).corrective.all (·.1 != 5) = true ∧ (flipped 1).corrective[0]? = some (6, 7) ∧ mget (flipped 1).flips 4 = none := by decide
theorem degraded_everywhere : ∀ n, n < 32 → (List.replicate 32 ChanStatus.degraded).getD n .ok = .degraded := by decide
theorem meets_ReliabilityEvents_degraded : (List.replicate 32 ChanStatus.degraded).getD (Config.dramChannel 5 % 32) .ok = .degraded :=
  degraded_everywhere _ (Nat.mod_lt _ (by decide))
theorem meets_ReliabilityEvents_channels : rig.mach.rel.status[31]? = some .ok ∧ wireIn 1 0 = true ∧ rig.mach.rel.busLogs[31]? = some ⟨[], 0⟩
    ∧ rig.mach.rel.soft[31]? = some (List.replicate 8 0) ∧ (List.replicate 8 (0 : BitVec 10)).findIdx? (fun e => !e.getLsbD 9) = some 0
    ∧ (List.replicate 8 (0x200 : BitVec 10)).findIdx? (fun e => !e.getLsbD 9) = none ∧ State.reset.mach.rel.status[0]? = some .training
    ∧ State.reset.mach.rel.hard[0]? = some (List.replicate 8 0) ∧ rig.mach.rel.gddrDegraded = [] := by decide

def port1 : Port := { Port.reset with trained := true, credits := 4 }
def linked : Mach := { rig.mach with link := { rig.mach.link with ports := [port1, port1], count := 3, device := 1 } }
theorem meets_LinkEvents : linked.link.ports[1]? = some port1 ∧ port1.trained = true ∧ port1.down = false ∧ port1.failed ≠ 8 ∧ port1.replay.length < 512
    ∧ { port1 with failed := 8 }.failed = 8 ∧ linked.link.up 2 = true ∧ (linked.link.portTo 2 != linked.link.portTo 0) = true
    ∧ (rig.plat.host.ringHead = true ↔ (if rig.plat.host.ringHead then 0 else 1) = 0) ∧ linked.rel.allOk = true ∧ linked.remap = [] ∧ linked.rel.flips = [] := by decide
/-- The request of a collective in the code page, one that cannot be performed, and one with its results. -/
def coll1 : Collective := ⟨2, 0xFFFF, 0x14000, 0x14100, 1, 0, 3, 0, 0x14200, false, none, 0, none, 0⟩
/-- What a request meets: this device's elements are read, they go to the two others, and the destination can be written. -/
def collGoes (m : Mach) (q : Collective) : Bool := match m.collRead q with
  | .ok m1 bs => bs.length == 4 * q.count && (match (m1.fetched 128 q.id).collSend q bs with
    | (m2, n) => n == q.flits && (match m2.collCheck q.asid q.dst (4 * q.count) with
      | (m3, none) => (m3.collWrite q.asid q.dst [1, 2, 3, 4] 0).2 == 1
      | _ => false))
  | _ => false
theorem meets_LinkEvents_collectives : (match rig.mach.agentReadRun 0xFFFF false 0 0x14000 64 with | .ok _ bs => bs.length == 64 | _ => false) = true
    ∧ coll1.ndev = ([(0, 0, [1]), (0, 0, [2])] : List (Half × Byte × List Word)).length + 1 ∧ linked.link.device < coll1.ndev
    ∧ (∀ d < 3, d = linked.link.device ∨ linked.link.up d = true) ∧ ¬ (∀ d < 3, d = rig.mach.link.device ∨ rig.mach.link.up d = true)
    ∧ rig.mach.agentHeld 0xFFFF 0x14000 64 = false ∧ linked.agentHeld 0xFFFF coll1.signal 8 = false
    ∧ collGoes { linked with trans := everywhere tran1 } coll1 = true
    ∧ (match (linked.collRead { coll1 with src := 0x20000 }) with | .bad .. => true | _ => false) = true
    ∧ (linked.collCheck 0xFFFF 0x14000 4).2.isSome = true := by decide
theorem meets_HostEvents : (match (writable 0).mach.client 0xFFFF (.read 0x14000 8) with | .ok _ => true | _ => false) = true
    ∧ rig.mach.lockedRange 0xFFFF 0x14000 8 = false
    ∧ (match rig.mach.agentReadRun 0xFFFF true 0 0x14000 8 with | .ok _ _ => true | _ => false) = true
    ∧ (let m := { cached with trans := everywhere tran1 }
      m.consigns.isEmpty && tran1.cls == 0 && pteBit tran1.leaf.toNat 4 && (mget m.llc (secKey 0xFFFF 0x14000)).isSome
      && match m.client 0xFFFF (.write 0x14000 [1]) with | .ok _ => true | _ => false) = true
    ∧ (let h := { rig.plat.host with bar2Asid := 0xFFFF, bar2Base := 0x14000, bar2Size := 0x1000, hostMode := false }
      h.hostMode == false && decide (h.bar2Base ≤ 0x14000 ∧ 0x14000 + 8 ≤ h.bar2Base + h.bar2Size)) = true := by decide
def host1 : HostSide := { rig.plat.host with windows := [⟨0x1000, 0x1000, true⟩], rate := 7992, rateUs := 3, gpioAllowed := [4], i2cAllowed := [(0, 1023)], hostMode := true }
/-- A write up to the end of a window and of the rate, one beyond either, and what may be set on the side buses. -/
theorem meets_HostEvents_hedgerow : (∃ x ∈ host1.windows, x.valid = true ∧ x.base ≤ 0x1FF8 ∧ 0x1FF8 + 8 ≤ x.base + x.size) ∧ 7992 + 8 ≤ 8000
    ∧ ¬ (∃ x ∈ host1.windows, x.valid = true ∧ x.base ≤ 0x1FF8 ∧ 0x1FF8 + 9 ≤ x.base + x.size) ∧ 4 ∈ host1.gpioAllowed ∧ 5 ∉ host1.gpioAllowed
    ∧ (0, 1023) ∈ host1.i2cAllowed ∧ (1, 1023) ∉ host1.i2cAllowed ∧ host1.hostMode = true ∧ (rig.plat.outputs[3]?).isSome = true := by decide

/-- No slot of the flash after reset is accepted. A slot that is accepted cannot be shown: the signature check is a free
function (log 12, DESIGN CHOICE). -/
theorem meets_FirmwareEvents : State.reset.plat.sec.choose 2 3 = none ∧ rig.plat.sec.accepts [1, 2, 3] = false ∧ rig.plat.sec.keys.length = 5
    ∧ (let x := { rig.plat.sec with recovery := true, runMon := some 4, runFront := some 1 }
      x.recovery && !x.measure.isEmpty && x.runMon.isSome && x.update.isNone && decide (x.flash.length = 4)
      && (x.runFront == some 1 && x.runFront != some 0 && x.runMon != some 0)) = true
    ∧ (rig.plat.sec.keys[0]?).any (fun k => k.key.isSome) = true ∧ (rig.plat.sec.keys[4]?).any (fun k => k.key.isNone && !k.revoked) = true
    ∧ rig.plat.sec.eraseReady ≤ rig.mach.timeNs ∧ rig.mach.timeNs < { rig.plat.sec with eraseReady := 1 }.eraseReady
    ∧ rig.mach.queues.all (fun p => p.2.stage != .launched) = true := by decide
/-- An image whose header lists no layout, and one that restores layout 4; the front-end image that runs beside the one that stands in the
idle slot; a context that holds a pre-empted group, and the drain of it before and after its 20 ms. -/
def updating : Sec := { rig.plat.sec with runFront := some 0, flash := List.replicate 4 ⟨List.replicate 512 0, true⟩ }
theorem meets_FirmwareEvents_update : fieldAt (List.replicate 76 0) 8 4 / 16 % 2 = 0 ∧ fieldAt ((List.replicate 76 0).set 8 16) 8 4 / 16 % 2 = 1
    ∧ fwWhole (updating.slotBytes 1) = fwWhole (List.replicate 512 0) ∧ fwWhole (updating.slotBytes 1) ≠ fwWhole (List.replicate 512 1)
    ∧ updating.update = none ∧ rig.mach.queues.all (fun p => p.2.quiet) = true ∧ { queue1 with stage := .launched }.quiet = false
    ∧ (rig.mach.unmapCtx 15).any (fun m => m.saved.any m.undrained) = true ∧ rig.mach.saved = []
    ∧ rig.mach.drainSlots [] = [] ∧ (0 : Nat) < 0 + 20000000 ∧ 0 + 20000000 ≤ 20000000
    ∧ ({ rig.plat.sec with update := some (0, 5) }.update = some (0, 5)) ∧ 5 + 50000000 ≤ 50000005 := by decide
theorem meets_PowerEvents : rig.plat.power = .d0 ∧ rig.plat.power ≠ .d3cold ∧ { rig.plat with power := .d3hot }.power = .d3hot
    ∧ (let m := { rig.mach with clk := 230000 }
      (m.core 126).power == .on && decide ((m.core 126).lastIssue + m.mhz ≤ m.clk) && (m.resident 126).isEmpty
      && decide ((m.core 126).lastResident + 100 * m.mhz ≤ m.clk)) = true ∧ 800 ≤ 800 ∧ 2300 % 100 = 0 := by decide

theorem meets_EncodeDecode : (Instr.iadd int).isFarom = true ∧ Instr.wf (.iadd int) = true ∧ (Instr.mxmul { mxX with compl := w 9, spec := 1 }).isFarom = true
    ∧ Instr.wf (.mxmul { mxX with compl := w 9, spec := 1 }) = true
    ∧ (match decode [0x1C, 0, 0, 0, 0, 0x30, 0x50, 0] with | .ok _ => true | _ => false) = true := by decide
/-- What the chosen entry of the one wave fetches: the state's machine, group, wave, entry, and the bytes. -/
def fetching (s : State) (p : Mach → Group → Wave → DWord × Byte → Mach → List Byte → Bool) : Bool :=
  s.agenda == [.issue 1 0] && s.clocked && match s.mach.group 1 with
    | some g => (match g.wave 0 with
      | some u => s.mach.canIssue g u && match s.mach.choose g u with
        | some e =>
          let m := (s.mach.trimLoops g.core).paySlot g
          let pc := e.1.toNat
          let ls := u.entryLanes e.1 e.2
          (match m.check g.core g.asid (u.system g) .fetch 4 pc 0 with | .ok _ => true | _ => false)
            && ((m.core g.core).loopBytes u.laneset g.asid pc).isEmpty && (ls.findSome? fun l => u.given l g.asid pc).isNone
            && match m.codeRead g u ls pc (min 16 (32 - pc % 32)) with
              | .ok m' bs => p m g u e m' bs
              | _ => false
        | none => false
      | none => false)
    | none => false
/-- The same with the wave's thread at another PC. -/
def fetchingAt (pc : DWord) (w : Nat) (p : Mach → Group → Wave → DWord × Byte → Mach → List Byte → Bool) : Bool :=
  let s := State.reset.withFetchWord 64 w
  fetching { s with mach := s.mach.updWave 1 0 fun u => u.updLane 0 fun t => { t with pc := pc } } p
/-- A wave whose next instruction is a NOP. -/
theorem meets_StepRuns : fetching (State.reset.withFetchWord 64 0) (fun m g u e _ bs => u.loads.isEmpty && m.solvent g.task.allot.toNat && e.1.toNat % 4 == 0
    && match decode bs with | .ok (_, n) => decide (e.1.toNat % 32 + n ≤ 32) && opcOf bs != 5 | _ => false) = true := by decide
/-- Instructions that trap before they run: a reserved length, one that leaves its sector, an opcode without a row, a PC off a word; and an
entry behind a load. -/
theorem meets_StepRuns_traps : fetchingAt 0x14000 3 (fun _ _ _ _ _ bs => (bs.headD 0).toNat % 4 == 3) = true
    ∧ fetchingAt 0x1401C 0 (fun _ _ _ e _ bs => (bs.headD 0).toNat % 4 != 3 && decide (32 < e.1.toNat % 32 + lenBytes ((bs.headD 0).toNat % 4))) = true
    ∧ fetchingAt 0x14000 (0x0B * 4) (fun _ _ _ _ _ bs => match decode bs with | .ok _ => false | _ => true) = true
    ∧ (let s := { probe with mach := probe.mach.updWave 1 0 fun u => { u.updLane 0 fun t => { t with pc := 0x14002 } with loads := [load1] } }
      match theGroup s with
      | some (g, u) => !u.loads.isEmpty && (s.mach.choose g u).any fun e => e.1.toNat % 4 != 0
      | none => false) = true := by decide
theorem meets_StepRuns_turns : { probe with agenda := [.event .thermalTrip] }.agenda = [.event .thermalTrip] ∧ ({ probe with agenda := [.tick] } : State).clocked = true
    ∧ { probe with agenda := [] }.ready.nextEvent.isNone = true ∧ (probe.ready.mach.pickWave.map fun r : Nat × Nat × Mach => (r.1, r.2.1)) = some (1, 0)
    ∧ probe.mach.wbWait = [] ∧ probe.missed = false ∧ probe.mach.rel.touched = false ∧ probe.mach.ringFaults = [] ∧ probe.plat.host.admitted = []
    ∧ { probe with agenda := [.event .thermalTrip] }.ready.stalls .thermalTrip = false
    ∧ (match { probe with agenda := [] }.ready with
      | s => (match s.mach.pickWave with
        | some (gid, wave, m) => (match { s with mach := m }.issueTurn gid wave with
          | .next t => !t.mach.rel.touched && !t.missed
          | _ => false)
        | none => false)) = true
    ∧ { rig with plat := { rig.plat with power := .d3cold } }.stalls .thermalTrip = true := by decide
theorem meets_LimitsKept : State.reset.plat.host.milliVolt ≤ 1050 ∧ Memory.wf State.reset.plat.host.memory = true
    ∧ (match step State.reset with | .next _ => true | _ => false) = true := by decide
theorem meets_FusesAndTrip : (match step (State.reset.withFetchWord 64 0) with | .next _ => true | _ => false) = true
    ∧ (match step { State.reset with agenda := [.event .coldReset] } with | .next _ => true | _ => false) = true := by decide
theorem meets_Isolation : (Instr.nop plain).isFarom = true ∧ (match exec (.nop plain) rig with | .next _ => true | _ => false) = true
    ∧ (match step (State.reset.withFetchWord 64 0) with | .next t => t.agenda.isEmpty | _ => false) = true := by decide
/-- MAP of a mapped slot, of a malformed descriptor, and of a good one whose queues no page holds; of one with a poisoned word. The Depot
table of a context takes 384 rings (R254), too many to read here: a state in which MAP completes was evaluated outside the package, as
NOTES.md says. Which clusters a value of OWNER names is a free function (log 10, DESIGN CHOICE), so that a command is neither shown to start
nor to be ignored; the other premises of `starts` hold of the rig. -/
def described : State := rigMach fun m => { m with mem := putBytes m.mem 0x1000 (leBytes 8 1 ++ leBytes 8 0x10000 ++ List.replicate 56 0 ++ leBytes 8 1) }
theorem meets_SwitchboardEvents : (mget rig.mach.ctxs 15).isSome = true ∧ (mget rig.mach.ctxs 0).isNone = true ∧ rig.mach.board.command = none
    ∧ (match rig.mach.readDesc 0x1000 with | (_, some bs) => !ctxDescOk bs | _ => false) = true
    ∧ (match described.mach.readDesc 0x1000 with
      | (m, some bs) =>
        let c := Ctx.ofDesc 0 0x1000 m.nextId bs
        ctxDescOk bs && (m.ctxOf 1).isNone && decide (m.queues.length + c.queueCount ≤ 128) && ((m.setCtx c).readQueues c).isNone
      | _ => false) = true
    ∧ (rig.mach.unmapCtx 15).any (fun m => (m.ctxOf 0xFFFF).isNone && m.saved.any fun u => u.asid == 0xFFFF) = true
    ∧ rig.mach.queues.all (fun p => !p.2.running 15) = true ∧ (rig.mach.unmapGo 15).any (·.2) = true := by decide
theorem meets_SwitchboardEvents_period : { rig.mach with timeNs := 4000 }.periodStart + { rig.mach with timeNs := 4000 }.board.period * 1000 ≤ 4000
    ∧ mget rig.mach.allot 0 = some Allotment.zero ∧ rig.mach.board.staged = [] := by decide

/-! ## Boundaries of clauses that the above leave out -/

/-- A vector in a bank-op page is read later. -/
def lateVector : State := vectored (writable 4)
theorem meets_NestedTrap_later : (match theGroup lateVector, lateVector.mach.ctxOf 0xFFFF with
      | some (g, w), some c => !w.inHandler && match lateVector.mach.readVector g (vectorAddr c.tvec trap1.code) with
        | .later .. => true
        | _ => false
      | _, _ => false) = true
    ∧ waveOk (rigWave fun u => { u with inHandler := true }) (fun _ u => u.inHandler && { trap1 with code := Code.perfOvf }.code == Code.perfOvf) = true := by
  decide
/-- A trap behind a load of the wave, and one that is delivered with its vector read. -/
theorem meets_TrapInstructions_loads : ([Instr.trap (imm 0), .brk (imm 255)].all fun i =>
      begun (rigWave fun u => { u with loads := [load1] }) i c0 fun e => active e && !e.w.loads.isEmpty && !(e.m.halt e.core e.asid).armed) = true := by decide
theorem meets_WaveEvents_delivery : (let s := { vectored rig with mach := (vectored rig).mach.updWave 1 0 fun u => { u with traps := [trap1] } }
      waveOk s fun g u => u.loads.isEmpty && u.deliverable g.task == some trap1 && s.mach.solvent 0
        && match s.mach.vectorAt 0 g (vectorAddr (s.mach.tvec g.asid) trap1.code) with | .ok .. => true | _ => false) = true := by decide
/-- A load of a line of a grove that no cache holds. -/
def grovy : State :=
  let s := at8 rig 0x20000
  { s with mach := { groved 1 with cores := s.mach.cores, groups := s.mach.groups }.updCore 127 fun k =>
    { k with tlb := ⟨0xFFFF, 0x20, 0, 1, 0x1F, 0, true, false, false, true⟩ :: k.tlb } }
theorem meets_Loads_wait : begun grovy (.ld mem) c0 (fun e =>
      let rq := (e.readers (.ld mem)).map fun l => (l, e.addr mem l)
      match e.checkAll e.m .load 0 4 true rq with
      | .ok cls bad => (match e.loadAll (e.suppress (e.m.usedWalks e.core e.asid) bad) 0 4 cls rq (fun ls => ls)
          (fun m l va cls => e.load1 m l va 4 cls .norm) with
        | .eff (.wait _) => true
        | _ => false)
      | _ => false) = true := by decide
theorem meets_MemoryPaths_copies : (let m := cached.updCore 127 fun k => { k with const := [(secKey 0xFFFF 0x14000, List.replicate 32 9)] }
      (mget (m.core 127).const (secKey 0xFFFF 0x14000)).isSome) = true ∧ (cached.frame 0xFFFF (0x14000 / 128 * 128)).isNone = true
    ∧ decide ((cached.core 127).l1.length < cached.l1Lines 127) = true
    ∧ (cached.translate 0xFFFF 0x14000).1.cachedTrans 0xFFFF 0x14000 = (cached.translate 0xFFFF 0x14000).2 := by decide
/-- A strict allotment with no budget left, and a store that asks the LLC. -/
def poor (s : State) : State := { s with mach := { s.mach with allot := [(0, ⟨List.replicate 5 0, true, true, 0, List.replicate 5 0⟩)] } }
theorem meets_Stores_denied : (match (poor (at8 (writable 0) 0x14000)).asks (.st { mst with hint := .byp }) c0 with
      | some e => active e && match e.checkAll e.m .store 0 4 true (storeRq e mst) with
        | .ok cls bad => !e.storeHeld cls (storeRq e mst) 4 (fun l => e.bytesOf l mst.c .b32)
          && (match e.storeAll (e.suppress (e.m.usedWalks e.core e.asid) bad) cls (storeRq e mst) (fun l => e.bytesOf l mst.c .b32) .byp with
            | .done m ls => ls == e.lanes && (e.m.bill m 0).isNone
            | _ => false)
        | _ => false
      | none => false) = true := by decide
/-- An unlimited budget, an empty one, one of 7 units, and an entry that is not VALID. -/
theorem meets_SwitchboardEvents_charge : (mget rig.mach.allot (rig.mach.allotOf 0)).any (fun a => a.left.length == 5 && a.left.getD 0 0 == 0xFFFFFFFF) = true
    ∧ (mget (poor rig).mach.allot ((poor rig).mach.allotOf 0)).any (fun a => a.left.getD 0 0 == 0) = true
    ∧ ({ rig.mach with allot := [(3, ⟨List.replicate 5 7, true, true, 0, List.replicate 5 7⟩)] }.allotOf 3) = 3 ∧ (mget rig.mach.allot 63).isNone = true := by decide
/-- A ring that holds an entry, a queue with room, a faulted context, and a ring write that fails. -/
theorem meets_PlacementEvents_push : (let m := { rig.mach with rings := [(ringKey 0xFFFF 671, ring1)] }
      m.ring 0xFFFF 671 == some ring1 && ring1.used != 0 && !(m.ctxOf 0xFFFF).any (·.faulted) && !m.ringBad 0xFFFF (ring1.base.toNat + ring1.tail) 64) = true
    ∧ { ring1 with used := 0 }.used = 0 ∧ rig.mach.queueLen 671 < queueDepth 671 ∧ { probeCtx with faulted := true }.faulted = true := by decide
theorem meets_PlacementEvents_ringBad : (rigMach fun m => { m with trans := everywhere tran1, rel := { m.rel with
      status := List.replicate 32 .degraded } }).mach.ringBad 0xFFFF 0x14240 64 = true := by
  have h : (rigMach fun m => { m with trans := everywhere tran1, rel := { m.rel with status := List.replicate 32 .degraded } }).mach.rel.dead
      (tran1.pa 0x14240 / 8) = true := by
    have hd : (rigMach fun m => { m with trans := everywhere tran1, rel := { m.rel with status := List.replicate 32 .degraded } }).mach.rel.status
        = List.replicate 32 ChanStatus.degraded := by decide
    unfold Rel.dead
    rw [if_neg (by decide), if_pos (by decide), hd, degraded_everywhere _ (Nat.mod_lt _ (by decide))]
    decide
  have ht : ((rigMach fun m => { m with trans := everywhere tran1, rel := { m.rel with status := List.replicate 32 .degraded } }).mach.translate
      0xFFFF 0x14240).2 = some tran1 := by decide
  unfold Mach.ringBad
  rw [Bool.and_eq_true]
  refine ⟨by decide, List.any_eq_true.mpr ⟨0, by decide, ?_⟩⟩
  rw [show 0x14240 + 8 * 0 = 0x14240 from rfl, ht]
  exact h
/-- A copy that names the debug window, and a coordinate that is pending. -/
def windowLeaf : TransEntry := ⟨0xFFFF, 0x14, 0, BitVec.ofNat 64 (probeCode + 0x79 + 4 * 2 ^ 9)⟩
theorem meets_PorterIssue_window : copy 2 { rig with mach := { rig.mach with trans := everywhere windowLeaf } } 0x14000 0 32
      (fun e => e.m.windowIn e.asid 0x14000 32 == some 0x14000 && decide (32 ≤ e.g.grant)) = true
    ∧ (let t := { tlr1 with rank := 1 }
      let s := { layout with mach := { layout.mach with ctxs := [(15, { probeCtx with tlrs := [(7, t)] })] }.updWave 1 0 fun u => { u with pend := [.w 11] } }
      within s (.tcpy { async with size := .b8, a := w 4, b := .reg (v 0), e := w 10, imm8b := 7, compl := w 9 }) c0 fun e => active e
        && (List.range t.rank).any fun i => e.w.pend.contains ((w 10).key 0 (i + 1))) = true := by decide
/-- The page of a range of a grove is a grove's. -/
theorem meets_GroveInstructions_page : ((groved 1).translate 0xFFFF 0x20FC0).2.any (fun y => y.cls == 1) = true
    ∧ (req .held 0).stage = .held ∧ rig.mach.locked 0xFFFF 0x20040 none = false := by decide
theorem meets_MissEvents_room : ({ rig.mach with llc := rig.mach.llc ++ (List.range 2).map fun i =>
    (secKey 0xFFFF (0x14000 + 32 * i), (⟨[], false, true, false, false, none⟩ : LlcSector)) }.llcMates (lineKey 0xFFFF 0x14000)).length ≤ 16 :=
  Nat.le_trans (List.length_filter_le _ _) (by decide)
theorem meets_HostEvents_frame : (cached.frame 0xFFFF (0x14000 / 128 * 128)).isNone = true ∧ tran1.pa 0x14000 < gddrTop
    ∧ ({ cached with trans := everywhere tran1 }.cachedTrans 0xFFFF 0x14000) = some tran1 := by decide
/-- Threads by index, and four of a group of quads of 2 by 2, the last of which lies past the group. -/
theorem meets_SpecialRegisters_tid : begun rig (.nop plain) c0 (fun e => e.g.task.q2x2 == false) = true
    ∧ begun (rigGroup fun g => { g with task := { g.task with q2x2 := true, gx := 1, gy := 1 } }) (.nop plain) c0 (fun e =>
      let r := e.g.task
      r.q2x2 && (r.gx.toNat + 1) % 2 == 0 && (r.gy.toNat + 1) % 2 == 0 && e.w.index == 0
        && decide (3 < (r.gx.toNat + 1) * (r.gy.toNat + 1) * (r.gz.toNat + 1)) && decide ((r.gx.toNat + 1) * (r.gy.toNat + 1) * (r.gz.toNat + 1) ≤ 4)) = true := by
  decide
/-- 1/3 lies between two FP32 values, nearer to the upper one; 2^200 lies above the largest; 2^100 overflows FP16 in a conversion. -/
theorem meets_FloatRounding_values : (let m := 0xAAAAAA
      let lo := ratOf m (-25)
      let mid := ratOf (2 * m + 1) (-26)
      let hi := ratOf (m + 1) (-25)
      decide (0x3EAAAAAA ≤ 0x7F7FFFFF) && decide (lo.1 * 3 ≤ 1 * lo.2) && decide (1 * hi.2 < hi.1 * 3) && decide (mid.1 * 3 < 1 * mid.2)
        && fp32.val 0x3EAAAAAA == .fin false m (-25)) = true
    ∧ (let hi := ratOf (2 ^ 24) 104
      decide (hi.1 * 1 ≤ 2 ^ 200 * hi.2)) = true
    ∧ fp32.val 0x3F800000 = .fin false 0x800000 (-23) ∧ fp32.val 0xBF800000 = .fin true 0x800000 (-23)
    ∧ fp32.val 0x71800000 = .fin false 0x800000 77 ∧ (roundRat fp16 .rn false (ratOf 0x800000 77).1 (ratOf 0x800000 77).2).fl &&& flOF ≠ 0 := by decide
/-- Patterns that are a NaN, an infinity and a finite value; integers; codes of a NaN block, a zero block and another; FP32 values that
make each kind of scale word. -/
theorem meets_ConvertInstructions_values : Fmt.fp16.flt.val 0x7E00 = .nan ∧ Fmt.bf16.flt.val 0x7F80 = .inf false ∧ Fmt.fp16.flt.val 0xC000 = .fin true 1024 (-9)
    ∧ (0x7E00 : Nat) < 2 ^ Fmt.fp16.bits ∧ Fmt.s8.isInt = true ∧ Fmt.fp32.isInt = false ∧ (255 : Nat) < 2 ^ Fmt.s8.bits
    ∧ (0xFF000001 : Word).toNat / 2 ^ 24 = 0xFF ∧ (3 : Word).toNat / 4 % 2 ^ 22 = 0 ∧ (0x7E000001 : Word).toNat / 2 ^ 24 = 0x7E
    ∧ 0x7F800000 < (0x7FC00000 : Word).toNat % 2 ^ 31 ∧ (0xBF800000 : Word).getLsbD 31 = true ∧ (0x3F800001 : Word).toNat % 2 ^ 31 % 2 = 1
    ∧ (0x3F800001 : Word).getLsbD 31 = false := by decide
theorem meets_CrossLaneInstructions_lanew : runs rig (.lanew ⟨c0, v 2, v 4, n8 0⟩) c0 = true
    ∧ begun rig (.lanew ⟨c0, v 2, v 4, n8 0⟩) c0 (fun e => e.act.all (· < 64) && e.all.contains 0 && (e.w.lane 0).st == .live) = true := by decide
/-- The rig's entry: one active thread, and three helpers in its quad. -/
theorem meets_GuardConditions : (match Env.of c0 rig.mach with
      | some e => e.lanes == [0] && e.act == [0] && e.hlp == [1, 2, 3]
      | none => false) = true
    ∧ (match Env.of cOff rig.mach with
      | some e => e.lanes == [0] && e.act.isEmpty && e.hlp.isEmpty
      | none => false) = true := by decide
def issuing (s : State) (c : Ctl) (p : Env → Bool) : Bool := match Env.of c s.mach with | some e => p e | none => false
/-- Every other hold: a token's register pending from MCAS, a condition code, a flag destination, IDM and ERET behind a load, TOKW.all at its
tokens; then an early read with SR_CTL[0] set. -/
theorem meets_ChecksTrap_more : issuing (rigWave fun u => { u with pend := [.w 4] }) c0 (fun e =>
        usesOk (uses (.tokw ⟨c0, some 0, some (w 4)⟩)) (e.w.base + e.w.ext) && (tokKeys (uses (.tokw ⟨c0, some 0, some (w 4)⟩))).contains (.w 4) && e.w.toks.isEmpty) = true
    ∧ issuing (rigWave fun u => { u with pend := [.c 0 1] }) cOff (fun e => (e.ccKeys (.iadd { int with ctl := cOff }) cOff).any fun k => e.w.pend.contains k) = true
    ∧ issuing (rigWave fun u => { u with pend := [.c 0 2] }) c0 (fun e => flagDst (.iadd { int with flag := some 2 }) == some 2
        && e.whole.any fun l => e.w.pend.contains (.c l 2)) = true
    ∧ issuing (rigWave fun u => { u with loads := [⟨0x14000, 0xFF, 1, [], [], none, []⟩] }) { c0 with idm := true } (fun e =>
        e.w.loads.any fun o => e.lanes.any fun l => o.mask.getLsbD l) = true
    ∧ issuing (rigWave fun u => { u with toks := [4] }) c0 (fun e => !e.all.isEmpty && e.tokensNoted ⟨c0, none, some (w 4)⟩
        && (e.waited ⟨c0, none, some (w 4)⟩).any e.w.toks.contains) = true
    ∧ issuing (rigWave fun u => { u with ctl := 1, inflight := [⟨.v 0 4, 0, rig.mach.clk + 4⟩] }) c0 (fun e =>
        let i : Instr := .iadd int
        usesOk (uses i) (e.w.base + e.w.ext) && !e.scoreHolds i c0 && !e.w.drowsy && (e.refreshed (e.ownReads i) (e.remoteReads i)).isNone
          && e.w.ctl.getLsbD 0 && (e.sources i ++ e.ccKeys i c0).find? (e.w.unready e.clk) == some (.v 0 4)) = true
    ∧ issuing (rigGroup fun g => { g with system := true }) c0 (fun e => e.g.system && !e.w.inHandler && privileged (.atlbinv ⟨c0, .all, v 0, v 0⟩)) = true := by decide
theorem meets_PlainControl_isync : begun (rigMach fun m => { m with wbWait := [(127, 0xFFFF, 0, [])] }) (.isync plain) c0 (fun e => active e
    && e.m.wbWait.any fun q => q.1 == e.core && q.2.1 == e.asid) = true := by decide
/-- A second group of the convoy, on core 126 at position 1, with a live word at 0. -/
def convoyed (s : State) : State :=
  match s.mach.group 1 with
  | none => s
  | some g =>
    let h := { g with gid := 2, core := 126, position := 1, slots := g.slots.set 1 { BarSlot.free with kind := .binding 0 } }
    { s with mach := ({ s.mach with groups := mput s.mach.groups 2 h }).updCore 126 fun k => { k with spad := [(1, 1), (3, 1)] } }
def tbcv (s : State) (i : Instr) (a : Word) (p : Env → Nat → Bool) : Bool :=
  within (atW s [(2, a)]) i c0 fun e => active e && (e.getSrc32 e.first (n8 1)).toNat == 1 && p e (e.get e.first (w 2)).toNat
def tbx (n : Byte) : TbOp := ⟨c0, true, w 2, n8 n⟩
/-- An arrival at a word of the other core, one held by a write-back, TBEXP there, and no word: a position without a group, bits above it. -/
theorem meets_BarrierWords_convoy : tbcv (convoyed rig) (.tbarr (tbx 1)) 0x1000000 (fun e a => decide (a < 2 ^ 26) && !e.m.flushHeld e.core e.asid
        && match e.m.atPosition e.g (a / 2 ^ 24 % 4) with
          | some g => g.core != e.core && g.binding (a % 2 ^ 24) == some 1
            && (((e.m.release e.core e.asid).updGroup g.gid fun h => h.updSlot 1 fun b => { b with sig := b.sig ||| e.g.sig, remote := true }).tbStep g.gid 0 1 0 0).isSome
          | none => false) = true
    ∧ tbcv (convoyed lockedL1) (.tbarr (tbx 1)) 0x1000000 (fun e a => e.m.flushHeld e.core e.asid
        && (e.m.atPosition e.g (a / 2 ^ 24 % 4)).any fun g => g.core != e.core && g.binding (a % 2 ^ 24) == some 1) = true
    ∧ tbcv (convoyed rig) (.tbexp (tbx 1)) 0x1000000 (fun e a => (e.m.atPosition e.g (a / 2 ^ 24 % 4)).any fun g => (e.m.tbStep g.gid 0 0 1 0).isSome) = true
    ∧ tbcv (convoyed rig) (.tbarr (tbx 1)) 0x2000000 (fun e a => (e.m.atPosition e.g (a / 2 ^ 24 % 4)).isNone) = true
    ∧ tbcv (convoyed rig) (.tbarr (tbx 1)) 0x4000000 (fun _ a => decide (2 ^ 26 ≤ a)) = true := by decide
/-- TBWAIT above 15 and at no word; TBREL at a word that a copy in the queue counts into. -/
theorem meets_BarrierWaits_stops : within barWord (.tbwait ⟨c0, w 2, n8 16⟩) c0 (fun e => active e && (e.g.binding 0).isSome && decide (15 < (e.getSrc32 e.first (n8 16)).toNat)) = true
    ∧ within rig (.tbwait ⟨c0, w 2, n8 0⟩) c0 (fun e => active e && (e.g.binding 0).isNone) = true
    ∧ within rig (.tbrel ⟨c0, w 2⟩) c0 (fun e => active e && (e.g.binding 0).isNone) = true
    ∧ within { barWord with mach := barWord.mach.updCore 127 fun k => { k with porterQ := [{ porter1 with compl := .bar 0 9 }] } } (.tbrel ⟨c0, w 2⟩) c0
      (fun e => active e && (e.g.binding 0).isSome && (e.m.core e.core).porterQ.any fun c => c.gid == e.iss.gid && c.compl == .bar 0 9) = true := by decide
/-- A load whose walk met an uncorrectable word, before and after it was run again. -/
def badWalk : State := { at8 rig 0x15000 with mach := (at8 rig 0x15000).mach.updCore 127 fun k => { k with walks := [⟨0xFFFF, 0x15, Code.dataUncorrectable⟩] } }
def walkTrap (e : Env) : Bool := match e.checkAll e.m .load 0 4 true ((e.readers (.ld mem)).map fun l => (l, e.addr mem l)) with
  | .trap _ code _ => code == Code.dataUncorrectable
  | _ => false
theorem meets_Loads_uncorrectable : begun badWalk (.ld mem) c0 (fun e => walkTrap e && e.lanes.all fun l => (e.w.lane l).rerun != some (e.iss.pc, (e.w.lane l).loadNo)) = true
    ∧ begun { badWalk with mach := badWalk.mach.updWave 1 0 fun u => u.updLane 0 fun t => { t with rerun := some (0x14000, 0), newRegion := false } } (.ld mem) c0
      (fun e => walkTrap e && e.lanes.any fun l => (e.w.lane l).rerun == some (e.iss.pc, (e.w.lane l).loadNo)) = true := by decide
/-- A line of L1 with a written byte and a clean line; a dirty sector of the LLC whose line the remap filter names. -/
theorem meets_MemoryPaths_evictions : (let m := cached.l1Store 127 0xFFFF 0x14000 [1] .norm
      let key := lineKey 0xFFFF 0x14000
      let va := key % 2 ^ 42 * 64
      rig.clocked && m.consigns.isEmpty && m.wbWait.isEmpty && decide (key < 2 ^ 58) && (mget m.llc (2 * key)).any (fun sc => sc.bytes.length == 32)
        && (mget (m.core 127).l1 key).any (fun l => l1Dirty l && l.length == 64 && (List.range 32).all fun k => !(l.getD (32 + k) ⟨0, false, false⟩).written)
        && (m.frame 0xFFFF (va / 128 * 128)).isNone
        && (({ m with trans := everywhere ⟨0xFFFF, 0x14, 0, BitVec.ofNat 64 (probeCode + 0x79)⟩ }.cachedTrans (BitVec.ofNat 16 (key / 2 ^ 42)) va).any fun (y : TransEntry) =>
          decide (y.pa va < gddrTop))) = true
    ∧ l1Dirty l1Empty = false
    ∧ (let key := secKey 0xFFFF 0x14000
      let e : RemapEntry := ⟨0x14000 / 64, 0xFFFF, lineKey 0xFFFF 0x14000 % 2 ^ 42⟩
      let m : Mach := { rig.mach with llc := [(key, ⟨List.replicate 32 7, true, false, false, false, none⟩)], remap := [e] }
      (mget m.llc key).any (fun s => s.dirty && !s.generated && s.bytes.length == 32) && (mget m.llc (2 * (key / 2) + (1 - key % 2))).isNone
        && e.asid.toNat * 2 ^ 42 + e.vl == key / 2 && m.rel.allOk && m.rel.flips.isEmpty && m.rel.corrective.isEmpty && m.rel.bad.isEmpty) = true := by decide
/-- An instruction whose A, V4, is in error: in the main file alone, or not, with V4 marked in its region or not, and after two rollbacks. -/
def erring (s : State) (p : Env → Bool) : Bool := match Env.of c0 s.mach with
  | some e0 => (e0.blocked (.iadd int) c0).isNone && !(e0.begin c0).lanes.isEmpty && ((e0.begin c0).readsOf (.iadd int)).contains (.v 0 4) && p (e0.begin c0)
  | none => false
def midRegion (f : Wave → Wave) : State := rigWave fun u => f (u.updLane 0 fun t => { t with newRegion := false })
theorem meets_WaveEvents_parity : erring (midRegion fun u => { u with weak := [.v 0 4] }) (fun e => e.w.weak.contains (.v 0 4)) = true
    ∧ erring (midRegion fun u => { u with parity := [.v 0 4], marks := [.v 0 4] }) (fun e =>
      ((e.readsOf (.iadd int)).find? e.w.parity.contains).any e.w.marked && e.w.weak.isEmpty && e.lanes.all fun l => decide ((e.w.lane l).rollbacks < 2)) = true
    ∧ erring (midRegion fun u => { u with parity := [.v 0 4] }) (fun e =>
      ((e.readsOf (.iadd int)).find? e.w.parity.contains).any fun k => !e.w.marked k) = true
    ∧ erring (midRegion fun u => { u with parity := [.v 0 4], marks := [.v 0 4] }.updLane 0 fun t => { t with rollbacks := 2 }) (fun e =>
      ((e.readsOf (.iadd int)).find? e.w.parity.contains).isSome && e.lanes.any fun l => decide (2 ≤ (e.w.lane l).rollbacks)) = true := by decide
/-- A trap whose vector is read now, at once or after an answer, cannot be read, and one in a handler. -/
theorem meets_WaveEvents_traps : (let s := { vectored rig with mach := (vectored rig).mach.updWave 1 0 fun u => { u with traps := [trap1], inHandler := true } }
      waveOk s fun g u => u.inHandler && u.deliverable g.task == some trap1 && s.mach.solvent 0) = true
    ∧ (let s := rigWave fun u => { u with traps := [trap1] }
      waveOk s fun g u => u.deliverable g.task == some trap1
        && match s.mach.vectorAt 0 g (vectorAddr (s.mach.tvec g.asid) trap1.code) with | .fault .. => true | _ => false) = true := by decide
/-- A prefetch and an ICINV that have to wait. -/
theorem meets_LineOperations_waits : within { at8 rig 0x14000 with mach := { (at8 rig 0x14000).mach with consigns := [⟨9, 0, 0, 0xFFFF, [(0xA00, false)], [], true, false, true⟩] } }
      (.ldpf { mst with c := v 0 }) c0 (fun e => active e && e.lockedAny (fun _ => false) (e.act.flatMap fun l =>
        [(l, e.addr { mst with c := v 0 } l / 64 * 64), (l, e.addr { mst with c := v 0 } l / 64 * 64 + 32)])) = true
    ∧ within (at8 lockedL1 0x14000) (.icinv { mst with c := v 0 }) c0 (fun e => active e && e.m.flushHeld e.core e.asid) = true := by decide
/-- A commit to a bank's word while an earlier gather, whose elements may lie in any bank, has not performed. -/
theorem meets_Consignments_bank : (let s := consigned rig [{ consign false with sectors := [(0xA00, false)] }]
      let s : State := { s with mach := { s.mach with trans := everywhere bankLeaf, banks := [⟨3, 1, 0, .gathm 0x14000 0x14800 0x14400 1 2, 9, none, false⟩] } }
      begun s (.txend ⟨c0, some 0⟩) c0 fun e => e.act == [0] && match e.m.openConsign e.iss.gid e.iss.wave 0 with
        | some c => c.sectors.any fun p => (c.buffer.any fun b => b.1 / 32 == p.1) && (e.m.translate c.asid (32 * p.1)).2.any (fun y => y.cls == 2)
          && e.m.bankBusy c.asid (32 * p.1) 32
        | none => false) = true := by decide
/-- A word that no read can give: the atomic traps. -/
theorem meets_MemoryAtomics_unreadable : within { at8 (writable 0) 0x14000 with mach := { (at8 (writable 0) 0x14000).mach with
      trans := everywhere tran1, rel := { rig.mach.rel with bad := [0x14000 / 8] } } } (.atom { mem with c := v 4 }) c0 (fun e =>
        let rq := (e.actors (.atom { mem with c := v 4 })).map fun l => (l, e.addr mem l)
        match e.checkAll e.m .atomic 0 4 true rq with
          | .ok cls _ => !e.lockedAny (fun _ => false) rq
            && !(e.atomReady (rq.foldl (fun m p => m.l1DropSector e.core e.asid p.2) (e.m.usedWalks e.core e.asid)) 4 cls rq).2.isEmpty
          | _ => false) = true := by decide
/-- TLRREG at a record in the code page, with the slot in B and a context. -/
def registering (c : Ctx) (bs : List Byte) (va : Word) (n : Byte) (leaf : TransEntry) (p : Mach → Ctx → Option Tlr → Bool) : Bool :=
  let s : State := { rig with mach := { rig.mach with mem := putBytes rig.mach.mem 0x14100 bs, ctxs := [(15, c)], trans := everywhere leaf } }
  within (atW s [(4, va)]) (.tlrreg ⟨c0, w 4, n8 n⟩) c0 fun e => active e
    && (match e.checkAll e.m .load 0 128 true [(e.first, (e.getPair e.first (w 4)).toNat)] with
      | .ok cls _ => (match e.readRun (e.m.usedWalks e.core e.asid) va.toNat 128 ((cls.lookup e.first).getD 0), e.m.ctxOf e.asid with
        | .ok m vals _, some c => p m c (Tlr.ofBytes (vals.flatMap (·.2)))
        | _, _ => false)
      | _ => false)
/-- A record whose base lies in a window of another device, and one whose pages no right allows. -/
def farLeaf : TransEntry := ⟨0xFFFF, 0x15, 0, BitVec.ofNat 64 (0x10000000000 + 0x79 + 3 * 2 ^ 9)⟩
def blank : TlbEntry := ⟨0xFFFF, 0x14, 0, 0, 0x1F, 0, true, true, false, true⟩
theorem meets_PorterIssue_tlrreg : registering { probeCtx with pinmax := 1 } (List.replicate 128 1) 0x14100 7 tran1 (fun _ _ t => t.isNone) = true
    ∧ registering { probeCtx with pinmax := 1, tlrs := [(7, tlr1)] } tlrBytes 0x14100 7 tran1 (fun _ c t => t == some tlr1 && (mget c.tlrs 7).isSome) = true
    ∧ registering { probeCtx with pinmax := 0 } tlrBytes 0x14100 7 tran1 (fun m c t => t == some tlr1 && (mget c.tlrs 7).isNone
      && (m.remoteAt 0xFFFF 0x14200).isNone && match m.pinAll 0xFFFF false c tlr1 with | .inr (code, _) => code == Code.quota | .inl _ => false) = true
    ∧ registering { probeCtx with pinmax := 1 } (leBytes 8 0x20000 ++ tlrBytes.drop 8) 0x14100 7 tran1 (fun m c t => t == some { tlr1 with base := 0x20000 }
      && match m.pinAll 0xFFFF false c { tlr1 with base := 0x20000 } with | .inr (code, _) => code == Code.page | .inl _ => false) = true
    ∧ begun rig (.nop plain) c0 (fun e => e.act == [0] && isTrap (e.checkAll e.m .load 0 128 true [(e.first, 0x14104)])
      && isWalk (e.checkAll e.m .load 0 128 true [(e.first, 0x20000)])) = true
    ∧ 255 < (256 : Nat) := by decide
theorem meets_PorterIssue_remote : registering { probeCtx with pinmax := 1 } (leBytes 8 0x15000 ++ tlrBytes.drop 8) 0x14100 7 tran1 (fun m _ t =>
      t == some { tlr1 with base := 0x15000 }
        && ({ m with trans := everywhere farLeaf }.remoteAt 0xFFFF 0x15000).isSome) = true := by decide
/-- A box that meets the debug window, one that does not, and an early coordinate. -/
theorem meets_PorterIssue_tcpy : (let s := { layout with mach := { layout.mach with ctxs := [(15, { probeCtx with tlrs := [(7, tlr1)] })], trans := everywhere windowLeaf } }
      within s (.tcpy { async with size := .b8, a := w 4, b := .reg (v 0), e := w 10, imm8b := 7, compl := w 9 }) c0 fun e => active e
        && (e.late []).isNone && ((tlr1.boxRanges [0] false).findSome? fun p => e.m.windowIn e.asid p.1 p.2).isSome) = true := by decide
/-- A copy from memory and one to memory, both of a sector that the LLC holds; the gates of both engines; a copy that is over and counts
into a live word. -/
def memCopy (out : Bool) : PorterCmd := { porter1 with op := if out then .cpy true false 0 0x14000 48 else .cpy false true 0x14000 0 48 }
theorem meets_PorterProgress_memory : ([true, false].all fun out =>
      let s := rigCore fun k => { k with porterQ := [memCopy out] }
      let m : Mach := { s.mach with llc := cached.llc, trans := everywhere tran1 }
      startable (m.core 127).porterQ 0 && m.replies.isEmpty && m.consigns.isEmpty && m.canPay 0 3 && m.solvent 0 && (memCopy out).unacked.isEmpty
        && decide ((memCopy out).next < (memCopy out).sectors) && (m.cachedTrans 0xFFFF 0x14000) == some tran1 && tran1.cls == 0
        && decide (tran1.pa 0x14000 < gddrTop) && ([3, 4, 5, 6].all fun k => pteBit tran1.leaf.toNat k) && (m.frame 0xFFFF (0x14000 / 128 * 128)).isNone
        && (mget m.llc (secKey 0xFFFF 0x14000)).any (fun c => c.bytes.length == 32)
        && match m.group 1 with
          | some g => g.core == 127 && decide (g.units.Nodup) && decide ((memCopy out).len 0 ≤ g.grant) && !g.clobbers 0 ((memCopy out).len 0)
          | none => false) = true := by decide
theorem meets_PorterProgress_gates : (let s := { barWord with mach := barWord.mach.updCore 127 fun k => { k with
        mxQ := [{ mxc .zero with gate := some ⟨0, true, false, false⟩ }], porterQ := [{ porter1 with gate := some ⟨0, true, false, false⟩ }] } }
      s.mach.gateOpen 1 (some ⟨0, true, false, false⟩) && match s.mach.group 1 with
        | some g => (s.mach.tbWord g 0).phase % 2 != 1
        | none => false) = true := by decide
theorem meets_PorterProgress_word : ([0, 1].all fun n =>
      let c := { porter1 with next := 2, compl := .bar 0 9 }
      let s := spadSet (barBind 0 rig) [(1, 1), (3, 1), (5, BitVec.ofNat 8 n)]
      c.over' && c.unacked.isEmpty && c.wb.isNone && !c.barFail && c.sectors - min c.next (c.sectors - 1) == 1 && match s.mach.group 1 with
        | some g => g.gid == 1 && (g.wave 0).any (fun u => !u.live.isEmpty) && g.binding 0 == some 1 && decide (g.units.Nodup) && decide (16 ≤ g.grant)
          && (s.mach.tbWord g 0).sectors == n
        | none => false) = true := by decide
/-- A box of 16 elements in scratchpad over a tensor of one, each way. -/
def boxCopy (out : Bool) : PorterCmd := { porter1 with op := .tcpy out false 0 7 tlr1 [0] }
theorem meets_PorterProgress_tensor : ([true, false].all fun out =>
      let c := boxCopy out
      let s := rigCore fun k => { k with porterQ := [c] }
      let m : Mach := { s.mach with llc := [(secKey 0xFFFF 0x14200, ⟨List.replicate 32 7, false, false, false, false, none⟩)], trans := everywhere tran1 }
      let place (j : Nat) : Nat := j % 16 + 16 * (j % 32 / 16)
      decide (c.next < c.sectors) && c.len 0 == 32 && startable (m.core 127).porterQ 0 && (m.core 127).tile.isEmpty && m.canPay 0 3 && m.solvent 0
        && tlr1.boxes.length == 5 && decide (tlr1.fmt < 5 ∧ tlr1.swz < 4) && tlr1.boxes.getD 0 1 * 2 == 32
        && ((List.range 32).all fun j => (List.range 32).all fun i => place j != place i || j == i)
        && (m.cachedTrans 0xFFFF 0x14200) == some tran1 && decide (tran1.pa 0x14201 < gddrTop) && (m.frame 0xFFFF (0x14200 / 128 * 128)).isNone
        && (mget m.llc (secKey 0xFFFF 0x14200)).any (fun c => c.bytes.length == 32) && tlr1.dims.getD 0 1 == 1
        && match m.group 1 with
          | some g => (List.range 32).all fun j => decide (place j < g.grant) && !g.clobbers (place j) 1
          | none => false) = true := by decide
/-- A store of a region of 2 rows by 2 columns, in rows of 128 bytes: its bytes lie apart. -/
theorem meets_MatrixExecution_rows : ([true, false].all fun bf =>
      let c : MxCmd := { mxc (.rd bf) with pitch := 128, n := 2, m := 2 }
      let s := rigCore fun k => { k with mxQ := [c] }
      let es := if bf then 2 else 4
      let bs : List (Nat × Nat) := (List.range 2).flatMap fun r => (List.range (es * 2)).map fun b => (r, c.place r (b / 16 * 16) + b % 16)
      decide ((bs.map (·.2)).Nodup) && c.gate.isNone && match s.mach.group 1 with
        | some g => decide (g.units.Nodup) && bs.all fun p => decide (p.2 < g.grant) && !g.clobbers p.2 1
        | none => false) = true := by decide
theorem meets_MatrixExecution_lost : (let c : MxCmd := { mxc .zero with lost := true, tok := some 7 }
      (match rig.mach.group 1 with
      | some g => (g.wave c.wave).any fun u => !u.live.isEmpty
      | none => false) && c.lost && c.tok == some 7) = true := by decide
/-- A beam whose record a store has met while it was in flight. -/
theorem meets_RayQueries_raced : (let s := rigCore fun k => { k with rayQ := [⟨1, 1, 0, .beam { beam1 with raced := true }, none, false, false⟩] }
      (s.mach.rayHead 127).any fun c => (s.mach.group c.gid).isSome && (s.mach.wave c.gid c.wave).any fun u => !u.live.isEmpty) = true := by decide
/-- A line of the victim store, whose bytes memory holds. -/
theorem meets_MissEvents_victim : (∃ v bs, { rig.mach with victim := [(lineKey 0xFFFF 0x20040, 3)] }.victimGet (lineKey 0xFFFF (0x20040 / 64 * 64)) = (v, some bs))
    ∧ (groved 1).victimGet (lineKey 0xFFFF (0x20040 / 64 * 64)) = (groved 1, none) := by
  exact ⟨Mach.victimGet_hit (way := 3) (by decide) (by decide) (by decide) (by decide), by decide⟩
/-- Entries of a slice that a restore waits for. -/
theorem meets_MissEvents_wanted : (let h := homeSlice 0xFFFF 0x20040
      let m : Mach := { groved 1 with board := { rig.mach.board with wants := [(h, 65, 2048)] } }
      decide (waysMax 1 < (m.waysOf h).length + (m.wanted h).1) && decide (waitersMax 1 < m.waitersOf h + (m.wanted h).2)) = true
    ∧ rig.mach.lockedRange 0xFFFF 0x14000 64 = false := by decide
/-- Two prologues in the midst of a run when their slot is unmapped: one ends its run, the other waits for a line of a grove. -/
def prologue1 : Queue := { queue1 with stage := .prologue, entry := 0x14400, pcc := [0, 0, 0, 0] }
def runningBoth : Mach := let m := (packeted prologue1 (leBytes 8 0x18)).mach
  { m with queues := m.queues ++ [(1, { prologue1 with wait := some 4 })], reqs := [req .probing 0], board := { m.board with command := some (.unmap 15) } }
theorem meets_SwitchboardEvents_running : runningBoth.queues.map (·.2.running 15) = [true, true] ∧ (runningBoth.unmapGo 15).any (fun p => !p.2) = true := by decide
/-- A command at hand that ends at its turn. -/
theorem meets_SwitchboardEvents_board : (let s := rigMach fun m => { m with board := { m.board with command := some (.map 15 0) } }
      s.clocked && s.mach.board.command == some (.map 15 0) && match s.mach.mapCtx s.plat.sec.restores 15 0 with | .done _ => true | _ => false) = true := by decide
/-- Work that borrows, before and after work with budget left has claimed the resource; such work after it has been borrowed. -/
theorem meets_SwitchboardEvents_slack : (let lax (left : Word) (m : Mach) : Mach := { m with allot := [(0, ⟨List.replicate 5 7, true, false, 0, List.replicate 5 left⟩)] }
      let m := lax 0 rig.mach
      (m.charge m 0 0 1).isSome && ({ m with used := { m.used with llc := m.clkUsed.llc + 1 } }.charge m 0 0 1).isNone
        && (let n := lax 3 { rig.mach with slack := [1, 0, 0, 0, 0] }
          n.slack.getD 0 0 == 1 && (n.charge n 0 0 1).isNone)) = true := by decide
/-- WRITE, SIGNAL and WRITE_SIGNAL where nothing holds their dwords, one that a lock holds, an address that no right allows, and one of
each class of page. -/
def locking (m : Mach) : Mach := { m with consigns := [⟨9, 0, 0, 0xFFFF, [(0x14800 / 32, false)], [], true, false, true⟩] }
theorem meets_PacketEvents_held : (let bs := [2, 1, 0, 0, 0, 0, 0, 0] ++ leBytes 8 0x14800
      packetOk bs (fun m p => p.ok && p.ty == 2 && p.args == 1 && !m.dwordsHeld 0xFFFF (p.dword 8) p.args)
      && match { packeted queue1 bs with mach := locking (packeted queue1 bs).mach }.packet 0 with
        | some (m, _, _, p) => p.ok && p.ty == 2 && m.dwordsHeld 0xFFFF (p.dword 8) p.args
        | none => false) = true := by decide
def signalOk (op leaf : Nat) (p : Mach → Packet → Mach × Chk → Bool) : Bool :=
  let s := packeted queue1 ([3, BitVec.ofNat 8 op, 2, 0, 0, 0, 0, 0] ++ leBytes 8 0x14800)
  match { s with mach := { s.mach with trans := everywhere ⟨0xFFFF, 0x14, 0, BitVec.ofNat 64 (probeCode + leaf)⟩ } }.packet 0 with
  | some (m, _, _, k) => k.ok && k.ty == 3 && !m.agentHeld 0xFFFF (k.dword 8) 8
    && p m k (m.checkNow 0xFFFF false (if op % 16 = 0 then .store else .atomic) 0 (k.dword 8) 8)
  | none => false
theorem meets_PacketEvents_signal : ([0x10, 0x11, 0x12].all fun op => signalOk op 0x79 fun _ k r => match r with
        | (x, .ok 0) => (match if op % 16 = 0 then Rd.ok x [] else x.llcRead 0xFFFF (k.dword 8) 8 with
          | .ok z _ => (z.feWrite 0xFFFF (k.dword 8) (List.replicate 8 0)).isSome
          | _ => false)
        | _ => false) = true
    ∧ signalOk 0 0x69 (fun _ _ r => match r.2 with | .ok _ => false | _ => true) = true
    ∧ signalOk 0 (0x79 + 2 * 2 ^ 9) (fun _ _ r => match r.2 with | .ok 2 => true | _ => false) = true := by decide
theorem meets_PacketEvents_both : packetOk ([5, 0x21, 0, 0, 0, 0, 0, 0] ++ leBytes 8 0x14800 ++ List.replicate 24 0 ++ leBytes 8 0x14808) (fun m p => p.ok && p.ty == 5
      && !m.dwordsHeld 0xFFFF (p.dword 8) (p.args % 8) && !m.agentHeld 0xFFFF (p.dword 40) 8
      && match m.feWrite 0xFFFF (p.dword 8) ((p.bs.drop 16).take (8 * (p.args % 8))) with
        | some x => (match x.signalAt 0xFFFF (p.dword 40) (p.args / 16) (p.dword 48) with | .ok _ [] => true | _ => false)
        | none => false) = true := by decide
/-- A counter that wrapped in an earlier clk, and one that did in this one. -/
theorem meets_DebugEvents_wraps : (let s (clk : Nat) := rigMach fun m => { m with clk := clk }.setCounter .device 3 ⟨0x30002, 0, some none, 5, 2, 5⟩
      let c (clk : Nat) := (s clk).mach.counter .device 3
      (c 6).wrapped == some none && decide ((c 6).wrapAt < (s 6).mach.clk) && decide ((s 5).mach.clk ≤ (c 5).wrapAt)
        && (c 5).at_ == (s 5).mach.clk && (c 5).wrapAt == (s 5).mach.clk && decide (((9 : DWord).setWidth 48).toNat + (c 5).now < 2 ^ 48)) = true
    ∧ ((rigMach fun m => m.setCounter (.core 127 0xFFFF) 3 ⟨0x30002, 0, some (some (1, 0)), 0, 0, 0⟩).mach.resident 127).all
        (fun g => g.waves.all fun u => u.traps.isEmpty && u.perfHeld.isEmpty) = true := by decide
/-- Masks of no wrong bit, of one and of two. Worse errors are told apart by the columns of the code, which are a free function (log 13,
PRESUMED): which of the three cases a mask of three bits falls under cannot be shown. -/
theorem meets_ReliabilityEvents_syndrome : ones 0 = 0 ∧ ones (1 <<< 71) = 1 ∧ ones (3 <<< 70) = 2 ∧ 3 ≤ ones 7
    ∧ mget (flipped 0).flips 5 = some 0 ∧ (flipped 0).corrective.all (·.1 != 5) = true := by decide
/-- The first and the last line of GDDR 7. -/
theorem meets_ReliabilityEvents_decompress : dramTop ≤ 64 * (dramTop / 64) ∧ 64 * (dramTop / 64) + 64 ≤ gddrTop
    ∧ dramTop ≤ 64 * (gddrTop / 64 - 1) ∧ 64 * (gddrTop / 64 - 1) + 64 ≤ gddrTop ∧ rig.mach.rel.dead (8 * (gddrTop / 64 - 1) + 7) = false := by decide
/-- A port with two flits that are not acknowledged, the second a sector of a copy; a read that waits for the other device. -/
def flit1 (seq : BitVec 12) (ty : BitVec 4) (dest : BitVec 2) : Flit := ⟨ty, seq, dest, 0, 0, List.replicate 224 0⟩
def porting (p : Port) : Link := { rig.mach.link with ports := [p, p], count := 3, device := 1, reads := [⟨127, 1, 0x15000, 32, 2, none⟩] }
def port2 : Port := { port1 with replay := [flit1 7 1 2, flit1 8 1 2], nextSeq := 9, expect := 5 }
theorem meets_LinkEvents_acks : (port2.replay.findIdx? fun x => x.seq == (flit1 8 5 1).seq) = some 1 ∧ (port2.replay.findIdx? fun x => x.seq == (flit1 9 5 1).seq) = none
    ∧ (flit1 8 5 1).ty = 5 ∧ (rig.mach.cores.map (·.1)).Nodup
    ∧ (let s := rigCore fun k => { k with porterQ := [{ porter1 with unacked := [(1, 8, 0)] }] }
      ((s.mach.core 127).porterQ.map (·.id)).Nodup ∧ ((s.mach.core 127).porterQ[0]?).any (fun c =>
        c.op == .cpy true true 0 0x4000 48 && c.stop.isNone && (c.unacked.find? fun u => u.1 == 1) == some (1, 8, 0)) = true) := by decide
theorem meets_LinkEvents_arrivals : (flit1 4 3 1).seq ≠ port2.expect ∧ (flit1 5 0 2).ty = 0 ∧ (flit1 5 3 1).dest.toNat = (porting port2).device
    ∧ (flit1 5 3 1).seq = port2.expect ∧ (porting port2).reads.findIdx? (fun r => r.data.isNone && (porting port2).portFrom r.device == (porting port2).portTo 2) = some 0
    ∧ ((porting port2).reads[0]?).any (fun r => r.data.isNone && r.core != 129 && (porting port2).portTo r.device == 1) = true := by decide
/-- One for another device comes in at one port and goes out at the other, which has room and credit, or a full buffer, or no credit. -/
theorem meets_LinkEvents_forwards : (let k := porting port2
      let f := flit1 5 1 2
      f.ty != 5 && f.ty != 0 && f.seq == port2.expect && f.dest.toNat != k.device && k.portTo 2 == 1 && k.up 2 && decide (port2.replay.length < 512 ∧ 1 ≤ port2.credits)) = true
    ∧ ¬ 1 ≤ { port2 with credits := 0 }.credits ∧ ¬ (List.replicate 512 (flit1 0 1 2)).length < 512 := by
  refine ⟨by decide, by decide, ?_⟩
  simp
theorem meets_LinkEvents_refused : rig.clocked = true ∧ port2.replay = flit1 7 1 2 :: [flit1 8 1 2] ∧ { port2 with replays := 7 }.replays = 7 ∧ port2.replays ≠ 7
    ∧ (2 ≤ 3 ∧ 3 ≤ 4 ∧ 2 < 3) ∧ (1 : Nat) ≠ 0 := by decide
/-- A read asked by device 2, and a doorbell of the rig's context. -/
theorem meets_LinkEvents_reads : (let k := porting port2
      k.device != 2 && k.up 2 && k.ports[k.portTo 2]? == some port2 && decide (0x14000 + 224 ≤ gddrTop)) = true
    ∧ (match rig.mach.ctxs with
      | (slot, c) :: _ => slot == 15 && c.asid == 0xFFFF && !rig.mach.agentHeld c.asid 0x14000 64
      | _ => false) = true := by decide
/-- Results of other devices: with another TAG, with another OP, of another number, for a request that is bad, and good ones. -/
theorem meets_LinkEvents_tags : (let good : List (Half × Byte × List Word) := [(0, 0, [1]), (0, 0, [2])]
      let odd (q : Collective) (o : List (Half × Byte × List Word)) : Bool :=
        o.length + 1 != q.ndev || o.any fun x => x.2.1.toNat != q.op || x.2.2.length != q.count
      coll1.tag == 0 && good.all (fun o => o.1 == coll1.tag) && !odd coll1 good && !coll1.bad && odd coll1 (good.take 1) && odd coll1 [(0, 1, [1]), (0, 0, [2])]
        && odd coll1 [(0, 0, [1]), (0, 0, [])] && coll1.data.isNone && coll1.out.isNone && { coll1 with bad := true }.bad
        && ([(1, 0, [1])] : List (Half × Byte × List Word)).any fun o => o.1 != coll1.tag) = true := by decide
/-- The smallest and the largest of what BAR2 maps, one off its boundary and one of another size. -/
theorem meets_HostEvents_bar2 : (∃ i ≤ 8, 2 ^ 28 = 2 ^ (28 + i) ∧ 3 * 2 ^ 28 % 2 ^ 28 = 0) ∧ (∃ i ≤ 8, 2 ^ 36 = 2 ^ (28 + i) ∧ 0 % 2 ^ 36 = 0)
    ∧ (¬ ∃ i ≤ 8, 2 ^ 28 = 2 ^ (28 + i) ∧ 0x1000 % 2 ^ 28 = 0) ∧ (¬ ∃ i ≤ 8, 2 ^ 27 = 2 ^ (28 + i) ∧ 0 % 2 ^ 27 = 0) := by
  refine ⟨⟨0, by decide⟩, ⟨8, by decide⟩, by decide, by decide⟩
theorem meets_HostEvents_windows : { rig.plat.host with hostMode := false }.hostMode = false ∧ rig.plat.power ≠ .d3cold ∧ 15 < rig.plat.host.windows.length
    ∧ rig.clocked = true ∧ (rig.plat.outputs[3]?).any (fun o => rig.mach.solvent o.allot.toNat) = true
    ∧ { host1 with admitted := [(0x1FF8, List.replicate 8 1)] }.admitted = [(0x1FF8, List.replicate 8 1)] := by decide
/-- A live update whose drain has begun, and one whose queues are quiet; the SPDM responder's flags. -/
theorem meets_FirmwareEvents_drain : { updating with drain := some (0, [15]) }.drain = some (0, [15]) ∧ updating.drain = none ∧ rig.clocked = true
    ∧ { updating with runMon := some 2 }.runMon.isSome = true ∧ { updating with version := true, caps := true, algs := true }.algs = true
    ∧ updating.version = false ∧ updating.caps = false ∧ updating.algs = false := by decide
/-- An entry whose age count has reached 1024, and a step whose event has to wait. -/
theorem meets_StepRuns_aged : (match theGroup (rigWave fun u => u.updLane 0 fun t => { t with age := 1024 }) with
      | some (g, u) => (match rig.mach.choose g u with
        | some e => u.aged e && u.forced != some e
        | none => false)
      | none => false) = true
    ∧ { { probe with agenda := [.tick] } with plat := { probe.plat with power := .d0 } }.clocked = true := by decide

end Sys2Proof.Tests
end

section
/-! SUPPORT. The rounding of floating values (R91, R95, R96): the model's quotients and its binary logarithm by one comparison of
rationals, a format's patterns as significand and exponent, what is delivered between two neighbouring patterns and beyond the
last one, and the sums, products and special values that rest on it. -/

namespace Sys2Proof.Machine

/-! ## A rational against the multiples of a power of two -/

/-- The rational n / d in units of 2^q, as numerator and denominator. -/
def scaled (n d : Nat) (q : Int) : Nat × Nat := if 0 ≤ q then (n, d * 2 ^ q.toNat) else (n * 2 ^ (-q).toNat, d)

/-- The rational n / d is at least k × 2^q. -/
def AtLeast (n d k : Nat) (q : Int) : Prop := (ratOf k q).1 * d ≤ n * (ratOf k q).2

theorem scaleDiv_eq (n d : Nat) (q : Int) :
    scaleDiv n d q = ((scaled n d q).1 / (scaled n d q).2, (scaled n d q).1 % (scaled n d q).2, (scaled n d q).2) := rfl

theorem ratOf_fst_mul (k n d : Nat) (q : Int) : (ratOf k q).1 * d = k * (scaled n d q).2 := by
  unfold ratOf scaled
  split
  case isTrue => exact (Nat.mul_assoc _ _ _).trans (congrArg (k * ·) (Nat.mul_comm _ _))
  case isFalse => rfl

theorem mul_ratOf_snd (k n d : Nat) (q : Int) : n * (ratOf k q).2 = (scaled n d q).1 := by
  unfold ratOf scaled
  split
  case isTrue => exact Nat.mul_one n
  case isFalse => rfl

/-- One unit up doubles the denominator or halves the numerator. -/
theorem scaled_succ (n d : Nat) (q : Int) :
    ((scaled n d q).1 = (scaled n d (q + 1)).1 ∧ 2 * (scaled n d q).2 = (scaled n d (q + 1)).2)
      ∨ ((scaled n d q).1 = 2 * (scaled n d (q + 1)).1 ∧ (scaled n d q).2 = (scaled n d (q + 1)).2) := by
  unfold scaled
  by_cases hq : 0 ≤ q
  case pos =>
    have exponent : (q + 1).toNat = q.toNat + 1 := by omega
    rw [if_pos hq, if_pos (by omega), exponent, Nat.pow_succ]
    exact .inl ⟨rfl, by rw [Nat.mul_comm 2, Nat.mul_assoc]⟩
  case neg =>
    by_cases last : 0 ≤ q + 1
    case pos =>
      obtain rfl : q = -1 := by omega
      exact .inr ⟨Nat.mul_comm n 2, (Nat.mul_one d).symm⟩
    case neg =>
      have exponent : (-q).toNat = (-(q + 1)).toNat + 1 := by omega
      rw [if_neg hq, if_neg last, exponent, Nat.pow_succ]
      exact .inr ⟨by rw [← Nat.mul_assoc, Nat.mul_comm 2], rfl⟩

section AtLeast
variable {n d : Nat}

theorem atLeast_iff {k : Nat} {q : Int} : AtLeast n d k q ↔ k * (scaled n d q).2 ≤ (scaled n d q).1 := by
  rw [AtLeast, ratOf_fst_mul k n d, mul_ratOf_snd k n d]

theorem AtLeast.mono {j k : Nat} {q : Int} (hjk : j ≤ k) (h : AtLeast n d k q) : AtLeast n d j q :=
  atLeast_iff.mpr (Nat.le_trans (Nat.mul_le_mul_right _ hjk) (atLeast_iff.mp h))

theorem atLeast_double {k : Nat} {q : Int} : AtLeast n d (k * 2) q ↔ AtLeast n d k (q + 1) := by
  rw [atLeast_iff, atLeast_iff, Nat.mul_assoc]
  obtain ⟨num, den⟩ | ⟨num, den⟩ := scaled_succ n d q
  case inl => rw [num, den]
  case inr => rw [num, den, Nat.mul_left_comm, Nat.mul_le_mul_left_iff Nat.two_pos]

theorem atLeast_add {k : Nat} {q : Int} (j : Nat) : AtLeast n d (k * 2 ^ j) q ↔ AtLeast n d k (q + j) := by
  induction j generalizing k with
  | zero => simp only [Nat.pow_zero, Nat.mul_one, Int.natCast_zero, Int.add_zero]
  | succ j ih => rw [Nat.pow_succ', ← Nat.mul_assoc, ih, atLeast_double, Int.natCast_succ, Int.add_assoc]

theorem scaled_snd_pos (hd : 0 < d) (n : Nat) (q : Int) : 0 < (scaled n d q).2 := by
  unfold scaled
  split
  case isTrue => exact Nat.mul_pos hd (Nat.two_pow_pos _)
  case isFalse => exact hd

/-- The quotient is the floor. -/
theorem atLeast_iff_le_quot (hd : 0 < d) {q : Int} {k rem dv : Nat} (h : scaleDiv n d q = (k, rem, dv)) (j : Nat) :
    AtLeast n d j q ↔ j ≤ k := by
  rw [scaleDiv_eq, Prod.mk.injEq] at h
  rw [atLeast_iff, ← h.1, Nat.le_div_iff_mul_le (scaled_snd_pos hd n q)]

/-- A quotient in units of 2^q that is known to lie in [m, m + 1) is m. -/
theorem scaleDiv_of_cell (hd : 0 < d) {m : Nat} {q : Int} (lo : AtLeast n d m q) (hi : ¬ AtLeast n d (m + 1) q) :
    ∃ rem dv, scaleDiv n d q = (m, rem, dv) ∧ rem < dv ∧ scaled n d q = (m * dv + rem, dv) := by
  obtain ⟨k, rem, dv, h⟩ : ∃ k rem dv, scaleDiv n d q = (k, rem, dv) := ⟨_, _, _, rfl⟩
  rw [atLeast_iff_le_quot hd h] at lo hi
  obtain rfl : k = m := by omega
  refine ⟨rem, dv, h, ?_⟩
  simp only [scaleDiv_eq, Prod.mk.injEq] at h
  obtain ⟨rfl, rfl, rfl⟩ := h
  exact ⟨Nat.mod_lt _ (scaled_snd_pos hd n q), Prod.ext (Nat.div_add_mod' _ _).symm rfl⟩

/-! ## The binary logarithm -/

theorem atLeast_one_of_log2_le (hn : 0 < n) {q : Int} (h : (d.log2 : Int) + 1 + q ≤ n.log2) : AtLeast n d 1 q := by
  have n_ge : 2 ^ n.log2 ≤ n := Nat.log2_self_le (Nat.ne_of_gt hn)
  have d_le : d ≤ 2 ^ (d.log2 + 1) := Nat.le_of_lt Nat.lt_log2_self
  rw [atLeast_iff, Nat.one_mul, scaled]
  split
  case isTrue hq =>
    calc d * 2 ^ q.toNat ≤ 2 ^ (d.log2 + 1) * 2 ^ q.toNat := Nat.mul_le_mul_right _ d_le
      _ = 2 ^ (d.log2 + 1 + q.toNat) := (Nat.pow_add ..).symm
      _ ≤ 2 ^ n.log2 := Nat.pow_le_pow_right Nat.two_pos (by omega)
      _ ≤ n := n_ge
  case isFalse hq =>
    calc d ≤ 2 ^ (d.log2 + 1) := d_le
      _ ≤ 2 ^ (n.log2 + (-q).toNat) := Nat.pow_le_pow_right Nat.two_pos (by omega)
      _ = 2 ^ n.log2 * 2 ^ (-q).toNat := Nat.pow_add ..
      _ ≤ n * 2 ^ (-q).toNat := Nat.mul_le_mul_right _ n_ge

theorem not_atLeast_one_of_log2_lt (hd : 0 < d) {q : Int} (h : (n.log2 : Int) + 1 ≤ d.log2 + q) : ¬ AtLeast n d 1 q := by
  have d_ge : 2 ^ d.log2 ≤ d := Nat.log2_self_le (Nat.ne_of_gt hd)
  have n_lt : n < 2 ^ (n.log2 + 1) := Nat.lt_log2_self
  rw [atLeast_iff, Nat.one_mul, Nat.not_le, scaled]
  split
  case isTrue hq =>
    calc n < 2 ^ (n.log2 + 1) := n_lt
      _ ≤ 2 ^ (d.log2 + q.toNat) := Nat.pow_le_pow_right Nat.two_pos (by omega)
      _ = 2 ^ d.log2 * 2 ^ q.toNat := Nat.pow_add ..
      _ ≤ d * 2 ^ q.toNat := Nat.mul_le_mul_right _ d_ge
  case isFalse hq =>
    calc n * 2 ^ (-q).toNat < 2 ^ (n.log2 + 1) * 2 ^ (-q).toNat := Nat.mul_lt_mul_of_pos_right n_lt (Nat.two_pow_pos _)
      _ = 2 ^ (n.log2 + 1 + (-q).toNat) := (Nat.pow_add ..).symm
      _ ≤ 2 ^ d.log2 := Nat.pow_le_pow_right Nat.two_pos (by omega)
      _ ≤ d := d_ge

/-- `ilog2` compares n / d with the power of two that the two logarithms suggest, and takes one off where that is too large. -/
theorem ilog2_eq_sub_or (n d : Nat) :
    (ilog2 n d = (n.log2 : Int) - d.log2 ∧ AtLeast n d 1 ((n.log2 : Int) - d.log2))
      ∨ (ilog2 n d = (n.log2 : Int) - d.log2 - 1 ∧ ¬ AtLeast n d 1 ((n.log2 : Int) - d.log2)) := by
  simp only [atLeast_iff, scaled, ilog2, Nat.one_mul]
  by_cases h : 0 ≤ (n.log2 : Int) - d.log2
  case pos =>
    simp only [if_pos h, decide_eq_true_eq]
    split <;> omega
  case neg =>
    simp only [if_neg h, decide_eq_true_eq]
    split <;> omega

theorem le_ilog2_iff (hn : 0 < n) (hd : 0 < d) {q : Int} : q ≤ ilog2 n d ↔ AtLeast n d 1 q := by
  have bounds : AtLeast n d 1 (ilog2 n d) ∧ ¬ AtLeast n d 1 (ilog2 n d + 1) := by
    obtain ⟨value, reached⟩ | ⟨value, missed⟩ := ilog2_eq_sub_or n d
    case inl => rw [value]; exact ⟨reached, not_atLeast_one_of_log2_lt hd (by omega)⟩
    case inr => rw [value, Int.sub_add_cancel]; exact ⟨atLeast_one_of_log2_le hn (by omega), missed⟩
  have lower {a b : Int} (hab : a ≤ b) (h : AtLeast n d 1 b) : AtLeast n d 1 a := by
    obtain ⟨j, rfl⟩ := Int.le.dest hab
    exact AtLeast.mono (Nat.mul_pos Nat.one_pos (Nat.two_pow_pos j)) ((atLeast_add j).mpr h)
  exact ⟨fun h => lower h bounds.1, fun h => Int.not_lt.mp fun above => bounds.2 (lower above h)⟩

end AtLeast

/-! ## Delivery of a rounded pattern -/

/-- What a format delivers for a rounded magnitude whose pattern, as if exponents had no bound, is `bits`. -/
def FFmt.deliver (f : FFmt) (rm : Rm) (s : Bool) (bits rem : Nat) : Rounded :=
  if f.maxBits < bits then ⟨overflowBits f rm s, flNX ||| flOF⟩
  else ⟨bits + f.sign s, (if rem = 0 then 0 else flNX) ||| (if rem ≠ 0 ∧ bits < 2 ^ f.mb then flUF else 0)⟩

theorem roundRat_eq_deliver (f : FFmt) (rm : Rm) (s : Bool) {n d k rem dv : Nat} {q : Int} (hn : 0 < n)
    (hq : max (ilog2 n d - f.mb) f.ulp = q) (h : scaleDiv n d q = (k, rem, dv)) :
    roundRat f rm s n d =
      f.deliver rm s ((if roundUp rm s k rem dv then k + 1 else k) + (q - f.ulp).toNat * 2 ^ f.mb) rem := by
  subst hq
  simp only [roundRat, if_neg (Nat.ne_of_gt hn), h, FFmt.deliver]

theorem roundRat_zero (f : FFmt) (rm : Rm) (s : Bool) (d : Nat) : roundRat f rm s 0 d = ⟨f.sign s, 0⟩ := rfl

section Deliver
variable {f : FFmt} (rm : Rm) (s : Bool) {bits : Nat} (rem : Nat)

theorem FFmt.deliver_overflow (h : f.maxBits < bits) : f.deliver rm s bits rem = ⟨overflowBits f rm s, flNX ||| flOF⟩ := if_pos h

theorem FFmt.deliver_bits (h : bits ≤ f.maxBits) : (f.deliver rm s bits rem).bits = bits + f.sign s := by
  simp [FFmt.deliver, Nat.not_lt.mpr h]

theorem FFmt.deliver_not_OF (h : bits ≤ f.maxBits) : (f.deliver rm s bits rem).fl &&& flOF = 0 := by
  simp only [FFmt.deliver, Nat.not_lt.mpr h, if_false]
  split <;> split <;> decide

theorem FFmt.deliver_NX_iff (h : bits ≤ f.maxBits) : (f.deliver rm s bits rem).fl &&& flNX = 0 ↔ rem = 0 := by
  simp only [FFmt.deliver, Nat.not_lt.mpr h, if_false]
  by_cases hr : rem = 0
  case pos => simp [hr]
  case neg =>
    simp only [hr, if_false, iff_false]
    split <;> decide

theorem FFmt.deliver_fl_of_OF (h : (f.deliver rm s bits rem).fl &&& flOF ≠ 0) : (f.deliver rm s bits rem).fl = flOF ||| flNX := by
  by_cases big : f.maxBits < bits
  case pos => rw [FFmt.deliver_overflow rm s rem big]; exact BitVec.or_comm flNX flOF
  case neg => exact absurd (FFmt.deliver_not_OF rm s rem (Nat.not_lt.mp big)) h

end Deliver

/-- A rounding that raises OF raises NX with it and nothing else (R96). -/
theorem roundRat_fl_of_OF {f : FFmt} {rm : Rm} {s : Bool} {n d : Nat} (h : (roundRat f rm s n d).fl &&& flOF ≠ 0) :
    (roundRat f rm s n d).fl = flOF ||| flNX := by
  obtain rfl | hn := Nat.eq_zero_or_pos n
  case inl => simp [roundRat_zero] at h
  case inr =>
    obtain ⟨k, rem, dv, hk⟩ : ∃ k rem dv, scaleDiv n d (max (ilog2 n d - f.mb) f.ulp) = (k, rem, dv) := ⟨_, _, _, rfl⟩
    rw [roundRat_eq_deliver f rm s hn rfl hk] at h ⊢
    exact FFmt.deliver_fl_of_OF rm s rem h

/-! ## Whether a mode rounds up -/

/-- The mode takes a magnitude n / d with the floor `m` in units of 2^e to the next one (R95). -/
def RoundsUp (rm : Rm) (s : Bool) (m : Nat) (e : Int) (n d : Nat) : Prop :=
  let mid := ratOf (2 * m + 1) (e - 1)
  let exact : Prop := n * (ratOf m e).2 = (ratOf m e).1 * d
  match rm with
  | .rn => mid.1 * d < n * mid.2 ∨ (n * mid.2 = mid.1 * d ∧ m % 2 = 1)
  | .rna => mid.1 * d ≤ n * mid.2
  | .rz => False
  | .ru => s = false ∧ ¬ exact
  | .rd => s = true ∧ ¬ exact

section RoundsUp
variable {n d m rem dv : Nat} {e : Int} (hv : scaled n d e = (m * dv + rem, dv))
include hv

theorem exact_iff_rem_eq_zero : n * (ratOf m e).2 = (ratOf m e).1 * d ↔ rem = 0 := by
  rw [ratOf_fst_mul m n d, mul_ratOf_snd m n d, hv]
  dsimp only
  omega

/-- The middle of a cell against n / d is the divisor against twice the remainder. -/
theorem mid_cmp : ((ratOf (2 * m + 1) (e - 1)).1 * d < n * (ratOf (2 * m + 1) (e - 1)).2 ↔ dv < 2 * rem)
    ∧ (n * (ratOf (2 * m + 1) (e - 1)).2 = (ratOf (2 * m + 1) (e - 1)).1 * d ↔ 2 * rem = dv)
    ∧ ((ratOf (2 * m + 1) (e - 1)).1 * d ≤ n * (ratOf (2 * m + 1) (e - 1)).2 ↔ dv ≤ 2 * rem) := by
  have half := scaled_succ n d (e - 1)
  rw [Int.sub_add_cancel, hv] at half
  dsimp only at half
  rw [ratOf_fst_mul (2 * m + 1) n d, mul_ratOf_snd (2 * m + 1) n d, Nat.add_mul, Nat.one_mul, Nat.mul_assoc]
  obtain ⟨num, den⟩ | ⟨num, den⟩ := half
  case inl =>
    have whole : m * dv = 2 * (m * (scaled n d (e - 1)).2) := by rw [← den, Nat.mul_left_comm]
    omega
  case inr =>
    rw [den]
    omega

theorem roundUp_iff (rm : Rm) (s : Bool) : roundUp rm s m rem dv = true ↔ RoundsUp rm s m e n d := by
  obtain ⟨lt, eq, le⟩ := mid_cmp hv
  have exact := exact_iff_rem_eq_zero hv
  cases rm <;> simp [roundUp, RoundsUp, lt, eq, le, exact]

end RoundsUp

/-- A mode that rounds up has a remainder to round. -/
theorem rem_ne_zero_of_roundUp {rm : Rm} {s : Bool} {m rem dv : Nat} (hrem : rem < dv) (h : roundUp rm s m rem dv = true) :
    rem ≠ 0 := by
  rintro rfl
  cases rm <;> simp [roundUp] at h <;> omega

/-! ## Patterns and the values they have -/

/-- The integer significand of the pattern of a finite value, sign clear. -/
def FFmt.frac (f : FFmt) (p : Nat) : Nat := if p < 2 ^ f.mb then p else p % 2 ^ f.mb + 2 ^ f.mb
/-- The exponent of the significand's last bit. -/
def FFmt.expo (f : FFmt) (p : Nat) : Int := max 1 ((p / 2 ^ f.mb : Nat) : Int) - f.bias - f.mb

section Pattern
variable (f : FFmt) (p : Nat)

theorem FFmt.frac_lt : f.frac p < 2 * 2 ^ f.mb := by
  have := Nat.mod_lt p (Nat.two_pow_pos f.mb)
  unfold FFmt.frac
  split <;> omega

theorem FFmt.ulp_le_expo : f.ulp ≤ f.expo p := by
  unfold FFmt.ulp FFmt.expo; omega

theorem FFmt.expo_of_subnormal (h : p < 2 ^ f.mb) : f.expo p = f.ulp := by
  rw [FFmt.ulp, FFmt.expo, Nat.div_eq_of_lt h]; omega

theorem FFmt.expo_of_normal (h : 2 ^ f.mb ≤ p) : f.expo p = f.ulp + (p / 2 ^ f.mb : Nat) - 1 := by
  have := Nat.div_pos h (Nat.two_pow_pos f.mb)
  unfold FFmt.ulp FFmt.expo; omega

theorem FFmt.frac_of_subnormal (h : p < 2 ^ f.mb) : f.frac p = p := if_pos h

theorem FFmt.frac_of_normal (h : 2 ^ f.mb ≤ p) : f.frac p = p % 2 ^ f.mb + 2 ^ f.mb := if_neg (Nat.not_lt.mpr h)

theorem FFmt.expo_eq_ulp_or_normal : f.expo p = f.ulp ∨ 2 ^ f.mb ≤ f.frac p := by
  obtain h | h := Nat.lt_or_ge p (2 ^ f.mb)
  case inl => exact .inl (f.expo_of_subnormal p h)
  case inr => rw [f.frac_of_normal p h]; omega

/-- A pattern counts significands in units of its exponent above the smallest one. -/
theorem FFmt.frac_add_expo : f.frac p + (f.expo p - f.ulp).toNat * 2 ^ f.mb = p := by
  obtain h | h := Nat.lt_or_ge p (2 ^ f.mb)
  case inl => simp [f.frac_of_subnormal p h, f.expo_of_subnormal p h]
  case inr =>
    obtain ⟨j, hj⟩ : ∃ j, p / 2 ^ f.mb = j + 1 := Nat.exists_eq_succ_of_ne_zero (Nat.ne_of_gt (Nat.div_pos h (Nat.two_pow_pos f.mb)))
    have step : (f.expo p - f.ulp).toNat = j := by rw [f.expo_of_normal p h, hj]; omega
    have whole := Nat.div_add_mod p (2 ^ f.mb)
    rw [hj, Nat.mul_succ] at whole
    rw [f.frac_of_normal p h, step, Nat.mul_comm]
    omega

/-- The value of a pattern of either sign. -/
theorem FFmt.val_add_sign (s : Bool) (hp : p < 2 ^ (f.eb + f.mb)) :
    f.val (p + f.sign s) =
      if f.inf = true ∧ p / 2 ^ f.mb = 2 ^ f.eb - 1 then (if p % 2 ^ f.mb = 0 then .inf s else .nan)
      else if f.inf = false ∧ p = 2 ^ (f.eb + f.mb) - 1 then .nan
      else .fin s (f.frac p) (f.expo p) := by
  have split_pow : 2 ^ (f.eb + f.mb) = 2 ^ f.mb * 2 ^ f.eb := by rw [Nat.add_comm, Nat.pow_add]
  have field_lt : p / 2 ^ f.mb < 2 ^ f.eb := Nat.div_lt_of_lt_mul (split_pow ▸ hp)
  have sign_bit : ((p + f.sign s) / 2 ^ (f.eb + f.mb) % 2 == 1) = s := by
    cases s <;> simp [FFmt.sign, Nat.div_eq_of_lt hp, Nat.add_div_right _ (Nat.two_pow_pos _)]
  have expo_field : (p + f.sign s) / 2 ^ f.mb % 2 ^ f.eb = p / 2 ^ f.mb := by
    cases s <;> simp [FFmt.sign, split_pow, Nat.add_mul_div_left _ _ (Nat.two_pow_pos _), Nat.mod_eq_of_lt field_lt]
  have frac_field : (p + f.sign s) % 2 ^ f.mb = p % 2 ^ f.mb := by
    cases s <;> simp [FFmt.sign, split_pow]
  have magnitude : (p + f.sign s) % 2 ^ (f.eb + f.mb) = p := by
    cases s <;> simp [FFmt.sign, Nat.mod_eq_of_lt hp]
  have finite : (if p / 2 ^ f.mb = 0 then FV.fin s (p % 2 ^ f.mb) f.ulp
      else .fin s (p % 2 ^ f.mb + 2 ^ f.mb) (f.ulp + (p / 2 ^ f.mb : Nat) - 1)) = .fin s (f.frac p) (f.expo p) := by
    obtain h | h := Nat.lt_or_ge p (2 ^ f.mb)
    case inl => simp [Nat.div_eq_of_lt h, Nat.mod_eq_of_lt h, f.frac_of_subnormal p h, f.expo_of_subnormal p h]
    case inr =>
      rw [if_neg (Nat.ne_of_gt (Nat.div_pos h (Nat.two_pow_pos _))), f.frac_of_normal p h, f.expo_of_normal p h]
  simp only [FFmt.val, sign_bit, expo_field, frac_field, magnitude, finite]
  simp

end Pattern

section Limits
variable {f : FFmt} (heb : 0 < f.eb) {p : Nat} (s : Bool)
include heb

theorem FFmt.maxBits_add_one_of_inf (h : f.inf = true) : f.maxBits + 1 = (2 ^ f.eb - 1) * 2 ^ f.mb := by
  have : 0 < (2 ^ f.eb - 1) * 2 ^ f.mb := Nat.mul_pos (Nat.sub_pos_of_lt (Nat.one_lt_two_pow (Nat.ne_of_gt heb))) (Nat.two_pow_pos _)
  rw [FFmt.maxBits, if_pos h]; omega

theorem FFmt.maxBits_add_two_of_no_inf (h : f.inf = false) : f.maxBits + 2 = 2 ^ (f.eb + f.mb) := by
  have : 1 < 2 ^ (f.eb + f.mb) := Nat.one_lt_two_pow (by omega)
  rw [FFmt.maxBits, h, if_neg (by decide)]; omega

theorem FFmt.maxBits_add_one_lt : f.maxBits + 1 < 2 ^ (f.eb + f.mb) := by
  cases h : f.inf
  case false => have := maxBits_add_two_of_no_inf heb h; omega
  case true =>
    rw [maxBits_add_one_of_inf heb h, Nat.pow_add]
    exact Nat.mul_lt_mul_of_pos_right (Nat.sub_one_lt (Nat.ne_of_gt (Nat.two_pow_pos _))) (Nat.two_pow_pos _)

/-- Patterns up to the largest finite one have finite values (R91). -/
theorem FFmt.val_of_le_maxBits (hp : p ≤ f.maxBits) : f.val (p + f.sign s) = .fin s (f.frac p) (f.expo p) := by
  have room := maxBits_add_one_lt heb
  have no_inf_nan : ¬ (f.inf = true ∧ p / 2 ^ f.mb = 2 ^ f.eb - 1) := by
    rintro ⟨h, hexp⟩
    have below : p < (2 ^ f.eb - 1) * 2 ^ f.mb := by rw [← maxBits_add_one_of_inf heb h]; omega
    exact Nat.ne_of_lt ((Nat.div_lt_iff_lt_mul (Nat.two_pow_pos _)).mpr below) hexp
  have no_nan : ¬ (f.inf = false ∧ p = 2 ^ (f.eb + f.mb) - 1) := by omega
  rw [f.val_add_sign p s (by omega), if_neg no_inf_nan, if_neg no_nan]

/-- The pattern after the largest finite one is the infinity, or the NaN of a format without infinity (R91). -/
theorem FFmt.val_succ_maxBits : f.val (f.maxBits + 1 + f.sign s) = if f.inf = true then .inf s else .nan := by
  rw [f.val_add_sign _ s (maxBits_add_one_lt heb)]
  cases h : f.inf
  case false =>
    have := maxBits_add_two_of_no_inf heb h
    simp [← this]
  case true => simp [maxBits_add_one_of_inf heb h, Nat.mul_div_cancel _ (Nat.two_pow_pos _)]

end Limits

/-! ## Rounding between two neighbouring patterns (R95) -/

section Cells
variable (f : FFmt) (p : Nat) {n d : Nat} (hn : 0 < n) (hd : 0 < d)
include hn hd

theorem ilog2_lt_of_below (hi : ¬ AtLeast n d (f.frac p + 1) (f.expo p)) : ilog2 n d < f.expo p + f.mb + 1 := by
  have frac_lt : f.frac p + 1 ≤ 1 * 2 ^ (f.mb + 1) := by have := f.frac_lt p; rw [Nat.pow_succ]; omega
  refine Int.not_le.mp fun above => hi (AtLeast.mono frac_lt ?_)
  rw [atLeast_add, ← le_ilog2_iff hn hd]
  omega

theorem le_ilog2_of_atLeast (normal : 2 ^ f.mb ≤ f.frac p) (lo : AtLeast n d (f.frac p) (f.expo p)) :
    f.expo p + f.mb ≤ ilog2 n d := by
  rw [le_ilog2_iff hn hd, ← atLeast_add, Nat.one_mul]
  exact AtLeast.mono normal lo

/-- Between the value of a pattern and the next one, `roundRat` works in units of the pattern's exponent. -/
theorem roundingExp_of_cell (lo : AtLeast n d (f.frac p) (f.expo p)) (hi : ¬ AtLeast n d (f.frac p + 1) (f.expo p)) :
    max (ilog2 n d - f.mb) f.ulp = f.expo p := by
  have below := ilog2_lt_of_below f p hn hd hi
  have := f.ulp_le_expo p
  obtain h | h := f.expo_eq_ulp_or_normal p
  case inl => omega
  case inr => have := le_ilog2_of_atLeast f p hn hd h lo; omega

/-- A value from that of a pattern up to the next one is delivered as the one or the other, and inexactly unless it is
the pattern's own. -/
theorem roundRat_of_cell (rm : Rm) (s : Bool) (lo : AtLeast n d (f.frac p) (f.expo p))
    (hi : ¬ AtLeast n d (f.frac p + 1) (f.expo p)) :
    ∃ rem, (n * (ratOf (f.frac p) (f.expo p)).2 = (ratOf (f.frac p) (f.expo p)).1 * d ↔ rem = 0)
      ∧ (¬ RoundsUp rm s (f.frac p) (f.expo p) n d → roundRat f rm s n d = f.deliver rm s p rem)
      ∧ (RoundsUp rm s (f.frac p) (f.expo p) n d → rem ≠ 0 ∧ roundRat f rm s n d = f.deliver rm s (p + 1) rem) := by
  obtain ⟨rem, dv, hk, hrem, hv⟩ := scaleDiv_of_cell hd lo hi
  have delivered := roundRat_eq_deliver f rm s hn (roundingExp_of_cell f p hn hd lo hi) hk
  have whole := f.frac_add_expo p
  refine ⟨rem, exact_iff_rem_eq_zero hv, fun h => ?_, fun h => ?_⟩
  all_goals rw [← roundUp_iff hv] at h
  · rw [delivered, if_neg h, whole]
  · rw [delivered, if_pos h, Nat.add_right_comm, whole]
    exact ⟨rem_ne_zero_of_roundUp hrem h, rfl⟩

/-- A value not below the one after a normal pattern's is delivered as a larger pattern. -/
theorem roundRat_above_cell (rm : Rm) (s : Bool) (normal : 2 ^ f.mb ≤ p) (hi : AtLeast n d (f.frac p + 1) (f.expo p)) :
    ∃ bits rem, p < bits ∧ roundRat f rm s n d = f.deliver rm s bits rem := by
  obtain ⟨q, hq⟩ : ∃ q, max (ilog2 n d - f.mb) f.ulp = q := ⟨_, rfl⟩
  obtain ⟨k, rem, dv, hk⟩ : ∃ k rem dv, scaleDiv n d q = (k, rem, dv) := ⟨_, _, _, rfl⟩
  refine ⟨_, rem, ?_, roundRat_eq_deliver f rm s hn hq hk⟩
  have quot_le : k ≤ if roundUp rm s k rem dv then k + 1 else k := by split <;> omega
  refine Nat.lt_of_lt_of_le ?_ (Nat.add_le_add_right quot_le _)
  have frac_normal : 2 ^ f.mb ≤ f.frac p := by rw [f.frac_of_normal p normal]; omega
  have log_ge := le_ilog2_of_atLeast f p hn hd frac_normal (AtLeast.mono (Nat.le_succ _) hi)
  have expo_ge := f.ulp_le_expo p
  have whole := f.frac_add_expo p
  obtain same | larger : q = f.expo p ∨ f.expo p < q := by omega
  case inl =>
    rw [← same] at hi whole
    have := (atLeast_iff_le_quot hd hk _).mp hi
    omega
  case inr =>
    have unit_le : AtLeast n d (1 * 2 ^ f.mb) q := by
      rw [atLeast_add, ← le_ilog2_iff hn hd]; omega
    have quot_normal := (atLeast_iff_le_quot hd hk _).mp unit_le
    have steps : ((f.expo p - f.ulp).toNat + 1) * 2 ^ f.mb ≤ (q - f.ulp).toNat * 2 ^ f.mb := Nat.mul_le_mul_right _ (by omega)
    have := f.frac_lt p
    rw [Nat.succ_mul] at steps
    omega

end Cells

/-! ## Overflow (R95) -/

/-- The mode takes an overflow of this sign to the infinity. -/
def OverflowsToInf (rm : Rm) (s : Bool) : Prop := rm = .rn ∨ rm = .rna ∨ (rm = .ru ∧ s = false) ∨ (rm = .rd ∧ s = true)

theorem overflowBits_of_toInf {f : FFmt} {rm : Rm} {s : Bool} (h : OverflowsToInf rm s) :
    overflowBits f rm s = if f.inf then f.infBits + f.sign s else f.nan := by
  cases rm <;> simp [OverflowsToInf] at h <;> simp [overflowBits, h]

theorem overflowBits_of_not_toInf {f : FFmt} {rm : Rm} {s : Bool} (h : ¬ OverflowsToInf rm s) :
    overflowBits f rm s = f.maxBits + f.sign s := by
  cases rm <;> simp [OverflowsToInf] at h <;> simp [overflowBits, h]

/-! ## The five formats (R91) -/

/-- A format, its fraction bits, its bias, its largest finite pattern, what overflow to ±∞ gives, and its sign bit. -/
def formatRows : List (FFmt × Nat × Int × Nat × (Bool → Nat) × Nat) := [
  (fp32, 23, 127, 0x7F7FFFFF, fun s => if s then 0xFF800000 else 0x7F800000, 2 ^ 31),
  (fp16, 10, 15, 0x7BFF, fun s => if s then 0xFC00 else 0x7C00, 2 ^ 15),
  (bf16, 7, 127, 0x7F7F, fun s => if s then 0xFF80 else 0x7F80, 2 ^ 15),
  (e4m3, 3, 7, 0x7E, fun _ => 0x7F, 2 ^ 7),
  (e5m2, 2, 15, 0x7B, fun s => if s then 0xFC else 0x7C, 2 ^ 7)]

/-- The row of a format says what the model computes from the widths of its fields. -/
structure FFmt.IsRow (f : FFmt) (mb : Nat) (bias : Int) (top : Nat) (past : Bool → Nat) (sgn : Nat) : Prop where
  eb_pos : 0 < f.eb
  mb_eq : mb = f.mb
  bias_eq : bias = f.bias
  top_eq : top = f.maxBits
  past_eq : ∀ s, past s = if f.inf then f.infBits + f.sign s else f.nan
  sgn_eq : sgn = 2 ^ (f.eb + f.mb)
  top_normal : 2 ^ f.mb ≤ f.maxBits
  inf_iff : f.inf = true ↔ f ≠ e4m3

theorem isRow_of_mem {f : FFmt} {mb : Nat} {bias : Int} {top : Nat} {past : Bool → Nat} {sgn : Nat}
    (h : (f, mb, bias, top, past, sgn) ∈ formatRows) : f.IsRow mb bias top past sgn := by
  simp only [formatRows, List.mem_cons, Prod.mk.injEq, List.not_mem_nil, or_false] at h
  obtain ⟨rfl, rfl, rfl, rfl, rfl, rfl⟩ | ⟨rfl, rfl, rfl, rfl, rfl, rfl⟩ | ⟨rfl, rfl, rfl, rfl, rfl, rfl⟩
    | ⟨rfl, rfl, rfl, rfl, rfl, rfl⟩ | ⟨rfl, rfl, rfl, rfl, rfl, rfl⟩ := h
  all_goals constructor <;> decide

/-! ## What a row of R91 and R95 says of its format -/

/-- A result is what the table of overflows gives, `past` where it gives an infinity. -/
def OverflowResult (f : FFmt) (rm : Rm) (s : Bool) (past : Bool → Nat) (r : Rounded) : Prop :=
  (OverflowsToInf rm s → r.bits = past s) ∧ (¬ OverflowsToInf rm s → r.bits = f.maxBits + f.sign s) ∧ r.fl = flOF ||| flNX

namespace FFmt.IsRow
variable {f : FFmt} {mb : Nat} {bias : Int} {top : Nat} {past : Bool → Nat} {sgn : Nat} (row : f.IsRow mb bias top past sgn)
include row

theorem deliver_overflowResult (rm : Rm) (s : Bool) {bits : Nat} (rem : Nat) (h : f.maxBits < bits) :
    OverflowResult f rm s past (f.deliver rm s bits rem) := by
  rw [deliver_overflow rm s rem h]
  refine ⟨fun toInf => ?_, overflowBits_of_not_toInf, BitVec.or_comm flNX flOF⟩
  rw [row.past_eq, ← overflowBits_of_toInf toInf]

variable {p n d : Nat} (hn : 0 < n) (hd : 0 < d) (rm : Rm) (s : Bool)
include hn hd

/-- A value from that of a finite pattern up to the next one (R95, R96). -/
theorem roundRat_within (hp : p ≤ f.maxBits)
    (lo : (ratOf (f.frac p) (f.expo p)).1 * d ≤ n * (ratOf (f.frac p) (f.expo p)).2)
    (hi : n * (ratOf (f.frac p + 1) (f.expo p)).2 < (ratOf (f.frac p + 1) (f.expo p)).1 * d) :
    (¬ RoundsUp rm s (f.frac p) (f.expo p) n d → (roundRat f rm s n d).bits = p + f.sign s
        ∧ ((roundRat f rm s n d).fl &&& flNX = 0 ↔ n * (ratOf (f.frac p) (f.expo p)).2 = (ratOf (f.frac p) (f.expo p)).1 * d)
        ∧ (roundRat f rm s n d).fl &&& flOF = 0)
      ∧ (RoundsUp rm s (f.frac p) (f.expo p) n d → p < f.maxBits → (roundRat f rm s n d).bits = p + 1 + f.sign s
        ∧ (roundRat f rm s n d).fl &&& flNX ≠ 0 ∧ (roundRat f rm s n d).fl &&& flOF = 0)
      ∧ (RoundsUp rm s (f.frac p) (f.expo p) n d → p = f.maxBits → OverflowResult f rm s past (roundRat f rm s n d)) := by
  obtain ⟨rem, exact, down, up⟩ := roundRat_of_cell f p hn hd rm s lo (Nat.not_le.mpr hi)
  refine ⟨fun h => ?_, fun h below => ?_, fun h last => ?_⟩
  · rw [down h, exact]
    exact ⟨deliver_bits rm s rem hp, deliver_NX_iff rm s rem hp, deliver_not_OF rm s rem hp⟩
  · obtain ⟨inexact, result⟩ := up h
    rw [result, Ne, deliver_NX_iff rm s rem below]
    exact ⟨deliver_bits rm s rem below, inexact, deliver_not_OF rm s rem below⟩
  · obtain ⟨-, result⟩ := up h
    rw [result]
    exact row.deliver_overflowResult rm s rem (by omega)

/-- A value not below the one that would follow the largest finite one (R95). -/
theorem roundRat_beyond
    (hi : (ratOf (f.frac f.maxBits + 1) (f.expo f.maxBits)).1 * d ≤ n * (ratOf (f.frac f.maxBits + 1) (f.expo f.maxBits)).2) :
    OverflowResult f rm s past (roundRat f rm s n d) := by
  obtain ⟨bits, rem, above, result⟩ := roundRat_above_cell f f.maxBits hn hd rm s row.top_normal hi
  rw [result]
  exact row.deliver_overflowResult rm s rem above

end FFmt.IsRow

/-! ## Sums and products (R95, R143) -/

/-- `r` is the sum over 2^o of two addends with signs v and w, rounded once. -/
def RoundsSum (f : FFmt) (rm : Rm) (r : Rounded) (sum o : Int) (v w : Bool) : Prop :=
  (sum ≠ 0 → r = roundRat f rm (decide (sum < 0)) (ratOf sum.natAbs o).1 (ratOf sum.natAbs o).2)
    ∧ (sum = 0 → r = ⟨f.sign (if v = w then v else rm == .rd), 0⟩)

theorem FV.over_fin (s : Bool) (m : Nat) (g e : Int) :
    (FV.fin s m g).over e = (if s then -1 else 1) * ((m * 2 ^ (g - e).toNat : Nat) : Int) := by
  cases s <;> simp [FV.over]

theorem FV.over_fin_not (s : Bool) (m : Nat) (g e : Int) : (FV.fin (!s) m g).over e = -(FV.fin s m g).over e := by
  cases s <;> simp [FV.over]

theorem FV.round_fin (s : Bool) (m : Nat) (e : Int) (f : FFmt) (rm : Rm) :
    (FV.fin s m e).round f rm = roundRat f rm s (ratOf m e).1 (ratOf m e).2 := rfl

theorem ratOf_zero_fst (e : Int) : (ratOf 0 e).1 = 0 := by
  unfold ratOf; split <;> simp

theorem FV.round_zero (s : Bool) (e : Int) (f : FFmt) (rm : Rm) : (FV.fin s 0 e).round f rm = ⟨f.sign s, 0⟩ := by
  rw [FV.round_fin, ratOf_zero_fst, roundRat_zero]

theorem exactSum_fin_pair (rm : Rm) (s t : Bool) (m n : Nat) (x y : Int) :
    exactSum rm [.fin s m x, .fin t n y] =
      (if (FV.fin s m x).over (min x y) + (FV.fin t n y).over (min x y) = 0 then .fin (if s = t then s else rm == .rd) 0 0
        else .fin (decide ((FV.fin s m x).over (min x y) + (FV.fin t n y).over (min x y) < 0))
          ((FV.fin s m x).over (min x y) + (FV.fin t n y).over (min x y)).natAbs (min x y), false) := by
  have exps : minExp [.fin s m x, .fin t n y] = min x y := rfl
  by_cases h : (FV.fin s m x).over (min x y) + (FV.fin t n y).over (min x y) = 0
  case neg => simp [exactSum, exps, FV.isNan, h]
  case pos => cases s <;> cases t <;> simp [exactSum, exps, FV.isNan, FV.sgn, h]

theorem fAddV_fin_pair (f : FFmt) (rm : Rm) (s t : Bool) (m n : Nat) (x y : Int) :
    RoundsSum f rm (fAddV f rm [.fin s m x, .fin t n y])
      ((FV.fin s m x).over (min x y) + (FV.fin t n y).over (min x y)) (min x y) s t := by
  rw [fAddV, exactSum_fin_pair]
  constructor
  · intro h; rw [if_neg h]; rfl
  · intro h; rw [if_pos h]; exact FV.round_zero _ _ _ _

section Finite
variable {f : FFmt} (rm : Rm) {a b c : Nat} {s t u : Bool} {m n k : Nat} {x y z : Int}
  (ha : f.val a = .fin s m x) (hb : f.val b = .fin t n y)
include ha hb

theorem fAdd_fin : RoundsSum f rm (fAdd f rm a b)
    ((FV.fin s m x).over (min x y) + (FV.fin t n y).over (min x y)) (min x y) s t := by
  rw [fAdd, ha, hb]; exact fAddV_fin_pair f rm s t m n x y

theorem fSub_fin : RoundsSum f rm (fSub f rm a b)
    ((FV.fin s m x).over (min x y) - (FV.fin t n y).over (min x y)) (min x y) s (!t) := by
  rw [fSub, ha, hb, Int.sub_eq_add_neg, ← FV.over_fin_not]; exact fAddV_fin_pair f rm s (!t) m n x y

theorem fMul_fin : fMul f rm a b = (FV.fin (s != t) (m * n) (x + y)).round f rm := by
  rw [fMul, ha, hb]; rfl

theorem fFma_fin (hc : f.val c = .fin u k z) : RoundsSum f rm (fFma f rm a b c)
    ((FV.fin (s != t) (m * n) (x + y)).over (min (x + y) z) + (FV.fin u k z).over (min (x + y) z)) (min (x + y) z) (s != t) u := by
  rw [fFma, ha, hb, hc]; exact fAddV_fin_pair f rm (s != t) u (m * n) k (x + y) z

end Finite

/-! ## Saturating conversions (R95, R153) -/

theorem cvtFF_saturates {src dst : FFmt} {rm : Rm} {x m : Nat} {s : Bool} {e : Int} (hx : src.val x = .fin s m e)
    (h : (roundRat dst rm s (ratOf m e).1 (ratOf m e).2).fl &&& flOF ≠ 0) :
    cvtFF src dst rm true x = ⟨dst.maxBits + dst.sign s, flOF ||| flNX⟩ := by
  have fl := roundRat_fl_of_OF h
  have raised : ((flOF ||| flNX) &&& flOF != 0) = true := by decide
  simp only [cvtFF, hx, FV.round_fin, fl, raised, Bool.and_true, if_true]

/-! ## Infinities, zeros and NaNs in FP32 (R93, R143, R144, R147) -/

section Special
variable (rm : Rm) (s : Bool) {x : Nat}

theorem fp32_val_inf : fp32.val (fp32.infBits + fp32.sign s) = .inf s := by cases s <;> decide
theorem fp32_val_zero : fp32.val (fp32.sign s) = .fin s 0 (-149) := by cases s <;> decide

theorem fAdd_opposite_inf : fAdd fp32 rm (fp32.infBits + fp32.sign s) (fp32.infBits + fp32.sign !s) = ⟨fp32.nan, flIV⟩ := by
  rw [fAdd, fp32_val_inf, fp32_val_inf]; cases s <;> rfl

theorem fSub_same_inf : fSub fp32 rm (fp32.infBits + fp32.sign s) (fp32.infBits + fp32.sign s) = ⟨fp32.nan, flIV⟩ := by
  rw [fSub, fp32_val_inf]; cases s <;> rfl

theorem fMul_zero_inf (t : Bool) : fMul fp32 rm (fp32.sign s) (fp32.infBits + fp32.sign t) = ⟨fp32.nan, flIV⟩ := by
  rw [fMul, fp32_val_zero, fp32_val_inf]; rfl

theorem fFma_zero_inf (t : Bool) (c : Nat) : fFma fp32 rm (fp32.sign s) (fp32.infBits + fp32.sign t) c = ⟨fp32.nan, flIV⟩ := by
  rw [fFma, fp32_val_zero, fp32_val_inf]; rfl

theorem fAdd_nan_zero (h : fp32.val x = .nan) : fAdd fp32 rm x (fp32.sign s) = ⟨fp32.nan, 0⟩ := by
  rw [fAdd, h, fp32_val_zero]; rfl

theorem fMul_nan (h : fp32.val x = .nan) (b : Nat) : fMul fp32 rm x b = ⟨fp32.nan, 0⟩ := by
  rw [fMul, h]; rfl

theorem fAdd_zeros (t : Bool) : fAdd fp32 rm (fp32.sign s) (fp32.sign t) = ⟨fp32.sign (if s = t then s else rm == .rd), 0⟩ :=
  (fAdd_fin rm (fp32_val_zero s) (fp32_val_zero t)).2 (by simp [FV.over])

theorem fMinMax_zeros : fMinMax fp32 s (fp32.sign s) (fp32.sign !s) = ⟨fp32.sign !s, 0⟩ := by
  cases s <;> decide

theorem fMinMax_nan_zero (max : Bool) (h : fp32.val x = .nan) :
    fMinMax fp32 max x (fp32.sign s) = ⟨fp32.sign s, 0⟩ ∧ fMinMax fp32 max (fp32.sign s) x = ⟨fp32.sign s, 0⟩ := by
  simp [fMinMax, h, fp32_val_zero, FV.cmp, FV.isNan]

end Special

/-- FCLS names one of nine classes. -/
theorem fCls_eq_two_pow (f : FFmt) (x : Nat) : ∃ k, k < 9 ∧ fCls f x = 2 ^ k := by
  unfold fCls
  split
  case h_1 => exact ⟨8, by decide, rfl⟩
  case h_2 s _ =>
    cases s
    case false => exact ⟨7, by decide, rfl⟩
    case true => exact ⟨0, by decide, rfl⟩
  case h_3 s m _ _ =>
    cases s <;> split
    case false.isTrue => exact ⟨4, by decide, rfl⟩
    case true.isTrue => exact ⟨3, by decide, rfl⟩
    case false.isFalse =>
      split
      · exact ⟨5, by decide, rfl⟩
      · exact ⟨6, by decide, rfl⟩
    case true.isFalse =>
      split
      · exact ⟨2, by decide, rfl⟩
      · exact ⟨1, by decide, rfl⟩

/-- Settles O7: between two neighbouring patterns `roundRat` has the quotient and the remainder of the value in units of the
lower one's last place, so that it delivers the one or the other as the remainder compares with the half. -/
theorem floatRounding : Obligations.FloatRounding := by
  unfold Obligations.FloatRounding
  refine ⟨fun f mb bias top past sgn p mem => ?values, fun f rm a b c s t u m n k x y z _ ha hb hc => ?sums,
    fun src dst mb bias top past sgn x m rm s e mem hx overflow => ?saturation, fun rm s x => ?special⟩
  case values =>
    have row := isRow_of_mem mem
    obtain ⟨eb_pos, rfl, rfl, rfl, -, rfl, -, inf_iff⟩ := isRow_of_mem mem
    refine ⟨fun hp => ⟨f.val_of_le_maxBits eb_pos false hp, f.val_of_le_maxBits eb_pos true hp⟩, fun hf hp => ?_, fun hf hp => ?_,
      fun rm s n d hn hd hp => ⟨row.roundRat_within hn hd rm s hp, ?_⟩⟩
    · have val s := FFmt.val_succ_maxBits eb_pos s
      simp only [inf_iff.mpr hf, if_true, ← hp] at val
      exact ⟨val false, val true⟩
    · have val s := FFmt.val_succ_maxBits eb_pos s
      have no_inf : f.inf ≠ true := by simpa [inf_iff] using hf
      simp only [no_inf, ← hp] at val
      exact ⟨val false, val true⟩
    · rintro rfl
      exact row.roundRat_beyond hn hd rm s
  case sums =>
    have add := fAdd_fin rm ha hb
    have sub := fSub_fin rm ha hb
    have fma := fFma_fin rm ha hb hc
    simp only [FV.over_fin] at add sub fma
    refine ⟨add, sub, fun _ => fMul_fin rm ha hb, fun h => ?_, fma⟩
    rw [fMul_fin rm ha hb, h, FV.round_zero]
  case saturation =>
    obtain ⟨-, -, -, rfl, -, rfl, -, -⟩ := isRow_of_mem mem
    exact cvtFF_saturates hx overflow
  case special =>
    refine ⟨fAdd_opposite_inf rm s, fSub_same_inf rm s, fMul_zero_inf rm s false, fFma_zero_inf rm s true x,
      fun h => ⟨fAdd_nan_zero rm s h, fMul_nan rm h _⟩, ?_, ?_, fMinMax_zeros false, fMinMax_zeros true,
      fMinMax_nan_zero s s, fCls_eq_two_pow fp32 x⟩
    · rw [fAdd_zeros]; cases s <;> simp
    · rw [fAdd_zeros, if_pos rfl]

end Sys2Proof.Machine
end

section
/-! SUPPORT. Guards and the lanes of an issuing entry (R24, R25, R34, R115): what a condition asks of the flags for each kind of
condition code, and when a lane is a thread of the entry, an active thread or a helper that performs with them. -/

namespace Sys2Proof.Machine

/-- A lane's quad holds a live thread where some lane with its quad number is live. -/
theorem quadLive_iff (w : Wave) (l : Nat) : w.quadLive l = true ↔ ∃ k, k / 4 = l / 4 ∧ (w.lane k).st = .live := by
  have quad (k : Nat) : k ∈ [4 * (l / 4), 4 * (l / 4) + 1, 4 * (l / 4) + 2, 4 * (l / 4) + 3] ↔ k / 4 = l / 4 := by
    simp only [List.mem_cons, List.not_mem_nil, or_false]
    omega
  simp only [Wave.quadLive, List.any_eq_true, quad, beq_iff_eq]

/-- A helper stands in a slot without a live thread, in a quad that holds one (R34). -/
theorem helper_iff (w : Wave) (l : Nat) :
    w.helper l = true ↔ (w.lane l).st ≠ .live ∧ ∃ k, k / 4 = l / 4 ∧ (w.lane k).st = .live := by
  simp only [Wave.helper, Bool.and_eq_true, bne_iff_ne, quadLive_iff]

theorem mem_entryLanes (w : Wave) (pc : DWord) (prio : Byte) (l : Nat) :
    l ∈ w.entryLanes pc prio ↔ l < 64 ∧ (w.lane l).st = .live ∧ (w.lane l).pc = pc ∧ (w.lane l).prio = prio
      ∧ (w.lane l).wait = .none ∧ (w.inHandler = true → (w.lane l).handler = true) := by
  have handler : (!w.inHandler || (w.lane l).handler) = true ↔ (w.inHandler = true → (w.lane l).handler = true) := by
    cases w.inHandler <;> simp
  simp only [Wave.entryLanes, List.mem_filter, List.mem_range, Bool.and_eq_true, beq_iff_eq, handler, and_assoc]

/-- The helpers that perform with an issuing entry, beside what `of_eq` says of its threads (R34). -/
theorem hlp_of_eq {c : Ctl} {m : Mach} {e : Env} (h : Env.of c m = some e) :
    e.hlp = (List.range 64).filter fun l => e.w.helper l && e.act.any (fun a => a / 4 == l / 4) && e.w.guard m.clk c l := by
  unfold Env.of at h
  split at h
  case h_1 => cases h
  split at h
  case h_1 => cases h
  split at h
  case h_1 => cases h
  cases h
  rfl

/-- They are the helpers in the quads of its active threads whose own guard is true. -/
theorem mem_hlp_of_eq {c : Ctl} {m : Mach} {e : Env} (h : Env.of c m = some e) (l : Nat) :
    l ∈ e.hlp ↔ l < 64 ∧ e.w.helper l = true ∧ (∃ k ∈ e.act, k / 4 = l / 4) ∧ e.w.guard m.clk c l = true := by
  simp only [hlp_of_eq h, List.mem_filter, List.mem_range, Bool.and_eq_true, List.any_eq_true, beq_iff_eq, and_assoc]

/-- Settles O11: the two columns of R115 row by row, and the lanes of an entry from how `Env.of` selects them. -/
theorem guardConditions : Obligations.GuardConditions := by
  unfold Obligations.GuardConditions
  refine ⟨fun w clk l g => ?table, rfl, fun m g e l h => ⟨?threads, ?active, ?helpers⟩⟩
  case table =>
    simp only [Wave.guard, Cond.holds, ccK, ccS, ccZ, ccC, ccV]
    generalize w.ccAt clk l g.gcc.toNat = cc
    -- K chooses the column, COND the row; in a row both sides are the same formula in S, Z, C and V
    by_cases float : cc.getLsbD 4 = true
    case pos =>
      simp only [float]
      cases g.cond <;> simp [or_assoc]
    case neg =>
      simp only [float]
      cases g.cond <;> simp
  case threads =>
    obtain ⟨-, -, -, lanes, -⟩ := of_eq h
    rw [lanes]
    exact mem_entryLanes ..
  case active =>
    obtain ⟨-, -, -, -, act⟩ := of_eq h
    rw [act]
    exact List.mem_filter
  case helpers =>
    simp only [mem_hlp_of_eq h, helper_iff, and_assoc]

end Sys2Proof.Machine
end
